-- ==== Sys2Proof/Word.lean ====
section
/-! DEFINITION. The word types of the machine: the 32-bit word, the byte, the register number field. -/

namespace Sys2Proof

/-- A 32-bit register, address or instruction word (00_scope.md R6, R9). -/
abbrev Word := BitVec 32

/-- One byte of memory (20_memory.md R100). -/
abbrev Byte := BitVec 8

/-- A general-purpose register number, the 5-bit field A, B or C of an instruction word (30_encoding.md R201, R202). -/
abbrev Reg := BitVec 5

end Sys2Proof
end

