-- ==== Sys2Proof/Syntax.lean ====
section
/-! DEFINITION. The instructions: one constructor per row of spec/opcode_table.json (30_encoding.md R216), its operands the
fields the row leaves free, in the order of the assembler syntax (R217). Every operand type has exactly the width of its
field. -/

namespace Sys2Proof

/-- The 85 machine instructions of 30_encoding.md R216. `brk` is the row `break`. The operand of `brk` and of `trap` is the
IMM5 field, which hardware does not interpret (46_other_control.md R410, R412). -/
inductive Instr where
  -- data transfer, 40_data_transfer.md
  | ldw (rB rA : Reg) (imm : BitVec 16)
  | stw (rB rA : Reg) (imm : BitVec 16)
  | ldwio (rB rA : Reg) (imm : BitVec 16)
  | stwio (rB rA : Reg) (imm : BitVec 16)
  | ldb (rB rA : Reg) (imm : BitVec 16)
  | ldbu (rB rA : Reg) (imm : BitVec 16)
  | ldh (rB rA : Reg) (imm : BitVec 16)
  | ldhu (rB rA : Reg) (imm : BitVec 16)
  | stb (rB rA : Reg) (imm : BitVec 16)
  | sth (rB rA : Reg) (imm : BitVec 16)
  | ldbio (rB rA : Reg) (imm : BitVec 16)
  | ldbuio (rB rA : Reg) (imm : BitVec 16)
  | ldhio (rB rA : Reg) (imm : BitVec 16)
  | ldhuio (rB rA : Reg) (imm : BitVec 16)
  | stbio (rB rA : Reg) (imm : BitVec 16)
  | sthio (rB rA : Reg) (imm : BitVec 16)
  -- arithmetic and logical, 41_arithmetic_logical.md
  | and (rC rA rB : Reg)
  | or (rC rA rB : Reg)
  | xor (rC rA rB : Reg)
  | nor (rC rA rB : Reg)
  | andi (rB rA : Reg) (imm : BitVec 16)
  | ori (rB rA : Reg) (imm : BitVec 16)
  | xori (rB rA : Reg) (imm : BitVec 16)
  | andhi (rB rA : Reg) (imm : BitVec 16)
  | orhi (rB rA : Reg) (imm : BitVec 16)
  | xorhi (rB rA : Reg) (imm : BitVec 16)
  | add (rC rA rB : Reg)
  | sub (rC rA rB : Reg)
  | mul (rC rA rB : Reg)
  | div (rC rA rB : Reg)
  | divu (rC rA rB : Reg)
  | addi (rB rA : Reg) (imm : BitVec 16)
  | muli (rB rA : Reg) (imm : BitVec 16)
  | mulxss (rC rA rB : Reg)
  | mulxuu (rC rA rB : Reg)
  | mulxsu (rC rA rB : Reg)
  -- comparison, 43_comparison.md
  | cmpeq (rC rA rB : Reg)
  | cmpne (rC rA rB : Reg)
  | cmpge (rC rA rB : Reg)
  | cmpgeu (rC rA rB : Reg)
  | cmplt (rC rA rB : Reg)
  | cmpltu (rC rA rB : Reg)
  | cmpeqi (rB rA : Reg) (imm : BitVec 16)
  | cmpnei (rB rA : Reg) (imm : BitVec 16)
  | cmpgei (rB rA : Reg) (imm : BitVec 16)
  | cmpgeui (rB rA : Reg) (imm : BitVec 16)
  | cmplti (rB rA : Reg) (imm : BitVec 16)
  | cmpltui (rB rA : Reg) (imm : BitVec 16)
  -- shift and rotate, 44_shift_rotate.md
  | rol (rC rA rB : Reg)
  | ror (rC rA rB : Reg)
  | roli (rC rA : Reg) (imm : BitVec 5)
  | sll (rC rA rB : Reg)
  | slli (rC rA : Reg) (imm : BitVec 5)
  | sra (rC rA rB : Reg)
  | srl (rC rA rB : Reg)
  | srai (rC rA : Reg) (imm : BitVec 5)
  | srli (rC rA : Reg) (imm : BitVec 5)
  -- program control, 45_program_control.md
  | call (imm : BitVec 26)
  | callr (rA : Reg)
  | ret
  | jmp (rA : Reg)
  | jmpi (imm : BitVec 26)
  | br (imm : BitVec 16)
  | bge (rA rB : Reg) (imm : BitVec 16)
  | bgeu (rA rB : Reg) (imm : BitVec 16)
  | blt (rA rB : Reg) (imm : BitVec 16)
  | bltu (rA rB : Reg) (imm : BitVec 16)
  | beq (rA rB : Reg) (imm : BitVec 16)
  | bne (rA rB : Reg) (imm : BitVec 16)
  | nextpc (rC : Reg)
  -- other control, 46_other_control.md
  | trap (imm : BitVec 5)
  | eret
  | brk (imm : BitVec 5)
  | bret
  | rdctl (rC : Reg) (n : BitVec 5)
  | wrctl (n : BitVec 5) (rA : Reg)
  | flushd (rA : Reg) (imm : BitVec 16)
  | flushda (rA : Reg) (imm : BitVec 16)
  | flushi (rA : Reg)
  | initd (rA : Reg) (imm : BitVec 16)
  | initda (rA : Reg) (imm : BitVec 16)
  | initi (rA : Reg)
  | flushp
  | sync
  -- custom, 47_custom_nop.md
  | custom (n : BitVec 8) (rC rA rB : Reg) (readra readrb writerc : Bool)
  deriving DecidableEq, Repr, Inhabited

end Sys2Proof
end

