-- ==== Sys2Proof/Decode.lean ====
section
/-! DEFINITION. Decoding an instruction word, total and rejecting by name (30_encoding.md R200 to R211), and the encoder
written from the same tables (R220). -/

namespace Sys2Proof

/-- Why a word is no instruction of the machine. `undefinedOp` and `undefinedOpx` are the dashes of 30_encoding.md R207 and
R208; `nonCanonical` is a defined operation whose fixed fields are not those of R211. -/
inductive DecodeError where
  | undefinedOp (op : BitVec 6)
  | undefinedOpx (opx : BitVec 6)
  | nonCanonical
  | notFourBytes
  deriving DecidableEq, Repr

/-- The major opcode, bits 5:0 (30_encoding.md R200). -/
def fieldOp (w : Word) : BitVec 6 := w.extractLsb' 0 6

/-- The opcode extension of an R-type word, bits 16:11 (30_encoding.md R202). -/
def fieldOpx (w : Word) : BitVec 6 := w.extractLsb' 11 6

/-- Field A, bits 31:27 (30_encoding.md R201, R202, R204). -/
def fieldA (w : Word) : Reg := w.extractLsb' 27 5

/-- Field B, bits 26:22 (30_encoding.md R201, R202, R204). -/
def fieldB (w : Word) : Reg := w.extractLsb' 22 5

/-- Field C, bits 21:17 (30_encoding.md R202, R204). -/
def fieldC (w : Word) : Reg := w.extractLsb' 17 5

/-- IMM5, bits 10:6 (30_encoding.md R202). -/
def fieldImm5 (w : Word) : BitVec 5 := w.extractLsb' 6 5

/-- IMM16, bits 21:6 (30_encoding.md R201). -/
def fieldImm16 (w : Word) : BitVec 16 := w.extractLsb' 6 16

/-- IMM26, bits 31:6 (30_encoding.md R203). -/
def fieldImm26 (w : Word) : BitVec 26 := w.extractLsb' 6 26

/-- N of a custom word, bits 13:6 (30_encoding.md R204). -/
def fieldN (w : Word) : BitVec 8 := w.extractLsb' 6 8

/-- `readra` of a custom word, bit 16 (30_encoding.md R204). -/
def fieldReadra (w : Word) : Bool := w.getLsbD 16

/-- `readrb` of a custom word, bit 15 (30_encoding.md R204). -/
def fieldReadrb (w : Word) : Bool := w.getLsbD 15

/-- `writerc` of a custom word, bit 14 (30_encoding.md R204). -/
def fieldWriterc (w : Word) : Bool := w.getLsbD 14

/-- A defined operation is the instruction only if its fixed fields hold the canonical values (30_encoding.md R211,
92_eei_decisions.md D3; log 27). -/
def canonical (fixed : Bool) (i : Instr) : Except DecodeError Instr :=
  if fixed then .ok i else .error .nonCanonical

/-- The R-type extension map (30_encoding.md R208) with the fixed fields of R211. -/
def decodeOpx (opx : BitVec 6) (w : Word) : Except DecodeError Instr :=
  match opx with
  | 0x01#6 => canonical (fieldA w == 29 && fieldB w == 30 && fieldC w == 0 && fieldImm5 w == 0) (.eret)
  | 0x02#6 => canonical (fieldB w == 0) (.roli (fieldC w) (fieldA w) (fieldImm5 w))
  | 0x03#6 => canonical (fieldImm5 w == 0) (.rol (fieldC w) (fieldA w) (fieldB w))
  | 0x04#6 => canonical (fieldA w == 0 && fieldB w == 0 && fieldC w == 0 && fieldImm5 w == 0) (.flushp)
  | 0x05#6 => canonical (fieldA w == 31 && fieldB w == 0 && fieldC w == 0 && fieldImm5 w == 0) (.ret)
  | 0x06#6 => canonical (fieldImm5 w == 0) (.nor (fieldC w) (fieldA w) (fieldB w))
  | 0x07#6 => canonical (fieldImm5 w == 0) (.mulxuu (fieldC w) (fieldA w) (fieldB w))
  | 0x08#6 => canonical (fieldImm5 w == 0) (.cmpge (fieldC w) (fieldA w) (fieldB w))
  | 0x09#6 => canonical (fieldA w == 30 && fieldB w == 0 && fieldImm5 w == 0) (.bret)
  | 0x0B#6 => canonical (fieldImm5 w == 0) (.ror (fieldC w) (fieldA w) (fieldB w))
  | 0x0C#6 => canonical (fieldB w == 0 && fieldC w == 0 && fieldImm5 w == 0) (.flushi (fieldA w))
  | 0x0D#6 => canonical (fieldB w == 0 && fieldC w == 0 && fieldImm5 w == 0) (.jmp (fieldA w))
  | 0x0E#6 => canonical (fieldImm5 w == 0) (.and (fieldC w) (fieldA w) (fieldB w))
  | 0x10#6 => canonical (fieldImm5 w == 0) (.cmplt (fieldC w) (fieldA w) (fieldB w))
  | 0x12#6 => canonical (fieldB w == 0) (.slli (fieldC w) (fieldA w) (fieldImm5 w))
  | 0x13#6 => canonical (fieldImm5 w == 0) (.sll (fieldC w) (fieldA w) (fieldB w))
  | 0x16#6 => canonical (fieldImm5 w == 0) (.or (fieldC w) (fieldA w) (fieldB w))
  | 0x17#6 => canonical (fieldImm5 w == 0) (.mulxsu (fieldC w) (fieldA w) (fieldB w))
  | 0x18#6 => canonical (fieldImm5 w == 0) (.cmpne (fieldC w) (fieldA w) (fieldB w))
  | 0x1A#6 => canonical (fieldB w == 0) (.srli (fieldC w) (fieldA w) (fieldImm5 w))
  | 0x1B#6 => canonical (fieldImm5 w == 0) (.srl (fieldC w) (fieldA w) (fieldB w))
  | 0x1C#6 => canonical (fieldA w == 0 && fieldB w == 0 && fieldImm5 w == 0) (.nextpc (fieldC w))
  | 0x1D#6 => canonical (fieldB w == 0 && fieldC w == 31 && fieldImm5 w == 0) (.callr (fieldA w))
  | 0x1E#6 => canonical (fieldImm5 w == 0) (.xor (fieldC w) (fieldA w) (fieldB w))
  | 0x1F#6 => canonical (fieldImm5 w == 0) (.mulxss (fieldC w) (fieldA w) (fieldB w))
  | 0x20#6 => canonical (fieldImm5 w == 0) (.cmpeq (fieldC w) (fieldA w) (fieldB w))
  | 0x24#6 => canonical (fieldImm5 w == 0) (.divu (fieldC w) (fieldA w) (fieldB w))
  | 0x25#6 => canonical (fieldImm5 w == 0) (.div (fieldC w) (fieldA w) (fieldB w))
  | 0x26#6 => canonical (fieldA w == 0 && fieldB w == 0) (.rdctl (fieldC w) (fieldImm5 w))
  | 0x27#6 => canonical (fieldImm5 w == 0) (.mul (fieldC w) (fieldA w) (fieldB w))
  | 0x28#6 => canonical (fieldImm5 w == 0) (.cmpgeu (fieldC w) (fieldA w) (fieldB w))
  | 0x29#6 => canonical (fieldB w == 0 && fieldC w == 0 && fieldImm5 w == 0) (.initi (fieldA w))
  | 0x2D#6 => canonical (fieldA w == 0 && fieldB w == 0 && fieldC w == 29) (.trap (fieldImm5 w))
  | 0x2E#6 => canonical (fieldB w == 0 && fieldC w == 0) (.wrctl (fieldImm5 w) (fieldA w))
  | 0x30#6 => canonical (fieldImm5 w == 0) (.cmpltu (fieldC w) (fieldA w) (fieldB w))
  | 0x31#6 => canonical (fieldImm5 w == 0) (.add (fieldC w) (fieldA w) (fieldB w))
  | 0x34#6 => canonical (fieldA w == 0 && fieldB w == 0 && fieldC w == 30) (.brk (fieldImm5 w))
  | 0x36#6 => canonical (fieldA w == 0 && fieldB w == 0 && fieldC w == 0 && fieldImm5 w == 0) (.sync)
  | 0x39#6 => canonical (fieldImm5 w == 0) (.sub (fieldC w) (fieldA w) (fieldB w))
  | 0x3A#6 => canonical (fieldB w == 0) (.srai (fieldC w) (fieldA w) (fieldImm5 w))
  | 0x3B#6 => canonical (fieldImm5 w == 0) (.sra (fieldC w) (fieldA w) (fieldB w))
  | _ => .error (.undefinedOpx opx)

/-- The major opcode map (30_encoding.md R207) with the fixed fields of R211. -/
def decodeOp (op : BitVec 6) (w : Word) : Except DecodeError Instr :=
  match op with
  | 0x00#6 => .ok (.call (fieldImm26 w))
  | 0x01#6 => .ok (.jmpi (fieldImm26 w))
  | 0x03#6 => .ok (.ldbu (fieldB w) (fieldA w) (fieldImm16 w))
  | 0x04#6 => .ok (.addi (fieldB w) (fieldA w) (fieldImm16 w))
  | 0x05#6 => .ok (.stb (fieldB w) (fieldA w) (fieldImm16 w))
  | 0x06#6 => canonical (fieldA w == 0 && fieldB w == 0) (.br (fieldImm16 w))
  | 0x07#6 => .ok (.ldb (fieldB w) (fieldA w) (fieldImm16 w))
  | 0x08#6 => .ok (.cmpgei (fieldB w) (fieldA w) (fieldImm16 w))
  | 0x0B#6 => .ok (.ldhu (fieldB w) (fieldA w) (fieldImm16 w))
  | 0x0C#6 => .ok (.andi (fieldB w) (fieldA w) (fieldImm16 w))
  | 0x0D#6 => .ok (.sth (fieldB w) (fieldA w) (fieldImm16 w))
  | 0x0E#6 => .ok (.bge (fieldA w) (fieldB w) (fieldImm16 w))
  | 0x0F#6 => .ok (.ldh (fieldB w) (fieldA w) (fieldImm16 w))
  | 0x10#6 => .ok (.cmplti (fieldB w) (fieldA w) (fieldImm16 w))
  | 0x13#6 => canonical (fieldB w == 0) (.initda (fieldA w) (fieldImm16 w))
  | 0x14#6 => .ok (.ori (fieldB w) (fieldA w) (fieldImm16 w))
  | 0x15#6 => .ok (.stw (fieldB w) (fieldA w) (fieldImm16 w))
  | 0x16#6 => .ok (.blt (fieldA w) (fieldB w) (fieldImm16 w))
  | 0x17#6 => .ok (.ldw (fieldB w) (fieldA w) (fieldImm16 w))
  | 0x18#6 => .ok (.cmpnei (fieldB w) (fieldA w) (fieldImm16 w))
  | 0x1B#6 => canonical (fieldB w == 0) (.flushda (fieldA w) (fieldImm16 w))
  | 0x1C#6 => .ok (.xori (fieldB w) (fieldA w) (fieldImm16 w))
  | 0x1E#6 => .ok (.bne (fieldA w) (fieldB w) (fieldImm16 w))
  | 0x20#6 => .ok (.cmpeqi (fieldB w) (fieldA w) (fieldImm16 w))
  | 0x23#6 => .ok (.ldbuio (fieldB w) (fieldA w) (fieldImm16 w))
  | 0x24#6 => .ok (.muli (fieldB w) (fieldA w) (fieldImm16 w))
  | 0x25#6 => .ok (.stbio (fieldB w) (fieldA w) (fieldImm16 w))
  | 0x26#6 => .ok (.beq (fieldA w) (fieldB w) (fieldImm16 w))
  | 0x27#6 => .ok (.ldbio (fieldB w) (fieldA w) (fieldImm16 w))
  | 0x28#6 => .ok (.cmpgeui (fieldB w) (fieldA w) (fieldImm16 w))
  | 0x2B#6 => .ok (.ldhuio (fieldB w) (fieldA w) (fieldImm16 w))
  | 0x2C#6 => .ok (.andhi (fieldB w) (fieldA w) (fieldImm16 w))
  | 0x2D#6 => .ok (.sthio (fieldB w) (fieldA w) (fieldImm16 w))
  | 0x2E#6 => .ok (.bgeu (fieldA w) (fieldB w) (fieldImm16 w))
  | 0x2F#6 => .ok (.ldhio (fieldB w) (fieldA w) (fieldImm16 w))
  | 0x30#6 => .ok (.cmpltui (fieldB w) (fieldA w) (fieldImm16 w))
  | 0x32#6 => .ok (.custom (fieldN w) (fieldC w) (fieldA w) (fieldB w) (fieldReadra w) (fieldReadrb w) (fieldWriterc w))
  | 0x33#6 => canonical (fieldB w == 0) (.initd (fieldA w) (fieldImm16 w))
  | 0x34#6 => .ok (.orhi (fieldB w) (fieldA w) (fieldImm16 w))
  | 0x35#6 => .ok (.stwio (fieldB w) (fieldA w) (fieldImm16 w))
  | 0x36#6 => .ok (.bltu (fieldA w) (fieldB w) (fieldImm16 w))
  | 0x37#6 => .ok (.ldwio (fieldB w) (fieldA w) (fieldImm16 w))
  | 0x3B#6 => canonical (fieldB w == 0) (.flushd (fieldA w) (fieldImm16 w))
  | 0x3C#6 => .ok (.xorhi (fieldB w) (fieldA w) (fieldImm16 w))
  | 0x3A#6 => decodeOpx (fieldOpx w) w
  | _ => .error (.undefinedOp op)

/-- The instruction a word is (30_encoding.md R209). -/
def decode (w : Word) : Except DecodeError Instr := decodeOp (fieldOp w) w

/-- The word of four bytes as the machine stores them, the first at the lowest address and least significant
(20_memory.md R104; 92_eei_decisions.md D32). -/
def wordOfBytes (b0 b1 b2 b3 : Byte) : Word := b3 ++ b2 ++ b1 ++ b0

/-- Decoding any bytes: an instruction is four of them (30_encoding.md R200, R213). -/
def decodeBytes : List Byte → Except DecodeError Instr
  | [b0, b1, b2, b3] => decode (wordOfBytes b0 b1 b2 b3)
  | _ => .error .notFourBytes

/-- The four bytes of a word, the least significant first (20_memory.md R104). -/
def bytesOfWord (w : Word) : List Byte :=
  [w.extractLsb' 0 8, w.extractLsb' 8 8, w.extractLsb' 16 8, w.extractLsb' 24 8]

/-- The instruction read from a table word of `nbits` bits, stored as the hardware stores it; bits from `nbits` up are 0. -/
def decodeTableWord (nbits w : Nat) : Option Instr :=
  (decodeBytes (bytesOfWord (BitVec.ofNat 32 (w % 2 ^ nbits)))).toOption

/-- An I-type word (30_encoding.md R201). -/
def encodeI (op : BitVec 6) (a b : Reg) (imm : BitVec 16) : Word := a ++ b ++ imm ++ op

/-- An R-type word (30_encoding.md R202). -/
def encodeR (opx : BitVec 6) (a b c : Reg) (imm : BitVec 5) : Word := a ++ b ++ c ++ opx ++ imm ++ 0x3A#6

/-- A J-type word (30_encoding.md R203). -/
def encodeJ (op : BitVec 6) (imm : BitVec 26) : Word := imm ++ op

/-- A custom word (30_encoding.md R204). -/
def encodeCustom (n : BitVec 8) (c a b : Reg) (readra readrb writerc : Bool) : Word :=
  a ++ b ++ c ++ BitVec.ofBool readra ++ BitVec.ofBool readrb ++ BitVec.ofBool writerc ++ n ++ 0x32#6

/-- The word of an instruction as the assembler emits it (30_encoding.md R211, R220). -/
def encode : Instr → Word
  | .ldw rB rA imm => encodeI 0x17#6 rA rB imm
  | .stw rB rA imm => encodeI 0x15#6 rA rB imm
  | .ldwio rB rA imm => encodeI 0x37#6 rA rB imm
  | .stwio rB rA imm => encodeI 0x35#6 rA rB imm
  | .ldb rB rA imm => encodeI 0x07#6 rA rB imm
  | .ldbu rB rA imm => encodeI 0x03#6 rA rB imm
  | .ldh rB rA imm => encodeI 0x0F#6 rA rB imm
  | .ldhu rB rA imm => encodeI 0x0B#6 rA rB imm
  | .stb rB rA imm => encodeI 0x05#6 rA rB imm
  | .sth rB rA imm => encodeI 0x0D#6 rA rB imm
  | .ldbio rB rA imm => encodeI 0x27#6 rA rB imm
  | .ldbuio rB rA imm => encodeI 0x23#6 rA rB imm
  | .ldhio rB rA imm => encodeI 0x2F#6 rA rB imm
  | .ldhuio rB rA imm => encodeI 0x2B#6 rA rB imm
  | .stbio rB rA imm => encodeI 0x25#6 rA rB imm
  | .sthio rB rA imm => encodeI 0x2D#6 rA rB imm
  | .and rC rA rB => encodeR 0x0E#6 rA rB rC 0
  | .or rC rA rB => encodeR 0x16#6 rA rB rC 0
  | .xor rC rA rB => encodeR 0x1E#6 rA rB rC 0
  | .nor rC rA rB => encodeR 0x06#6 rA rB rC 0
  | .andi rB rA imm => encodeI 0x0C#6 rA rB imm
  | .ori rB rA imm => encodeI 0x14#6 rA rB imm
  | .xori rB rA imm => encodeI 0x1C#6 rA rB imm
  | .andhi rB rA imm => encodeI 0x2C#6 rA rB imm
  | .orhi rB rA imm => encodeI 0x34#6 rA rB imm
  | .xorhi rB rA imm => encodeI 0x3C#6 rA rB imm
  | .add rC rA rB => encodeR 0x31#6 rA rB rC 0
  | .sub rC rA rB => encodeR 0x39#6 rA rB rC 0
  | .mul rC rA rB => encodeR 0x27#6 rA rB rC 0
  | .div rC rA rB => encodeR 0x25#6 rA rB rC 0
  | .divu rC rA rB => encodeR 0x24#6 rA rB rC 0
  | .addi rB rA imm => encodeI 0x04#6 rA rB imm
  | .muli rB rA imm => encodeI 0x24#6 rA rB imm
  | .mulxss rC rA rB => encodeR 0x1F#6 rA rB rC 0
  | .mulxuu rC rA rB => encodeR 0x07#6 rA rB rC 0
  | .mulxsu rC rA rB => encodeR 0x17#6 rA rB rC 0
  | .cmpeq rC rA rB => encodeR 0x20#6 rA rB rC 0
  | .cmpne rC rA rB => encodeR 0x18#6 rA rB rC 0
  | .cmpge rC rA rB => encodeR 0x08#6 rA rB rC 0
  | .cmpgeu rC rA rB => encodeR 0x28#6 rA rB rC 0
  | .cmplt rC rA rB => encodeR 0x10#6 rA rB rC 0
  | .cmpltu rC rA rB => encodeR 0x30#6 rA rB rC 0
  | .cmpeqi rB rA imm => encodeI 0x20#6 rA rB imm
  | .cmpnei rB rA imm => encodeI 0x18#6 rA rB imm
  | .cmpgei rB rA imm => encodeI 0x08#6 rA rB imm
  | .cmpgeui rB rA imm => encodeI 0x28#6 rA rB imm
  | .cmplti rB rA imm => encodeI 0x10#6 rA rB imm
  | .cmpltui rB rA imm => encodeI 0x30#6 rA rB imm
  | .rol rC rA rB => encodeR 0x03#6 rA rB rC 0
  | .ror rC rA rB => encodeR 0x0B#6 rA rB rC 0
  | .roli rC rA imm => encodeR 0x02#6 rA 0 rC imm
  | .sll rC rA rB => encodeR 0x13#6 rA rB rC 0
  | .slli rC rA imm => encodeR 0x12#6 rA 0 rC imm
  | .sra rC rA rB => encodeR 0x3B#6 rA rB rC 0
  | .srl rC rA rB => encodeR 0x1B#6 rA rB rC 0
  | .srai rC rA imm => encodeR 0x3A#6 rA 0 rC imm
  | .srli rC rA imm => encodeR 0x1A#6 rA 0 rC imm
  | .call imm => encodeJ 0x00#6 imm
  | .callr rA => encodeR 0x1D#6 rA 0 31 0
  | .ret => encodeR 0x05#6 31 0 0 0
  | .jmp rA => encodeR 0x0D#6 rA 0 0 0
  | .jmpi imm => encodeJ 0x01#6 imm
  | .br imm => encodeI 0x06#6 0 0 imm
  | .bge rA rB imm => encodeI 0x0E#6 rA rB imm
  | .bgeu rA rB imm => encodeI 0x2E#6 rA rB imm
  | .blt rA rB imm => encodeI 0x16#6 rA rB imm
  | .bltu rA rB imm => encodeI 0x36#6 rA rB imm
  | .beq rA rB imm => encodeI 0x26#6 rA rB imm
  | .bne rA rB imm => encodeI 0x1E#6 rA rB imm
  | .nextpc rC => encodeR 0x1C#6 0 0 rC 0
  | .trap imm => encodeR 0x2D#6 0 0 29 imm
  | .eret => encodeR 0x01#6 29 30 0 0
  | .brk imm => encodeR 0x34#6 0 0 30 imm
  | .bret => encodeR 0x09#6 30 0 0 0
  | .rdctl rC n => encodeR 0x26#6 0 0 rC n
  | .wrctl n rA => encodeR 0x2E#6 rA 0 0 n
  | .flushd rA imm => encodeI 0x3B#6 rA 0 imm
  | .flushda rA imm => encodeI 0x1B#6 rA 0 imm
  | .flushi rA => encodeR 0x0C#6 rA 0 0 0
  | .initd rA imm => encodeI 0x33#6 rA 0 imm
  | .initda rA imm => encodeI 0x13#6 rA 0 imm
  | .initi rA => encodeR 0x29#6 rA 0 0 0
  | .flushp => encodeR 0x04#6 0 0 0 0
  | .sync => encodeR 0x36#6 0 0 0 0
  | .custom n rC rA rB readra readrb writerc => encodeCustom n rC rA rB readra readrb writerc

end Sys2Proof
end

