-- ==== Sys2Proof/Config.lean ====
section
/-! DEFINITION. What is fixed when a processor is generated (00_scope.md R6 to R8), the free values the spec leaves open,
and the reference configuration of the spec's own vectors (95_test_vectors.md). -/

namespace Sys2Proof

/-- The size of one cache, outside the spec but for its existence (00_scope.md R7, R5 (d)): lines of `4 * 2 ^ wordsLog2`
bytes, `2 ^ linesLog2` line indices. DESIGN CHOICE, log 30. -/
structure CacheGeometry where
  wordsLog2 : Nat
  linesLog2 : Nat
  deriving DecidableEq, Repr, Inhabited

/-- The parameters that only a processor with an MMU has (00_scope.md R7: `TLB_ENTRIES`, `TLB_WAYS`, `PID_BITS`, `PFN_BITS`,
`FAST_TLB_MISS_VECTOR`). The vector is the configured physical address (60_exceptions.md R476). -/
structure MmuConfig where
  tlbEntries : Nat
  tlbWays : Nat
  pidBits : Nat
  pfnBits : Nat
  fastTlbMissVector : Word
  deriving DecidableEq, Repr, Inhabited

/-- The region permission `flushda` and `initda` need under the MPU, the OPEN parameter `MPU_CACHEOP_PERM`
(00_scope.md R7, 92_eei_decisions.md D27). -/
inductive CacheOpPermission where
  | none
  | read
  | write
  deriving DecidableEq, Repr, Inhabited

/-- The parameters that only a processor with an MPU has (00_scope.md R7: `MPU_NUM_IREGIONS`, `MPU_NUM_DREGIONS`,
`MPU_MIN_REGION_SIZE` as its base-two logarithm, `MPU_USE_LIMIT`, `MPU_CACHEOP_PERM`). -/
structure MpuConfig where
  instrRegions : Nat
  dataRegions : Nat
  minRegionLog2 : Nat
  useLimit : Bool
  cacheOpPermission : CacheOpPermission
  deriving DecidableEq, Repr, Inhabited

/-- Which protection unit the processor has. A processor with both an MMU and an MPU cannot be written: R8 refuses that
configuration (92_eei_decisions.md D1). -/
inductive Protection where
  | none
  | mmu (m : MmuConfig)
  | mpu (m : MpuConfig)
  deriving DecidableEq, Repr, Inhabited

/-- What answers at a physical address of `MEMORY_MAP` (20_memory.md R103, R108). -/
inductive BusTarget where
  | memory
  | peripheral
  deriving DecidableEq, Repr, Inhabited

/-- One range of `MEMORY_MAP`: the addresses from `base` up to but not including `base + size`. -/
structure MapRange where
  base : Nat
  size : Nat
  target : BusTarget
  deriving DecidableEq, Repr, Inhabited

/-- The generation-time parameters of one processor (00_scope.md R7). A field named `…Option` is the option as chosen;
what R7 and R8 force on or off is in the accessor of the same name without `Option`. The vectors are the configured
(physical) addresses. `pipelineDepth` is how many words the pipeline may hold fetched ahead, the unstated number of
70_reset_and_hazards.md R551 (logs 2, 31). -/
structure Config where
  protection : Protection
  hasDebug : Bool
  extraExcInfoOption : Bool
  illegalInsnOption : Bool
  illegalMemOption : Bool
  divErrorOption : Bool
  hwMul : Bool
  hwMulx : Bool
  hwDiv : Bool
  hwInitda : Bool
  resetVector : Word
  exceptionVector : Word
  breakVector : Word
  cpuid : Word
  addrBits : Nat
  bit31BypassOption : Bool
  icache : Option CacheGeometry
  dcache : Option CacheGeometry
  customPresent : BitVec 256
  memoryMap : List MapRange
  internalOps : List (BitVec 6)
  internalOpxs : List (BitVec 6)
  pipelineDepth : Nat
  deriving DecidableEq, Repr, Inhabited

/-- `HAS_MMU` (R7). -/
def Config.hasMmu (c : Config) : Bool :=
  match c.protection with
  | .mmu _ => true
  | _ => false

/-- `HAS_MPU` (R7). -/
def Config.hasMpu (c : Config) : Bool :=
  match c.protection with
  | .mpu _ => true
  | _ => false

/-- User mode exists if and only if `HAS_MMU` or `HAS_MPU` (R8). -/
def Config.hasUserMode (c : Config) : Bool := c.hasMmu || c.hasMpu

/-- `EXTRA_EXC_INFO`, forced on with an MMU or MPU (R7, R8). -/
def Config.extraExcInfo (c : Config) : Bool := c.hasUserMode || c.extraExcInfoOption

/-- `ILLEGAL_INSN_CHECK`, forced on with an MMU or MPU (R7, R8). -/
def Config.illegalInsnCheck (c : Config) : Bool := c.hasUserMode || c.illegalInsnOption

/-- `ILLEGAL_MEM_CHECK`, forced on with an MMU or MPU (R7, R8). -/
def Config.illegalMemCheck (c : Config) : Bool := c.hasUserMode || c.illegalMemOption

/-- `DIV_ERROR_CHECK`, which implies `HW_DIV` (R8). -/
def Config.divErrorCheck (c : Config) : Bool := c.hwDiv && c.divErrorOption

/-- `BIT31_BYPASS`, only without an MMU (R7). -/
def Config.bit31Bypass (c : Config) : Bool := !c.hasMmu && c.bit31BypassOption

/-- Whether `CUSTOM(n)` is present (R7). -/
def Config.hasCustom (c : Config) (n : BitVec 8) : Bool := c.customPresent.getLsbD n.toNat

/-- The configuration of `State.reset`: the one 95_test_vectors.md names as its default (no MMU, no MPU, every check and
every multiplier and divider present, the three vectors). What that file leaves out is a DESIGN CHOICE, log 2. -/
def Config.reference : Config where
  protection := .none
  hasDebug := false
  extraExcInfoOption := true
  illegalInsnOption := true
  illegalMemOption := true
  divErrorOption := true
  hwMul := true
  hwMulx := true
  hwDiv := true
  hwInitda := true
  resetVector := 0x00000000#32
  exceptionVector := 0x00000020#32
  breakVector := 0x00000800#32
  cpuid := 0#32
  addrBits := 31
  bit31BypassOption := true
  icache := none
  dcache := none
  customPresent := BitVec.allOnes 256
  memoryMap := [{ base := 0, size := 2 ^ 31, target := .memory }]
  internalOps := []
  internalOpxs := []
  pipelineDepth := 0

/-- The state of the custom instruction logic (47_custom_nop.md R440): the internal register file that an operand with a
cleared `readra` or `readrb` names (30_encoding.md R204), and everything else the logic holds, as one number. Log 10. -/
structure CustomLogic where
  registers : Vector Word 32
  inner : Nat
  deriving DecidableEq, Repr, Inhabited

/-- The choices a data cache may make on a cacheable store, since the write policy is not in the source
(20_memory.md R113). -/
inductive StorePolicy where
  | lineOnly
  | memoryOnly
  | both
  deriving DecidableEq, Repr, Inhabited

/-- What a cache may do by itself between two instructions, to the line of an index and a line address, or reading in the
line of a virtual and a physical address (20_memory.md R113, R114, R117). -/
inductive CacheEvent where
  | cleanData (index : Nat) (base : Word)
  | evictData (index : Nat) (base : Word)
  | evictInstr (index : Nat) (base : Word)
  | loadInstr (va pa : Word)
  deriving DecidableEq, Repr, Inhabited

/-! The free values. None has a body that a proof can see: a theorem is true whatever each of them is. `tick` is the
number of the boundary at which the value is taken (log 12). -/

/-- The result of a division whose quotient cannot be represented, without `DIV_ERROR_CHECK` (93 U16; log 17). -/
opaque Config.freeQuotient (tick : Nat) (dividend divisor : Word) : Word

/-- `badaddr` after an exception whose Address column does not name it (93 U19; log 16). -/
opaque Config.freeBadaddr (tick : Nat) : Word

/-- What `rdctl` of a reserved control register returns (93 U3; log 15). -/
opaque Config.freeControl (tick : Nat) (n : BitVec 5) : Word

/-- `CUSTOM(n)` of 47_custom_nop.md R440: the result and the next state of the custom logic (log 10). -/
opaque Config.customFunction (n : BitVec 8) (a b : Word) (ra rb rc : Reg) (readra readrb writerc : Bool)
    (logic : CustomLogic) : Word × CustomLogic

/-- The value of a general-purpose register after a reset in mid-run (10_state.md R92, 93 U1; log 13). -/
opaque Config.freeRegister (tick : Nat) (r : Nat) : Word

/-- The value of a control register that a reset leaves undefined (10_state.md R92; log 13). -/
opaque Config.freeResetControl (tick : Nat) (n : Nat) : Word

/-- The state of the custom logic after a reset in mid-run (93 U20; log 13). -/
opaque Config.freeCustom (tick : Nat) : CustomLogic

/-- Whether a cacheable load that misses allocates its line (20_memory.md R113; log 30). -/
opaque Config.loadAllocates (tick : Nat) : Bool

/-- What the data cache does with a cacheable store (20_memory.md R113; log 30). -/
opaque Config.storePolicy (tick : Nat) : StorePolicy

/-- Whether a fetch that misses the instruction cache allocates its line (20_memory.md R114; log 30). -/
opaque Config.fetchAllocates (tick : Nat) : Bool

/-- What the caches do by themselves after the instruction of a boundary (20_memory.md R113, R114; log 30). -/
opaque Config.cacheEvents (tick : Nat) : List CacheEvent

/-- What the pipeline fetches ahead after the instruction of a boundary: virtual and physical addresses (20_memory.md R114,
70_reset_and_hazards.md R556; log 31). -/
opaque Config.prefetches (tick : Nat) : List (Word × Word)

/-- The byte a peripheral answers with at a physical address, to a fetch (`true`) or a data read (`false`)
(00_scope.md R5 (e), 92_eei_decisions.md D38; log 29). -/
opaque Config.deviceByte (tick : Nat) (fetch : Bool) (a : Nat) : Byte

/-- Whether an access made while a region write is not flushed yet sees the old region tables, for a fetch (`true`) or a
data access (`false`) (70_reset_and_hazards.md R551 (b); log 32). -/
opaque Config.seesOldRegions (tick : Nat) (fetch : Bool) : Bool

end Sys2Proof
end

