-- ==== Sys2Proof/Machine/Units.lean ====
section
/-! DEFINITION. The data the units beside the register file hold: memory, TLB entries, MPU regions, cache lines, the inputs
of the processor; and the free contents of those a reset leaves undefined. -/

namespace Sys2Proof.Machine

/-- Memory as a list of (address, byte) cells: addresses strictly rising, no cell equal to what an unlisted address reads
as (`Memory.wf`, log 8). -/
abbrev Memory := List Host.Cell

/-- One TLB entry (10_state.md R85, 20_memory.md R141, R142): the tag portion of the VPN, the PID, G, and the data portion.
There is no valid bit. -/
structure TlbEntry where
  tag : BitVec 20
  pid : BitVec 14
  g : Bool
  pfn : BitVec 20
  c : Bool
  r : Bool
  w : Bool
  x : Bool
  deriving DecidableEq, Repr, Inhabited

/-- One MPU region (10_state.md R86): BASE is bits 30:6 of the base address, `bound` the MASK (bit i compares address bit
i + 6) or the LIMIT (bits 31:6 of the limit address), by `MPU_USE_LIMIT`. -/
structure MpuRegion where
  base : BitVec 25
  bound : BitVec 26
  c : Bool
  perm : BitVec 3
  deriving DecidableEq, Repr, Inhabited

/-- The two region tables of the MPU, each indexed from 0 (20_memory.md R161). -/
structure MpuTables where
  instr : List MpuRegion
  data : List MpuRegion
  deriving DecidableEq, Repr, Inhabited

/-- Where the bytes of a cache line come from: memory; a reset, which leaves it indeterminate (93 U21); or a reset and the
stores that reached it since (logs 9, 26). -/
inductive LineOrigin where
  | memory
  | reset
  | storedOverReset
  deriving DecidableEq, Repr, Inhabited

/-- The origin of a line once a store has reached it. -/
def LineOrigin.stored : LineOrigin → LineOrigin
  | .memory => .memory
  | .reset => .storedOverReset
  | .storedOverReset => .storedOverReset

/-- A cache line that is present (20_memory.md R113, R117): the index its virtual address selected, the physical address of
its first byte, its bytes as cells at their own physical addresses, whether it is dirty, and where its bytes come from. -/
structure CacheLine where
  index : Nat
  base : Word
  bytes : Memory
  dirty : Bool
  origin : LineOrigin
  deriving DecidableEq, Repr, Inhabited

/-- A word the pipeline has fetched ahead, and its virtual and physical address (10_state.md R90; log 31). -/
structure FetchedWord where
  va : Word
  addr : Word
  word : Word
  deriving DecidableEq, Repr, Inhabited

/-- The bus cycle of an I/O access that a peripheral answers: its physical address, its width in bytes, whether it writes, and the value
read or written (20_memory.md R126; log 54). -/
structure DeviceCycle where
  addr : Word
  bytes : Nat
  write : Bool
  value : Word
  deriving DecidableEq, Repr, Inhabited

/-- The levels on the inputs of the processor at one boundary (10_state.md R88, R89). -/
structure Inputs where
  irq : Word
  reset : Bool
  processorReset : Bool
  hardwareBreak : Bool
  deriving DecidableEq, Repr, Inhabited

/-- No input asserted. -/
def Inputs.quiet : Inputs := { irq := 0#32, reset := false, processorReset := false, hardwareBreak := false }

/-! The free contents of the units a reset leaves undefined (93 U1, U21; logs 9, 13). -/

/-- A TLB entry after a reset in mid-run. -/
opaque freeTlbEntry (tick : Nat) (position : Nat) : TlbEntry

/-- An MPU region after a reset in mid-run, or read at an index that does not exist (logs 13, 40). -/
opaque freeRegion (tick : Nat) (data : Bool) (index : Nat) : MpuRegion

/-- The contents of the instruction cache after a reset, but for the reset vector's line. -/
opaque freeInstrLines (tick : Nat) : List CacheLine

/-- The contents of the data cache after a reset. -/
opaque freeDataLines (tick : Nat) : List CacheLine

/-- What is in memory after a reset in mid-run (70_reset_and_hazards.md R531; log 13). -/
opaque freeMemory (tick : Nat) : Memory

end Sys2Proof.Machine
end

