-- ==== Sys2Proof/Machine/Bytes.lean ====
section
/-! DEFINITION. Memory as data: one byte, several bytes little endian, and the canonical form; and what answers at a physical
address (20_memory.md R100 to R104, R108). -/

namespace Sys2Proof.Machine

/-- What a byte of memory that nothing has written reads as. DESIGN CHOICE, unsafe: 0 (log 8). -/
def unlistedByte : Byte := 0#8

/-- The byte at physical address `a`. -/
def Memory.read : Memory → Nat → Byte
  | [], _ => unlistedByte
  | (k, v) :: m, a => if k = a then v else Memory.read m a

/-- The cell for `v` at `a` in front of `m`: none if an unlisted address reads as `v`. -/
def Memory.cons (a : Nat) (v : Byte) (m : Memory) : Memory := if v = unlistedByte then m else (a, v) :: m

/-- Memory with the byte at physical address `a` replaced, in canonical form. -/
def Memory.write : Memory → Nat → Byte → Memory
  | [], a, v => Memory.cons a v []
  | (k, x) :: m, a, v =>
    if a < k then Memory.cons a v ((k, x) :: m)
    else if a = k then Memory.cons a v m
    else (k, x) :: Memory.write m a v

/-- Every address listed is at least `lo`, addresses rise strictly, and no byte is the unlisted one. -/
def Memory.wfFrom : Nat → Memory → Bool
  | _, [] => true
  | lo, (k, v) :: m => decide (lo ≤ k) && decide (v ≠ unlistedByte) && Memory.wfFrom (k + 1) m

/-- The canonical form of memory. -/
def Memory.wf (m : Memory) : Bool := Memory.wfFrom 0 m

/-- The memory that the cells of a list make, in canonical form. -/
def Memory.normalise (m : Memory) : Memory := m.foldl (fun acc c => acc.write c.1 c.2) []

/-- The `n` bytes from address `a`, little endian: the byte at `a` is bits 7:0 (20_memory.md R104). -/
def Memory.readLE (m : Memory) (a : Nat) : Nat → Word
  | 0 => 0#32
  | n + 1 => (Memory.readLE m (a + 1) n <<< 8) ||| (m.read a).setWidth 32

/-- The low `8 * n` bits of `v` written to the `n` bytes from address `a`, little endian (20_memory.md R104, R109). -/
def Memory.writeLE (m : Memory) (a : Nat) : Nat → Word → Memory
  | 0, _ => m
  | n + 1, v => Memory.writeLE (m.write a (v.setWidth 8)) (a + 1) n (v >>> 8)

/-- The `n` bytes of `src` from address `a` copied into `dst`. -/
def Memory.copy (src dst : Memory) (a : Nat) : Nat → Memory
  | 0 => dst
  | n + 1 => Memory.copy src (dst.write a (src.read a)) (a + 1) n

/-- What answers at a physical address: the first range of `MEMORY_MAP` that holds it (20_memory.md R103, R108). -/
def targetAt (c : Config) (a : Nat) : Option BusTarget :=
  (c.memoryMap.find? fun r => decide (r.base ≤ a) && decide (a < r.base + r.size)).map (·.target)

/-- Whether all `n` bytes from `a` are memory. -/
def allMemory (c : Config) (a n : Nat) : Bool := (List.range n).all fun i => targetAt c (a + i) == some .memory

/-- Whether one of the `n` bytes from `a` is answered by nothing. -/
def anyUnmapped (c : Config) (a n : Nat) : Bool := (List.range n).any fun i => targetAt c (a + i) == none

end Sys2Proof.Machine
end

