-- ==== Sys2Proof/Machine/ResetValues.lean ====
section
/-! DEFINITION. The implemented bits of each control register in a configuration, and what a reset puts into the parts of the
machine that depend on the configuration (70_reset_and_hazards.md R530, R531). -/

namespace Sys2Proof.Machine

/-- The value a vector has in `pc`: with an MMU the kernel-partition address `0xC0000000 + vector`
(60_exceptions.md R476, 20_memory.md R132; PRESUMED, log 44). -/
def vectorPc (c : Config) (v : Word) : Word := if c.hasMmu then 0xC0000000#32 + v else v

/-- A word with bits `hi` down to `lo` set. -/
def bitRange (hi lo : Nat) : Word := BitVec.ofNat 32 (2 ^ (hi + 1) - 2 ^ lo)

/-- A word with the low `n` bits set. -/
def lowBits (n : Nat) : Word := BitVec.ofNat 32 (2 ^ n - 1)

/-- The number of bits that count to `n - 1`: the width of a field that selects one of `n` things. -/
def selectorWidth (n : Nat) : Nat := Nat.log2 (2 * n - 1)

/-- The implemented bits of `status`, `estatus` and `bstatus`: PIE always, U with an MMU or MPU, EH with an MMU
(10_state.md R48, R50, R51, R53, R54; 92_eei_decisions.md D23). -/
def statusMask (c : Config) : Word :=
  0x1#32 ||| (if c.hasUserMode then 0x2#32 else 0#32) ||| (if c.hasMmu then 0x4#32 else 0#32)

/-- The implemented bits of `pteaddr`: PTBASE and VPN (10_state.md R59). -/
def pteaddrMask : Word := 0xFFFFFFFC#32

/-- The implemented bits of `tlbacc`: C, R, W, X, G and `PFN_BITS` bits of PFN; IG reads as zero (10_state.md R61, R62). -/
def tlbaccMask (m : MmuConfig) : Word := 0x01F00000#32 ||| (BitVec.ofNat 32 (2 ^ m.pfnBits - 1) &&& 0x000FFFFF#32)

/-- The implemented bits of `tlbmisc.WAY`, as many as select one of `TLB_WAYS` (10_state.md R64, R67). -/
def wayMask (m : MmuConfig) : BitVec 4 := BitVec.ofNat 4 (2 ^ selectorWidth m.tlbWays - 1)

/-- The implemented bits of PID (10_state.md R64, 20_memory.md R143). -/
def pidMask (m : MmuConfig) : BitVec 14 := BitVec.ofNat 14 (2 ^ m.pidBits - 1)

/-- The implemented bits of PFN (10_state.md R61). -/
def pfnMask (m : MmuConfig) : BitVec 20 := BitVec.ofNat 20 (2 ^ m.pfnBits - 1)

/-- The bits of `tlbmisc` that hold something: WAY, WE, PID and the four flags; RD reads as zero (10_state.md R64, R65). -/
def tlbmiscMask (m : MmuConfig) : Word :=
  ((wayMask m).setWidth 32 <<< 20) ||| 0x00040000#32 ||| ((pidMask m).setWidth 32 <<< 4) ||| 0xF#32

/-- The implemented bits of `config`: PE, only with an MPU (10_state.md R75). -/
def configMask (c : Config) : Word := if c.hasMpu then 0x1#32 else 0#32

/-- The implemented register bits of BASE and MASK: `ADDR_BITS - 1` down to `log2 MPU_MIN_REGION_SIZE`, within 30:6
(10_state.md R77, R79). -/
def baseMask (c : Config) (m : MpuConfig) : Word := bitRange (c.addrBits - 1) m.minRegionLog2 &&& 0x7FFFFFC0#32

/-- The implemented register bits of LIMIT, one more than BASE at the top (10_state.md R80). -/
def limitMask (c : Config) (m : MpuConfig) : Word := bitRange c.addrBits m.minRegionLog2 &&& 0xFFFFFFC0#32

/-- The implemented register bits of MASK or LIMIT (10_state.md R78). -/
def boundMask (c : Config) (m : MpuConfig) : Word := if m.useLimit then limitMask c m else baseMask c m

/-- The implemented register bits of INDEX: as many as select one of the larger number of regions (10_state.md R77). -/
def indexMask (m : MpuConfig) : Word :=
  BitVec.ofNat 32 (2 ^ selectorWidth (max m.instrRegions m.dataRegions) - 1) <<< 1 &&& 0x3E#32

/-- The implemented bits of `mpubase`: BASE, INDEX, D (10_state.md R76). -/
def mpubaseMask (c : Config) (m : MpuConfig) : Word := baseMask c m ||| indexMask m ||| 0x1#32

/-- The bits of `mpuacc` that hold something: MASK or LIMIT, C, PERM; RD and WR read as zero (10_state.md R78, R83). -/
def mpuaccMask (c : Config) (m : MpuConfig) : Word := boundMask c m ||| 0x3C#32

/-- The number of lines of the TLB (20_memory.md R142). -/
def tlbLines (m : MmuConfig) : Nat := m.tlbEntries / m.tlbWays

/-- The highest tag an entry of this line can hold: that of the last 20-bit VPN of the line (10_state.md R85, 20_memory.md
R142; log 35). -/
def lastTag (m : MmuConfig) (line : Nat) : Nat := (0xFFFFF - line) / tlbLines m

/-- The contents as an entry of this line can hold them: the tag of a VPN of the line, `PID_BITS` bits of PID and `PFN_BITS`
bits of PFN (10_state.md R85). -/
def TlbEntry.heldAt (m : MmuConfig) (line : Nat) (e : TlbEntry) : TlbEntry :=
  { e with
    tag := BitVec.ofNat 20 (e.tag.toNat % (lastTag m line + 1))
    pid := e.pid &&& pidMask m
    pfn := e.pfn &&& pfnMask m }

/-- An entry that no address matches, for the entry at `position` (its line and way): a VPN of the I/O partition, unique in
its line (20_memory.md R148). -/
def invalidEntry (m : MmuConfig) (position : Nat) : TlbEntry :=
  { tag := BitVec.ofNat 20 ((0xE0000 - position / m.tlbWays + (tlbLines m - 1)) / tlbLines m + position % m.tlbWays)
    pid := 0, g := false, pfn := 0, c := false, r := false, w := false, x := false }

/-- The TLB at reset: DESIGN CHOICE, every entry as software invalidates it (log 6). -/
def resetTlb (c : Config) : List TlbEntry :=
  match c.protection with
  | .mmu m => (List.range m.tlbEntries).map (invalidEntry m)
  | _ => []

/-- A region with every field zero. -/
def zeroRegion : MpuRegion := { base := 0, bound := 0, c := false, perm := 0 }

/-- The MPU regions at reset: DESIGN CHOICE, every field zero (log 7). -/
def resetTables (c : Config) : MpuTables :=
  match c.protection with
  | .mpu m => { instr := List.replicate m.instrRegions zeroRegion, data := List.replicate m.dataRegions zeroRegion }
  | _ => { instr := [], data := [] }

/-- The index of an address in a cache: index bits of the virtual address (20_memory.md R117, 46_other_control.md R416;
which bits, log 30). -/
def cacheIndex (g : CacheGeometry) (a : Word) : Nat :=
  a.toNat / 2 ^ (g.wordsLog2 + 2) % 2 ^ g.linesLog2

/-- The number of bytes of a line. -/
def lineBytes (g : CacheGeometry) : Nat := 2 ^ (g.wordsLog2 + 2)

/-- The address of the first byte of the line that holds an address. -/
def lineBase (g : CacheGeometry) (a : Word) : Word := BitVec.ofNat 32 (a.toNat / lineBytes g * lineBytes g)

/-- A virtual address of a physical one, in the page of `va`: with an MMU the two agree in the page offset, without one they
are the same (20_memory.md R117, R136). -/
def virtualAddress (c : Config) (va pa : Word) : Word :=
  if c.hasMmu then va.extractLsb' 12 20 ++ pa.extractLsb' 0 12 else pa

/-- The index nearest to a wished one under which a virtual address of a line can stand: without an MMU the line's own, with
one of any colour (20_memory.md R117). -/
def lineIndex (c : Config) (g : CacheGeometry) (index : Nat) (base : Word) : Nat :=
  cacheIndex g (virtualAddress c (BitVec.ofNat 32 (index * lineBytes g)) base)

/-- A cache with the line of this index and line address replaced. -/
def putLine (lines : List CacheLine) (l : CacheLine) : List CacheLine :=
  l :: lines.filter fun k => !(k.index == l.index && k.base == l.base)

/-- Any contents of a line, as a line of this cache left by a reset. -/
def resetLine (c : Config) (g : CacheGeometry) (l : CacheLine) : CacheLine where
  index := lineIndex c g l.index (lineBase g l.base)
  base := lineBase g l.base
  bytes := l.bytes.normalise
  dirty := l.dirty
  origin := .reset

/-- Any contents of a cache after a reset: indeterminate lines, at most one for each index and line address
(20_memory.md R116, 93 U21). That every line holds addresses of memory, so that none is ever written back where nothing or a
peripheral answers, is a DESIGN CHOICE, log 9. -/
def resetLines (c : Config) (g : CacheGeometry) (lines : List CacheLine) : List CacheLine :=
  ((lines.map (resetLine c g)).filter fun l => allMemory c l.base.toNat (lineBytes g)).foldl putLine []

/-- The instruction cache after a reset: indeterminate lines, but no line under the index of the reset vector
(70_reset_and_hazards.md R530, 20_memory.md R116; log 9). -/
def resetInstrLines (c : Config) (tick : Nat) : List CacheLine :=
  match c.icache with
  | some g => (resetLines c g (freeInstrLines tick)).filter fun l => l.index != cacheIndex g (vectorPc c c.resetVector)
  | none => []

/-- The data cache after a reset: indeterminate lines (20_memory.md R116; log 9). -/
def resetDataLines (c : Config) (tick : Nat) : List CacheLine :=
  match c.dcache with
  | some g => resetLines c g (freeDataLines tick)
  | none => []

end Sys2Proof.Machine
end

