-- ==== Sys2Proof/Machine/State.lean ====
section
/-! DEFINITION. The state of the machine, the reasons it stops, the exceptions it takes, and the state after reset. -/

namespace Sys2Proof.Machine

/-- Everything the spec gives the machine (INVENTORY.md, `## State`), as plain data. -/
structure State where
  /-- the generation-time parameters, fixed for the machine: no step changes them (00_scope.md R7; log 1) -/
  config : Config
  /-- the program counter (10_state.md R36) -/
  pc : Word
  /-- r0 to r31 (10_state.md R30); only `State.reg` reads and `State.setReg` writes them -/
  regs : Vector Word 32
  /-- control register 0 (10_state.md R48) -/
  status : Word
  /-- control register 1 (10_state.md R53) -/
  estatus : Word
  /-- control register 2 (10_state.md R54) -/
  bstatus : Word
  /-- control register 3 (10_state.md R55) -/
  ienable : Word
  /-- control register 7, `exception` (10_state.md R58) -/
  exceptionReg : Word
  /-- control register 8 (10_state.md R59) -/
  pteaddr : Word
  /-- control register 9 (10_state.md R61) -/
  tlbacc : Word
  /-- control register 10 (10_state.md R64) -/
  tlbmisc : Word
  /-- control register 12 (10_state.md R73) -/
  badaddr : Word
  /-- control register 13, `config` (10_state.md R75) -/
  configReg : Word
  /-- control register 14 (10_state.md R76) -/
  mpubase : Word
  /-- control register 15 (10_state.md R78) -/
  mpuacc : Word
  /-- the TLB: the entry of line `l` and way `w` at position `l * TLB_WAYS + w` (10_state.md R85) -/
  tlb : List TlbEntry
  /-- the MPU regions (10_state.md R86) -/
  mpu : MpuTables
  /-- the region tables before the region writes that no flush has followed yet (70_reset_and_hazards.md R551 (b)) -/
  mpuStale : Option MpuTables
  /-- physical memory (20_memory.md R100) -/
  memory : Memory
  /-- the data cache (10_state.md R87) -/
  dcache : List CacheLine
  /-- the instruction cache (10_state.md R87) -/
  icache : List CacheLine
  /-- the words the pipeline has fetched ahead, newest first (10_state.md R90, 20_memory.md R114; log 31) -/
  prefetched : List FetchedWord
  /-- the hidden bit `in_debug` (10_state.md R89) -/
  inDebug : Bool
  /-- the state of the custom instruction logic (47_custom_nop.md R440) -/
  custom : CustomLogic
  /-- the bus cycles that peripherals answered, newest first, the model's own record of what leaves the machine
  (20_memory.md R126; log 54) -/
  deviceCycles : List DeviceCycle
  /-- the inputs at the boundary at hand (10_state.md R88, R89) -/
  inputs : Inputs
  /-- the inputs at the boundaries after it, the model's own field (log 11) -/
  future : List Inputs
  /-- the number of boundaries passed, the index of the free values, the model's own field (log 12) -/
  tick : Nat
  deriving DecidableEq, Repr

/-- Why the machine stops with no next state. Each is behaviour the spec calls undefined and gives no effect; stopping there
is safe: nothing can be proved past it. -/
inductive Fault where
  /-- raised by a load, a store or a fetch at a physical address `MEMORY_MAP` does not claim (20_memory.md R108, 93 U5);
  safe -/
  | unmappedAddress
  /-- raised by a misaligned load or store without `ILLEGAL_MEM_CHECK` (20_memory.md R106, 93 U6); safe -/
  | misalignedAccess
  /-- raised by a transfer to an address that is no multiple of 4 without `ILLEGAL_MEM_CHECK` (10_state.md R38, 93 U7);
  safe -/
  | misalignedTarget
  /-- raised by a word with an undefined OP or OPX without `ILLEGAL_INSN_CHECK` (30_encoding.md R210, 93 U8); safe -/
  | undefinedEncoding
  /-- raised by an access whose address more than one TLB entry matches (20_memory.md R144, 93 U9); safe -/
  | multipleTlbMatch
  /-- raised by an access checked while a size-defined MPU region has a base that is no multiple of its size
  (20_memory.md R162, 93 U10); safe -/
  | misalignedRegion
  /-- raised by an access that matches an MPU region with a reserved PERM value (10_state.md R82, 93 U12); safe -/
  | reservedPermission
  /-- raised by `wrctl mpuacc` with RD and WR both one (10_state.md R83, 93 U13); safe -/
  | readAndWriteRegion
  /-- raised at a boundary where `status.EH` and `status.U` are both one (10_state.md R52, 93 U4); safe -/
  | illegalStatus
  /-- raised by a cacheable access to a line that the data cache holds under another index, unless a reset left it there
  (20_memory.md R117, 93 U15: `stuck` for the second alias while the first is cached; log 26); safe -/
  | virtualAlias
  deriving DecidableEq, Repr

/-- Why the model gives an instruction no meaning. -/
inductive Refusal where
  /-- raised by `exec`'s arm of an instruction that has no meaning yet; safe -/
  | notModelled (mnemonic : String)
  /-- raised by a word of `INTERNAL_ENCODINGS` (30_encoding.md R210, 93 U8 (b)); safe -/
  | internalEncoding
  /-- raised by a word whose fixed fields are not canonical (30_encoding.md R211, 92_eei_decisions.md D3); safe -/
  | nonCanonicalEncoding
  /-- raised by `custom N` for an N the processor does not include (47_custom_nop.md R440, 92_eei_decisions.md D25); safe -/
  | absentCustom
  deriving DecidableEq, Repr

/-- The outcome of a step or of an instruction. -/
abbrev Result := Host.Outcome State Fault Refusal

/-- The general exceptions of 60_exceptions.md R450 (rows 4 to 13 and 15 to 23), with the data or destination address of
those that have one. A TLB miss is fast or double by `status.EH` at entry (R470). -/
inductive Exc where
  | interrupt
  | supervisorOnlyInstrAddress
  | tlbMissInstr
  | tlbPermissionExecute
  | mpuViolationInstr
  | supervisorOnlyInstr
  | trap
  | illegalInstr
  | unimplementedInstr
  | supervisorOnlyDataAddress (addr : Word)
  | misalignedDataAddress (addr : Word)
  | misalignedDestination (addr : Word)
  | divisionError
  | tlbMissData (addr : Word)
  | tlbPermissionRead (addr : Word)
  | tlbPermissionWrite (addr : Word)
  | mpuViolationData (addr : Word)
  deriving DecidableEq, Repr

/-- Why an instruction does not complete: it raises an exception, stops with a fault, or is refused. -/
inductive Stop where
  | exc (e : Exc)
  | fault (f : Fault)
  | refuse (r : Refusal)
  deriving DecidableEq, Repr

/-- The state right after power-on reset of a processor of configuration `c` (70_reset_and_hazards.md R530, R531;
10_state.md R91, R92): what the spec states, and the values the log names for the rest (logs 3 to 11, 54). -/
def State.resetWith (c : Config) : State where
  config := c
  pc := vectorPc c c.resetVector
  regs := Vector.replicate 32 0#32
  status := 0#32
  estatus := 0#32
  bstatus := 0#32
  ienable := 0#32
  exceptionReg := 0#32
  pteaddr := 0#32
  tlbacc := 0#32
  tlbmisc := 0#32
  badaddr := 0#32
  configReg := 0#32
  mpubase := 0#32
  mpuacc := 0#32
  tlb := resetTlb c
  mpu := resetTables c
  mpuStale := none
  memory := []
  dcache := resetDataLines c 0
  icache := resetInstrLines c 0
  prefetched := []
  inDebug := false
  custom := { registers := Vector.replicate 32 0#32, inner := 0 }
  deviceCycles := []
  inputs := Inputs.quiet
  future := []
  tick := 0

/-- The machine right after reset, in the reference configuration (95_test_vectors.md; log 2). -/
def State.reset : State := State.resetWith Config.reference

end Sys2Proof.Machine
end

