-- ==== Sys2Proof/Machine/Memory.lean ====
section
/-! DEFINITION. The bus: the accesses that no cache answers (20_memory.md R103 to R109, R125, R126). -/

namespace Sys2Proof.Machine

/-- The byte the bus gives at an address: memory's, or where a peripheral answers any value (log 29). -/
def busByte (fetch : Bool) (s : State) (a : Nat) : Byte :=
  if targetAt s.config a = some .memory then s.memory.read a else Config.deviceByte s.tick fetch a

/-- The `n` bytes the bus gives from address `a`, little endian (20_memory.md R104). -/
def busBytes (fetch : Bool) (s : State) (a : Nat) : Nat → Word
  | 0 => 0#32
  | n + 1 => (busBytes fetch s (a + 1) n <<< 8) ||| (busByte fetch s a).setWidth 32

/-- Memory after the low `8 * n` bits of `v` go to the `n` bytes from address `a`: those memory answers are written. -/
def busStore (c : Config) (m : Memory) (a : Nat) : Nat → Word → Memory
  | 0, _ => m
  | n + 1, v =>
    busStore c (if targetAt c a = some .memory then m.write a (v.setWidth 8) else m) (a + 1) n (v >>> 8)

/-- A read of `n` bytes from the bus at physical address `pa`; undefined where nothing answers (20_memory.md R104, R108,
93 U5). -/
def busRead (fetch : Bool) (n : Nat) (pa : Word) (s : State) : Except Stop Word :=
  if anyUnmapped s.config pa.toNat n then .error (.fault .unmappedAddress) else .ok (busBytes fetch s pa.toNat n)

/-- A write of the low `n` bytes of `v` to the bus at physical address `pa`; undefined where nothing answers
(20_memory.md R104, R108, 93 U5). -/
def busWrite (n : Nat) (pa v : Word) (s : State) : Except Stop State :=
  if anyUnmapped s.config pa.toNat n then .error (.fault .unmappedAddress)
  else .ok { s with memory := busStore s.config s.memory pa.toNat n v }

/-- The state with the bus cycle of an access recorded, if it is an I/O access and a peripheral answers one of its bytes
(20_memory.md R126). Of a plain access the spec does not say which cycles appear on the bus (R125): it records none (log 54). -/
def recordCycle (io : Bool) (n : Nat) (pa : Word) (write : Bool) (v : Word) (s : State) : State :=
  { s with
    deviceCycles :=
      if !io || allMemory s.config pa.toNat n then s.deviceCycles
      else { addr := pa, bytes := n, write, value := v &&& lowBits (8 * n) } :: s.deviceCycles }

/-- A data read that no cache answers; of an I/O load exactly one bus cycle (20_memory.md R113, R125, R126). -/
def uncachedRead (io : Bool) (n : Nat) (pa : Word) (s : State) : Except Stop (Word × State) := do
  let v ← busRead false n pa s
  .ok (v, recordCycle io n pa false v s)

/-- A data write that no cache answers; of an I/O store exactly one bus cycle (20_memory.md R113, R125, R126). -/
def uncachedWrite (io : Bool) (n : Nat) (pa v : Word) (s : State) : Except Stop State := do
  let s' ← busWrite n pa v s
  .ok (recordCycle io n pa true v s')

end Sys2Proof.Machine
end

