-- ==== Sys2Proof/Machine/Operands.lean ====
section
/-! DEFINITION. The operand forms (30_encoding.md R205) and the address computations of the instructions. -/

namespace Sys2Proof.Machine

/-- `sext_16` (00_scope.md R10, 30_encoding.md R205). -/
def sext16 (v : BitVec 16) : Word := v.signExtend 32

/-- `zext_16` (00_scope.md R10, 30_encoding.md R205). -/
def zext16 (v : BitVec 16) : Word := v.setWidth 32

/-- `IMM16 << 16`, the high immediate of `andhi`, `orhi`, `xorhi` (30_encoding.md R205). -/
def high16 (v : BitVec 16) : Word := v ++ 0#16

/-- The low byte of a loaded value, sign-extended (40_data_transfer.md R258). -/
def sextByte (v : Word) : Word := (v.extractLsb' 0 8).signExtend 32

/-- The low byte of a loaded value, zero-extended (40_data_transfer.md R259). -/
def zextByte (v : Word) : Word := (v.extractLsb' 0 8).setWidth 32

/-- The low half-word of a loaded value, sign-extended (40_data_transfer.md R260). -/
def sextHalf (v : Word) : Word := (v.extractLsb' 0 16).signExtend 32

/-- The low half-word of a loaded value, zero-extended (40_data_transfer.md R261). -/
def zextHalf (v : Word) : Word := (v.extractLsb' 0 16).setWidth 32

/-- The shift or rotate count a register gives: its bits 4:0 (44_shift_rotate.md R360). -/
def countOf (v : Word) : BitVec 5 := v.extractLsb' 0 5

/-- The target of `call` and `jmpi`: `{pc[31:28], IMM26, 00}` (30_encoding.md R203, 45_program_control.md R380). -/
def segmentTarget (pc : Word) (imm : BitVec 26) : Word := pc.extractLsb' 28 4 ++ imm ++ 0#2

/-- The target of a branch: `pc + 4 + sext_16(IMM16)` modulo 2^32 (45_program_control.md R385, R386). -/
def branchTarget (pc : Word) (imm : BitVec 16) : Word := pc + 4#32 + sext16 imm

/-- The high word of a 64-bit product (41_arithmetic_logical.md R300 to R302). -/
def highWord (p : BitVec 64) : Word := p.extractLsb' 32 32

end Sys2Proof.Machine
end

