-- ==== Sys2Proof/Machine/Ops.lean ====
section
/-! DEFINITION. The named operations over registers and modes; taking an exception, taking a break, and the returns from
them, each as one shared operation (60_exceptions.md R470, R491, R484, R492). -/

namespace Sys2Proof.Machine

/-- The value of a general-purpose register; `r0` is zero (10_state.md R31). -/
def State.reg (s : State) (r : Reg) : Word := if r = 0#5 then 0#32 else s.regs[r.toNat]

/-- The state with a general-purpose register written; a write to `r0` has no effect (10_state.md R31). -/
def State.setReg (s : State) (r : Reg) (v : Word) : State :=
  if r = 0#5 then s else { s with regs := s.regs.set r.toNat v r.isLt }

/-- `ea`, r29 (10_state.md R32). -/
def eaReg : Reg := 29#5

/-- `ba`, r30 (10_state.md R32). -/
def baReg : Reg := 30#5

/-- `ra`, r31 (10_state.md R32). -/
def raReg : Reg := 31#5

/-- `pc <- pc + 4` (10_state.md R37). -/
def State.advance (s : State) : State := { s with pc := s.pc + 4#32 }

/-- `status.PIE` (10_state.md R49). -/
def State.pie (s : State) : Bool := s.status.getLsbD 0

/-- `status.U`: user mode (10_state.md R50). -/
def State.user (s : State) : Bool := s.status.getLsbD 1

/-- `status.EH` (10_state.md R51). -/
def State.eh (s : State) : Bool := s.status.getLsbD 2

/-- `config.PE` (10_state.md R75). -/
def State.pe (s : State) : Bool := s.configReg.getLsbD 0

/-- `ipending = irq AND ienable` (10_state.md R56, 90_conflicts.md C3; log 33). -/
def State.ipending (s : State) : Word := s.inputs.irq &&& s.ienable

/-- The "MMU and EH = 1" column of Table 3-32: an exception is already in process (60_exceptions.md R470). -/
def State.nested (s : State) : Bool := s.config.hasMmu && s.eh

/-- A supervisor-only instruction is executed in user mode (60_exceptions.md R457). -/
def State.userForbidden (s : State) : Bool := s.config.hasUserMode && s.user

/-- The Cause column of 60_exceptions.md R450. -/
def Exc.cause : Exc → BitVec 5
  | .interrupt => 2#5
  | .trap => 3#5
  | .unimplementedInstr => 4#5
  | .illegalInstr => 5#5
  | .misalignedDataAddress _ => 6#5
  | .misalignedDestination _ => 7#5
  | .divisionError => 8#5
  | .supervisorOnlyInstrAddress => 9#5
  | .supervisorOnlyInstr => 10#5
  | .supervisorOnlyDataAddress _ => 11#5
  | .tlbMissInstr => 12#5
  | .tlbMissData _ => 12#5
  | .tlbPermissionExecute => 13#5
  | .tlbPermissionRead _ => 14#5
  | .tlbPermissionWrite _ => 15#5
  | .mpuViolationInstr => 16#5
  | .mpuViolationData _ => 17#5

/-- A TLB miss, fast or double (60_exceptions.md R455, R461). -/
def Exc.isTlbMiss : Exc → Bool
  | .tlbMissInstr => true
  | .tlbMissData _ => true
  | _ => false

/-- A TLB permission violation (60_exceptions.md R456). -/
def Exc.isTlbPermission : Exc → Bool
  | .tlbPermissionExecute => true
  | .tlbPermissionRead _ => true
  | .tlbPermissionWrite _ => true
  | _ => false

/-- The exceptions that set `tlbmisc.D` (10_state.md R72). -/
def Exc.setsD : Exc → Bool
  | .tlbMissData _ => true
  | .tlbPermissionRead _ => true
  | .tlbPermissionWrite _ => true
  | .misalignedDataAddress _ => true
  | .supervisorOnlyDataAddress _ => true
  | _ => false

/-- The exceptions that set `tlbmisc.BAD` (10_state.md R70). -/
def Exc.setsBad : Exc → Bool
  | .supervisorOnlyInstrAddress => true
  | .supervisorOnlyDataAddress _ => true
  | .misalignedDataAddress _ => true
  | .misalignedDestination _ => true
  | _ => false

/-- The virtual address that triggered a TLB exception, `pc` for a fetch (60_exceptions.md R470, `vaddr`). -/
def Exc.tlbAddress (pc : Word) : Exc → Word
  | .tlbMissData a => a
  | .tlbPermissionRead a => a
  | .tlbPermissionWrite a => a
  | _ => pc

/-- `badaddr` for a data address: virtual with an MMU; bit 31 is zero without one, and without an MPU the bits above
`ADDR_BITS` too (10_state.md R74). -/
def badaddrOfData (c : Config) (a : Word) : Word :=
  if c.hasMmu then a
  else if c.hasMpu then a &&& 0x7FFFFFFF#32
  else a &&& 0x7FFFFFFF#32 &&& lowBits c.addrBits

/-- `badaddr` for a destination address (or a value that names no address): all 32 bits with an MMU or MPU, else the bits
below `ADDR_BITS` (10_state.md R74). -/
def badaddrOfInstr (c : Config) (a : Word) : Word :=
  if c.hasUserMode then a else a &&& lowBits c.addrBits

/-- What `badaddr` holds after an exception: the address its row of R450 names; the old value after an interrupt
(60_exceptions.md R453); any value where the row names none (R477, 93 U19; log 16). -/
def Exc.badaddr (c : Config) (tick : Nat) (old : Word) : Exc → Word
  | .interrupt => old
  | .supervisorOnlyDataAddress a => badaddrOfData c a
  | .misalignedDataAddress a => badaddrOfData c a
  | .misalignedDestination a => badaddrOfInstr c a
  | .tlbMissData a => badaddrOfData c a
  | .tlbPermissionRead a => badaddrOfData c a
  | .tlbPermissionWrite a => badaddrOfData c a
  | .mpuViolationData a => badaddrOfData c a
  | _ => badaddrOfInstr c (Config.freeBadaddr tick)

/-- `status` after any exception or break entry: PIE and U cleared, EH set with an MMU; no other bit exists
(60_exceptions.md R473, R491). -/
def entryStatus (c : Config) : Word := if c.hasMmu then 0x4#32 else 0x0#32

/-- `pteaddr` with its VPN field replaced (10_state.md R59). -/
def setVpn (pteaddr : Word) (vpn : BitVec 20) : Word := pteaddr.extractLsb' 22 10 ++ vpn ++ 0#2

/-- `tlbmisc` after a general exception entry: D, DBL, PERM, BAD written, WE set by a permission violation and by a fast
miss (60_exceptions.md R475, R478; logs 34). -/
def entryTlbmisc (e : Exc) (nested : Bool) (tlbmisc : Word) : Word :=
  (tlbmisc &&& 0xFFFFFFF0#32)
    ||| (if e.isTlbPermission || (e.isTlbMiss && !nested) then 0x00040000#32 else 0#32)
    ||| (if e.isTlbMiss && nested then 0x8#32 else 0#32)
    ||| (if e.setsBad then 0x4#32 else 0#32)
    ||| (if e.isTlbPermission then 0x2#32 else 0#32)
    ||| (if e.setsD then 0x1#32 else 0#32)

/-- The fast TLB miss vector (60_exceptions.md R476); the general one where there is no MMU. -/
def fastTlbMissVector (c : Config) : Word :=
  match c.protection with
  | .mmu m => m.fastTlbMissVector
  | _ => c.exceptionVector

/-- Where a general exception entry goes (60_exceptions.md R476). -/
def entryVector (e : Exc) (nested : Bool) (c : Config) : Word :=
  vectorPc c (if e.isTlbMiss && !nested then fastTlbMissVector c else c.exceptionVector)

/-- The pipeline flushed: nothing is fetched ahead, and region writes are seen from here on (70_reset_and_hazards.md R550,
R551, 20_memory.md R114). -/
def flushPipeline (s : State) : State := { s with mpuStale := none, prefetched := [] }

/-- TAKING AN EXCEPTION: `ExceptionEntry` of 60_exceptions.md R470 for the instruction at `s.pc`. An entry also flushes
the pipeline (70_reset_and_hazards.md R551; logs 31, 32). -/
def takeException (e : Exc) (s : State) : State :=
  { s with
    pc := entryVector e s.nested s.config
    regs := if s.nested then s.regs else s.regs.set 29 (s.pc + 4#32)
    estatus := if s.nested then s.estatus else s.status
    status := entryStatus s.config
    pteaddr :=
      if s.config.hasMmu && !s.nested && (e.isTlbMiss || e.isTlbPermission) then
        setVpn s.pteaddr ((e.tlbAddress s.pc).extractLsb' 12 20)
      else s.pteaddr
    tlbmisc := if s.config.hasMmu then entryTlbmisc e s.nested s.tlbmisc else s.tlbmisc
    exceptionReg := if s.config.extraExcInfo then (e.cause.setWidth 32) <<< 2 else s.exceptionReg
    badaddr := if s.config.extraExcInfo then e.badaddr s.config s.tick s.badaddr else s.badaddr
    mpuStale := none
    prefetched := [] }

/-- TAKING A BREAK: `BreakEntry` of 60_exceptions.md R491 for the instruction at `s.pc`. It flushes the
pipeline too (logs 31, 32). -/
def takeBreak (s : State) : State :=
  { s with
    pc := vectorPc s.config s.config.breakVector
    regs := s.regs.set 30 (s.pc + 4#32)
    bstatus := s.status
    status := entryStatus s.config
    inDebug := true
    mpuStale := none
    prefetched := [] }

/-- The outcome of an instruction that completed or stopped. A stop by an exception takes it from the state before the
instruction: none of the instruction's writes happen (60_exceptions.md R469). -/
def finish (s : State) : Except Stop State → Result
  | .ok s' => .next s'
  | .error (.exc e) => .next (takeException e s)
  | .error (.fault f) => .fault f
  | .error (.refuse r) => .refused r

/-- The transfer of control to `t`: a target that is no multiple of 4 raises the misaligned destination address exception
with `ILLEGAL_MEM_CHECK` and is undefined without (45_program_control.md R396, 10_state.md R38, 93 U7). -/
def checkTarget (c : Config) (t : Word) : Except Stop Unit :=
  if t.extractLsb' 0 2 = 0#2 then .ok ()
  else if c.illegalMemCheck then .error (.exc (.misalignedDestination t))
  else .error (.fault .misalignedTarget)

/-- `pc <- t` after the alignment check of the target. -/
def jumpTo (t : Word) (s : State) : Except Stop State := do
  checkTarget s.config t
  .ok { s with pc := t }

/-- The supervisor-only check of `initd`, `initi`, `eret`, `bret`, `rdctl`, `wrctl` (60_exceptions.md R457, R503). -/
def supervisorOnly (s : State) : Except Stop Unit :=
  if s.userForbidden then .error (.exc .supervisorOnlyInstr) else .ok ()

/-- The check of a potentially unimplemented instruction (30_encoding.md R212, 60_exceptions.md R460). -/
def implemented (inHardware : Bool) : Except Stop Unit :=
  if inHardware then .ok () else .error (.exc .unimplementedInstr)

/-- THE RETURN FROM AN EXCEPTION: `status <- estatus` and `pc <- ea` (60_exceptions.md R484, 46_other_control.md R411). -/
def returnFromException (s : State) : Except Stop State := do
  supervisorOnly s
  let s' ← jumpTo (s.reg eaReg) s
  .ok { s' with status := s.estatus, mpuStale := none, prefetched := [] }

/-- THE RETURN FROM A BREAK: `status <- bstatus`, `in_debug <- 0` and `pc <- ba` (60_exceptions.md R492, 46_other_control.md
R413). -/
def returnFromBreak (s : State) : Except Stop State := do
  supervisorOnly s
  let s' ← jumpTo (s.reg baReg) s
  .ok { s' with status := s.bstatus, inDebug := false, mpuStale := none, prefetched := [] }

end Sys2Proof.Machine
end

