-- ==== Sys2Proof/Machine/ArithLogic.lean ====
section
/-! DEFINITION. The arithmetic and logical instructions (41_arithmetic_logical.md R280 to R303). -/

namespace Sys2Proof.Machine

/-- An instruction that writes `v` to a register and goes on: `x[r] <- v; pc <- pc + 4` (41_arithmetic_logical.md R280). -/
def writeResult (r : Reg) (v : Word) (s : State) : Result := .next (s.setReg r v).advance

/-- A multiplication: unimplemented without its hardware (41_arithmetic_logical.md R281), else a register result. -/
def mulInstr (inHardware : Bool) (r : Reg) (v : Word) (s : State) : Result :=
  finish s do
    implemented inHardware
    .ok (s.setReg r v).advance

/-- The quotient of a division, or its exception: without `DIV_ERROR_CHECK` a quotient that cannot be represented is any value
(41_arithmetic_logical.md R295, R296; 93 U16; log 17). -/
def quotient (unrepresentable : Bool) (a b q : Word) (s : State) : Except Stop Word :=
  if unrepresentable then
    if s.config.divErrorCheck then .error (.exc .divisionError) else .ok (Config.freeQuotient s.tick a b)
  else .ok q

/-- A division (41_arithmetic_logical.md R295, R296). -/
def divInstr (unrepresentable : Bool) (r : Reg) (a b q : Word) (s : State) : Result :=
  finish s do
    implemented s.config.hwDiv
    let v ← quotient unrepresentable a b q s
    .ok (s.setReg r v).advance

/-- The signed quotient cannot be represented: the divisor is zero, or -2^31 is divided by -1 (60_exceptions.md R466). -/
def divOverflows (a b : Word) : Bool := b == 0#32 || (a == 0x80000000#32 && b == 0xFFFFFFFF#32)

/-- `signed(a) / signed(b)` rounded toward zero (41_arithmetic_logical.md R295). -/
def signedQuotient (a b : Word) : Word := BitVec.ofInt 32 (a.toInt.tdiv b.toInt)

/-- `floor(unsigned(a) / unsigned(b))` (41_arithmetic_logical.md R296). -/
def unsignedQuotient (a b : Word) : Word := BitVec.ofNat 32 (a.toNat / b.toNat)

/-- `and`: bit-wise AND of two registers (41_arithmetic_logical.md R282). -/
def execAnd (rC rA rB : Reg) (s : State) : Result := writeResult rC (s.reg rA &&& s.reg rB) s

/-- `or`: bit-wise OR of two registers (41_arithmetic_logical.md R283). -/
def execOr (rC rA rB : Reg) (s : State) : Result := writeResult rC (s.reg rA ||| s.reg rB) s

/-- `xor`: bit-wise XOR of two registers (41_arithmetic_logical.md R284). -/
def execXor (rC rA rB : Reg) (s : State) : Result := writeResult rC (s.reg rA ^^^ s.reg rB) s

/-- `nor`: bit-wise NOT (A OR B) of two registers (41_arithmetic_logical.md R285). -/
def execNor (rC rA rB : Reg) (s : State) : Result := writeResult rC (~~~(s.reg rA ||| s.reg rB)) s

/-- `andi`: AND with the zero-extended immediate (41_arithmetic_logical.md R286). -/
def execAndi (rB rA : Reg) (imm : BitVec 16) (s : State) : Result := writeResult rB (s.reg rA &&& zext16 imm) s

/-- `ori`: OR with the zero-extended immediate (41_arithmetic_logical.md R287). -/
def execOri (rB rA : Reg) (imm : BitVec 16) (s : State) : Result := writeResult rB (s.reg rA ||| zext16 imm) s

/-- `xori`: XOR with the zero-extended immediate (41_arithmetic_logical.md R288). -/
def execXori (rB rA : Reg) (imm : BitVec 16) (s : State) : Result := writeResult rB (s.reg rA ^^^ zext16 imm) s

/-- `andhi`: AND with the immediate in the high half (41_arithmetic_logical.md R289). -/
def execAndhi (rB rA : Reg) (imm : BitVec 16) (s : State) : Result := writeResult rB (s.reg rA &&& high16 imm) s

/-- `orhi`: OR with the immediate in the high half (41_arithmetic_logical.md R290). -/
def execOrhi (rB rA : Reg) (imm : BitVec 16) (s : State) : Result := writeResult rB (s.reg rA ||| high16 imm) s

/-- `xorhi`: XOR with the immediate in the high half (41_arithmetic_logical.md R291). -/
def execXorhi (rB rA : Reg) (imm : BitVec 16) (s : State) : Result := writeResult rB (s.reg rA ^^^ high16 imm) s

/-- `add`: addition modulo 2^32 (41_arithmetic_logical.md R292). -/
def execAdd (rC rA rB : Reg) (s : State) : Result := writeResult rC (s.reg rA + s.reg rB) s

/-- `sub`: subtraction modulo 2^32 (41_arithmetic_logical.md R293). -/
def execSub (rC rA rB : Reg) (s : State) : Result := writeResult rC (s.reg rA - s.reg rB) s

/-- `mul`: the low 32 bits of the product (41_arithmetic_logical.md R294). -/
def execMul (rC rA rB : Reg) (s : State) : Result := mulInstr s.config.hwMul rC (s.reg rA * s.reg rB) s

/-- `div`: signed division (41_arithmetic_logical.md R295). -/
def execDiv (rC rA rB : Reg) (s : State) : Result :=
  divInstr (divOverflows (s.reg rA) (s.reg rB)) rC (s.reg rA) (s.reg rB) (signedQuotient (s.reg rA) (s.reg rB)) s

/-- `divu`: unsigned division (41_arithmetic_logical.md R296). -/
def execDivu (rC rA rB : Reg) (s : State) : Result :=
  divInstr (s.reg rB == 0#32) rC (s.reg rA) (s.reg rB) (unsignedQuotient (s.reg rA) (s.reg rB)) s

/-- `addi`: addition of the sign-extended immediate (41_arithmetic_logical.md R297). -/
def execAddi (rB rA : Reg) (imm : BitVec 16) (s : State) : Result := writeResult rB (s.reg rA + sext16 imm) s

/-- `muli`: multiplication by the sign-extended immediate (41_arithmetic_logical.md R299). -/
def execMuli (rB rA : Reg) (imm : BitVec 16) (s : State) : Result :=
  mulInstr s.config.hwMul rB (s.reg rA * sext16 imm) s

/-- `mulxss`: the high word of the signed product (41_arithmetic_logical.md R300). -/
def execMulxss (rC rA rB : Reg) (s : State) : Result :=
  mulInstr s.config.hwMulx rC (highWord (BitVec.ofInt 64 ((s.reg rA).toInt * (s.reg rB).toInt))) s

/-- `mulxuu`: the high word of the unsigned product (41_arithmetic_logical.md R301). -/
def execMulxuu (rC rA rB : Reg) (s : State) : Result :=
  mulInstr s.config.hwMulx rC (highWord (BitVec.ofNat 64 ((s.reg rA).toNat * (s.reg rB).toNat))) s

/-- `mulxsu`: the high word of the product of signed `rA` and unsigned `rB` (41_arithmetic_logical.md R302). -/
def execMulxsu (rC rA rB : Reg) (s : State) : Result :=
  mulInstr s.config.hwMulx rC (highWord (BitVec.ofInt 64 ((s.reg rA).toInt * ((s.reg rB).toNat : Int)))) s

end Sys2Proof.Machine
end

