-- ==== Sys2Proof/Machine/Flags.lean ====
section
/-! DEFINITION. The machine has no condition flags (10_state.md R41, 41_arithmetic_logical.md R280). A comparison writes its
truth value to a general register; these are the comparisons, shared by the comparison instructions and the branches. -/

namespace Sys2Proof.Machine

/-- One if true, zero if false, in all 32 bits (43_comparison.md R330). -/
def truthWord (b : Bool) : Word := if b then 1#32 else 0#32

/-- `a = b` (43_comparison.md R332). -/
def isEq (a b : Word) : Bool := a == b

/-- `a != b` (43_comparison.md R333). -/
def isNe (a b : Word) : Bool := a != b

/-- `signed(a) >= signed(b)` (43_comparison.md R334). -/
def isGe (a b : Word) : Bool := decide (b.toInt ≤ a.toInt)

/-- `unsigned(a) >= unsigned(b)` (43_comparison.md R335). -/
def isGeu (a b : Word) : Bool := decide (b.toNat ≤ a.toNat)

/-- `signed(a) < signed(b)` (43_comparison.md R336). -/
def isLt (a b : Word) : Bool := decide (a.toInt < b.toInt)

/-- `unsigned(a) < unsigned(b)` (43_comparison.md R337). -/
def isLtu (a b : Word) : Bool := decide (a.toNat < b.toNat)

end Sys2Proof.Machine
end

