-- ==== Sys2Proof/Machine/Comparison.lean ====
section
/-! DEFINITION. The comparison instructions (43_comparison.md R330 to R352): one or zero to a register, by the comparisons of
Flags.lean. -/

namespace Sys2Proof.Machine

/-- `cmpeq`: equal (43_comparison.md R332). -/
def execCmpeq (rC rA rB : Reg) (s : State) : Result :=
  writeResult rC (truthWord (isEq (s.reg rA) (s.reg rB))) s

/-- `cmpne`: not equal (43_comparison.md R333). -/
def execCmpne (rC rA rB : Reg) (s : State) : Result :=
  writeResult rC (truthWord (isNe (s.reg rA) (s.reg rB))) s

/-- `cmpge`: signed greater or equal (43_comparison.md R334). -/
def execCmpge (rC rA rB : Reg) (s : State) : Result :=
  writeResult rC (truthWord (isGe (s.reg rA) (s.reg rB))) s

/-- `cmpgeu`: unsigned greater or equal (43_comparison.md R335). -/
def execCmpgeu (rC rA rB : Reg) (s : State) : Result :=
  writeResult rC (truthWord (isGeu (s.reg rA) (s.reg rB))) s

/-- `cmplt`: signed less (43_comparison.md R336). -/
def execCmplt (rC rA rB : Reg) (s : State) : Result :=
  writeResult rC (truthWord (isLt (s.reg rA) (s.reg rB))) s

/-- `cmpltu`: unsigned less (43_comparison.md R337). -/
def execCmpltu (rC rA rB : Reg) (s : State) : Result :=
  writeResult rC (truthWord (isLtu (s.reg rA) (s.reg rB))) s

/-- `cmpeqi`: equal to the sign-extended immediate (43_comparison.md R338). -/
def execCmpeqi (rB rA : Reg) (imm : BitVec 16) (s : State) : Result :=
  writeResult rB (truthWord (isEq (s.reg rA) (sext16 imm))) s

/-- `cmpnei`: not equal to the sign-extended immediate (43_comparison.md R339). -/
def execCmpnei (rB rA : Reg) (imm : BitVec 16) (s : State) : Result :=
  writeResult rB (truthWord (isNe (s.reg rA) (sext16 imm))) s

/-- `cmpgei`: signed greater than or equal to the sign-extended immediate (43_comparison.md R340). -/
def execCmpgei (rB rA : Reg) (imm : BitVec 16) (s : State) : Result :=
  writeResult rB (truthWord (isGe (s.reg rA) (sext16 imm))) s

/-- `cmpgeui`: unsigned greater than or equal to the zero-extended immediate (43_comparison.md R341). -/
def execCmpgeui (rB rA : Reg) (imm : BitVec 16) (s : State) : Result :=
  writeResult rB (truthWord (isGeu (s.reg rA) (zext16 imm))) s

/-- `cmplti`: signed less than the sign-extended immediate (43_comparison.md R342). -/
def execCmplti (rB rA : Reg) (imm : BitVec 16) (s : State) : Result :=
  writeResult rB (truthWord (isLt (s.reg rA) (sext16 imm))) s

/-- `cmpltui`: unsigned less than the zero-extended immediate (43_comparison.md R343). -/
def execCmpltui (rB rA : Reg) (imm : BitVec 16) (s : State) : Result :=
  writeResult rB (truthWord (isLtu (s.reg rA) (zext16 imm))) s

end Sys2Proof.Machine
end

