-- ==== Sys2Proof/Machine/Custom.lean ====
section
/-! DEFINITION. The custom instruction (47_custom_nop.md R440). -/

namespace Sys2Proof.Machine

/-- An operand of `custom`: a general register, or an internal register of the custom logic (30_encoding.md R204). -/
def customOperand (fromRegisters : Bool) (r : Reg) (s : State) : Word :=
  if fromRegisters then s.reg r else s.custom.registers[r.toNat]

/-- The result and the next state of the custom logic (47_custom_nop.md R440; log 10). -/
def customCall (n : BitVec 8) (rC rA rB : Reg) (readra readrb writerc : Bool) (s : State) : Word × CustomLogic :=
  Config.customFunction n (customOperand readra rA s) (customOperand readrb rB s) rA rB rC readra readrb writerc s.custom

/-- `custom`: an N the processor does not include is refused (47_custom_nop.md R440; log 28). -/
def execCustom (n : BitVec 8) (rC rA rB : Reg) (readra readrb writerc : Bool) (s : State) : Result :=
  if s.config.hasCustom n then
    let (v, logic) := customCall n rC rA rB readra readrb writerc s
    let s' := { s with custom := logic }
    .next (if writerc then s'.setReg rC v else s').advance
  else .refused .absentCustom

end Sys2Proof.Machine
end

