-- ==== Sys2Proof/Machine/Cache.lean ====
section
/-! DEFINITION. The abstract caches: partial maps from line addresses to bytes (20_memory.md R113, R114, 92_eei_decisions.md
D15; log 30), virtually indexed and physically tagged (R117), the cache management operations on them (46_other_control.md
R416), and the words the pipeline fetches ahead (R114, 10_state.md R90). -/

namespace Sys2Proof.Machine

/-- The line of memory at `base`, as a clean cache line. -/
def fillLine (g : CacheGeometry) (index : Nat) (base : Word) (s : State) : CacheLine where
  index := index
  base := base
  bytes := Memory.copy s.memory [] base.toNat (lineBytes g)
  dirty := false
  origin := .memory

/-- The line of a cache under an index that holds a physical line address, if present: virtually indexed and physically
tagged (20_memory.md R117). -/
def findLine (lines : List CacheLine) (index : Nat) (base : Word) : Option CacheLine :=
  lines.find? fun l => l.index == index && l.base == base

/-- The line address is cached under another index: an illegal virtual alias (20_memory.md R117, 93 U15). A line that a reset
left and no store has reached is no copy of memory and makes no alias (log 26). -/
def aliased (lines : List CacheLine) (index : Nat) (base : Word) : Bool :=
  lines.any fun l => l.base == base && l.index != index && l.origin != .reset

/-- Memory after a line is written back if dirty. A line's addresses are all memory's (log 9). -/
def writeBack (g : CacheGeometry) (l : CacheLine) (m : Memory) : Memory :=
  if l.dirty then Memory.copy l.bytes m l.base.toNat (lineBytes g) else m

/-- The lines of the data cache that `p` selects written back if dirty, and dropped: a flush (46_other_control.md R416). Of two
selected dirty lines of one address, which the spec says nothing of, the one put in or stored to earlier is written
last (DESIGN CHOICE, log 53). -/
def flushLines (g : CacheGeometry) (p : CacheLine → Bool) (s : State) : State :=
  { s with
    memory := (s.dcache.filter p).foldl (fun m l => writeBack g l m) s.memory
    dcache := s.dcache.filter fun l => !p l }

/-- The lines of the data cache that `p` selects dropped without write-back: initialising (46_other_control.md R416). -/
def dropDataLines (p : CacheLine → Bool) (s : State) : State := { s with dcache := s.dcache.filter fun l => !p l }

/-- The lines of the instruction cache that `p` selects dropped (46_other_control.md R416). -/
def dropInstrLines (p : CacheLine → Bool) (s : State) : State := { s with icache := s.icache.filter fun l => !p l }

/-- `flushd`: the data-cache line by the index bits of the address (46_other_control.md R417). -/
def flushDataByIndex (ea : Word) (s : State) : State :=
  match s.config.dcache with
  | some g => flushLines g (fun l => l.index == cacheIndex g ea) s
  | none => s

/-- `flushda`: the data-cache line that holds the physical address, if present (46_other_control.md R418). -/
def flushDataByAddress (pa : Word) (s : State) : State :=
  match s.config.dcache with
  | some g => flushLines g (fun l => l.base == lineBase g pa) s
  | none => s

/-- `initd`: the data-cache line by the index bits of the address, without write-back (46_other_control.md R420). -/
def initDataByIndex (ea : Word) (s : State) : State :=
  match s.config.dcache with
  | some g => dropDataLines (fun l => l.index == cacheIndex g ea) s
  | none => s

/-- `initda`: the data-cache line that holds the physical address, without write-back (46_other_control.md R421). -/
def initDataByAddress (pa : Word) (s : State) : State :=
  match s.config.dcache with
  | some g => dropDataLines (fun l => l.base == lineBase g pa) s
  | none => s

/-- `flushi` and `initi`: the instruction-cache lines under the index bits of the (untranslated) address
(46_other_control.md R419, R422). The spec says "the line associated with address x[A]": that the index bits alone select
it is a DESIGN CHOICE, log 53. -/
def dropInstrByIndex (a : Word) (s : State) : State :=
  match s.config.icache with
  | some g => dropInstrLines (fun l => l.index == cacheIndex g a) s
  | none => s

/-- A read of `n` bytes through the data cache (20_memory.md R113): the line's bytes if present, else the bus's, and the line
may be allocated. -/
def cachedRead (g : CacheGeometry) (n : Nat) (va pa : Word) (s : State) : Except Stop (Word × State) :=
  if aliased s.dcache (cacheIndex g va) (lineBase g pa) then .error (.fault .virtualAlias)
  else
    match findLine s.dcache (cacheIndex g va) (lineBase g pa) with
    | some l => .ok (l.bytes.readLE pa.toNat n, s)
    | none => do
      let v ← busRead false n pa s
      if Config.loadAllocates s.tick && allMemory s.config (lineBase g pa).toNat (lineBytes g) then
        .ok (v, { s with dcache := putLine s.dcache (fillLine g (cacheIndex g va) (lineBase g pa) s) })
      else .ok (v, s)

/-- A line with the low `n` bytes of `v` written at `pa`: dirty from then on (20_memory.md R113). -/
def CacheLine.store (l : CacheLine) (n : Nat) (pa v : Word) : CacheLine :=
  { l with bytes := l.bytes.writeLE pa.toNat n v, dirty := true, origin := l.origin.stored }

/-- A write of `n` bytes through the data cache (20_memory.md R113): the line if present or allocated, marked dirty, or
memory, or both. A present line is never left without the bytes written. -/
def cachedWrite (g : CacheGeometry) (n : Nat) (va pa v : Word) (s : State) : Except Stop State :=
  if aliased s.dcache (cacheIndex g va) (lineBase g pa) then .error (.fault .virtualAlias)
  else
    match findLine s.dcache (cacheIndex g va) (lineBase g pa) with
    | some l =>
      if Config.storePolicy s.tick = .lineOnly then .ok { s with dcache := putLine s.dcache (l.store n pa v) }
      else do
        let s' ← busWrite n pa v s
        .ok { s' with dcache := putLine s.dcache (l.store n pa v) }
    | none => do
      let s' ← busWrite n pa v s
      let l := (fillLine g (cacheIndex g va) (lineBase g pa) s).store n pa v
      if !allMemory s.config (lineBase g pa).toNat (lineBytes g) then .ok s'
      else
        match Config.storePolicy s.tick with
        | .lineOnly => .ok { s with dcache := putLine s.dcache l }
        | .memoryOnly => .ok s'
        | .both => .ok { s' with dcache := putLine s.dcache l }

/-- A read of `n` bytes at physical address `pa`: through the data cache if cacheable and there is one, and never of
an I/O load; else from the bus (40_data_transfer.md R251, 20_memory.md R118). -/
def dataRead (io : Bool) (n : Nat) (cacheable : Bool) (va pa : Word) (s : State) : Except Stop (Word × State) :=
  match s.config.dcache with
  | some g => if cacheable && !io then cachedRead g n va pa s else uncachedRead io n pa s
  | none => uncachedRead io n pa s

/-- A write of `n` bytes at physical address `pa`: through the data cache if cacheable and there is one, and never of
an I/O store; else to the bus (40_data_transfer.md R251, 20_memory.md R118). -/
def dataWrite (io : Bool) (n : Nat) (cacheable : Bool) (va pa v : Word) (s : State) : Except Stop State :=
  match s.config.dcache with
  | some g => if cacheable && !io then cachedWrite g n va pa v s else uncachedWrite io n pa v s
  | none => uncachedWrite io n pa v s

/-- A fetch of the word at physical address `pa` (20_memory.md R114, R118): from the instruction cache if its line is
present, else from the bus, and the line may be allocated. -/
def instrRead (va pa : Word) (s : State) : Except Stop (Word × State) :=
  match s.config.icache with
  | some g =>
    match findLine s.icache (cacheIndex g va) (lineBase g pa) with
    | some l => .ok (l.bytes.readLE pa.toNat 4, s)
    | none => do
      let v ← busRead true 4 pa s
      if Config.fetchAllocates s.tick && allMemory s.config (lineBase g pa).toNat (lineBytes g) then
        .ok (v, { s with icache := putLine s.icache (fillLine g (cacheIndex g va) (lineBase g pa) s) })
      else .ok (v, s)
  | none => do .ok (← busRead true 4 pa s, s)

/-- One event of a cache on its own (20_memory.md R113, R114): a dirty data line written back, a data line written back and
dropped, an instruction line dropped, or an instruction line read in, under the index of a virtual address of it (DESIGN
CHOICE which, log 53). A dirty line with bytes that a reset left is not written back so: I/O accesses are safe before the data
cache is initialised (70_reset_and_hazards.md R540; log 9). -/
def cacheEvent (s : State) : CacheEvent → State
  | .cleanData index base =>
    match s.config.dcache, findLine s.dcache index base with
    | some g, some l =>
      if l.origin = .memory then
        { s with memory := writeBack g l s.memory, dcache := putLine s.dcache { l with dirty := false } }
      else s
    | _, _ => s
  | .evictData index base =>
    match s.config.dcache with
    | some g => flushLines g (fun l => l.index == index && l.base == base && (l.origin == .memory || !l.dirty)) s
    | none => s
  | .evictInstr index base => dropInstrLines (fun l => l.index == index && l.base == base) s
  | .loadInstr va pa =>
    match s.config.icache with
    | some g =>
      if allMemory s.config (lineBase g pa).toNat (lineBytes g) then
        { s with
          icache := putLine s.icache (fillLine g (cacheIndex g (virtualAddress s.config va pa)) (lineBase g pa) s) }
      else s
    | none => s

/-- What the caches do by themselves after the instruction of a boundary; nothing in a system without caches. -/
def cacheDrift (s : State) : State :=
  if s.config.icache.isSome || s.config.dcache.isSome then (Config.cacheEvents s.tick).foldl cacheEvent s else s

/-- The word that fetching ahead at a virtual and a physical address gives, where memory answers: the instruction cache's if its
line is present, else memory's (20_memory.md R114; log 31). From a line that a reset left nothing is fetched ahead, so that
`initi` over every line ends what the reset left (R116; log 9). -/
def prefetchWord (s : State) (va pa : Word) : Option FetchedWord :=
  if allMemory s.config pa.toNat 4 then
    match s.config.icache with
    | some g =>
      match findLine s.icache (cacheIndex g va) (lineBase g pa) with
      | some l => if l.origin = .memory then some { va, addr := pa, word := l.bytes.readLE pa.toNat 4 } else none
      | none => some { va, addr := pa, word := s.memory.readLE pa.toNat 4 }
    | none => some { va, addr := pa, word := s.memory.readLE pa.toNat 4 }
  else none

/-- The words in the pipeline after it has fetched ahead, at most as many as it holds: any of them, from any time since the
last flush (20_memory.md R114, 70_reset_and_hazards.md R551, R556; log 31). -/
def prefetchedNext (s : State) : List FetchedWord :=
  ((Config.prefetches s.tick).filterMap (fun p => prefetchWord s (virtualAddress s.config p.1 p.2) p.2) ++ s.prefetched).take
    s.config.pipelineDepth

/-- A word fetched ahead is the one at these addresses. -/
def FetchedWord.isAt (f : FetchedWord) (va pa : Word) : Bool := f.va == va && f.addr == pa

/-- The fetch of an instruction word: one the pipeline holds for the virtual and physical address, which leaves it, else one
read now (20_memory.md R114, R121; log 31). -/
def pipelineRead (va pa : Word) (s : State) : Except Stop (Word × State) :=
  match s.prefetched.find? fun f => f.isAt va pa with
  | some f => .ok (f.word, { s with prefetched := s.prefetched.filter fun f => !f.isAt va pa })
  | none => instrRead va pa s

end Sys2Proof.Machine
end

