-- ==== Sys2Proof/Machine/Mmu.lean ====
section
/-! DEFINITION. The MMU: partitions, TLB lookup, translation, and the TLB read and write operations (20_memory.md R135 to
R152). -/

namespace Sys2Proof.Machine

/-- What an access does, for the permission checks (00_scope.md R10 `kind`; fetches added). -/
inductive AccessKind where
  | fetch
  | load
  | store
  | flushda
  | initda
  deriving DecidableEq, Repr

/-- The line portion of a VPN (20_memory.md R142; log 35). -/
def tlbLine (m : MmuConfig) (vpn : BitVec 20) : Nat := vpn.toNat % tlbLines m

/-- The tag portion of a VPN (20_memory.md R142; log 35). -/
def tlbTag (m : MmuConfig) (vpn : BitVec 20) : BitVec 20 := BitVec.ofNat 20 (vpn.toNat / tlbLines m)

/-- The VPN of the entry with this tag at this line (20_memory.md R142). -/
def tlbVpn (m : MmuConfig) (tag : BitVec 20) (line : Nat) : BitVec 20 := BitVec.ofNat 20 (tag.toNat * tlbLines m + line)

/-- The position of an entry in `State.tlb`. -/
def tlbPosition (m : MmuConfig) (line way : Nat) : Nat := line * m.tlbWays + way

/-- `pteaddr.VPN` (10_state.md R59). -/
def State.pteVpn (s : State) : BitVec 20 := s.pteaddr.extractLsb' 2 20

/-- `tlbmisc.WAY` (10_state.md R64). -/
def State.way (s : State) : BitVec 4 := s.tlbmisc.extractLsb' 20 4

/-- `tlbmisc.WE` (10_state.md R64). -/
def State.we (s : State) : Bool := s.tlbmisc.getLsbD 18

/-- `tlbmisc.PID` (10_state.md R64). -/
def State.pid (s : State) : BitVec 14 := s.tlbmisc.extractLsb' 4 14

/-- An entry matches an address: tag match and (G = 1 or PID match) (20_memory.md R143). -/
def TlbEntry.covers (e : TlbEntry) (tag : BitVec 20) (pid : BitVec 14) : Bool := e.tag == tag && (e.g || e.pid == pid)

/-- The entries that match a VPN: those of its line, any way (20_memory.md R143). -/
def tlbMatches (m : MmuConfig) (vpn : BitVec 20) (s : State) : List TlbEntry :=
  (List.range m.tlbWays).filterMap fun w =>
    (s.tlb[tlbPosition m (tlbLine m vpn) w]?).filter fun e => e.covers (tlbTag m vpn) s.pid

/-- The permission an access needs in its TLB entry; the data cache management instructions ignore the permissions
(20_memory.md R145, R146). -/
def TlbEntry.permits (e : TlbEntry) : AccessKind → Bool
  | .fetch => e.x
  | .load => e.r
  | .store => e.w
  | .flushda => true
  | .initda => true

/-- The exception of a TLB miss, by whether the access is a fetch (60_exceptions.md R455, R461). -/
def tlbMissExc (va : Word) : AccessKind → Exc
  | .fetch => .tlbMissInstr
  | .load => .tlbMissData va
  | .store => .tlbMissData va
  | .flushda => .tlbMissData va
  | .initda => .tlbMissData va

/-- The exception of a failed permission check (60_exceptions.md R456); `flushda` and `initda` never fail it. -/
def tlbPermissionExc (va : Word) : AccessKind → Exc
  | .fetch => .tlbPermissionExecute
  | .load => .tlbPermissionRead va
  | .store => .tlbPermissionWrite va
  | .flushda => .tlbPermissionRead va
  | .initda => .tlbPermissionRead va

/-- The address bypasses the TLB: it lies in the kernel or I/O partition (20_memory.md R137, R139). -/
def bypassesTlb (va : Word) : Bool := va.extractLsb' 30 2 == 3#2

/-- The physical address and the cacheability of a virtual address, or the exception of its lookup (20_memory.md R139,
R140, R144 to R146). -/
def mmuTranslate (m : MmuConfig) (k : AccessKind) (va : Word) (s : State) : Except Stop (Word × Bool) :=
  if bypassesTlb va then .ok (0#3 ++ va.extractLsb' 0 29, !va.getLsbD 29)
  else
    match tlbMatches m (va.extractLsb' 12 20) s with
    | [] => .error (.exc (tlbMissExc va k))
    | [e] => if e.permits k then .ok (e.pfn ++ va.extractLsb' 0 12, e.c) else .error (.exc (tlbPermissionExc va k))
    | _ => .error (.fault .multipleTlbMatch)

/-- `tlbacc` as a TLB read operation loads it (20_memory.md R150). -/
def TlbEntry.toTlbacc (e : TlbEntry) : Word :=
  0#7 ++ BitVec.ofBool e.c ++ BitVec.ofBool e.r ++ BitVec.ofBool e.w ++ BitVec.ofBool e.x ++ BitVec.ofBool e.g ++ e.pfn

/-- The entry a TLB write operation stores (20_memory.md R151). -/
def writtenEntry (m : MmuConfig) (tlbacc : Word) (vpn : BitVec 20) (pid : BitVec 14) : TlbEntry where
  tag := tlbTag m vpn
  pid := pid
  g := tlbacc.getLsbD 20
  pfn := tlbacc.extractLsb' 0 20
  c := tlbacc.getLsbD 24
  r := tlbacc.getLsbD 23
  w := tlbacc.getLsbD 22
  x := tlbacc.getLsbD 21

/-- `tlbmisc` from its WAY, WE and PID and its low four flags; RD reads as zero (10_state.md R64, R65). -/
def packTlbmisc (way : BitVec 4) (we : Bool) (pid : BitVec 14) (flags : BitVec 4) : Word :=
  0#8 ++ way ++ 0#1 ++ BitVec.ofBool we ++ pid ++ flags

/-- `wrctl tlbacc` (20_memory.md R151, 10_state.md R62): the register, and with WE = 1 the entry and the increment of WAY,
which wraps at `TLB_WAYS`. A way that does not exist selects nothing (log 35). -/
def writeTlbacc (m : MmuConfig) (v : Word) (s : State) : State :=
  let acc := v &&& tlbaccMask m
  if s.we then
    { s with
      tlbacc := acc
      tlb :=
        if s.way.toNat < m.tlbWays then
          s.tlb.set (tlbPosition m (tlbLine m s.pteVpn) s.way.toNat) (writtenEntry m acc s.pteVpn s.pid)
        else s.tlb
      tlbmisc := packTlbmisc (BitVec.ofNat 4 ((s.way.toNat + 1) % m.tlbWays) &&& wayMask m) s.we (s.pid &&& pidMask m)
        (s.tlbmisc.extractLsb' 0 4) }
  else { s with tlbacc := acc }

/-- The entry a TLB read operation reads; at a way that does not exist, any contents that an entry of the line can hold
(log 35). -/
def readEntry (m : MmuConfig) (line : Nat) (way : BitVec 4) (s : State) : TlbEntry :=
  let other := (freeTlbEntry s.tick (tlbPosition m line way.toNat)).heldAt m line
  if way.toNat < m.tlbWays then (s.tlb[tlbPosition m line way.toNat]?).getD other else other

/-- `wrctl tlbmisc` (20_memory.md R150): WAY, WE and PID; with RD = 1 the TLB read operation on the WAY just written, whose
PID overrides the one written. DBL, BAD, PERM and D are read-only. -/
def writeTlbmisc (m : MmuConfig) (v : Word) (s : State) : State :=
  let way := v.extractLsb' 20 4 &&& wayMask m
  let we := v.getLsbD 18
  let flags := s.tlbmisc.extractLsb' 0 4
  if v.getLsbD 19 then
    let line := tlbLine m s.pteVpn
    let e := readEntry m line way s
    { s with
      tlbmisc := packTlbmisc way we (e.pid &&& pidMask m) flags
      pteaddr := setVpn s.pteaddr (tlbVpn m e.tag line)
      tlbacc := e.toTlbacc &&& tlbaccMask m }
  else { s with tlbmisc := packTlbmisc way we (v.extractLsb' 4 14 &&& pidMask m) flags }

end Sys2Proof.Machine
end

