-- ==== Sys2Proof/Machine/Mpu.lean ====
section
/-! DEFINITION. The MPU: region match, the check of an access, and the region read and write operations (20_memory.md R160 to
R181). -/

namespace Sys2Proof.Machine

/-- The tables an access is checked against: after a region write that no flush has followed, the old or the new ones
(70_reset_and_hazards.md R551 (b); log 32). -/
def tablesSeen (fetch : Bool) (s : State) : MpuTables :=
  match s.mpuStale with
  | none => s.mpu
  | some old => if Config.seesOldRegions s.tick fetch then old else s.mpu

/-- A size-defined region whose base is no multiple of its size (20_memory.md R162, 93 U10). MASK = 0 is the disabled region
of R178 (log 23). DESIGN CHOICE (log 23): a MASK that no row of Table 3-28 lists (10_state.md R79: its ones do not run down from
the highest bit the core implements) has no region size; its zeros are taken as the bits a base may not set, so a BASE with one
of them counts as misaligned and stops, and any other BASE matches by the formula of R171. -/
def MpuRegion.misaligned (r : MpuRegion) : Bool :=
  let mask := r.bound.extractLsb' 0 25
  mask != 0#25 && (r.base &&& ~~~mask) != 0#25

/-- The region covers the address, by mask (20_memory.md R171) or by limit (R172). -/
def MpuRegion.covers (useLimit : Bool) (r : MpuRegion) (a : Word) : Bool :=
  if useLimit then decide (r.base.toNat * 64 ≤ a.toNat) && decide (a.toNat < r.bound.toNat * 64)
  else (a.extractLsb' 6 25 &&& r.bound.extractLsb' 0 25) == r.base

/-- The PERM values Tables 3-29 and 3-30 list (10_state.md R82). -/
def permListed (fetch : Bool) (perm : BitVec 3) : Bool :=
  if fetch then perm == 0#3 || perm == 1#3 || perm == 2#3
  else perm != 3#3 && perm != 7#3

/-- Execute permission of an instruction region (10_state.md R82). -/
def mayExecute (user : Bool) (perm : BitVec 3) : Bool := perm == 2#3 || (perm == 1#3 && !user)

/-- Read permission of a data region (10_state.md R82). -/
def mayRead (user : Bool) (perm : BitVec 3) : Bool :=
  if user then perm == 2#3 || perm == 5#3 || perm == 6#3
  else perm == 1#3 || perm == 2#3 || perm == 4#3 || perm == 5#3 || perm == 6#3

/-- Write permission of a data region (10_state.md R82). -/
def mayWrite (user : Bool) (perm : BitVec 3) : Bool :=
  if user then perm == 6#3 else perm == 4#3 || perm == 5#3 || perm == 6#3

/-- The permission an access needs in its region (20_memory.md R173; for `flushda` and `initda` the parameter
`MPU_CACHEOP_PERM`, 92_eei_decisions.md D27). -/
def regionPermits (m : MpuConfig) (k : AccessKind) (user : Bool) (perm : BitVec 3) : Bool :=
  let cacheOp := match m.cacheOpPermission with
    | .none => true
    | .read => mayRead user perm
    | .write => mayWrite user perm
  match k with
  | .fetch => mayExecute user perm
  | .load => mayRead user perm
  | .store => mayWrite user perm
  | .flushda => cacheOp
  | .initda => cacheOp

/-- The exception of a region violation (60_exceptions.md R467). -/
def mpuViolation (va : Word) : AccessKind → Exc
  | .fetch => .mpuViolationInstr
  | .load => .mpuViolationData va
  | .store => .mpuViolationData va
  | .flushda => .mpuViolationData va
  | .initda => .mpuViolationData va

/-- The region that decides an access at `a`: the matching one of lowest index; none outside the address space
(20_memory.md R163, R166). -/
def regionOf (c : Config) (m : MpuConfig) (regions : List MpuRegion) (a : Word) : Option MpuRegion :=
  if a.toNat < 2 ^ c.addrBits then regions.find? fun r => r.covers m.useLimit a else none

/-- `MpuCheck` (20_memory.md R173) of an access of kind `k` at the (stripped) address `a`: the region's C flag. DESIGN CHOICE
(log 24): a reserved PERM (10_state.md R82, 93 U12) stops the access where its region decides it; a region that matches the
address too but has a higher index than the deciding one is not looked at, as R163 and R173 have it, so its reserved PERM stops
nothing. -/
def mpuCheck (m : MpuConfig) (k : AccessKind) (a : Word) (s : State) : Except Stop Bool :=
  let tables := tablesSeen (k == .fetch) s
  let regions := if k = .fetch then tables.instr else tables.data
  if !m.useLimit && (tables.instr.any (·.misaligned) || tables.data.any (·.misaligned)) then
    .error (.fault .misalignedRegion)
  else
    match regionOf s.config m regions a with
    | none => .error (.exc (mpuViolation a k))
    | some r =>
      if !permListed (k == .fetch) r.perm then .error (.fault .reservedPermission)
      else if regionPermits m k s.user r.perm then .ok r.c
      else .error (.exc (mpuViolation a k))

/-- The MPU checks accesses: it is enabled and no break is being processed (20_memory.md R175, R180). -/
def State.mpuActive (s : State) : Bool := s.pe && !s.inDebug

/-- `mpubase.D`: a data region is selected (10_state.md R76). -/
def State.selectsData (s : State) : Bool := s.mpubase.getLsbD 0

/-- `mpubase.INDEX` (10_state.md R76). -/
def State.regionIndex (s : State) : Nat := (s.mpubase.extractLsb' 1 5).toNat

/-- `mpuacc` as `rdctl` reads it: C reads as 0 while an instruction region is selected (10_state.md R81; log 40). -/
def State.mpuaccRead (s : State) : Word := if s.selectsData then s.mpuacc else s.mpuacc &&& 0xFFFFFFDF#32

/-- The bits of `mpuacc` for the selected region type: C only for data regions (10_state.md R81). -/
def mpuaccStored (c : Config) (m : MpuConfig) (data : Bool) : Word :=
  mpuaccMask c m &&& (if data then 0xFFFFFFFF#32 else 0xFFFFFFDF#32)

/-- The region a region write operation stores (20_memory.md R177). -/
def writtenRegion (mpubase mpuacc : Word) : MpuRegion where
  base := mpubase.extractLsb' 6 25
  bound := mpuacc.extractLsb' 6 26
  c := mpuacc.getLsbD 5
  perm := mpuacc.extractLsb' 2 3

/-- `mpuacc` as a region read operation loads it: RD and WR read zero (20_memory.md R176). -/
def MpuRegion.toMpuacc (r : MpuRegion) : Word := r.bound ++ BitVec.ofBool r.c ++ r.perm ++ 0#2

/-- `mpubase` with its BASE field replaced: INDEX and D unchanged (20_memory.md R176). -/
def setBase (mpubase : Word) (base : BitVec 25) : Word := 0#1 ++ base ++ mpubase.extractLsb' 0 6

/-- The region selected by `mpubase.D` and `mpubase.INDEX`; any value where there is none (log 40). -/
def selectedRegion (s : State) : MpuRegion :=
  if s.selectsData then (s.mpu.data[s.regionIndex]?).getD (freeRegion s.tick true s.regionIndex)
  else (s.mpu.instr[s.regionIndex]?).getD (freeRegion s.tick false s.regionIndex)

/-- The region tables with the selected region replaced; an index that does not exist selects nothing (20_memory.md R177). -/
def setSelectedRegion (r : MpuRegion) (s : State) : MpuTables :=
  if s.selectsData then { s.mpu with data := s.mpu.data.set s.regionIndex r }
  else { s.mpu with instr := s.mpu.instr.set s.regionIndex r }

/-- `wrctl mpuacc` (20_memory.md R176, R177, 10_state.md R83, R84): a region read with RD, a region write with WR, the
register alone with neither, undefined with both (93 U13). A region write may be seen late (R551). -/
def writeMpuacc (m : MpuConfig) (v : Word) (s : State) : Except Stop State :=
  let keep := mpuaccStored s.config m s.selectsData
  if v.getLsbD 1 && v.getLsbD 0 then .error (.fault .readAndWriteRegion)
  else if v.getLsbD 1 then
    let r := selectedRegion s
    .ok { s with
      mpubase := setBase s.mpubase r.base &&& mpubaseMask s.config m
      mpuacc := r.toMpuacc &&& keep }
  else if v.getLsbD 0 then
    let acc := v &&& keep
    .ok { s with
      mpuacc := acc
      mpu := setSelectedRegion (writtenRegion s.mpubase acc) s
      mpuStale := some (s.mpuStale.getD s.mpu) }
  else .ok { s with mpuacc := v &&& keep }

end Sys2Proof.Machine
end

