-- ==== Sys2Proof/Machine/DataPath.lean ====
section
/-! DEFINITION. The two address paths `DataAddr` and `FetchAddr` (20_memory.md R120, R121) and the shared load and store
operations (40_data_transfer.md R251). -/

namespace Sys2Proof.Machine

/-- The effective address `x[A] + sext_16(IMM16)` modulo 2^32 (40_data_transfer.md R250, 46_other_control.md R416). -/
def effectiveAddress (rA : Reg) (imm : BitVec 16) (s : State) : Word := s.reg rA + sext16 imm

/-- The supervisor-only data address check applies: loads, stores and `flushda`, not `initda` (20_memory.md R120; log 36). -/
def AccessKind.checksSupervisor : AccessKind → Bool
  | .load => true
  | .store => true
  | .flushda => true
  | .initda => false
  | .fetch => false

/-- The misaligned data address check applies: loads and stores (20_memory.md R106, R120). -/
def AccessKind.checksAlignment : AccessKind → Bool
  | .load => true
  | .store => true
  | .flushda => false
  | .initda => false
  | .fetch => false

/-- The physical address without an MMU: bit 31 stripped with `BIT31_BYPASS` (20_memory.md R112). -/
def stripBit31 (c : Config) (ea : Word) : Word := if c.bit31Bypass then ea &&& 0x7FFFFFFF#32 else ea

/-- The data address is in a supervisor-only partition and the processor in user mode (20_memory.md R147). -/
def dataForbidden (k : AccessKind) (ea : Word) (s : State) : Bool :=
  s.config.hasMmu && s.user && ea.getLsbD 31 && k.checksSupervisor

/-- The data address is misaligned for an access of `n` bytes (20_memory.md R106). -/
def dataMisaligned (k : AccessKind) (n : Nat) (ea : Word) : Bool := k.checksAlignment && ea.toNat % n != 0

/-- The translation or protection step of `DataAddr` (20_memory.md R120), with the cacheability of R118. -/
def dataTranslate (k : AccessKind) (ea : Word) (s : State) : Except Stop (Word × Bool) :=
  match s.config.protection with
  | .mmu m => mmuTranslate m k ea s
  | .mpu m =>
    if s.mpuActive then do
      let c ← mpuCheck m k (stripBit31 s.config ea) s
      .ok (stripBit31 s.config ea, c && !(s.config.bit31Bypass && ea.getLsbD 31))
    else .ok (stripBit31 s.config ea, !(s.config.bit31Bypass && ea.getLsbD 31))
  | .none => .ok (stripBit31 s.config ea, !(s.config.bit31Bypass && ea.getLsbD 31))

/-- `DataAddr(ea, n, kind)` (20_memory.md R120): the physical address and the cacheability of a data access, or the first
check that fails, in the order of Table 3-31. -/
def dataAddr (k : AccessKind) (n : Nat) (ea : Word) (s : State) : Except Stop (Word × Bool) :=
  if dataForbidden k ea s then .error (.exc (.supervisorOnlyDataAddress ea))
  else if dataMisaligned k n ea then
    if s.config.illegalMemCheck then .error (.exc (.misalignedDataAddress ea)) else .error (.fault .misalignedAccess)
  else dataTranslate k ea s

/-- `FetchAddr(pc)` (20_memory.md R121): the physical address of a fetch, or the first check that fails. -/
def fetchAddr (s : State) : Except Stop Word :=
  match s.config.protection with
  | .mmu m =>
    if s.user && s.pc.getLsbD 31 then .error (.exc .supervisorOnlyInstrAddress)
    else do
      let (pa, _) ← mmuTranslate m .fetch s.pc s
      .ok pa
  | .mpu m =>
    if s.mpuActive then do
      let _ ← mpuCheck m .fetch s.pc s
      .ok s.pc
    else .ok s.pc
  | .none => .ok s.pc

/-- The loaded value of `n` bytes at `ea` and the state after the access (40_data_transfer.md R251); an I/O load is never
cached. -/
def loadFrom (n : Nat) (io : Bool) (ea : Word) (s : State) : Except Stop (Word × State) := do
  let (pa, c) ← dataAddr .load n ea s
  dataRead io n c ea pa s

/-- The state after the low `n` bytes of `v` are stored at `ea` (40_data_transfer.md R251); an I/O store is never cached. -/
def storeTo (n : Nat) (io : Bool) (ea v : Word) (s : State) : Except Stop State := do
  let (pa, c) ← dataAddr .store n ea s
  dataWrite io n c ea pa v s

/-- A load instruction: the value, extended by `ext`, to `x[B]` (40_data_transfer.md R251). -/
def loadInstr (n : Nat) (io : Bool) (ext : Word → Word) (rB rA : Reg) (imm : BitVec 16) (s : State) : Result :=
  finish s do
    let (v, s') ← loadFrom n io (effectiveAddress rA imm s) s
    .ok (s'.setReg rB (ext v)).advance

/-- A store instruction: the low `n` bytes of `x[B]` to memory (40_data_transfer.md R251). -/
def storeInstr (n : Nat) (io : Bool) (rB rA : Reg) (imm : BitVec 16) (s : State) : Result :=
  finish s do
    let s' ← storeTo n io (effectiveAddress rA imm s) (s.reg rB) s
    .ok s'.advance

end Sys2Proof.Machine
end

