-- ==== Sys2Proof/Machine/DataTransfer.lean ====
section
/-! DEFINITION. The data transfer instructions (40_data_transfer.md R250 to R270): the shared load and store of DataPath.lean
at each width, extension and path. -/

namespace Sys2Proof.Machine

/-- `ldw`: load word (40_data_transfer.md R254). -/
def execLdw (rB rA : Reg) (imm : BitVec 16) (s : State) : Result := loadInstr 4 false id rB rA imm s

/-- `stw`: store word (40_data_transfer.md R255). -/
def execStw (rB rA : Reg) (imm : BitVec 16) (s : State) : Result := storeInstr 4 false rB rA imm s

/-- `ldwio`: load word, bypassing the data cache (40_data_transfer.md R256). -/
def execLdwio (rB rA : Reg) (imm : BitVec 16) (s : State) : Result := loadInstr 4 true id rB rA imm s

/-- `stwio`: store word, bypassing the data cache (40_data_transfer.md R257). -/
def execStwio (rB rA : Reg) (imm : BitVec 16) (s : State) : Result := storeInstr 4 true rB rA imm s

/-- `ldb`: load byte, sign-extended (40_data_transfer.md R258). -/
def execLdb (rB rA : Reg) (imm : BitVec 16) (s : State) : Result := loadInstr 1 false sextByte rB rA imm s

/-- `ldbu`: load byte, zero-extended (40_data_transfer.md R259). -/
def execLdbu (rB rA : Reg) (imm : BitVec 16) (s : State) : Result := loadInstr 1 false zextByte rB rA imm s

/-- `ldh`: load half-word, sign-extended (40_data_transfer.md R260). -/
def execLdh (rB rA : Reg) (imm : BitVec 16) (s : State) : Result := loadInstr 2 false sextHalf rB rA imm s

/-- `ldhu`: load half-word, zero-extended (40_data_transfer.md R261). -/
def execLdhu (rB rA : Reg) (imm : BitVec 16) (s : State) : Result := loadInstr 2 false zextHalf rB rA imm s

/-- `stb`: store byte (40_data_transfer.md R262). -/
def execStb (rB rA : Reg) (imm : BitVec 16) (s : State) : Result := storeInstr 1 false rB rA imm s

/-- `sth`: store half-word (40_data_transfer.md R263). -/
def execSth (rB rA : Reg) (imm : BitVec 16) (s : State) : Result := storeInstr 2 false rB rA imm s

/-- `ldbio`: load byte, sign-extended, bypassing the data cache (40_data_transfer.md R264). -/
def execLdbio (rB rA : Reg) (imm : BitVec 16) (s : State) : Result := loadInstr 1 true sextByte rB rA imm s

/-- `ldbuio`: load byte, zero-extended, bypassing the data cache (40_data_transfer.md R265). -/
def execLdbuio (rB rA : Reg) (imm : BitVec 16) (s : State) : Result := loadInstr 1 true zextByte rB rA imm s

/-- `ldhio`: load half-word, sign-extended, bypassing the data cache (40_data_transfer.md R266). -/
def execLdhio (rB rA : Reg) (imm : BitVec 16) (s : State) : Result := loadInstr 2 true sextHalf rB rA imm s

/-- `ldhuio`: load half-word, zero-extended, bypassing the data cache (40_data_transfer.md R267). -/
def execLdhuio (rB rA : Reg) (imm : BitVec 16) (s : State) : Result := loadInstr 2 true zextHalf rB rA imm s

/-- `stbio`: store byte, bypassing the data cache (40_data_transfer.md R268). -/
def execStbio (rB rA : Reg) (imm : BitVec 16) (s : State) : Result := storeInstr 1 true rB rA imm s

/-- `sthio`: store half-word, bypassing the data cache (40_data_transfer.md R269). -/
def execSthio (rB rA : Reg) (imm : BitVec 16) (s : State) : Result := storeInstr 2 true rB rA imm s

end Sys2Proof.Machine
end

