-- ==== Sys2Proof/Machine/ControlRegs.lean ====
section
/-! DEFINITION. The control registers as `rdctl` reads and `wrctl` writes them, each under its own number (10_state.md R42 to
R84). A bit no field owns reads as zero and a one written to it is dropped (10_state.md R44, 93 U2, U18; log 14). -/

namespace Sys2Proof.Machine

/-- A register of number `n` that `rdctl` reads as `v` where it is available; a reserved one reads as any value
(10_state.md R45, 93 U3; log 15). -/
def readIf (available : Bool) (v : Word) (n : BitVec 5) (s : State) : Word :=
  if available then v else Config.freeControl s.tick n

/-- The value `rdctl` reads from control register `n` (46_other_control.md R414, 10_state.md R42). -/
def readControl (n : BitVec 5) (s : State) : Word :=
  match n with
  | 0#5 => s.status
  | 1#5 => s.estatus
  | 2#5 => s.bstatus
  | 3#5 => s.ienable
  | 4#5 => s.ipending
  | 5#5 => s.config.cpuid
  | 7#5 => readIf s.config.extraExcInfo s.exceptionReg n s
  | 8#5 => readIf s.config.hasMmu s.pteaddr n s
  | 9#5 => readIf s.config.hasMmu s.tlbacc n s
  | 10#5 => readIf s.config.hasMmu s.tlbmisc n s
  | 12#5 => readIf s.config.extraExcInfo s.badaddr n s
  | 13#5 => readIf s.config.hasMpu s.configReg n s
  | 14#5 => readIf s.config.hasMpu s.mpubase n s
  | 15#5 => readIf s.config.hasMpu s.mpuaccRead n s
  | _ => Config.freeControl s.tick n

/-- `wrctl` of a read-only register: nothing but the flush of the pipeline, and not even that where the register is reserved
(10_state.md R45, R46, R56, R57, R58, R73). -/
def controlReadOnly (available : Bool) (s : State) : State := if available then flushPipeline s else s

/-- `wrctl pteaddr` (10_state.md R59); no effect without an MMU. -/
def controlPteaddr (v : Word) (s : State) : State :=
  if s.config.hasMmu then flushPipeline { s with pteaddr := v &&& pteaddrMask } else s

/-- `wrctl tlbacc` (10_state.md R62); no effect without an MMU. -/
def controlTlbacc (v : Word) (s : State) : State :=
  match s.config.protection with
  | .mmu m => flushPipeline (writeTlbacc m v s)
  | _ => s

/-- `wrctl tlbmisc` (10_state.md R64 to R68); no effect without an MMU. -/
def controlTlbmisc (v : Word) (s : State) : State :=
  match s.config.protection with
  | .mmu m => flushPipeline (writeTlbmisc m v s)
  | _ => s

/-- `wrctl config` (10_state.md R75); no effect without an MPU. -/
def controlConfig (v : Word) (s : State) : State :=
  if s.config.hasMpu then flushPipeline { s with configReg := v &&& configMask s.config } else s

/-- `wrctl mpubase` (10_state.md R76, R77); no effect without an MPU. -/
def controlMpubase (v : Word) (s : State) : State :=
  match s.config.protection with
  | .mpu m => { s with mpubase := v &&& mpubaseMask s.config m }
  | _ => s

/-- `wrctl mpuacc` (10_state.md R78 to R84); no effect without an MPU. -/
def controlMpuacc (v : Word) (s : State) : Except Stop State :=
  match s.config.protection with
  | .mpu m => writeMpuacc m v s
  | _ => .ok s

/-- The state after `wrctl` writes `v` to control register `n` (46_other_control.md R415). The read-only registers
`ipending`, `cpuid`, `exception`, `badaddr` and the reserved ones keep their values (10_state.md R45, R56, R57, R58, R73). A
write to any available register but `mpubase` and `mpuacc` flushes the pipeline (10_state.md R46, 70_reset_and_hazards.md
R550). -/
def writeControl (n : BitVec 5) (v : Word) (s : State) : Except Stop State :=
  match n with
  | 0#5 => .ok (flushPipeline { s with status := v &&& statusMask s.config })
  | 1#5 => .ok (flushPipeline { s with estatus := v &&& statusMask s.config })
  | 2#5 => .ok (flushPipeline { s with bstatus := v &&& statusMask s.config })
  | 3#5 => .ok (flushPipeline { s with ienable := v })
  | 4#5 => .ok (controlReadOnly true s)
  | 5#5 => .ok (controlReadOnly true s)
  | 7#5 => .ok (controlReadOnly s.config.extraExcInfo s)
  | 8#5 => .ok (controlPteaddr v s)
  | 9#5 => .ok (controlTlbacc v s)
  | 10#5 => .ok (controlTlbmisc v s)
  | 12#5 => .ok (controlReadOnly s.config.extraExcInfo s)
  | 13#5 => .ok (controlConfig v s)
  | 14#5 => .ok (controlMpubase v s)
  | 15#5 => controlMpuacc v s
  | _ => .ok s

end Sys2Proof.Machine
end

