-- ==== Sys2Proof/Machine/OtherControl.lean ====
section
/-! DEFINITION. The other control instructions (46_other_control.md R410 to R425). -/

namespace Sys2Proof.Machine

/-- `trap`: takes the trap exception, always; IMM5 is not interpreted (46_other_control.md R410). -/
def execTrap (_imm : BitVec 5) (s : State) : Result := .next (takeException .trap s)

/-- `eret` (46_other_control.md R411). -/
def execEret (s : State) : Result := finish s (returnFromException s)

/-- `break`: takes a break, always; IMM5 is not interpreted (46_other_control.md R412). -/
def execBrk (_imm : BitVec 5) (s : State) : Result := .next (takeBreak s)

/-- `bret` (46_other_control.md R413). -/
def execBret (s : State) : Result := finish s (returnFromBreak s)

/-- `rdctl` (46_other_control.md R414). -/
def execRdctl (rC : Reg) (n : BitVec 5) (s : State) : Result :=
  finish s do
    supervisorOnly s
    .ok (s.setReg rC (readControl n s)).advance

/-- `wrctl` (46_other_control.md R415). -/
def execWrctl (n : BitVec 5) (rA : Reg) (s : State) : Result :=
  finish s do
    supervisorOnly s
    let s' ← writeControl n (s.reg rA) s
    .ok s'.advance

/-- `flushd`: by index, no translation, no exception (46_other_control.md R417). -/
def execFlushd (rA : Reg) (imm : BitVec 16) (s : State) : Result :=
  .next (flushDataByIndex (effectiveAddress rA imm s) s).advance

/-- `flushda`: by address, after the address checks (46_other_control.md R418; log 45). -/
def execFlushda (rA : Reg) (imm : BitVec 16) (s : State) : Result :=
  finish s do
    let (pa, _) ← dataAddr .flushda 1 (effectiveAddress rA imm s) s
    .ok (flushDataByAddress pa s).advance

/-- `flushi` (46_other_control.md R419; log 53). -/
def execFlushi (rA : Reg) (s : State) : Result := .next (dropInstrByIndex (s.reg rA) s).advance

/-- `initd`: supervisor only (46_other_control.md R420; log 45). -/
def execInitd (rA : Reg) (imm : BitVec 16) (s : State) : Result :=
  finish s do
    supervisorOnly s
    .ok (initDataByIndex (effectiveAddress rA imm s) s).advance

/-- `initda`: unimplemented without `HW_INITDA`, then the address checks (46_other_control.md R421; logs 36, 45). -/
def execInitda (rA : Reg) (imm : BitVec 16) (s : State) : Result :=
  finish s do
    implemented s.config.hwInitda
    let (pa, _) ← dataAddr .initda 1 (effectiveAddress rA imm s) s
    .ok (initDataByAddress pa s).advance

/-- `initi`: supervisor only (46_other_control.md R422; logs 45, 53). -/
def execIniti (rA : Reg) (s : State) : Result :=
  finish s do
    supervisorOnly s
    .ok (dropInstrByIndex (s.reg rA) s).advance

/-- `flushp`: what the pipeline fetched ahead is discarded, and region writes are seen from here on (46_other_control.md R423;
logs 31, 32). -/
def execFlushp (s : State) : Result := .next (flushPipeline s).advance

/-- `sync`: every access has completed already (46_other_control.md R424; log 31). -/
def execSync (s : State) : Result := .next s.advance

end Sys2Proof.Machine
end

