-- ==== Sys2Proof/Machine/ProgramControl.lean ====
section
/-! DEFINITION. The program control instructions (45_program_control.md R380 to R399). There are no delay slots (R395). -/

namespace Sys2Proof.Machine

/-- `call`: the link, then the target in the segment of the `call` itself; no alignment check (45_program_control.md R380;
log 46). -/
def execCall (imm : BitVec 26) (s : State) : Result :=
  .next { s.setReg raReg (s.pc + 4#32) with pc := segmentTarget s.pc imm }

/-- `callr`: the target is read before the link is written; a misaligned target writes no link (45_program_control.md
R381). -/
def execCallr (rA : Reg) (s : State) : Result :=
  finish s do
    let s' ← jumpTo (s.reg rA) s
    .ok (s'.setReg raReg (s.pc + 4#32))

/-- `ret` (45_program_control.md R382). -/
def execRet (s : State) : Result := finish s (jumpTo (s.reg raReg) s)

/-- `jmp` (45_program_control.md R383). -/
def execJmp (rA : Reg) (s : State) : Result := finish s (jumpTo (s.reg rA) s)

/-- `jmpi` (45_program_control.md R384; log 46). -/
def execJmpi (imm : BitVec 26) (s : State) : Result := .next { s with pc := segmentTarget s.pc imm }

/-- `br` (45_program_control.md R385). -/
def execBr (imm : BitVec 16) (s : State) : Result := finish s (jumpTo (branchTarget s.pc imm) s)

/-- A conditional branch: the target is checked only when the branch is taken (45_program_control.md R386; log 46). -/
def branchInstr (taken : Bool) (imm : BitVec 16) (s : State) : Result :=
  if taken then finish s (jumpTo (branchTarget s.pc imm) s) else .next s.advance

/-- `bge` (45_program_control.md R387). -/
def execBge (rA rB : Reg) (imm : BitVec 16) (s : State) : Result := branchInstr (isGe (s.reg rA) (s.reg rB)) imm s

/-- `bgeu` (45_program_control.md R388). -/
def execBgeu (rA rB : Reg) (imm : BitVec 16) (s : State) : Result := branchInstr (isGeu (s.reg rA) (s.reg rB)) imm s

/-- `blt` (45_program_control.md R389). -/
def execBlt (rA rB : Reg) (imm : BitVec 16) (s : State) : Result := branchInstr (isLt (s.reg rA) (s.reg rB)) imm s

/-- `bltu` (45_program_control.md R390). -/
def execBltu (rA rB : Reg) (imm : BitVec 16) (s : State) : Result := branchInstr (isLtu (s.reg rA) (s.reg rB)) imm s

/-- `beq` (45_program_control.md R391). -/
def execBeq (rA rB : Reg) (imm : BitVec 16) (s : State) : Result := branchInstr (isEq (s.reg rA) (s.reg rB)) imm s

/-- `bne` (45_program_control.md R392). -/
def execBne (rA rB : Reg) (imm : BitVec 16) (s : State) : Result := branchInstr (isNe (s.reg rA) (s.reg rB)) imm s

/-- `nextpc` (45_program_control.md R394). -/
def execNextpc (rC : Reg) (s : State) : Result := .next (s.setReg rC (s.pc + 4#32)).advance

end Sys2Proof.Machine
end

