-- ==== Sys2Proof/Machine/ShiftRotate.lean ====
section
/-! DEFINITION. The shift and rotate instructions (44_shift_rotate.md R360 to R371). The count is IMM5 or the low five bits of a
register (R360). -/

namespace Sys2Proof.Machine

/-- `ROL(v, n)` (44_shift_rotate.md R361). -/
def rotateLeft (v : Word) (n : BitVec 5) : Word := v.rotateLeft n.toNat

/-- `ROR(v, n)` (44_shift_rotate.md R361). -/
def rotateRight (v : Word) (n : BitVec 5) : Word := v.rotateRight n.toNat

/-- `v << n` with zeros shifted in (44_shift_rotate.md R365). -/
def shiftLeft (v : Word) (n : BitVec 5) : Word := v <<< n.toNat

/-- `v >> n` with zeros shifted in (44_shift_rotate.md R368). -/
def shiftRight (v : Word) (n : BitVec 5) : Word := v >>> n.toNat

/-- `SRA(v, n)`: the sign bit shifted in (44_shift_rotate.md R361). -/
def shiftRightArith (v : Word) (n : BitVec 5) : Word := v.sshiftRight n.toNat

/-- `rol`: rotate left (44_shift_rotate.md R362). -/
def execRol (rC rA rB : Reg) (s : State) : Result :=
  writeResult rC (rotateLeft (s.reg rA) (countOf (s.reg rB))) s

/-- `ror`: rotate right (44_shift_rotate.md R363). -/
def execRor (rC rA rB : Reg) (s : State) : Result :=
  writeResult rC (rotateRight (s.reg rA) (countOf (s.reg rB))) s

/-- `roli`: rotate left by the immediate (44_shift_rotate.md R364). -/
def execRoli (rC rA : Reg) (imm : BitVec 5) (s : State) : Result := writeResult rC (rotateLeft (s.reg rA) imm) s

/-- `sll`: shift left logical (44_shift_rotate.md R365). -/
def execSll (rC rA rB : Reg) (s : State) : Result :=
  writeResult rC (shiftLeft (s.reg rA) (countOf (s.reg rB))) s

/-- `slli`: shift left logical by the immediate (44_shift_rotate.md R366). -/
def execSlli (rC rA : Reg) (imm : BitVec 5) (s : State) : Result := writeResult rC (shiftLeft (s.reg rA) imm) s

/-- `sra`: shift right arithmetic (44_shift_rotate.md R367). -/
def execSra (rC rA rB : Reg) (s : State) : Result :=
  writeResult rC (shiftRightArith (s.reg rA) (countOf (s.reg rB))) s

/-- `srl`: shift right logical (44_shift_rotate.md R368). -/
def execSrl (rC rA rB : Reg) (s : State) : Result :=
  writeResult rC (shiftRight (s.reg rA) (countOf (s.reg rB))) s

/-- `srai`: shift right arithmetic by the immediate (44_shift_rotate.md R369). -/
def execSrai (rC rA : Reg) (imm : BitVec 5) (s : State) : Result := writeResult rC (shiftRightArith (s.reg rA) imm) s

/-- `srli`: shift right logical by the immediate (44_shift_rotate.md R370). -/
def execSrli (rC rA : Reg) (imm : BitVec 5) (s : State) : Result := writeResult rC (shiftRight (s.reg rA) imm) s

end Sys2Proof.Machine
end

