-- ==== Sys2Proof/Machine/Fetch.lean ====
section
/-! DEFINITION. Fetching an instruction word and running it (20_memory.md R121, 30_encoding.md R209 to R211). -/

namespace Sys2Proof.Machine

/-- The word at `pc` and the state after its fetch (20_memory.md R114, R121). -/
def fetchWord (s : State) : Except Stop (Word × State) := do
  let pa ← fetchAddr s
  pipelineRead s.pc pa s

/-- A word with an undefined OP or OPX: the illegal instruction exception with `ILLEGAL_INSN_CHECK`, undefined without
(30_encoding.md R210, 60_exceptions.md R458, 93 U8; log 21). -/
def illegalWord (isInternal : Bool) (s : State) : Result :=
  if isInternal then .refused .internalEncoding
  else if s.config.illegalInsnCheck then .next (takeException .illegalInstr s)
  else .fault .undefinedEncoding

/-- What a word that is no instruction does (30_encoding.md R210, R211; log 27). -/
def runUndecoded (e : DecodeError) (s : State) : Result :=
  match e with
  | .undefinedOp op => illegalWord (s.config.internalOps.contains op) s
  | .undefinedOpx opx => illegalWord (s.config.internalOpxs.contains opx) s
  | .nonCanonical => .refused .nonCanonicalEncoding
  | .notFourBytes => .refused .nonCanonicalEncoding

/-- Running a fetched word (30_encoding.md R209). -/
def runWord (w : Word) (s : State) : Result :=
  match decode w with
  | .ok i => exec i s
  | .error e => runUndecoded e s

/-- Fetching and executing the instruction at `pc`: an exception of the fetch is taken for that instruction
(20_memory.md R121). -/
def fetchAndRun (s : State) : Result :=
  match fetchWord s with
  | .ok (w, s') => runWord w s'
  | .error e => finish s (.error e)

end Sys2Proof.Machine
end

