-- ==== Sys2Proof/Machine/Reset.lean ====
section
/-! DEFINITION. A reset in mid-run: the sequence of 70_reset_and_hazards.md R530 and the values that R531 leaves undefined, all
of them free (log 13). -/

namespace Sys2Proof.Machine

/-- The control register `n` after a reset that leaves it undefined, in its implemented bits. -/
def freeControlReg (n : Nat) (mask : Word) (s : State) : Word := Config.freeResetControl s.tick n &&& mask

/-- The TLB entry at a position, of any contents that an entry of its line can hold (10_state.md R85). -/
def anyEntry (m : MmuConfig) (tick position : Nat) : TlbEntry :=
  (freeTlbEntry tick position).heldAt m (position / m.tlbWays)

/-- The TLB after a reset (10_state.md R85). -/
def anyTlb (s : State) : List TlbEntry :=
  match s.config.protection with
  | .mmu m => (List.range m.tlbEntries).map (anyEntry m s.tick)
  | _ => []

/-- An MPU region of any contents, in the bits that exist: C only in a data region (10_state.md R77 to R81). -/
def anyRegion (c : Config) (m : MpuConfig) (tick : Nat) (data : Bool) (index : Nat) : MpuRegion :=
  let r := freeRegion tick data index
  { base := r.base &&& (baseMask c m).extractLsb' 6 25
    bound := r.bound &&& (boundMask c m).extractLsb' 6 26
    c := r.c && data
    perm := r.perm }

/-- The MPU regions after a reset (10_state.md R86). -/
def anyTables (s : State) : MpuTables :=
  match s.config.protection with
  | .mpu m =>
    { instr := (List.range m.instrRegions).map (anyRegion s.config m s.tick false)
      data := (List.range m.dataRegions).map (anyRegion s.config m s.tick true) }
  | _ => { instr := [], data := [] }

/-- The implemented bits of `mpubase` after a reset. -/
def anyMpubase (s : State) : Word :=
  match s.config.protection with
  | .mpu m => freeControlReg 14 (mpubaseMask s.config m) s
  | _ => 0#32

/-- The implemented bits of `mpuacc` after a reset. -/
def anyMpuacc (s : State) : Word :=
  match s.config.protection with
  | .mpu m => freeControlReg 15 (mpuaccMask s.config m) s
  | _ => 0#32

/-- The general-purpose registers after a reset: any values but in `r0` (10_state.md R35). -/
def anyRegisters (tick : Nat) : Vector Word 32 :=
  Vector.ofFn fun i => if i.val = 0 then 0#32 else Config.freeRegister tick i.val

/-- RESET (70_reset_and_hazards.md R530, R531; 60_exceptions.md R452), for both reset exceptions: `status`, `config.PE`,
`tlbacc`, `tlbmisc`, `in_debug` and `pc` as stated, the reset vector's instruction-cache line invalid, nothing fetched
ahead, everything else any value. -/
def resetProcessor (s : State) : State :=
  { s with
    pc := vectorPc s.config s.config.resetVector
    regs := anyRegisters s.tick
    status := 0#32
    estatus := freeControlReg 1 (statusMask s.config) s
    bstatus := freeControlReg 2 (statusMask s.config) s
    ienable := Config.freeResetControl s.tick 3
    exceptionReg := if s.config.extraExcInfo then freeControlReg 7 0x7C#32 s else 0#32
    pteaddr := if s.config.hasMmu then freeControlReg 8 pteaddrMask s else 0#32
    tlbacc := 0#32
    tlbmisc := 0#32
    badaddr := if s.config.extraExcInfo then badaddrOfInstr s.config (Config.freeResetControl s.tick 12) else 0#32
    configReg := 0#32
    mpubase := anyMpubase s
    mpuacc := anyMpuacc s
    tlb := anyTlb s
    mpu := anyTables s
    mpuStale := none
    prefetched := []
    memory := Memory.normalise (freeMemory s.tick)
    dcache := resetDataLines s.config s.tick
    icache := resetInstrLines s.config s.tick
    inDebug := false
    custom := Config.freeCustom s.tick }

end Sys2Proof.Machine
end

