-- ==== Sys2Proof/Machine/Boundary.lean ====
section
/-! DEFINITION. What happens at one instruction boundary, in the priority order of 60_exceptions.md R468, and what the
environment, the caches and the pipeline do after it. -/

namespace Sys2Proof.Machine

/-- `status.EH` and `status.U` both one: illegal (10_state.md R52, 93 U4; log 25). -/
def State.statusIllegal (s : State) : Bool := s.eh && s.user

/-- The JTAG debug module asserts a hardware break (60_exceptions.md R490; log 39). -/
def State.breakRequested (s : State) : Bool := s.config.hasDebug && s.inputs.hardwareBreak

/-- `take_interrupt = status.PIE = 1 and ipending != 0` (60_exceptions.md R480; log 38). -/
def State.takesInterrupt (s : State) : Bool := s.pie && s.ipending != 0#32

/-- The inputs of the next boundary: the next sample, or the levels as they are (log 11). -/
def nextInputs (s : State) : Inputs := s.future.headD s.inputs

/-- The state at the next boundary: the new inputs, one more tick (logs 11, 12). -/
def nextBoundary (s : State) : State := { s with inputs := nextInputs s, future := s.future.tail, tick := s.tick + 1 }

/-- The end of a boundary at which the processor ran: what the caches did by themselves and what the pipeline fetched ahead,
then the next boundary. After a reset neither happens, so that the reset vector's line is not there for its first fetch
(70_reset_and_hazards.md R530). -/
def endBoundary (s : State) : State := nextBoundary { cacheDrift s with prefetched := prefetchedNext (cacheDrift s) }

/-- A result with the end of the boundary applied to its next state. -/
def endResult : Result → Result
  | .next s => .next (endBoundary s)
  | .fault f => .fault f
  | .refused r => .refused r

/-- The one thing that happens at a boundary: reset, hardware break, processor-only reset, interrupt, or the instruction at
`pc` (60_exceptions.md R450, R468); then the end of the boundary. -/
def boundaryEvent (s : State) : Result :=
  if s.inputs.reset then .next (nextBoundary (resetProcessor s))
  else if s.statusIllegal then .fault .illegalStatus
  else if s.breakRequested then .next (endBoundary (takeBreak s))
  else if s.inputs.processorReset then .next (nextBoundary (resetProcessor s))
  else if s.takesInterrupt then .next (endBoundary (takeException .interrupt s))
  else endResult (fetchAndRun s)

/-- The word of `nbits` bits from `w`, stored where the next fetch reads it (log 43). -/
def loadFetchWord (s : State) (nbits w : Nat) : State :=
  match fetchAddr s with
  | .ok pa =>
    { s with
      memory := s.memory.writeLE pa.toNat 4 (BitVec.ofNat 32 (w % 2 ^ nbits))
      icache := match s.config.icache with
        | some g => s.icache.filter fun l => l.base != lineBase g pa
        | none => s.icache
      prefetched := s.prefetched.filter fun f => f.addr != pa }
  | .error _ => s

end Sys2Proof.Machine
end

