-- ==== Sys2Proof/Machine/Step.lean ====
section
/-! DEFINITION. One step of the machine: one instruction, or one reset, break or exception entry (70_reset_and_hazards.md
R560). -/

namespace Sys2Proof.Machine

/-- One step: next, fault or refusal. -/
def step (s : State) : Host.Outcome State Fault Refusal := boundaryEvent s

/-- `s` with the instruction of bits `w` stored where `step` fetches its next instruction; it stands for the load of a
program from outside the machine (log 43). -/
def State.withFetchWord (s : State) (nbits w : Nat) : State := loadFetchWord s nbits w

end Sys2Proof.Machine
end

