-- ==== Sys2Proof/WellFormed.lean ====
section
/-! DEFINITION. Which configurations the spec admits (00_scope.md R6 to R8, 92_eei_decisions.md D1, D4) and which instructions
a configuration admits (92_eei_decisions.md D25). Every operand of `Instr` has the width of its field, so an instruction has
no field to check. -/

namespace Sys2Proof

/-- An address is a multiple of 4 (10_state.md R38). -/
def wordAligned (a : Word) : Bool := a.extractLsb' 0 2 == 0#2

/-- The four vectors are multiples of 4 (92_eei_decisions.md D4). -/
def Config.vectorsAligned (c : Config) : Bool :=
  wordAligned c.resetVector && wordAligned c.exceptionVector && wordAligned c.breakVector &&
    match c.protection with
    | .mmu m => wordAligned m.fastTlbMissVector
    | _ => true

/-- With an MMU the vectors lie in low physical memory (20_memory.md R132, R138). -/
def Config.vectorsLow (c : Config) : Bool :=
  match c.protection with
  | .mmu m => decide (c.resetVector < 0x20000000#32) && decide (c.exceptionVector < 0x20000000#32) &&
      decide (c.breakVector < 0x20000000#32) && decide (m.fastTlbMissVector < 0x20000000#32)
  | _ => true

/-- The address space is 32 bits wide with an MMU and at most 31 without (20_memory.md R101). -/
def Config.addrBitsOk (c : Config) : Bool :=
  if c.hasMmu then c.addrBits == 32 else decide (c.addrBits ≤ 31)

/-- The TLB has 1 to 16 ways, its entries fill whole lines (00_scope.md R7, 20_memory.md R141), and the I/O partition has a VPN
of its own for every entry (R148; log 41). -/
def Config.tlbOk (c : Config) : Bool :=
  match c.protection with
  | .mmu m => decide (1 ≤ m.tlbWays) && decide (m.tlbWays ≤ 16) && decide (m.tlbWays ≤ m.tlbEntries) &&
      m.tlbEntries % m.tlbWays == 0 && decide (m.tlbEntries ≤ 0x20000)
  | _ => true

/-- PID has 8 to 14 bits and PFN at most 20 (00_scope.md R7). -/
def Config.tlbFieldsOk (c : Config) : Bool :=
  match c.protection with
  | .mmu m => decide (8 ≤ m.pidBits) && decide (m.pidBits ≤ 14) && decide (m.pfnBits ≤ 20)
  | _ => true

/-- The MPU has at most 32 regions of each type (20_memory.md R161). -/
def Config.regionCountOk (c : Config) : Bool :=
  match c.protection with
  | .mpu m => decide (m.instrRegions ≤ 32) && decide (m.dataRegions ≤ 32)
  | _ => true

/-- The smallest region has at least 64 bytes and at most the address space (20_memory.md R164). -/
def Config.regionSizeOk (c : Config) : Bool :=
  match c.protection with
  | .mpu m => decide (6 ≤ m.minRegionLog2) && decide (m.minRegionLog2 ≤ c.addrBits)
  | _ => true

/-- `MEMORY_MAP` lies within the address space (92_eei_decisions.md D4). -/
def Config.memoryMapOk (c : Config) : Bool :=
  c.memoryMap.all fun r => decide (r.base + r.size ≤ 2 ^ c.addrBits)

/-- A configuration the spec admits. `HAS_MMU` with `HAS_MPU` cannot be written, and the forced options of R8 are in the
accessors of Config.lean. -/
def Config.valid (c : Config) : Bool :=
  c.vectorsAligned && c.vectorsLow && c.addrBitsOk && c.tlbOk && c.tlbFieldsOk && c.regionCountOk && c.regionSizeOk &&
    c.memoryMapOk

/-- An instruction the configuration admits: `custom n` only where `CUSTOM(n)` is present (92_eei_decisions.md D25). -/
def Instr.wellFormed (c : Config) : Instr → Bool
  | .custom n _ _ _ _ _ _ => c.hasCustom n
  | _ => true

end Sys2Proof
end

