-- ==== Sys2Proof/Safety.lean ====
section
/-! DEFINITION. The invariant of the machine's state: what every step keeps, in the words the statements use. -/

namespace Sys2Proof.Machine

/-- A word has no bit outside a mask. -/
abbrev within (mask v : Word) : Prop := v &&& mask = v

/-- The region tables have the configured number of regions (20_memory.md R161, R163). -/
def MpuTables.sized (m : MpuConfig) (t : MpuTables) : Prop :=
  t.instr.length = m.instrRegions ∧ t.data.length = m.dataRegions

/-- An entry that a line of the TLB can hold: the tag of a VPN of the line, `PID_BITS` bits of PID and `PFN_BITS` bits of PFN
(10_state.md R85, 20_memory.md R142). -/
abbrev TlbEntry.fits (m : MmuConfig) (line : Nat) (e : TlbEntry) : Prop :=
  e.tag.toNat ≤ lastTag m line ∧ e.pid &&& pidMask m = e.pid ∧ e.pfn &&& pfnMask m = e.pfn

/-- Every entry is one its line can hold. -/
def tlbFits (m : MmuConfig) (tlb : List TlbEntry) : Prop :=
  ∀ (i : Nat) (e : TlbEntry), tlb[i]? = some e → e.fits m (i / m.tlbWays)

/-- What holds of the registers and the TLB of an MMU (10_state.md R61 to R68, R85). -/
def State.mmuInv (m : MmuConfig) (s : State) : Prop :=
  s.tlb.length = m.tlbEntries ∧ within (tlbaccMask m) s.tlbacc ∧ within (tlbmiscMask m) s.tlbmisc ∧ tlbFits m s.tlb

/-- What holds of the registers and the regions of an MPU (10_state.md R75 to R86). -/
def State.mpuInv (m : MpuConfig) (s : State) : Prop :=
  s.mpu.sized m ∧ (∀ old, s.mpuStale = some old → old.sized m) ∧
    within (mpubaseMask s.config m) s.mpubase ∧ within (mpuaccMask s.config m) s.mpuacc

/-- What holds of the protection unit the configuration has. -/
def State.protectionInv (s : State) : Prop :=
  match s.config.protection with
  | .mmu m => s.mmuInv m
  | .mpu m => s.mpuInv m
  | .none => True

/-- A line that a cache of this geometry can hold: canonical bytes, an index the cache has, the address of a line, all of whose
bytes are memory's. -/
def CacheLine.fits (c : Config) (g : CacheGeometry) (l : CacheLine) : Prop :=
  l.bytes.wf = true ∧ l.index < 2 ^ g.linesLog2 ∧ lineBase g l.base = l.base ∧
    allMemory c l.base.toNat (lineBytes g) = true

/-- Two lines are not under the same index with the same line address. -/
def CacheLine.apart (k l : CacheLine) : Prop := ¬(k.index = l.index ∧ k.base = l.base)

/-- The lines a cache can hold: none where there is no cache; else lines that fit, at most one for each index and line
address (20_memory.md R113, R117). -/
def cacheFits (c : Config) (cache : Option CacheGeometry) (lines : List CacheLine) : Prop :=
  match cache with
  | some g => (∀ l ∈ lines, l.fits c g) ∧ lines.Pairwise CacheLine.apart
  | none => lines = []

/-- What holds of the caches and of the words fetched ahead. -/
def State.contentsFit (s : State) : Prop :=
  cacheFits s.config s.config.dcache s.dcache ∧ cacheFits s.config s.config.icache s.icache ∧
    s.prefetched.length ≤ s.config.pipelineDepth

/-- THE INVARIANT: the configuration is one the spec admits, memory is canonical, `pc` is a multiple of 4
(10_state.md R38), every control register holds only bits that a field owns (10_state.md R44 to R80), the caches hold lines
of their geometry, and the pipeline no more words than it has room for. -/
structure State.Inv (s : State) : Prop where
  config_valid : s.config.valid = true
  memory_wf : s.memory.wf = true
  pc_aligned : wordAligned s.pc = true
  status_bits : within (statusMask s.config) s.status
  estatus_bits : within (statusMask s.config) s.estatus
  bstatus_bits : within (statusMask s.config) s.bstatus
  exception_bits : within 0x7C#32 s.exceptionReg
  pteaddr_bits : within pteaddrMask s.pteaddr
  config_bits : within (configMask s.config) s.configReg
  badaddr_bits : s.config.hasUserMode = false → within (lowBits s.config.addrBits) s.badaddr
  contents : s.contentsFit
  protection : s.protectionInv

end Sys2Proof.Machine
end

