-- ==== Sys2Proof/Certificates/Slice0/Obligations.lean ====
section
/-! DEFINITION. The statements for the provers: first the forms several of them share, then one `def` per statement. A
docstring names the rules of spec/ a statement formalises. -/

namespace Sys2Proof.Statements

open Sys2Proof.Machine

/-- From `s` to `t` the only writes were `x[r] <- v` (none for `r0`) and `pc <- target`: every register, every byte of memory,
and everything else the machine holds is said. -/
structure Wrote (s t : State) (r : Reg) (v target : Word) : Prop where
  regs : ∀ x, t.reg x = if x = r ∧ r ≠ 0#5 then v else s.reg x
  pc : t.pc = target
  memory : ∀ a, t.memory.read a = s.memory.read a
  rest : { t with regs := s.regs, pc := s.pc } = s

/-- From `s` to `t` the only write was `pc <- target`. -/
structure Went (s t : State) (target : Word) : Prop where
  regs : ∀ x, t.reg x = s.reg x
  pc : t.pc = target
  memory : ∀ a, t.memory.read a = s.memory.read a
  rest : { t with pc := s.pc } = s

/-- From `s` to `t` the only writes were the low `n` bytes of `v` to memory from address `a`, and `pc <- pc + 4`. -/
structure Stored (s t : State) (n a : Nat) (v : Word) : Prop where
  regs : ∀ x, t.reg x = s.reg x
  pc : t.pc = s.pc + 4#32
  inside : ∀ i, i < n → t.memory.read (a + i) = (v >>> (8 * i)).setWidth 8
  outside : ∀ x, x < a ∨ a + n ≤ x → t.memory.read x = s.memory.read x
  rest : { t with memory := s.memory, pc := s.pc } = s

/-- A three-register R-type instruction: its encoding, and that it always writes `f x[A] x[B]` to `x[C]`. -/
def RegisterOp (opx : BitVec 6) (mk : Reg → Reg → Reg → Instr) (f : Word → Word → Word) : Prop :=
  (∀ a b c, decode (encodeR opx a b c 0#5) = .ok (mk c a b)) ∧
    ∀ rC rA rB s, ∃ t, exec (mk rC rA rB) s = .next t ∧ Wrote s t rC (f (s.reg rA) (s.reg rB)) (s.pc + 4#32)

/-- An I-type instruction with a result: its encoding, and that it always writes `f x[A] IMM16` to `x[B]`. -/
def ImmediateOp (op : BitVec 6) (mk : Reg → Reg → BitVec 16 → Instr) (f : Word → BitVec 16 → Word) : Prop :=
  (∀ a b imm, decode (encodeI op a b imm) = .ok (mk b a imm)) ∧
    ∀ rB rA imm s, ∃ t, exec (mk rB rA imm) s = .next t ∧ Wrote s t rB (f (s.reg rA) imm) (s.pc + 4#32)

/-- A shift or rotate by an immediate count: its encoding, and that it always writes `f x[A] IMM5` to `x[C]`. -/
def ShiftOp (opx : BitVec 6) (mk : Reg → Reg → BitVec 5 → Instr) (f : Word → Nat → Word) : Prop :=
  (∀ a c imm, decode (encodeR opx a 0#5 c imm) = .ok (mk c a imm)) ∧
    ∀ rC rA imm s, ∃ t, exec (mk rC rA imm) s = .next t ∧ Wrote s t rC (f (s.reg rA) imm.toNat) (s.pc + 4#32)

/-- A three-register instruction that `has` says the core implements: with the hardware its result, without it the
unimplemented instruction exception. -/
def HardwareOp (opx : BitVec 6) (mk : Reg → Reg → Reg → Instr) (has : Config → Bool) (f : Word → Word → Word) : Prop :=
  (∀ a b c, decode (encodeR opx a b c 0#5) = .ok (mk c a b)) ∧
    ∀ rC rA rB s,
      (has s.config = true → ∃ t, exec (mk rC rA rB) s = .next t ∧
        Wrote s t rC (f (s.reg rA) (s.reg rB)) (s.pc + 4#32)) ∧
      (has s.config = false → exec (mk rC rA rB) s = .next (takeException .unimplementedInstr s))

/-- A data access of kind `k` and `n` bytes at `ea` reaches memory at `pa` and no data cache answers it. -/
structure ReachesMemory (k : AccessKind) (n : Nat) (io : Bool) (ea : Word) (s : State) (pa : Word) (c : Bool) : Prop where
  address : dataAddr k n ea s = .ok (pa, c)
  mapped : allMemory s.config pa.toNat n = true
  uncached : s.config.dcache = none ∨ c = false ∨ io = true

/-- A load: its encoding, and the value it writes when its access reaches memory. -/
def LoadOp (op : BitVec 6) (mk : Reg → Reg → BitVec 16 → Instr) (n : Nat) (io : Bool) (value : Memory → Nat → Word) : Prop :=
  (∀ a b imm, decode (encodeI op a b imm) = .ok (mk b a imm)) ∧
    ∀ rB rA imm s pa c, ReachesMemory .load n io (s.reg rA + imm.signExtend 32) s pa c →
      ∃ t, exec (mk rB rA imm) s = .next t ∧ Wrote s t rB (value s.memory pa.toNat) (s.pc + 4#32)

/-- A store: its encoding, and the bytes it writes when its access reaches memory. -/
def StoreOp (op : BitVec 6) (mk : Reg → Reg → BitVec 16 → Instr) (n : Nat) (io : Bool) : Prop :=
  (∀ a b imm, decode (encodeI op a b imm) = .ok (mk b a imm)) ∧
    ∀ rB rA imm s pa c, s.memory.wf = true → ReachesMemory .store n io (s.reg rA + imm.signExtend 32) s pa c →
      ∃ t, exec (mk rB rA imm) s = .next t ∧ Stored s t n pa.toNat (s.reg rB)

/-- The byte, half-word and word at an address, little endian. -/
def byteAt (m : Memory) (a : Nat) : BitVec 8 := m.read a

/-- The half-word at an address: the more significant byte is at the higher address. -/
def halfAt (m : Memory) (a : Nat) : BitVec 16 := m.read (a + 1) ++ m.read a

/-- The word at an address: more significant bytes are at higher addresses. -/
def wordAt (m : Memory) (a : Nat) : Word := m.read (a + 3) ++ m.read (a + 2) ++ m.read (a + 1) ++ m.read a

/-- A data access goes through a data cache of geometry `g`, and no access has cached its line under another index: only a
reset may have left one there. -/
structure ReachesCache (k : AccessKind) (n : Nat) (ea : Word) (s : State) (pa : Word) (g : CacheGeometry) : Prop where
  address : dataAddr k n ea s = .ok (pa, true)
  mapped : allMemory s.config pa.toNat n = true
  cached : s.config.dcache = some g
  alone : ∀ l ∈ s.dcache, l.base = lineBase g pa → l.index ≠ cacheIndex g ea → l.origin = .reset

/-- A cacheable load: a present line gives the value and nothing else changes; a miss reads memory and at most puts the line of
its address, as memory holds it, into the cache. -/
def CachedLoadOp (mk : Reg → Reg → BitVec 16 → Instr) (n : Nat) (value : Memory → Nat → Word) : Prop :=
  ∀ rB rA imm s pa g, ReachesCache .load n (s.reg rA + imm.signExtend 32) s pa g →
    (∀ l, findLine s.dcache (cacheIndex g (s.reg rA + imm.signExtend 32)) (lineBase g pa) = some l →
      ∃ t, exec (mk rB rA imm) s = .next t ∧ Wrote s t rB (value l.bytes pa.toNat) (s.pc + 4#32)) ∧
    (findLine s.dcache (cacheIndex g (s.reg rA + imm.signExtend 32)) (lineBase g pa) = none →
      ∃ t, exec (mk rB rA imm) s = .next t ∧
        (t.dcache = s.dcache ∨ t.dcache = putLine s.dcache
          (fillLine g (cacheIndex g (s.reg rA + imm.signExtend 32)) (lineBase g pa) s)) ∧
        Wrote { s with dcache := t.dcache } t rB (value s.memory pa.toNat) (s.pc + 4#32))

/-- The byte that a cacheable access sees: the line's where one is present under the index and line address, else memory's. -/
def seenByte (s : State) (index : Nat) (base : Word) (a : Nat) : Byte :=
  match findLine s.dcache index base with
  | some l => l.bytes.read a
  | none => s.memory.read a

/-- From `s` to `t` a cacheable store of the low `n` bytes of `v` at `pa`, through the line of this index and base: a cacheable
access sees the bytes, and the line's others as before; a present line stays and is dirty; the other lines stay; memory changes
at most at the addressed bytes; nothing else changes but `pc`. -/
structure StoredInCache (s t : State) (g : CacheGeometry) (n index : Nat) (pa base v : Word) : Prop where
  regs : ∀ x, t.reg x = s.reg x
  pc : t.pc = s.pc + 4#32
  inside : ∀ i, i < n → seenByte t index base (pa.toNat + i) = (v >>> (8 * i)).setWidth 8
  line : ∀ a, base.toNat ≤ a → a < base.toNat + lineBytes g → (a < pa.toNat ∨ pa.toNat + n ≤ a) →
    seenByte t index base a = seenByte s index base a
  stays : findLine t.dcache index base = none → findLine s.dcache index base = none
  dirty : ∀ l, findLine t.dcache index base = some l → l.dirty = true
  others : ∀ l, ¬(l.index = index ∧ l.base = base) → (l ∈ t.dcache ↔ l ∈ s.dcache)
  outside : ∀ a, a < pa.toNat ∨ pa.toNat + n ≤ a → t.memory.read a = s.memory.read a
  rest : { t with memory := s.memory, dcache := s.dcache, pc := s.pc } = s

/-- A cacheable store completes as `StoredInCache` says; and a cacheable load of the same bytes after it completes and gives what
was stored. -/
def CachedStoreLoad (store load : Reg → Reg → BitVec 16 → Instr) (n : Nat) (stored : Word → Word) : Prop :=
  ∀ rB rA imm s pa g, s.Inv → ReachesCache .store n (s.reg rA + imm.signExtend 32) s pa g →
    ∃ t, exec (store rB rA imm) s = .next t ∧
      StoredInCache s t g n (cacheIndex g (s.reg rA + imm.signExtend 32)) pa (lineBase g pa) (s.reg rB) ∧
      ∀ rX, ReachesCache .load n (s.reg rA + imm.signExtend 32) s pa g → ∃ u, exec (load rX rA imm) t = .next u ∧
        ∀ x, u.reg x = if x = rX ∧ rX ≠ 0#5 then stored (s.reg rB) else s.reg x

/-- A plain load or store of a line that an access has cached under another index stops. -/
def AliasStops (mk : Reg → Reg → BitVec 16 → Instr) (k : AccessKind) (n : Nat) : Prop :=
  ∀ rB rA imm s pa g l, dataAddr k n (s.reg rA + imm.signExtend 32) s = .ok (pa, true) → s.config.dcache = some g →
    l ∈ s.dcache → l.base = lineBase g pa → l.index ≠ cacheIndex g (s.reg rA + imm.signExtend 32) → l.origin ≠ .reset →
    exec (mk rB rA imm) s = .fault .virtualAlias

/-- An access of `n` bytes at `pa` goes to the bus: no data cache answers it, or the data cache holds no line of its address. -/
def GoesToBus (s : State) (pa : Word) (c io : Bool) : Prop :=
  s.config.dcache = none ∨ c = false ∨ io = true ∨ ∃ g, s.config.dcache = some g ∧ ∀ l ∈ s.dcache, l.base ≠ lineBase g pa

/-- A load or store on the bus of `n` bytes, one of which nothing answers, stops. -/
def UnmappedStops (mk : Reg → Reg → BitVec 16 → Instr) (k : AccessKind) (n : Nat) (io : Bool) : Prop :=
  ∀ rB rA imm s pa c, dataAddr k n (s.reg rA + imm.signExtend 32) s = .ok (pa, c) → GoesToBus s pa c io →
    (∃ i, i < n ∧ targetAt s.config (pa.toNat + i) = none) → exec (mk rB rA imm) s = .fault .unmappedAddress

/-- Something answers each of the `n` bytes at `pa`, and a peripheral one of them. -/
def PeripheralAnswers (c : Config) (pa : Word) (n : Nat) : Prop :=
  (∀ i, i < n → targetAt c (pa.toNat + i) ≠ none) ∧ ∃ i, i < n ∧ targetAt c (pa.toNat + i) = some .peripheral

/-- An uncached load that a peripheral answers completes with some value, which goes to `x[B]` extended; an I/O load makes one bus
cycle with it. -/
def PeripheralLoad (mk : Reg → Reg → BitVec 16 → Instr) (n : Nat) (io : Bool) (ext : Word → Word) : Prop :=
  ∀ rB rA imm s pa c, dataAddr .load n (s.reg rA + imm.signExtend 32) s = .ok (pa, c) →
    (s.config.dcache = none ∨ c = false ∨ io = true) → PeripheralAnswers s.config pa n →
    ∃ t w, exec (mk rB rA imm) s = .next t ∧ w.toNat < 2 ^ (8 * n) ∧
      Wrote { s with deviceCycles := if io then DeviceCycle.mk pa n false w :: s.deviceCycles else s.deviceCycles } t rB (ext w)
        (s.pc + 4#32)

/-- An uncached store that a peripheral answers completes, an I/O store with one bus cycle of the low bytes of `x[B]`; of the bytes
addressed, those that memory answers are written, and no other byte of memory changes. -/
def PeripheralStore (mk : Reg → Reg → BitVec 16 → Instr) (n : Nat) (io : Bool) : Prop :=
  ∀ rB rA imm s pa c, s.memory.wf = true → dataAddr .store n (s.reg rA + imm.signExtend 32) s = .ok (pa, c) →
    (s.config.dcache = none ∨ c = false ∨ io = true) → PeripheralAnswers s.config pa n →
    ∃ t, exec (mk rB rA imm) s = .next t ∧ t.pc = s.pc + 4#32 ∧ (∀ x, t.reg x = s.reg x) ∧
      t.deviceCycles = (if io then
        DeviceCycle.mk pa n true (BitVec.ofNat 32 ((s.reg rB).toNat % 2 ^ (8 * n))) :: s.deviceCycles else s.deviceCycles) ∧
      (∀ i, i < n → targetAt s.config (pa.toNat + i) = some .memory →
        t.memory.read (pa.toNat + i) = ((s.reg rB) >>> (8 * i)).setWidth 8) ∧
      (∀ a, a < pa.toNat ∨ pa.toNat + n ≤ a ∨ targetAt s.config a ≠ some .memory → t.memory.read a = s.memory.read a) ∧
      { t with memory := s.memory, deviceCycles := s.deviceCycles, pc := s.pc } = s

/-- An instruction whose data access raises takes that exception from the state before it, and one whose access is undefined
stops with that fault. -/
def AccessStops (mk : Reg → Reg → BitVec 16 → Instr) (k : AccessKind) (n : Nat) : Prop :=
  ∀ rB rA imm s,
    (∀ e, dataAddr k n (s.reg rA + imm.signExtend 32) s = .error (.exc e) →
      exec (mk rB rA imm) s = .next (takeException e s)) ∧
    ∀ f, dataAddr k n (s.reg rA + imm.signExtend 32) s = .error (.fault f) → exec (mk rB rA imm) s = .fault f

/-- A transfer to `target` by the instruction `i`: an aligned target is gone to, `t` being what `done` says; a misaligned one
raises with `ILLEGAL_MEM_CHECK` and is a fault without. -/
def TransferOp (i : Instr) (s : State) (target : Word) (done : State → Prop) : Prop :=
  (target.toNat % 4 = 0 → ∃ t, exec i s = .next t ∧ done t) ∧
    (target.toNat % 4 ≠ 0 → s.config.illegalMemCheck = true →
      exec i s = .next (takeException (.misalignedDestination target) s)) ∧
    (target.toNat % 4 ≠ 0 → s.config.illegalMemCheck = false → exec i s = .fault .misalignedTarget)

/-- A conditional branch: its encoding, the transfer to `pc + 4 + sext(IMM16)` when `cond` holds, and falling through, with no
check of the target, when it does not. -/
def BranchOp (op : BitVec 6) (mk : Reg → Reg → BitVec 16 → Instr) (cond : Word → Word → Prop) : Prop :=
  (∀ a b imm, decode (encodeI op a b imm) = .ok (mk a b imm)) ∧
    ∀ rA rB imm s,
      (cond (s.reg rA) (s.reg rB) →
        TransferOp (mk rA rB imm) s (s.pc + 4#32 + imm.signExtend 32)
          (fun t => Went s t (s.pc + 4#32 + imm.signExtend 32))) ∧
      (¬cond (s.reg rA) (s.reg rB) → ∃ t, exec (mk rA rB imm) s = .next t ∧ Went s t (s.pc + 4#32))

/-- The machine takes an instruction at this boundary: no input, interrupt or illegal status comes before it. -/
structure RunsInstruction (s : State) : Prop where
  noReset : s.inputs.reset = false
  legal : s.statusIllegal = false
  noBreak : s.breakRequested = false
  noProcessorReset : s.inputs.processorReset = false
  noInterrupt : s.takesInterrupt = false

/-- No dirty line of the data cache holds the address. -/
def NotDirty (g : CacheGeometry) (s : State) (a : Nat) : Prop :=
  ∀ l ∈ s.dcache, l.dirty = true → a < l.base.toNat ∨ l.base.toNat + lineBytes g ≤ a

/-- From `t` to `u` the caches acted by themselves. The data cache only lost lines or made dirty ones clean; a byte of memory that
no dirty line holds stays; a dirty line, if no other holds its address, is either still there or in memory, so no write is
lost; without a data cache memory stays. An instruction-cache line that was not there before was read from memory. -/
structure CachesDrift (t u : State) : Prop where
  data : ∀ l ∈ u.dcache, ∃ k ∈ t.dcache, l = k ∨ l = { k with dirty := false }
  stays : t.config.dcache = none → u.memory = t.memory
  bytes : ∀ g, t.config.dcache = some g → ∀ a, NotDirty g t a → u.memory.read a = t.memory.read a
  written : ∀ g, t.config.dcache = some g → ∀ l ∈ t.dcache, l.dirty = true →
    (∀ k ∈ t.dcache, k.dirty = true → k.base = l.base → k = l) → l ∈ u.dcache ∨
      ∀ a, l.base.toNat ≤ a → a < l.base.toNat + lineBytes g → u.memory.read a = l.bytes.read a
  code : ∀ g, t.config.icache = some g → ∀ l ∈ u.icache, l ∈ t.icache ∨ (l.dirty = false ∧ l.origin = .memory ∧
    ∀ a, l.base.toNat ≤ a → a < l.base.toNat + lineBytes g → (∀ d, t.config.dcache = some d → NotDirty d t a) →
      l.bytes.read a = t.memory.read a)

/-- A word fetched ahead is the one that the instruction cache holds for its addresses, if the line is present and not what a
reset left, else the word in memory. -/
def FetchedFrom (s : State) (f : FetchedWord) : Prop :=
  allMemory s.config f.addr.toNat 4 = true ∧
    (s.config.icache = none → f.word = wordAt s.memory f.addr.toNat) ∧
    ∀ g, s.config.icache = some g →
      (∀ l, findLine s.icache (cacheIndex g f.va) (lineBase g f.addr) = some l →
        l.origin = .memory ∧ f.word = wordAt l.bytes f.addr.toNat) ∧
      (findLine s.icache (cacheIndex g f.va) (lineBase g f.addr) = none → f.word = wordAt s.memory f.addr.toNat)

/-- What a step does with a fetched word of undefined encoding, `isInternal` saying whether the core uses it internally. -/
def IllegalStep (s s' : State) (isInternal : Prop) : Prop :=
  (¬isInternal → s'.config.illegalInsnCheck = true → step s = .next (endBoundary (takeException .illegalInstr s'))) ∧
    (¬isInternal → s'.config.illegalInsnCheck = false → step s = .fault .undefinedEncoding) ∧
    (isInternal → step s = .refused .internalEncoding)

/-- Every control register, the TLB, the MPU regions and `in_debug` are the same: what user mode may not touch. -/
def SameSystem (s t : State) : Prop :=
  t.config = s.config ∧ t.status = s.status ∧ t.estatus = s.estatus ∧ t.bstatus = s.bstatus ∧ t.ienable = s.ienable ∧
    t.exceptionReg = s.exceptionReg ∧ t.pteaddr = s.pteaddr ∧ t.tlbacc = s.tlbacc ∧ t.tlbmisc = s.tlbmisc ∧
    t.badaddr = s.badaddr ∧ t.configReg = s.configReg ∧ t.mpubase = s.mpubase ∧ t.mpuacc = s.mpuacc ∧ t.tlb = s.tlb ∧
    t.mpu = s.mpu ∧ t.inDebug = s.inDebug

/-- The `rdctl` of register `n` completes in supervisor mode and writes `value s` to `x[C]`. -/
def ControlRead (n : BitVec 5) (value : State → Word) : Prop :=
  ∀ rC s, s.userForbidden = false →
    ∃ t, exec (.rdctl rC n) s = .next t ∧ Wrote s t rC (value s) (s.pc + 4#32)

/-- The `wrctl` of register `n` completes in supervisor mode, where `ok` holds, with exactly the writes of `write` besides
`pc <- pc + 4`; no general register and no byte of memory changes. -/
def ControlWrite (n : BitVec 5) (ok : State → Prop) (write : Word → State → State) : Prop :=
  ∀ rA s, s.userForbidden = false → ok s →
    ∃ t, exec (.wrctl n rA) s = .next t ∧ t = { write (s.reg rA) s with pc := s.pc + 4#32 } ∧
      (∀ x, t.reg x = s.reg x) ∧ ∀ a, t.memory.read a = s.memory.read a

/-- The entry `e` of way `w` matches the virtual address: its line's position, its tag, and G or the current PID
(20_memory.md R142, R143). -/
def WayMatches (m : MmuConfig) (s : State) (va : Word) (w : Nat) (e : TlbEntry) : Prop :=
  w < m.tlbWays ∧
    s.tlb[va.toNat / 4096 % (m.tlbEntries / m.tlbWays) * m.tlbWays + w]? = some e ∧
    e.tag.toNat = va.toNat / 4096 / (m.tlbEntries / m.tlbWays) ∧ (e.g = true ∨ e.pid = s.pid)

/-- Only way `w` matches. -/
def OnlyWay (m : MmuConfig) (s : State) (va : Word) (w : Nat) (e : TlbEntry) : Prop :=
  WayMatches m s va w e ∧ ∀ w' e', WayMatches m s va w' e' → w' = w

/-- `wrctl tlbmisc` with RD = 1 completes with the TLB entry `e` read (20_memory.md R150). -/
def TlbReadOp (m : MmuConfig) (rA : Reg) (s : State) (e : TlbEntry) : Prop :=
  ∃ t, exec (.wrctl 10#5 rA) s = .next t ∧
    t.way = (s.reg rA).extractLsb' 20 4 &&& wayMask m ∧ t.we = (s.reg rA).getLsbD 18 ∧ t.tlbmisc.getLsbD 19 = false ∧
    t.pid = e.pid &&& pidMask m ∧ t.tlbmisc.extractLsb' 0 4 = s.tlbmisc.extractLsb' 0 4 ∧
    t.pteVpn = BitVec.ofNat 20 (e.tag.toNat * (m.tlbEntries / m.tlbWays) + s.pteVpn.toNat % (m.tlbEntries / m.tlbWays)) ∧
    t.pteaddr.extractLsb' 22 10 = s.pteaddr.extractLsb' 22 10 ∧
    t.tlbacc = (0#7 ++ BitVec.ofBool e.c ++ BitVec.ofBool e.r ++ BitVec.ofBool e.w ++ BitVec.ofBool e.x ++
      BitVec.ofBool e.g ++ (e.pfn &&& pfnMask m)) ∧
    t.pc = s.pc + 4#32 ∧ (∀ x, t.reg x = s.reg x) ∧ (∀ a, t.memory.read a = s.memory.read a) ∧ t.mpuStale = none ∧
    t.prefetched = [] ∧
    { t with
      tlbmisc := s.tlbmisc, pteaddr := s.pteaddr, tlbacc := s.tlbacc, pc := s.pc, mpuStale := s.mpuStale,
      prefetched := s.prefetched } = s

/-- `wrctl mpuacc` with RD = 1 completes with the region `r` read (20_memory.md R176). -/
def RegionReadOp (m : MpuConfig) (rA : Reg) (s : State) (r : MpuRegion) : Prop :=
  ∃ t, exec (.wrctl 15#5 rA) s = .next t ∧
    t.mpubase = (0#1 ++ r.base ++ s.mpubase.extractLsb' 0 6) &&& mpubaseMask s.config m ∧
    t.mpuacc = (r.bound ++ BitVec.ofBool r.c ++ r.perm ++ 0#2) &&& mpuaccStored s.config m s.selectsData ∧
    t.pc = s.pc + 4#32 ∧ (∀ x, t.reg x = s.reg x) ∧ (∀ a, t.memory.read a = s.memory.read a) ∧
    { t with mpubase := s.mpubase, mpuacc := s.mpuacc, pc := s.pc } = s

/-- The region covers the address (20_memory.md R171, R172). -/
def RegionCovers (m : MpuConfig) (r : MpuRegion) (a : Word) : Prop :=
  if m.useLimit then r.base.toNat * 64 ≤ a.toNat ∧ a.toNat < r.bound.toNat * 64
  else ∀ i, i < 25 → (a.getLsbD (i + 6) && r.bound.getLsbD i) = r.base.getLsbD i

/-- The region of lowest index that covers the address inside the address space (20_memory.md R163, R166). -/
def DecidingRegion (c : Config) (m : MpuConfig) (regions : List MpuRegion) (a : Word) (i : Nat) (r : MpuRegion) : Prop :=
  a.toNat < 2 ^ c.addrBits ∧ regions[i]? = some r ∧ RegionCovers m r a ∧
    ∀ j r', j < i → regions[j]? = some r' → ¬RegionCovers m r' a

/-- The PERM values that allow an access (10_state.md R82); `flushda` and `initda` by `MPU_CACHEOP_PERM`. -/
def AllowedPerms (m : MpuConfig) (k : AccessKind) (user : Bool) : List (BitVec 3) :=
  match k, m.cacheOpPermission, user with
  | .fetch, _, false => [1, 2]
  | .fetch, _, true => [2]
  | .load, _, false => [1, 2, 4, 5, 6]
  | .load, _, true => [2, 5, 6]
  | .store, _, false => [4, 5, 6]
  | .store, _, true => [6]
  | _, .none, _ => [0, 1, 2, 4, 5, 6]
  | _, .read, false => [1, 2, 4, 5, 6]
  | _, .read, true => [2, 5, 6]
  | _, .write, false => [4, 5, 6]
  | _, .write, true => [6]

/-- The PERM values the tables list (10_state.md R82). -/
def ListedPerms (k : AccessKind) : List (BitVec 3) := if k = .fetch then [0, 1, 2] else [0, 1, 2, 4, 5, 6]

/-- The effect of a cache instruction that selects data-cache lines by `p` and, if `writes`, writes dirty ones back: it
completes, no register changes, exactly the selected lines go, bytes outside the selected dirty lines stay, and a
selected dirty line that no other selected dirty one overlaps is in memory. -/
def DataCacheOp (i : Instr) (s : State) (g : CacheGeometry) (p : CacheLine → Bool) (writes : Bool) : Prop :=
  ∃ t, exec i s = .next t ∧ t.pc = s.pc + 4#32 ∧ (∀ x, t.reg x = s.reg x) ∧
    (∀ l, l ∈ t.dcache ↔ l ∈ s.dcache ∧ p l = false) ∧
    (∀ a, (writes = true → ∀ l ∈ s.dcache, p l = true → l.dirty = true →
      a < l.base.toNat ∨ l.base.toNat + lineBytes g ≤ a) → t.memory.read a = s.memory.read a) ∧
    (writes = true → ∀ l ∈ s.dcache, p l = true → l.dirty = true →
      (∀ k ∈ s.dcache, p k = true → k.dirty = true → k ≠ l →
        k.base.toNat + lineBytes g ≤ l.base.toNat ∨ l.base.toNat + lineBytes g ≤ k.base.toNat) →
      ∀ a, l.base.toNat ≤ a → a < l.base.toNat + lineBytes g → t.memory.read a = l.bytes.read a) ∧
    { t with memory := s.memory, dcache := s.dcache, pc := s.pc } = s

/-- The effect of a cache instruction that selects instruction-cache lines by `p`. -/
def InstrCacheOp (i : Instr) (s : State) (p : CacheLine → Bool) : Prop :=
  ∃ t, exec i s = .next t ∧ t.pc = s.pc + 4#32 ∧ (∀ x, t.reg x = s.reg x) ∧ (∀ a, t.memory.read a = s.memory.read a) ∧
    (∀ l, l ∈ t.icache ↔ l ∈ s.icache ∧ p l = false) ∧ { t with icache := s.icache, pc := s.pc } = s

end Sys2Proof.Statements

open Sys2Proof Sys2Proof.Machine Sys2Proof.Statements

/-! ## Encoding -/

/-- Decoding the word the encoder writes gives the instruction back, with every operand at every value its field admits
(30_encoding.md R200 to R211). Encodings: log 37. -/
def Obligations.DecodeOfEncode : Prop := ∀ i : Instr, decode (encode i) = .ok i

/-- Every accepted word is the encoding of what it decodes to, but for the C field of `bret`, which is not decoded
(30_encoding.md R211). Encodings: log 37. -/
def Obligations.EncodeOfDecode : Prop :=
  ∀ w i, decode w = .ok i → encode i = w ∨ (i = .bret ∧ encode i = w &&& 0xFFC1FFFF#32)

/-- The undefined encodings are exactly the dashes of 30_encoding.md R207 and R208, and OPX is looked at only under OP 0x3A
(R210). Encodings: log 37. -/
def Obligations.UndefinedEncodings : Prop :=
  ∀ w,
    (decode w = .error (.undefinedOp (fieldOp w)) ↔
      fieldOp w ∈ [0x02#6, 0x09#6, 0x0A#6, 0x11#6, 0x12#6, 0x19#6, 0x1A#6, 0x1D#6, 0x1F#6, 0x21#6, 0x22#6, 0x29#6, 0x2A#6,
        0x31#6, 0x38#6, 0x39#6, 0x3D#6, 0x3E#6, 0x3F#6]) ∧
    (decode w = .error (.undefinedOpx (fieldOpx w)) ↔
      fieldOp w = 0x3A#6 ∧
        fieldOpx w ∈ [0x00#6, 0x0A#6, 0x0F#6, 0x11#6, 0x14#6, 0x15#6, 0x19#6, 0x21#6, 0x22#6, 0x23#6, 0x2A#6, 0x2B#6,
          0x2C#6, 0x2F#6, 0x32#6, 0x33#6, 0x35#6, 0x37#6, 0x38#6, 0x3C#6, 0x3D#6, 0x3E#6, 0x3F#6])

/-- Words written out from the encoding tables decode to their instructions (30_encoding.md R201 to R204, R220). Encodings:
log 37. -/
def Obligations.DecodeWords : Prop :=
  decode 0x08FFFFC4#32 = .ok (.addi 3 1 0xFFFF) ∧ decode 0x0887883A#32 = .ok (.add 3 1 2) ∧
    decode 0x0806913A#32 = .ok (.slli 3 1 4) ∧ decode 0x00020000#32 = .ok (.call 0x800) ∧
    decode 0x21400115#32 = .ok (.stw 5 4 4) ∧ decode 0x0880021E#32 = .ok (.bne 1 2 8) ∧
    decode 0x1001703A#32 = .ok (.wrctl 0 2) ∧ decode 0x10FFFFE0#32 = .ok (.cmpeqi 3 2 0xFFFF) ∧
    decode 0x1905C172#32 = .ok (.custom 5 2 3 4 true true true) ∧ decode 0xF800283A#32 = .ok .ret ∧
    decode 0xEF80083A#32 = .ok .eret ∧ decode 0xF000483A#32 = .ok .bret ∧ decode 0x003B683A#32 = .ok (.trap 0) ∧
    decode 0x003DA07A#32 = .ok (.brk 1) ∧ decode 0x0000203A#32 = .ok .flushp ∧ decode 0x0001B03A#32 = .ok .sync

/-! ## The step, reset and the invariant -/

/-- A step that nothing precedes runs the instruction its fetched word decodes to, then ends the boundary. The end of the boundary
changes only memory and the caches, as `CachesDrift` says (R113, R114; log 30), the words fetched ahead, no more than the
pipeline has room for, each one it held before or `FetchedFrom` the state then (log 31); and the inputs, their future and the
tick, which are the model's choice (logs 11, 12). Without caches memory stays. -/
def Obligations.StepRunsInstruction : Prop :=
  (∀ s s' w i, RunsInstruction s → fetchWord s = .ok (w, s') → decode w = .ok i → step s = endResult (exec i s')) ∧
    (∀ t, t.config.icache = none → t.config.dcache = none → ∃ ahead,
      endBoundary t =
        { t with prefetched := ahead, inputs := t.future.headD t.inputs, future := t.future.tail, tick := t.tick + 1 } ∧
      ahead.length ≤ t.config.pipelineDepth ∧
      ∀ f ∈ ahead, f ∈ t.prefetched ∨
        (allMemory t.config f.addr.toNat 4 = true ∧ f.word = wordAt t.memory f.addr.toNat)) ∧
    ∀ t, t.Inv → ∃ u, endBoundary t = u ∧ CachesDrift t u ∧ u.prefetched.length ≤ t.config.pipelineDepth ∧
      (∀ f ∈ u.prefetched, f ∈ t.prefetched ∨ FetchedFrom u f) ∧
      u.inputs = t.future.headD t.inputs ∧ u.future = t.future.tail ∧ u.tick = t.tick + 1 ∧
      { u with
        memory := t.memory, dcache := t.dcache, icache := t.icache, prefetched := t.prefetched, inputs := t.inputs,
        future := t.future, tick := t.tick } = t

/-- The word a step runs (20_memory.md R104, R114, R118, R121): one fetched ahead for `pc` and its physical address, which
then leaves the pipeline (log 31); else without an instruction cache the little-endian word in memory; with one, the present
line's word, memory not being read, or on a miss memory's word, with at most the line put in the cache (log 30). -/
def Obligations.StepFetches : Prop :=
  (∀ s pa f i, RunsInstruction s → fetchAddr s = .ok pa → s.prefetched.find? (fun f => f.va == s.pc && f.addr == pa) = some f → decode f.word = .ok i →
    step s = endResult (exec i { s with prefetched := s.prefetched.filter fun f => !(f.va == s.pc && f.addr == pa) })) ∧
  ∀ s pa i, RunsInstruction s → fetchAddr s = .ok pa → (∀ f ∈ s.prefetched, ¬(f.va = s.pc ∧ f.addr = pa)) →
    (s.config.icache = none → allMemory s.config pa.toNat 4 = true → decode (wordAt s.memory pa.toNat) = .ok i →
      step s = endResult (exec i s)) ∧
    ∀ g, s.config.icache = some g →
      (∀ l, findLine s.icache (cacheIndex g s.pc) (lineBase g pa) = some l → decode (wordAt l.bytes pa.toNat) = .ok i →
        step s = endResult (exec i s)) ∧
      (findLine s.icache (cacheIndex g s.pc) (lineBase g pa) = none → allMemory s.config pa.toNat 4 = true →
        decode (wordAt s.memory pa.toNat) = .ok i →
        ∃ lines, (lines = s.icache ∨
            lines = putLine s.icache (fillLine g (cacheIndex g s.pc) (lineBase g pa) s)) ∧
          step s = endResult (exec i { s with icache := lines }))

/-- What a reset leaves, at power-on and in mid-run (10_state.md R91, 70_reset_and_hazards.md R530): `status`, `pc`, `r0`,
`config.PE` and `in_debug` (decision D21, log 39), `tlbacc` and `tlbmisc` by their tables (log 5), and no instruction-cache line
under the index of the reset vector (that the line of R530 is every line of that index is log 9, the index bits log 30). With
an MMU the vector is the kernel-partition alias, log 44. -/
def Obligations.ResetState : Prop :=
  (∀ c, (State.resetWith c).status = 0#32 ∧ (State.resetWith c).reg 0#5 = 0#32 ∧
    (State.resetWith c).pc = (if c.hasMmu then 0xC0000000#32 + c.resetVector else c.resetVector) ∧
    (State.resetWith c).pe = false ∧ (State.resetWith c).inDebug = false ∧ (State.resetWith c).tlbacc = 0#32 ∧
    (State.resetWith c).tlbmisc = 0#32 ∧ readControl 5#5 (State.resetWith c) = c.cpuid ∧
    ∀ g, c.icache = some g → ∀ l ∈ (State.resetWith c).icache, l.index ≠ cacheIndex g (State.resetWith c).pc) ∧
  ∀ s, s.inputs.reset = true → ∃ t, step s = .next t ∧ t.status = 0#32 ∧ t.reg 0#5 = 0#32 ∧
    t.pc = (if s.config.hasMmu then 0xC0000000#32 + s.config.resetVector else s.config.resetVector) ∧ t.pe = false ∧
    t.inDebug = false ∧ t.tlbacc = 0#32 ∧ t.tlbmisc = 0#32 ∧ readControl 5#5 t = s.config.cpuid ∧
    ∀ g, s.config.icache = some g → ∀ l ∈ t.icache, l.index ≠ cacheIndex g t.pc

/-- The invariant holds after power-on reset in every configuration the spec admits. -/
def Obligations.ResetInvariant : Prop := (∀ c, c.valid = true → (State.resetWith c).Inv) ∧ State.reset.Inv

/-- Every step keeps the invariant: memory canonical, `pc` a multiple of 4 (10_state.md R38), every control register and
region table within what exists (10_state.md R44 to R86), every TLB entry with the tag of a VPN of its line and within PID_BITS
and PFN_BITS (R85), and the caches and the pipeline within their size; and no step
changes the generation-time parameters (00_scope.md R7). -/
def Obligations.StepKeepsInvariant : Prop := ∀ s t, step s = .next t → t.config = s.config ∧ (s.Inv → t.Inv)

/-- `r0` reads as zero in every state and a write to it has no effect; any other register reads what was last written
(10_state.md R30, R31). -/
def Obligations.RegisterFile : Prop :=
  (∀ s : State, s.reg 0#5 = 0#32) ∧ (∀ (s : State) v, s.setReg 0#5 v = s) ∧
    ∀ (s : State) r x v, r ≠ 0#5 → (s.setReg r v).reg x = if x = r then v else s.reg x

/-! ## Data transfer -/

/-- The ten loads when the access reaches memory (40_data_transfer.md R254, R256, R258 to R261, R264 to R267). Encodings: log
37. -/
def Obligations.LoadResults : Prop :=
  LoadOp 0x17#6 .ldw 4 false wordAt ∧ LoadOp 0x37#6 .ldwio 4 true wordAt ∧
    LoadOp 0x07#6 .ldb 1 false (fun m a => (byteAt m a).signExtend 32) ∧
    LoadOp 0x03#6 .ldbu 1 false (fun m a => (byteAt m a).setWidth 32) ∧
    LoadOp 0x0F#6 .ldh 2 false (fun m a => (halfAt m a).signExtend 32) ∧
    LoadOp 0x0B#6 .ldhu 2 false (fun m a => (halfAt m a).setWidth 32) ∧
    LoadOp 0x27#6 .ldbio 1 true (fun m a => (byteAt m a).signExtend 32) ∧
    LoadOp 0x23#6 .ldbuio 1 true (fun m a => (byteAt m a).setWidth 32) ∧
    LoadOp 0x2F#6 .ldhio 2 true (fun m a => (halfAt m a).signExtend 32) ∧
    LoadOp 0x2B#6 .ldhuio 2 true (fun m a => (halfAt m a).setWidth 32)

/-- The six stores when the access reaches memory: exactly the addressed bytes change (40_data_transfer.md R251, R255, R257,
R262, R263, R268, R269). Encodings: log 37. -/
def Obligations.StoreResults : Prop :=
  StoreOp 0x15#6 .stw 4 false ∧ StoreOp 0x35#6 .stwio 4 true ∧ StoreOp 0x05#6 .stb 1 false ∧ StoreOp 0x0D#6 .sth 2 false ∧
    StoreOp 0x25#6 .stbio 1 true ∧ StoreOp 0x2D#6 .sthio 2 true

/-- The plain loads through a data cache (20_memory.md R113, R117). The abstract cache is log 30, its index bits too. -/
def Obligations.CachedLoads : Prop :=
  CachedLoadOp .ldw 4 wordAt ∧ CachedLoadOp .ldb 1 (fun m a => (byteAt m a).signExtend 32) ∧
    CachedLoadOp .ldbu 1 (fun m a => (byteAt m a).setWidth 32) ∧
    CachedLoadOp .ldh 2 (fun m a => (halfAt m a).signExtend 32) ∧
    CachedLoadOp .ldhu 2 (fun m a => (halfAt m a).setWidth 32)

/-- A plain store through a data cache of any geometry and write policy: what it changes and what it leaves, and that the processor
then reads what it wrote along that path (20_memory.md R113, R127 (a)). The abstract cache is log 30. -/
def Obligations.CachedStoreThenLoad : Prop :=
  CachedStoreLoad .stw .ldw 4 (fun v => v) ∧ CachedStoreLoad .sth .ldhu 2 (fun v => (v.setWidth 16).setWidth 32) ∧
    CachedStoreLoad .stb .ldbu 1 (fun v => (v.setWidth 8).setWidth 32)

/-- A data access that raises takes its exception from the state before the instruction, and one that is undefined stops:
the sixteen loads and stores and `flushda` (40_data_transfer.md R252, 46_other_control.md R418). -/
def Obligations.AccessExceptions : Prop :=
  AccessStops .ldw .load 4 ∧ AccessStops .ldwio .load 4 ∧ AccessStops .ldb .load 1 ∧ AccessStops .ldbu .load 1 ∧
    AccessStops .ldh .load 2 ∧ AccessStops .ldhu .load 2 ∧ AccessStops .ldbio .load 1 ∧ AccessStops .ldbuio .load 1 ∧
    AccessStops .ldhio .load 2 ∧ AccessStops .ldhuio .load 2 ∧ AccessStops .stw .store 4 ∧ AccessStops .stwio .store 4 ∧
    AccessStops .stb .store 1 ∧ AccessStops .sth .store 2 ∧ AccessStops .stbio .store 1 ∧ AccessStops .sthio .store 2 ∧
    AccessStops (fun _ rA imm => .flushda rA imm) .flushda 1

/-- `DataAddr` without an MMU and without an MPU (20_memory.md R106, R112, R120): the alignment check, then the address with
bit 31 stripped where it is the cache bypass. -/
def Obligations.DataAddressPlain : Prop :=
  ∀ k n ea s, s.config.protection = .none → k ≠ .fetch →
    (((k = .load ∨ k = .store) ∧ ea.toNat % n ≠ 0) →
      dataAddr k n ea s = if s.config.illegalMemCheck then .error (.exc (.misalignedDataAddress ea))
        else .error (.fault .misalignedAccess)) ∧
    (¬((k = .load ∨ k = .store) ∧ ea.toNat % n ≠ 0) →
      (s.config.bit31Bypass = true → dataAddr k n ea s = .ok (0#1 ++ ea.extractLsb' 0 31, !ea.getLsbD 31)) ∧
      (s.config.bit31Bypass = false → dataAddr k n ea s = .ok (ea, true)))

/-- A load, a store or a fetch on the bus, one byte of which nothing answers, stops (20_memory.md R108, 93 U5, log 18). One that
a peripheral answers goes on: some value is read, each I/O access is exactly one bus cycle of its width, and all else is as with
memory (R126, 40_data_transfer.md R251, R256, R257); the value is free, and the record of the cycles, which holds none of a
plain access (R125), is the model's own, logs 29, 54. -/
def Obligations.UnmappedAccess : Prop :=
  (UnmappedStops .ldw .load 4 false ∧ UnmappedStops .ldwio .load 4 true ∧ UnmappedStops .ldb .load 1 false ∧
    UnmappedStops .ldbu .load 1 false ∧ UnmappedStops .ldh .load 2 false ∧ UnmappedStops .ldhu .load 2 false ∧
    UnmappedStops .ldbio .load 1 true ∧ UnmappedStops .ldbuio .load 1 true ∧ UnmappedStops .ldhio .load 2 true ∧
    UnmappedStops .ldhuio .load 2 true ∧ UnmappedStops .stw .store 4 false ∧ UnmappedStops .stwio .store 4 true ∧
    UnmappedStops .stb .store 1 false ∧ UnmappedStops .sth .store 2 false ∧ UnmappedStops .stbio .store 1 true ∧
    UnmappedStops .sthio .store 2 true) ∧
  (PeripheralLoad .ldw 4 false (fun w => w) ∧ PeripheralLoad .ldwio 4 true (fun w => w) ∧
    PeripheralLoad .ldb 1 false (fun w => (w.setWidth 8).signExtend 32) ∧
    PeripheralLoad .ldbio 1 true (fun w => (w.setWidth 8).signExtend 32) ∧
    PeripheralLoad .ldbu 1 false (fun w => w) ∧ PeripheralLoad .ldbuio 1 true (fun w => w) ∧
    PeripheralLoad .ldh 2 false (fun w => (w.setWidth 16).signExtend 32) ∧
    PeripheralLoad .ldhio 2 true (fun w => (w.setWidth 16).signExtend 32) ∧
    PeripheralLoad .ldhu 2 false (fun w => w) ∧ PeripheralLoad .ldhuio 2 true (fun w => w)) ∧
  (PeripheralStore .stw 4 false ∧ PeripheralStore .stwio 4 true ∧ PeripheralStore .stb 1 false ∧
    PeripheralStore .stbio 1 true ∧ PeripheralStore .sth 2 false ∧ PeripheralStore .sthio 2 true) ∧
  ∀ s pa, fetchAddr s = .ok pa → (∀ f ∈ s.prefetched, ¬(f.va = s.pc ∧ f.addr = pa)) →
    (RunsInstruction s →
      (s.config.icache = none ∨ ∃ g, s.config.icache = some g ∧ ∀ l ∈ s.icache, l.base ≠ lineBase g pa) →
      (∃ i, i < 4 ∧ targetAt s.config (pa.toNat + i) = none) → step s = .fault .unmappedAddress) ∧
    (s.config.icache = none → PeripheralAnswers s.config pa 4 → ∃ w, fetchWord s = .ok (w, s))

/-- Only the stores and the two flushes of the data cache change memory; every other instruction, and every exception an
instruction takes, leaves every byte (40_data_transfer.md R250, 60_exceptions.md R479). -/
def Obligations.OnlyStoresWriteMemory : Prop :=
  ∀ i s t, exec i s = .next t →
    (∀ rB rA imm, i ≠ .stw rB rA imm ∧ i ≠ .stwio rB rA imm ∧ i ≠ .stb rB rA imm ∧ i ≠ .sth rB rA imm ∧
      i ≠ .stbio rB rA imm ∧ i ≠ .sthio rB rA imm ∧ i ≠ .flushd rA imm ∧ i ≠ .flushda rA imm) →
    ∀ a, t.memory.read a = s.memory.read a

/-! ## Arithmetic, comparison, shifts -/

/-- `and`, `or`, `xor`, `nor` (41_arithmetic_logical.md R282 to R285). Encodings: log 37. -/
def Obligations.LogicalRegister : Prop :=
  RegisterOp 0x0E#6 .and (fun a b => a &&& b) ∧ RegisterOp 0x16#6 .or (fun a b => a ||| b) ∧
    RegisterOp 0x1E#6 .xor (fun a b => a ^^^ b) ∧ RegisterOp 0x06#6 .nor (fun a b => ~~~(a ||| b))

/-- `andi`, `ori`, `xori`, `andhi`, `orhi`, `xorhi` (41_arithmetic_logical.md R286 to R291). Encodings: log 37. -/
def Obligations.LogicalImmediate : Prop :=
  ImmediateOp 0x0C#6 .andi (fun a imm => a &&& imm.setWidth 32) ∧ ImmediateOp 0x14#6 .ori (fun a imm => a ||| imm.setWidth 32) ∧
    ImmediateOp 0x1C#6 .xori (fun a imm => a ^^^ imm.setWidth 32) ∧
    ImmediateOp 0x2C#6 .andhi (fun a imm => a &&& (imm.setWidth 32 <<< 16)) ∧
    ImmediateOp 0x34#6 .orhi (fun a imm => a ||| (imm.setWidth 32 <<< 16)) ∧
    ImmediateOp 0x3C#6 .xorhi (fun a imm => a ^^^ (imm.setWidth 32 <<< 16))

/-- `add`, `sub`, `addi`: sums and differences modulo 2^32, nothing traps (41_arithmetic_logical.md R292, R293, R297).
Encodings: log 37. -/
def Obligations.AddSubtract : Prop :=
  RegisterOp 0x31#6 .add (fun a b => BitVec.ofNat 32 (a.toNat + b.toNat)) ∧
    RegisterOp 0x39#6 .sub (fun a b => BitVec.ofInt 32 (a.toInt - b.toInt)) ∧
    ImmediateOp 0x04#6 .addi (fun a imm => BitVec.ofInt 32 (a.toInt + imm.toInt))

/-- `mul` and `muli`: the low 32 bits of the product with `HW_MUL`, the unimplemented instruction exception without
(41_arithmetic_logical.md R294, R299). Encodings: log 37. -/
def Obligations.Multiply : Prop :=
  HardwareOp 0x27#6 .mul (·.hwMul) (fun a b => BitVec.ofNat 32 (a.toNat * b.toNat)) ∧
    (∀ a b imm, decode (encodeI 0x24#6 a b imm) = .ok (.muli b a imm)) ∧
    ∀ rB rA imm s,
      (s.config.hwMul = true → ∃ t, exec (.muli rB rA imm) s = .next t ∧
        Wrote s t rB (BitVec.ofInt 32 ((s.reg rA).toInt * imm.toInt)) (s.pc + 4#32)) ∧
      (s.config.hwMul = false → exec (.muli rB rA imm) s = .next (takeException .unimplementedInstr s))

/-- `mulxss`, `mulxuu`, `mulxsu`: the product divided by 2^32, rounded down, in 32 bits, with `HW_MULX`; the unimplemented
instruction exception without (41_arithmetic_logical.md R300 to R302). Encodings: log 37. -/
def Obligations.MultiplyHigh : Prop :=
  HardwareOp 0x1F#6 .mulxss (·.hwMulx) (fun a b => BitVec.ofInt 32 (a.toInt * b.toInt / 2 ^ 32)) ∧
    HardwareOp 0x07#6 .mulxuu (·.hwMulx) (fun a b => BitVec.ofNat 32 (a.toNat * b.toNat / 2 ^ 32)) ∧
    HardwareOp 0x17#6 .mulxsu (·.hwMulx) (fun a b => BitVec.ofInt 32 (a.toInt * (b.toNat : Int) / 2 ^ 32))

/-- `div` (41_arithmetic_logical.md R295): unimplemented without `HW_DIV`; the quotient rounded toward zero; for a quotient
that cannot be represented the division error with `DIV_ERROR_CHECK`, and without it some value in `x[C]`. Encodings: log 37. -/
def Obligations.SignedDivision : Prop :=
  (∀ a b c, decode (encodeR 0x25#6 a b c 0#5) = .ok (.div c a b)) ∧
    ∀ rC rA rB s,
      (s.config.hwDiv = false → exec (.div rC rA rB) s = .next (takeException .unimplementedInstr s)) ∧
      (s.config.hwDiv = true → (s.reg rB).toInt ≠ 0 → ¬((s.reg rA).toInt = -2 ^ 31 ∧ (s.reg rB).toInt = -1) →
        ∃ t, exec (.div rC rA rB) s = .next t ∧
          Wrote s t rC (BitVec.ofInt 32 ((s.reg rA).toInt.tdiv (s.reg rB).toInt)) (s.pc + 4#32)) ∧
      (((s.reg rB).toInt = 0 ∨ ((s.reg rA).toInt = -2 ^ 31 ∧ (s.reg rB).toInt = -1)) →
        (s.config.divErrorCheck = true → exec (.div rC rA rB) s = .next (takeException .divisionError s)) ∧
        (s.config.hwDiv = true → s.config.divErrorCheck = false →
          ∃ t v, exec (.div rC rA rB) s = .next t ∧ Wrote s t rC v (s.pc + 4#32)))

/-- `divu` (41_arithmetic_logical.md R296): division by zero is the only case without a quotient. Encodings: log 37. -/
def Obligations.UnsignedDivision : Prop :=
  (∀ a b c, decode (encodeR 0x24#6 a b c 0#5) = .ok (.divu c a b)) ∧
    ∀ rC rA rB s,
      (s.config.hwDiv = false → exec (.divu rC rA rB) s = .next (takeException .unimplementedInstr s)) ∧
      (s.config.hwDiv = true → (s.reg rB).toNat ≠ 0 →
        ∃ t, exec (.divu rC rA rB) s = .next t ∧
          Wrote s t rC (BitVec.ofNat 32 ((s.reg rA).toNat / (s.reg rB).toNat)) (s.pc + 4#32)) ∧
      ((s.reg rB).toNat = 0 →
        (s.config.divErrorCheck = true → exec (.divu rC rA rB) s = .next (takeException .divisionError s)) ∧
        (s.config.hwDiv = true → s.config.divErrorCheck = false →
          ∃ t v, exec (.divu rC rA rB) s = .next t ∧ Wrote s t rC v (s.pc + 4#32)))

/-- The comparisons: exactly 1 or 0, four immediate ones with the signed immediate and two with the unsigned one
(43_comparison.md R332 to R343). Encodings: log 37. -/
def Obligations.Comparisons : Prop :=
  (RegisterOp 0x20#6 .cmpeq (fun a b => if a = b then 1#32 else 0#32) ∧
    RegisterOp 0x18#6 .cmpne (fun a b => if a ≠ b then 1#32 else 0#32) ∧
    RegisterOp 0x08#6 .cmpge (fun a b => if a.toInt ≥ b.toInt then 1#32 else 0#32) ∧
    RegisterOp 0x28#6 .cmpgeu (fun a b => if a.toNat ≥ b.toNat then 1#32 else 0#32) ∧
    RegisterOp 0x10#6 .cmplt (fun a b => if a.toInt < b.toInt then 1#32 else 0#32) ∧
    RegisterOp 0x30#6 .cmpltu (fun a b => if a.toNat < b.toNat then 1#32 else 0#32)) ∧
  ImmediateOp 0x20#6 .cmpeqi (fun a imm => if a.toInt = imm.toInt then 1#32 else 0#32) ∧
    ImmediateOp 0x18#6 .cmpnei (fun a imm => if a.toInt ≠ imm.toInt then 1#32 else 0#32) ∧
    ImmediateOp 0x08#6 .cmpgei (fun a imm => if a.toInt ≥ imm.toInt then 1#32 else 0#32) ∧
    ImmediateOp 0x28#6 .cmpgeui (fun a imm => if a.toNat ≥ imm.toNat then 1#32 else 0#32) ∧
    ImmediateOp 0x10#6 .cmplti (fun a imm => if a.toInt < imm.toInt then 1#32 else 0#32) ∧
    ImmediateOp 0x30#6 .cmpltui (fun a imm => if a.toNat < imm.toNat then 1#32 else 0#32)

/-- The shifts and rotates: a register gives its bits 4:0 as the count (44_shift_rotate.md R361 to R370). Encodings: log 37. -/
def Obligations.Shifts : Prop :=
  (RegisterOp 0x03#6 .rol (fun a b => (a <<< (b.toNat % 32)) ||| (a >>> ((32 - b.toNat % 32) % 32))) ∧
    RegisterOp 0x0B#6 .ror (fun a b => (a >>> (b.toNat % 32)) ||| (a <<< ((32 - b.toNat % 32) % 32))) ∧
    RegisterOp 0x13#6 .sll (fun a b => BitVec.ofNat 32 (a.toNat * 2 ^ (b.toNat % 32))) ∧
    RegisterOp 0x3B#6 .sra (fun a b => BitVec.ofInt 32 (a.toInt / 2 ^ (b.toNat % 32))) ∧
    RegisterOp 0x1B#6 .srl (fun a b => BitVec.ofNat 32 (a.toNat / 2 ^ (b.toNat % 32)))) ∧
  ShiftOp 0x02#6 .roli (fun a n => (a <<< n) ||| (a >>> ((32 - n) % 32))) ∧
    ShiftOp 0x12#6 .slli (fun a n => BitVec.ofNat 32 (a.toNat * 2 ^ n)) ∧
    ShiftOp 0x3A#6 .srai (fun a n => BitVec.ofInt 32 (a.toInt / 2 ^ n)) ∧
    ShiftOp 0x1A#6 .srli (fun a n => BitVec.ofNat 32 (a.toNat / 2 ^ n))

/-! ## Program control -/

/-- `call` and `jmpi` go to `IMM26 * 4` in the 256 MByte segment of their own address and cannot raise; `callr` jumps to the
old value of its register; the calls link, a `callr` to a misaligned target does not (R396; its stop without the check is
93 U7, log 20); `nextpc` reads `pc + 4` (45_program_control.md R380, R381, R384, R394). Encodings: log 37. -/
def Obligations.CallsAndLinks : Prop :=
  (∀ imm, decode (encodeJ 0x00#6 imm) = .ok (.call imm)) ∧ (∀ imm, decode (encodeJ 0x01#6 imm) = .ok (.jmpi imm)) ∧
  (∀ a, decode (encodeR 0x1D#6 a 0#5 31#5 0#5) = .ok (.callr a)) ∧
  (∀ c, decode (encodeR 0x1C#6 0#5 0#5 c 0#5) = .ok (.nextpc c)) ∧
  (∀ imm s, ∃ t, exec (.call imm) s = .next t ∧
    Wrote s t 31#5 (s.pc + 4#32) (BitVec.ofNat 32 (s.pc.toNat / 2 ^ 28 * 2 ^ 28 + imm.toNat * 4))) ∧
  (∀ imm s, ∃ t, exec (.jmpi imm) s = .next t ∧
    Went s t (BitVec.ofNat 32 (s.pc.toNat / 2 ^ 28 * 2 ^ 28 + imm.toNat * 4))) ∧
  (∀ rA s, TransferOp (.callr rA) s (s.reg rA) (fun t => Wrote s t 31#5 (s.pc + 4#32) (s.reg rA))) ∧
  ∀ rC s, ∃ t, exec (.nextpc rC) s = .next t ∧ Wrote s t rC (s.pc + 4#32) (s.pc + 4#32)

/-- `ret`, `jmp` and `br` (45_program_control.md R382, R383, R385). Encodings: log 37. -/
def Obligations.Jumps : Prop :=
  decode 0xF800283A#32 = .ok .ret ∧ (∀ a, decode (encodeR 0x0D#6 a 0#5 0#5 0#5) = .ok (.jmp a)) ∧
    (∀ imm, decode (encodeI 0x06#6 0#5 0#5 imm) = .ok (.br imm)) ∧
    (∀ s, TransferOp .ret s (s.reg 31#5) (fun t => Went s t (s.reg 31#5))) ∧
    (∀ rA s, TransferOp (.jmp rA) s (s.reg rA) (fun t => Went s t (s.reg rA))) ∧
    ∀ imm s, TransferOp (.br imm) s (s.pc + 4#32 + imm.signExtend 32)
      (fun t => Went s t (s.pc + 4#32 + imm.signExtend 32))

/-- The conditional branches (45_program_control.md R386 to R392). Encodings: log 37. -/
def Obligations.Branches : Prop :=
  BranchOp 0x0E#6 .bge (fun a b => a.toInt ≥ b.toInt) ∧ BranchOp 0x2E#6 .bgeu (fun a b => a.toNat ≥ b.toNat) ∧
    BranchOp 0x16#6 .blt (fun a b => a.toInt < b.toInt) ∧ BranchOp 0x36#6 .bltu (fun a b => a.toNat < b.toNat) ∧
    BranchOp 0x26#6 .beq (fun a b => a = b) ∧ BranchOp 0x1E#6 .bne (fun a b => a ≠ b)

/-! ## Exceptions, breaks and returns -/

/-- General exception entry, field by field, in the three columns of Table 3-32 (60_exceptions.md R470 to R479). The value
written to `badaddr` is the statement ExceptionInformation; what an entry writes with EH = 1 is log 34. The alias of a vector
with an MMU is log 44. An entry also flushes the pipeline (70_reset_and_hazards.md R551; logs 31, 32). -/
def Obligations.ExceptionEntry : Prop :=
  ∀ e s, ∃ t, takeException e s = t ∧
    t.estatus = (if s.config.hasMmu && s.eh then s.estatus else s.status) ∧
    (∀ x, t.reg x = if x = 29#5 ∧ (s.config.hasMmu && s.eh) = false then s.pc + 4#32 else s.reg x) ∧
    t.status = (if s.config.hasMmu then 4#32 else 0#32) ∧
    (s.config.hasMmu = false → t.pteaddr = s.pteaddr ∧ t.tlbmisc = s.tlbmisc) ∧
    (s.config.hasMmu = true →
      t.pteVpn = (if s.eh = false ∧ (e.isTlbMiss = true ∨ e.isTlbPermission = true) then
        (e.tlbAddress s.pc).extractLsb' 12 20 else s.pteVpn) ∧
      t.pteaddr.extractLsb' 22 10 = s.pteaddr.extractLsb' 22 10 ∧ t.way = s.way ∧ t.pid = s.pid ∧
      (t.we = true ↔ s.we = true ∨ e.isTlbPermission = true ∨ (e.isTlbMiss = true ∧ s.eh = false)) ∧
      (t.tlbmisc.getLsbD 3 = true ↔ e.isTlbMiss = true ∧ s.eh = true) ∧
      (t.tlbmisc.getLsbD 2 = true ↔ e = .supervisorOnlyInstrAddress ∨ ∃ a, e = .supervisorOnlyDataAddress a ∨
        e = .misalignedDataAddress a ∨ e = .misalignedDestination a) ∧
      (t.tlbmisc.getLsbD 1 = true ↔ e.isTlbPermission = true) ∧
      (t.tlbmisc.getLsbD 0 = true ↔ ∃ a, e = .tlbMissData a ∨ e = .tlbPermissionRead a ∨ e = .tlbPermissionWrite a ∨
        e = .misalignedDataAddress a ∨ e = .supervisorOnlyDataAddress a)) ∧
    (s.config.extraExcInfo = true → t.exceptionReg.toNat = e.cause.toNat * 4) ∧
    (s.config.extraExcInfo = false → t.exceptionReg = s.exceptionReg ∧ t.badaddr = s.badaddr) ∧
    t.pc = vectorPc s.config (if e.isTlbMiss = true ∧ (s.config.hasMmu && s.eh) = false then fastTlbMissVector s.config
      else s.config.exceptionVector) ∧
    (∀ a, t.memory.read a = s.memory.read a) ∧ t.mpuStale = none ∧ t.prefetched = [] ∧
    { t with
      estatus := s.estatus, regs := s.regs, status := s.status, pteaddr := s.pteaddr, tlbmisc := s.tlbmisc,
      exceptionReg := s.exceptionReg, badaddr := s.badaddr, pc := s.pc, mpuStale := s.mpuStale,
      prefetched := s.prefetched } = s

/-- What an exception tells its handler: the cause code of each, and `badaddr` where an address is named; an interrupt leaves
`badaddr` (60_exceptions.md R450, R453, R477, 10_state.md R74). -/
def Obligations.ExceptionInformation : Prop :=
  ∀ s a, s.config.extraExcInfo = true →
    [Exc.interrupt, .trap, .unimplementedInstr, .illegalInstr, .misalignedDataAddress a, .misalignedDestination a,
      .divisionError, .supervisorOnlyInstrAddress, .supervisorOnlyInstr, .supervisorOnlyDataAddress a, .tlbMissInstr,
      .tlbMissData a, .tlbPermissionExecute, .tlbPermissionRead a, .tlbPermissionWrite a, .mpuViolationInstr,
      .mpuViolationData a].map (fun e => (takeException e s).exceptionReg.toNat / 4) =
    [2, 3, 4, 5, 6, 7, 8, 9, 10, 11, 12, 12, 13, 14, 15, 16, 17] ∧
    (∀ e, e ∈ [Exc.supervisorOnlyDataAddress a, .misalignedDataAddress a, .tlbMissData a, .tlbPermissionRead a,
        .tlbPermissionWrite a, .mpuViolationData a] →
      (s.config.hasMmu = true → (takeException e s).badaddr = a) ∧
      (s.config.hasMpu = true → (takeException e s).badaddr = 0#1 ++ a.extractLsb' 0 31) ∧
      (s.config.hasUserMode = false → s.config.valid = true →
        (takeException e s).badaddr.toNat = a.toNat % 2 ^ s.config.addrBits)) ∧
    (s.config.hasUserMode = true → (takeException (.misalignedDestination a) s).badaddr = a) ∧
    (s.config.hasUserMode = false → s.config.valid = true →
      (takeException (.misalignedDestination a) s).badaddr.toNat = a.toNat % 2 ^ s.config.addrBits) ∧
    (takeException .interrupt s).badaddr = s.badaddr

/-- `trap` always takes the trap exception, whatever its IMM5 (46_other_control.md R410). The encoding and the unread IMM5 are
log 37. -/
def Obligations.Trap : Prop :=
  (∀ imm, decode (encodeR 0x2D#6 0#5 0#5 29#5 imm) = .ok (.trap imm)) ∧
    ∀ imm s, ∃ t, exec (.trap imm) s = .next t ∧ t = takeException .trap s ∧
      (s.nested = false → t.estatus = s.status ∧ t.reg 29#5 = s.pc + 4#32) ∧ t.status = (if s.config.hasMmu then 4#32 else 0#32) ∧
      (s.config.extraExcInfo = true → t.exceptionReg = 0x0C#32) ∧ t.pc = vectorPc s.config s.config.exceptionVector

/-- `break` always takes a break: the writes of break entry and nothing else (46_other_control.md R412, 60_exceptions.md
R491). The encoding is log 37, `in_debug` log 39, the alias of the vector with an MMU log 44, the flush of the pipeline logs
31, 32. -/
def Obligations.Break : Prop :=
  (∀ imm, decode (encodeR 0x34#6 0#5 0#5 30#5 imm) = .ok (.brk imm)) ∧
    ∀ imm s, ∃ t, exec (.brk imm) s = .next t ∧ t.bstatus = s.status ∧ t.pie = false ∧ t.user = false ∧
      t.eh = s.config.hasMmu ∧ (∀ x, t.reg x = if x = 30#5 then s.pc + 4#32 else s.reg x) ∧ t.inDebug = true ∧
      t.pc = vectorPc s.config s.config.breakVector ∧ (∀ a, t.memory.read a = s.memory.read a) ∧ t.mpuStale = none ∧
      t.prefetched = [] ∧
      { t with
        bstatus := s.bstatus, status := s.status, regs := s.regs, inDebug := s.inDebug, pc := s.pc,
        mpuStale := s.mpuStale, prefetched := s.prefetched } = s

/-- `eret` in supervisor mode (46_other_control.md R411, 60_exceptions.md R484): its check of the target is
45_program_control.md R396, the stop without the check 93 U7 (log 20), the flush of the pipeline logs 31, 32. -/
def Obligations.ReturnFromException : Prop :=
  ∀ s, s.userForbidden = false →
    TransferOp .eret s (s.reg 29#5) (fun t => t.status = s.estatus ∧ t.pc = s.reg 29#5 ∧ (∀ x, t.reg x = s.reg x) ∧
      (∀ a, t.memory.read a = s.memory.read a) ∧ t.mpuStale = none ∧ t.prefetched = [] ∧
      { t with status := s.status, pc := s.pc, mpuStale := s.mpuStale, prefetched := s.prefetched } = s)

/-- `bret` in supervisor mode (46_other_control.md R413, 60_exceptions.md R492): its check of the target is
45_program_control.md R396, the stop without the check 93 U7 (log 20), the hidden bit `in_debug` log 39, the flush of the
pipeline logs 31, 32. -/
def Obligations.ReturnFromBreak : Prop :=
  decode 0xF000483A#32 = .ok .bret ∧
    ∀ s, s.userForbidden = false →
      TransferOp .bret s (s.reg 30#5) (fun t => t.status = s.bstatus ∧ t.inDebug = false ∧ t.pc = s.reg 30#5 ∧
        (∀ x, t.reg x = s.reg x) ∧ (∀ a, t.memory.read a = s.memory.read a) ∧ t.mpuStale = none ∧ t.prefetched = [] ∧
        { t with
          status := s.status, inDebug := s.inDebug, pc := s.pc, mpuStale := s.mpuStale, prefetched := s.prefetched } = s)

/-- The six supervisor-only instructions in user mode take the supervisor-only instruction exception, whatever their operands,
with cause 10 and the four flags of `tlbmisc` zero; they are forbidden in user mode of a processor with an MMU or MPU and
nowhere else (60_exceptions.md R457). -/
def Obligations.SupervisorOnly : Prop :=
  (∀ s : State, s.userForbidden = true ↔ s.config.hasUserMode = true ∧ s.user = true) ∧
  ∀ s, s.config.hasUserMode = true → s.user = true →
    (∀ rA imm, exec (.initd rA imm) s = .next (takeException .supervisorOnlyInstr s)) ∧
    (∀ rA, exec (.initi rA) s = .next (takeException .supervisorOnlyInstr s)) ∧
    exec .eret s = .next (takeException .supervisorOnlyInstr s) ∧ exec .bret s = .next (takeException .supervisorOnlyInstr s) ∧
    (∀ rC n, exec (.rdctl rC n) s = .next (takeException .supervisorOnlyInstr s)) ∧
    (∀ n rA, exec (.wrctl n rA) s = .next (takeException .supervisorOnlyInstr s)) ∧
    (takeException .supervisorOnlyInstr s).exceptionReg = 0x28#32 ∧
    (s.nested = false → (takeException .supervisorOnlyInstr s).reg 29#5 = s.pc + 4#32) ∧
    (s.config.hasMmu = true → (takeException .supervisorOnlyInstr s).tlbmisc.extractLsb' 0 4 = 0#4)

/-- A word with an undefined encoding: the illegal instruction exception with the check on, a fault with it off
(60_exceptions.md R458, 30_encoding.md R210; the refusal of an internal encoding is 93 U8). -/
def Obligations.IllegalInstruction : Prop :=
  ∀ s s' w, RunsInstruction s → fetchWord s = .ok (w, s') →
    ∀ op,
      (decode w = .error (.undefinedOp op) → IllegalStep s s' (op ∈ s'.config.internalOps)) ∧
      (decode w = .error (.undefinedOpx op) → IllegalStep s s' (op ∈ s'.config.internalOpxs))

/-- An interrupt is taken at a boundary, before the instruction there, exactly when PIE is one and some line is asserted and
enabled (60_exceptions.md R480). That the inputs are sampled at every boundary is the spec's decision D20, log 38. -/
def Obligations.Interrupts : Prop :=
  ∀ s, s.inputs.reset = false → s.statusIllegal = false → s.breakRequested = false → s.inputs.processorReset = false →
    ((s.status.getLsbD 0 = true ∧ ∃ n, n < 32 ∧ s.inputs.irq.getLsbD n = true ∧ s.ienable.getLsbD n = true) →
      step s = .next (endBoundary (takeException .interrupt s))) ∧
    (¬(s.status.getLsbD 0 = true ∧ ∃ n, n < 32 ∧ s.inputs.irq.getLsbD n = true ∧ s.ienable.getLsbD n = true) →
      step s = endResult (fetchAndRun s))

/-- What happens at a boundary, in this order: reset, illegal status (a stop), hardware break, processor-only reset request; and
an exception of the fetch is taken for the instruction at `pc`, an undefined fetch stops (60_exceptions.md R450, R468,
20_memory.md R121; 93 U4). The hardware break is log 39, the illegal status log 25. That after a reset the caches and the
pipeline do nothing by themselves before the next boundary (`nextBoundary`) is the model's choice, log 9. -/
def Obligations.BoundaryEvents : Prop :=
  ∀ s,
    (s.inputs.reset = true → step s = .next (nextBoundary (resetProcessor s))) ∧
    (s.inputs.reset = false → s.status.getLsbD 2 = true → s.status.getLsbD 1 = true → step s = .fault .illegalStatus) ∧
    (s.inputs.reset = false → s.statusIllegal = false → s.config.hasDebug = true → s.inputs.hardwareBreak = true →
      step s = .next (endBoundary (takeBreak s))) ∧
    (s.inputs.reset = false → s.statusIllegal = false → s.breakRequested = false → s.inputs.processorReset = true →
      step s = .next (nextBoundary (resetProcessor s))) ∧
    (RunsInstruction s →
      (∀ e, fetchAddr s = .error (.exc e) → step s = .next (endBoundary (takeException e s))) ∧
      ∀ f, fetchAddr s = .error (.fault f) → step s = .fault f)

/-- USER MODE IS CONFINED: from user mode, without a reset, a step either leaves the mode, every control register, the TLB and
the MPU regions as they are, or enters supervisor mode at one of the fixed vectors (60_exceptions.md R501, R502); with an MMU
each is its kernel-partition alias, log 44. -/
def Obligations.UserModeConfined : Prop :=
  ∀ s t, s.config.hasUserMode = true → s.user = true → s.inputs.reset = false → s.inputs.processorReset = false →
    step s = .next t →
      SameSystem s t ∨ (t.user = false ∧ (t.pc = vectorPc s.config s.config.exceptionVector ∨
        t.pc = vectorPc s.config s.config.breakVector ∨ t.pc = vectorPc s.config (fastTlbMissVector s.config)))

/-- User mode is entered only by `wrctl status`, `eret` or `bret` with U set in what they write (60_exceptions.md R501). -/
def Obligations.EnteringUserMode : Prop :=
  ∀ s t, s.user = false → step s = .next t → t.user = true →
    ∃ w s' i, fetchWord s = .ok (w, s') ∧ decode w = .ok i ∧
      ((i = .eret ∧ s.estatus.getLsbD 1 = true) ∨ (i = .bret ∧ s.bstatus.getLsbD 1 = true) ∨
        ∃ rA, i = .wrctl 0#5 rA ∧ (s.reg rA).getLsbD 1 = true)

/-! ## Control registers -/

/-- `rdctl` of every control register in supervisor mode, with nothing changed but `x[C]` and `pc` (46_other_control.md R414,
10_state.md R42 to R81): C of `mpuacc` reads as 0 while an instruction region is selected (R81, log 40). Encodings: log 37. -/
def Obligations.ControlReads : Prop :=
  (∀ c n, decode (encodeR 0x26#6 0#5 0#5 c n) = .ok (.rdctl c n)) ∧
    ControlRead 0#5 (·.status) ∧ ControlRead 1#5 (·.estatus) ∧ ControlRead 2#5 (·.bstatus) ∧ ControlRead 3#5 (·.ienable) ∧
    ControlRead 5#5 (·.config.cpuid) ∧
    ∀ rC s, s.userForbidden = false →
      (s.config.extraExcInfo = true →
        (∃ t, exec (.rdctl rC 7#5) s = .next t ∧ Wrote s t rC s.exceptionReg (s.pc + 4#32)) ∧
        ∃ t, exec (.rdctl rC 12#5) s = .next t ∧ Wrote s t rC s.badaddr (s.pc + 4#32)) ∧
      (s.config.hasMmu = true →
        (∃ t, exec (.rdctl rC 8#5) s = .next t ∧ Wrote s t rC s.pteaddr (s.pc + 4#32)) ∧
        (∃ t, exec (.rdctl rC 9#5) s = .next t ∧ Wrote s t rC s.tlbacc (s.pc + 4#32)) ∧
        ∃ t, exec (.rdctl rC 10#5) s = .next t ∧ Wrote s t rC s.tlbmisc (s.pc + 4#32)) ∧
      (s.config.hasMpu = true →
        (∃ t, exec (.rdctl rC 13#5) s = .next t ∧ Wrote s t rC s.configReg (s.pc + 4#32)) ∧
        (∃ t, exec (.rdctl rC 14#5) s = .next t ∧ Wrote s t rC s.mpubase (s.pc + 4#32)) ∧
        ∃ t, exec (.rdctl rC 15#5) s = .next t ∧
          Wrote s t rC (if s.mpubase.getLsbD 0 then s.mpuacc else s.mpuacc &&& 0xFFFFFFDF#32) (s.pc + 4#32)) ∧
      ∀ n, (n = 6#5 ∨ n = 11#5 ∨ 16#5 ≤ n ∨ (s.config.extraExcInfo = false ∧ (n = 7#5 ∨ n = 12#5)) ∨
          (s.config.hasMmu = false ∧ (n = 8#5 ∨ n = 9#5 ∨ n = 10#5)) ∨
          (s.config.hasMpu = false ∧ (n = 13#5 ∨ n = 14#5 ∨ n = 15#5))) →
        ∃ t v, exec (.rdctl rC n) s = .next t ∧ Wrote s t rC v (s.pc + 4#32)

/-- `ipending` is the view of the enabled asserted lines; writing it, `cpuid`, `exception` or `badaddr`, or a reserved
register, changes nothing that a register or memory holds (10_state.md R45, R56 to R58, R73; 93 U3). `ipending` is log 33; the
read-only and the reserved registers are decisions of the spec, log 15. A write of an available one flushes the pipeline (R46;
logs 31, 32). -/
def Obligations.ReadOnlyRegisters : Prop :=
  (∀ rC s, s.userForbidden = false →
    ∃ t, exec (.rdctl rC 4#5) s = .next t ∧ Wrote s t rC (s.inputs.irq &&& s.ienable) (s.pc + 4#32)) ∧
  ControlWrite 4#5 (fun _ => True) (fun _ s => { s with mpuStale := none, prefetched := [] }) ∧
  ControlWrite 5#5 (fun _ => True) (fun _ s => { s with mpuStale := none, prefetched := [] }) ∧
  ControlWrite 7#5 (fun s => s.config.extraExcInfo = true) (fun _ s => { s with mpuStale := none, prefetched := [] }) ∧
  ControlWrite 12#5 (fun s => s.config.extraExcInfo = true) (fun _ s => { s with mpuStale := none, prefetched := [] }) ∧
  ∀ n rA s, s.userForbidden = false →
    (n = 6#5 ∨ n = 11#5 ∨ 16#5 ≤ n ∨ (s.config.extraExcInfo = false ∧ (n = 7#5 ∨ n = 12#5)) ∨
      (s.config.hasMmu = false ∧ (n = 8#5 ∨ n = 9#5 ∨ n = 10#5)) ∨
      (s.config.hasMpu = false ∧ (n = 13#5 ∨ n = 14#5 ∨ n = 15#5))) →
    ∃ t, exec (.wrctl n rA) s = .next t ∧ Went s t (s.pc + 4#32)

/-- `wrctl` of the registers that are plain storage: the bits a field owns are stored, the others dropped (log 14); the bits
of `status` are PIE, U with an MMU or MPU, EH with an MMU (46_other_control.md R415, 10_state.md R48 to R59, R75; that the U and
EH that are not available read as zero is log 52). Each also flushes the pipeline: words fetched ahead and old region tables go
(R46; logs 31, 32). Encodings: log 37. -/
def Obligations.PlainControlWrites : Prop :=
  (∀ a n, decode (encodeR 0x2E#6 a 0#5 0#5 n) = .ok (.wrctl n a)) ∧
  ControlWrite 0#5 (fun _ => True) (fun v s => { s with
    status := 0#29 ++ BitVec.ofBool (s.config.hasMmu && v.getLsbD 2) ++ BitVec.ofBool (s.config.hasUserMode && v.getLsbD 1) ++
      BitVec.ofBool (v.getLsbD 0), mpuStale := none, prefetched := [] }) ∧
  ControlWrite 1#5 (fun _ => True) (fun v s => { s with
    estatus := 0#29 ++ BitVec.ofBool (s.config.hasMmu && v.getLsbD 2) ++ BitVec.ofBool (s.config.hasUserMode && v.getLsbD 1) ++
      BitVec.ofBool (v.getLsbD 0), mpuStale := none, prefetched := [] }) ∧
  ControlWrite 2#5 (fun _ => True) (fun v s => { s with
    bstatus := 0#29 ++ BitVec.ofBool (s.config.hasMmu && v.getLsbD 2) ++ BitVec.ofBool (s.config.hasUserMode && v.getLsbD 1) ++
      BitVec.ofBool (v.getLsbD 0), mpuStale := none, prefetched := [] }) ∧
  ControlWrite 3#5 (fun _ => True) (fun v s => { s with ienable := v, mpuStale := none, prefetched := [] }) ∧
  ControlWrite 8#5 (fun s => s.config.hasMmu = true) (fun v s => { s with
    pteaddr := v.extractLsb' 2 30 ++ 0#2, mpuStale := none, prefetched := [] }) ∧
  ControlWrite 13#5 (fun s => s.config.hasMpu = true) (fun v s => { s with
    configReg := 0#31 ++ BitVec.ofBool (v.getLsbD 0), mpuStale := none, prefetched := [] })

/-! ## The MMU -/

/-- A data address with an MMU: the order of the checks, the partitions that bypass the TLB, and the lookup (20_memory.md R120,
R137, R139, R143 to R147). The line and tag portions are log 35; that `initda` is exempt from the supervisor-only check is log
36, the stop on two matching ways log 22. -/
def Obligations.DataAddressMmu : Prop :=
  ∀ k n ea s m, s.config.protection = .mmu m → k ≠ .fetch →
    (s.user = true ∧ ea.getLsbD 31 = true ∧ k ≠ .initda → dataAddr k n ea s = .error (.exc (.supervisorOnlyDataAddress ea))) ∧
    (¬(s.user = true ∧ ea.getLsbD 31 = true ∧ k ≠ .initda) → ((k = .load ∨ k = .store) ∧ ea.toNat % n ≠ 0) →
      dataAddr k n ea s = .error (.exc (.misalignedDataAddress ea))) ∧
    (¬(s.user = true ∧ ea.getLsbD 31 = true ∧ k ≠ .initda) → ¬((k = .load ∨ k = .store) ∧ ea.toNat % n ≠ 0) →
      (0xC0000000 ≤ ea.toNat → dataAddr k n ea s = .ok (0#3 ++ ea.extractLsb' 0 29, decide (ea.toNat < 0xE0000000))) ∧
      (ea.toNat < 0xC0000000 →
        ((∀ w e, ¬WayMatches m s ea w e) → dataAddr k n ea s = .error (.exc (.tlbMissData ea))) ∧
        (∀ w e, OnlyWay m s ea w e →
          ((k = .load → e.r = true) ∧ (k = .store → e.w = true) →
            dataAddr k n ea s = .ok (e.pfn ++ ea.extractLsb' 0 12, e.c)) ∧
          (k = .load → e.r = false → dataAddr k n ea s = .error (.exc (.tlbPermissionRead ea))) ∧
          (k = .store → e.w = false → dataAddr k n ea s = .error (.exc (.tlbPermissionWrite ea)))) ∧
        ∀ w e w' e', WayMatches m s ea w e → WayMatches m s ea w' e' → w ≠ w' →
          dataAddr k n ea s = .error (.fault .multipleTlbMatch)))

/-- The address of a fetch: as it is without an MMU and with the MPU off or a break being processed (R180; `in_debug` is log
39); with the MPU on, what its check says; with an MMU the supervisor check, the partitions that bypass the TLB and the lookup,
a miss being the double one, with `tlbmisc.DBL`, when EH is one (20_memory.md R121, R145). -/
def Obligations.FetchAddress : Prop :=
  (∀ s, s.config.hasMmu = false → s.config.hasMpu = false ∨ s.pe = false ∨ s.inDebug = true → fetchAddr s = .ok s.pc) ∧
  (∀ s m, s.config.protection = .mpu m → s.pe = true → s.inDebug = false →
    (∀ c, mpuCheck m .fetch s.pc s = .ok c → fetchAddr s = .ok s.pc) ∧
    ∀ e, mpuCheck m .fetch s.pc s = .error e → fetchAddr s = .error e) ∧
  ∀ s m, s.config.protection = .mmu m →
    (s.user = true ∧ s.pc.getLsbD 31 = true → fetchAddr s = .error (.exc .supervisorOnlyInstrAddress)) ∧
    (¬(s.user = true ∧ s.pc.getLsbD 31 = true) →
      (0xC0000000 ≤ s.pc.toNat → fetchAddr s = .ok (0#3 ++ s.pc.extractLsb' 0 29)) ∧
      (s.pc.toNat < 0xC0000000 →
        ((∀ w e, ¬WayMatches m s s.pc w e) → fetchAddr s = .error (.exc .tlbMissInstr) ∧
          (takeException .tlbMissInstr s).tlbmisc.getLsbD 3 = s.eh) ∧
        (∀ w e, OnlyWay m s s.pc w e →
          (e.x = true → fetchAddr s = .ok (e.pfn ++ s.pc.extractLsb' 0 12)) ∧
          (e.x = false → fetchAddr s = .error (.exc .tlbPermissionExecute))) ∧
        ∀ w e w' e', WayMatches m s s.pc w e → WayMatches m s s.pc w' e' → w ≠ w' →
          fetchAddr s = .error (.fault .multipleTlbMatch)))

/-- `wrctl tlbacc`: the register alone with WE = 0; with WE = 1 also the entry selected by the line of `pteaddr.VPN` and by
WAY, and WAY incremented modulo `TLB_WAYS` (20_memory.md R151, 10_state.md R62, R66, R67). The index bits, the wrap of WAY and
a WAY that names no way are log 35; that unused bits are dropped (`tlbaccMask`, `pfnMask`) is log 14; the flush of the pipeline
is R46 and R550, logs 31, 32. -/
def Obligations.TlbaccWrite : Prop :=
  ∀ rA s m, s.config.protection = .mmu m → s.config.valid = true → within (tlbmiscMask m) s.tlbmisc →
    s.tlb.length = m.tlbEntries → s.userForbidden = false →
    (s.we = false → ∃ t, exec (.wrctl 9#5 rA) s = .next t ∧ t.tlbacc = s.reg rA &&& tlbaccMask m ∧ t.pc = s.pc + 4#32 ∧
      (∀ x, t.reg x = s.reg x) ∧ (∀ a, t.memory.read a = s.memory.read a) ∧ t.mpuStale = none ∧ t.prefetched = [] ∧
      { t with tlbacc := s.tlbacc, pc := s.pc, mpuStale := s.mpuStale, prefetched := s.prefetched } = s) ∧
    (s.we = true → ∃ t e, exec (.wrctl 9#5 rA) s = .next t ∧
      t.tlbacc = s.reg rA &&& tlbaccMask m ∧ t.pc = s.pc + 4#32 ∧ (∀ x, t.reg x = s.reg x) ∧
      (∀ a, t.memory.read a = s.memory.read a) ∧
      t.tlb = (if s.way.toNat < m.tlbWays then
        s.tlb.set (s.pteVpn.toNat % (m.tlbEntries / m.tlbWays) * m.tlbWays + s.way.toNat) e else s.tlb) ∧
      e.tag.toNat = s.pteVpn.toNat / (m.tlbEntries / m.tlbWays) ∧ e.pid = s.pid ∧ e.g = (s.reg rA).getLsbD 20 ∧
      e.pfn = (s.reg rA).extractLsb' 0 20 &&& pfnMask m ∧ e.c = (s.reg rA).getLsbD 24 ∧ e.r = (s.reg rA).getLsbD 23 ∧
      e.w = (s.reg rA).getLsbD 22 ∧ e.x = (s.reg rA).getLsbD 21 ∧
      t.way.toNat = (s.way.toNat + 1) % m.tlbWays ∧ t.we = true ∧ t.pid = s.pid ∧
      t.tlbmisc.extractLsb' 0 4 = s.tlbmisc.extractLsb' 0 4 ∧ t.mpuStale = none ∧ t.prefetched = [] ∧
      { t with
        tlbacc := s.tlbacc, tlb := s.tlb, tlbmisc := s.tlbmisc, pc := s.pc, mpuStale := s.mpuStale,
        prefetched := s.prefetched } = s)

/-- `wrctl tlbmisc`: WAY, WE and PID stored, the four flags kept, RD reading as zero; with RD = 1 the entry at the WAY just
written and the line of `pteaddr.VPN` is read into `pteaddr.VPN`, PID and `tlbacc` (20_memory.md R150, 10_state.md R65, R68).
Which way RD = 1 reads, and that a WAY that names no way reads some entry its line could hold, is log 35; that unused bits are dropped
(`wayMask`, `pidMask`, `pfnMask`) is log 14; the flush of the pipeline is R46 and R550, logs 31, 32. -/
def Obligations.TlbmiscWrite : Prop :=
  ∀ rA s m, s.config.protection = .mmu m → s.config.valid = true → s.userForbidden = false →
    ((s.reg rA).getLsbD 19 = false → ∃ t, exec (.wrctl 10#5 rA) s = .next t ∧
      t.way = (s.reg rA).extractLsb' 20 4 &&& wayMask m ∧ t.we = (s.reg rA).getLsbD 18 ∧ t.tlbmisc.getLsbD 19 = false ∧
      t.pid = (s.reg rA).extractLsb' 4 14 &&& pidMask m ∧ t.tlbmisc.extractLsb' 0 4 = s.tlbmisc.extractLsb' 0 4 ∧
      t.pc = s.pc + 4#32 ∧ (∀ x, t.reg x = s.reg x) ∧ (∀ a, t.memory.read a = s.memory.read a) ∧ t.mpuStale = none ∧
      t.prefetched = [] ∧
      { t with tlbmisc := s.tlbmisc, pc := s.pc, mpuStale := s.mpuStale, prefetched := s.prefetched } = s) ∧
    ((s.reg rA).getLsbD 19 = true → (∀ e, ((s.reg rA).extractLsb' 20 4 &&& wayMask m).toNat < m.tlbWays →
        s.tlb[s.pteVpn.toNat % (m.tlbEntries / m.tlbWays) * m.tlbWays +
          ((s.reg rA).extractLsb' 20 4 &&& wayMask m).toNat]? = some e → TlbReadOp m rA s e) ∧
      (m.tlbWays ≤ ((s.reg rA).extractLsb' 20 4 &&& wayMask m).toNat →
        ∃ e : TlbEntry, e.fits m (s.pteVpn.toNat % (m.tlbEntries / m.tlbWays)) ∧ TlbReadOp m rA s e))

/-- What a TLB write operation stores, a TLB read operation of the same way gives back: VPN, PID and `tlbacc`, whatever the
TLB held (20_memory.md R150, R151). Rests on log 35, and `tlbaccMask` on log 14. -/
def Obligations.TlbWriteThenRead : Prop :=
  ∀ rA rB s m, s.Inv → s.config.protection = .mmu m → s.userForbidden = false → s.we = true → s.way.toNat < m.tlbWays →
    (s.reg rB).extractLsb' 20 4 = s.way → (s.reg rB).getLsbD 19 = true →
    ∃ t u, exec (.wrctl 9#5 rA) s = .next t ∧ exec (.wrctl 10#5 rB) t = .next u ∧
      u.pteVpn = s.pteVpn ∧ u.pid = s.pid ∧ u.tlbacc = s.reg rA &&& tlbaccMask m ∧ u.way = s.way

/-- The entry a TLB write operation stores translates its page from the next instruction on, if no other way of its line maps
the page (20_memory.md R146, R151, 10_state.md R46). Rests on log 35, and `pfnMask` on log 14. -/
def Obligations.TlbWriteTranslates : Prop :=
  ∀ rA s m ea k n, s.Inv → s.config.protection = .mmu m → s.userForbidden = false → s.we = true →
    s.way.toNat < m.tlbWays → k = .load ∨ k = .store → ea.toNat % n = 0 → ea.toNat < 0xC0000000 →
    (s.user = false ∨ ea.getLsbD 31 = false) → ea.extractLsb' 12 20 = s.pteVpn →
    (s.reg rA).getLsbD 23 = true → (s.reg rA).getLsbD 22 = true →
    (∀ w e, WayMatches m s ea w e → w = s.way.toNat) →
    ∃ t, exec (.wrctl 9#5 rA) s = .next t ∧
      dataAddr k n ea t =
        .ok (((s.reg rA).extractLsb' 0 20 &&& pfnMask m) ++ ea.extractLsb' 0 12, (s.reg rA).getLsbD 24)

/-! ## The MPU -/

/-- The check of one access by the MPU, its tables settled and its size-defined regions aligned: no region, a denying region, an
allowing region (20_memory.md R163, R166, R171 to R173, 10_state.md R82). The stop of a reserved PERM is 93 U12; that only the
deciding region's PERM is looked at is the model's choice (log 24), and so is what counts as aligned under a MASK outside Table
3-28 (log 23); what `flushda` and `initda` need is the parameter of log 49. -/
def Obligations.MpuAccessCheck : Prop :=
  ∀ k a s m, s.config.protection = .mpu m → s.mpuStale = none →
    (m.useLimit = true ∨ ∀ r, r ∈ s.mpu.instr ∨ r ∈ s.mpu.data → r.misaligned = false) →
    ((∀ i r, ¬DecidingRegion s.config m (if k = .fetch then s.mpu.instr else s.mpu.data) a i r) →
      mpuCheck m k a s = .error (.exc (if k = .fetch then .mpuViolationInstr else .mpuViolationData a))) ∧
    ∀ i r, DecidingRegion s.config m (if k = .fetch then s.mpu.instr else s.mpu.data) a i r →
      (r.perm ∈ AllowedPerms m k s.user → mpuCheck m k a s = .ok r.c) ∧
      (r.perm ∈ ListedPerms k → r.perm ∉ AllowedPerms m k s.user →
        mpuCheck m k a s = .error (.exc (if k = .fetch then .mpuViolationInstr else .mpuViolationData a))) ∧
      (r.perm ∉ ListedPerms k → mpuCheck m k a s = .error (.fault .reservedPermission))

/-- A data address with an MPU: alignment, then the region check at the address without the bypass bit when the MPU is on and
no break is being processed (`in_debug`, log 39), no check otherwise (20_memory.md R112, R120, R175, R180), the access then being
cacheable as without an MPU (log 51). -/
def Obligations.DataAddressMpu : Prop :=
  ∀ k n ea s m, s.config.protection = .mpu m → k ≠ .fetch →
    (((k = .load ∨ k = .store) ∧ ea.toNat % n ≠ 0) → dataAddr k n ea s = .error (.exc (.misalignedDataAddress ea))) ∧
    (¬((k = .load ∨ k = .store) ∧ ea.toNat % n ≠ 0) → ∀ a b,
      (a = if s.config.bit31Bypass then 0#1 ++ ea.extractLsb' 0 31 else ea) →
      (b = (s.config.bit31Bypass && ea.getLsbD 31)) →
      (s.pe = false ∨ s.inDebug = true → dataAddr k n ea s = .ok (a, !b)) ∧
      (s.pe = true → s.inDebug = false →
        (∀ c, mpuCheck m k a s = .ok c → dataAddr k n ea s = .ok (a, c && !b)) ∧
        ∀ e, mpuCheck m k a s = .error e → dataAddr k n ea s = .error e))

/-- `wrctl mpuacc` in its four forms: neither flag writes the register alone, RD reads the selected region, WR writes it (and
it may be seen late), both are undefined (20_memory.md R176, R177, 10_state.md R83, R84, 70_reset_and_hazards.md R551). The C
bit of an instruction region and an INDEX that names no region are log 40, the late effect of a region write is log 32, the
stop log 24; that unimplemented bits are dropped (`mpubaseMask`, `mpuaccStored`) is log 14. -/
def Obligations.MpuaccWrite : Prop :=
  ∀ rA s m, s.config.protection = .mpu m → s.userForbidden = false →
    ((s.reg rA).getLsbD 1 = false → (s.reg rA).getLsbD 0 = false → ∃ t, exec (.wrctl 15#5 rA) s = .next t ∧
      t.mpuacc = s.reg rA &&& mpuaccStored s.config m s.selectsData ∧ t.pc = s.pc + 4#32 ∧ (∀ x, t.reg x = s.reg x) ∧
      (∀ a, t.memory.read a = s.memory.read a) ∧ { t with mpuacc := s.mpuacc, pc := s.pc } = s) ∧
    ((s.reg rA).getLsbD 1 = true → (s.reg rA).getLsbD 0 = false →
      (∀ r, (if s.selectsData then s.mpu.data else s.mpu.instr)[s.regionIndex]? = some r → RegionReadOp m rA s r) ∧
      ((if s.selectsData then s.mpu.data else s.mpu.instr)[s.regionIndex]? = none → ∃ r, RegionReadOp m rA s r)) ∧
    ((s.reg rA).getLsbD 1 = false → (s.reg rA).getLsbD 0 = true → ∃ t r, exec (.wrctl 15#5 rA) s = .next t ∧
      t.mpuacc = s.reg rA &&& mpuaccStored s.config m s.selectsData ∧
      r.base = s.mpubase.extractLsb' 6 25 ∧ r.bound = t.mpuacc.extractLsb' 6 26 ∧ r.c = t.mpuacc.getLsbD 5 ∧
      r.perm = t.mpuacc.extractLsb' 2 3 ∧
      t.mpu.data = (if s.selectsData then s.mpu.data.set s.regionIndex r else s.mpu.data) ∧
      t.mpu.instr = (if s.selectsData then s.mpu.instr else s.mpu.instr.set s.regionIndex r) ∧
      t.mpuStale = some (s.mpuStale.getD s.mpu) ∧ t.pc = s.pc + 4#32 ∧ (∀ x, t.reg x = s.reg x) ∧
      (∀ a, t.memory.read a = s.memory.read a) ∧
      { t with mpu := s.mpu, mpuacc := s.mpuacc, pc := s.pc, mpuStale := s.mpuStale } = s) ∧
    ((s.reg rA).getLsbD 1 = true → (s.reg rA).getLsbD 0 = true → exec (.wrctl 15#5 rA) s = .fault .readAndWriteRegion)

/-- `wrctl mpubase` stores its implemented bits and flushes nothing; what a region write operation then stores, a region read
operation of the same index gives back (20_memory.md R176, R177, 10_state.md R76, R77). Rests on log 40, and the bits dropped
(`mpubaseMask`, `mpuaccStored`) on log 14. -/
def Obligations.RegionWriteThenRead : Prop :=
  (∀ m, ControlWrite 14#5 (fun s => s.config.protection = .mpu m)
    (fun v s => { s with mpubase := v &&& mpubaseMask s.config m })) ∧
  ∀ rA rB s m, s.Inv → s.config.protection = .mpu m → s.userForbidden = false →
    s.regionIndex < (if s.selectsData then m.dataRegions else m.instrRegions) →
    (s.reg rA).getLsbD 1 = false → (s.reg rA).getLsbD 0 = true → (s.reg rB).getLsbD 1 = true →
    (s.reg rB).getLsbD 0 = false →
    ∃ t u, exec (.wrctl 15#5 rA) s = .next t ∧ exec (.wrctl 15#5 rB) t = .next u ∧ u.mpubase = s.mpubase ∧
      u.mpuacc = s.reg rA &&& mpuaccStored s.config m s.selectsData

/-! ## Caches, synchronisation, custom instructions -/

/-- `flushd`, `initd`, `flushi`, `initi` select lines by the index bits of their address, with any cache geometry, and do
nothing where there is no cache (46_other_control.md R417, R419, R420, R422). That the index bits alone select the line of
`flushi` and `initi` is log 53. Encodings: log 37. -/
def Obligations.CacheByIndex : Prop :=
  (∀ a imm, decode (encodeI 0x3B#6 a 0#5 imm) = .ok (.flushd a imm)) ∧
  (∀ a imm, decode (encodeI 0x33#6 a 0#5 imm) = .ok (.initd a imm)) ∧
  (∀ a, decode (encodeR 0x0C#6 a 0#5 0#5 0#5) = .ok (.flushi a)) ∧
  (∀ a, decode (encodeR 0x29#6 a 0#5 0#5 0#5) = .ok (.initi a)) ∧
  ∀ rA imm s, s.memory.wf = true →
    (∀ g, s.config.dcache = some g →
      DataCacheOp (.flushd rA imm) s g (fun l => l.index == cacheIndex g (s.reg rA + imm.signExtend 32)) true ∧
      (s.userForbidden = false →
        DataCacheOp (.initd rA imm) s g (fun l => l.index == cacheIndex g (s.reg rA + imm.signExtend 32)) false)) ∧
    (∀ g, s.config.icache = some g →
      InstrCacheOp (.flushi rA) s (fun l => l.index == cacheIndex g (s.reg rA)) ∧
      (s.userForbidden = false → InstrCacheOp (.initi rA) s (fun l => l.index == cacheIndex g (s.reg rA)))) ∧
    (s.config.dcache = none → (∃ t, exec (.flushd rA imm) s = .next t ∧ Went s t (s.pc + 4#32)) ∧
      (s.userForbidden = false → ∃ t, exec (.initd rA imm) s = .next t ∧ Went s t (s.pc + 4#32))) ∧
    (s.config.icache = none → (∃ t, exec (.flushi rA) s = .next t ∧ Went s t (s.pc + 4#32)) ∧
      (s.userForbidden = false → ∃ t, exec (.initi rA) s = .next t ∧ Went s t (s.pc + 4#32)))

/-- `flushda` and `initda` select the line that holds their physical address; their address checks are made with and without a
cache; `initda` is unimplemented without `HW_INITDA` (46_other_control.md R416, R418, R421). Encodings: log 37. -/
def Obligations.CacheByAddress : Prop :=
  (∀ a imm, decode (encodeI 0x1B#6 a 0#5 imm) = .ok (.flushda a imm)) ∧
  (∀ a imm, decode (encodeI 0x13#6 a 0#5 imm) = .ok (.initda a imm)) ∧
  ∀ rA imm s, s.memory.wf = true →
    (∀ pa c, dataAddr .flushda 1 (s.reg rA + imm.signExtend 32) s = .ok (pa, c) →
      (∀ g, s.config.dcache = some g → DataCacheOp (.flushda rA imm) s g (fun l => l.base == lineBase g pa) true) ∧
      (s.config.dcache = none → ∃ t, exec (.flushda rA imm) s = .next t ∧ Went s t (s.pc + 4#32))) ∧
    (s.config.hwInitda = false → exec (.initda rA imm) s = .next (takeException .unimplementedInstr s)) ∧
    (s.config.hwInitda = true →
      (∀ pa c, dataAddr .initda 1 (s.reg rA + imm.signExtend 32) s = .ok (pa, c) →
        (∀ g, s.config.dcache = some g → DataCacheOp (.initda rA imm) s g (fun l => l.base == lineBase g pa) false) ∧
        (s.config.dcache = none → ∃ t, exec (.initda rA imm) s = .next t ∧ Went s t (s.pc + 4#32))) ∧
      ∀ e, dataAddr .initda 1 (s.reg rA + imm.signExtend 32) s = .error (.exc e) →
        exec (.initda rA imm) s = .next (takeException e s))

/-- `flushp` and `sync` go on; `flushp` also discards what was fetched ahead and ends the time in which an old region table may
be seen (46_other_control.md R423, R424, 70_reset_and_hazards.md R551; logs 31, 32). Encodings: log 37. -/
def Obligations.Synchronisation : Prop :=
  decode 0x0000203A#32 = .ok .flushp ∧ decode 0x0001B03A#32 = .ok .sync ∧
    ∀ s,
      (∃ t, exec .flushp s = .next t ∧ t.mpuStale = none ∧ t.prefetched = [] ∧
        Went { s with mpuStale := none, prefetched := [] } t (s.pc + 4#32)) ∧
      ∃ t, exec .sync s = .next t ∧ Went s t (s.pc + 4#32)

/-- `custom N`: the operands by `readra` and `readrb`, the result to `x[C]` by `writerc`, the custom logic's state replaced,
whatever the logic computes; an N that is not present is refused (47_custom_nop.md R440, 30_encoding.md R204). Encodings: log
37. -/
def Obligations.CustomInstruction : Prop :=
  (∀ n c a b ra rb wc, decode (encodeCustom n c a b ra rb wc) = .ok (.custom n c a b ra rb wc)) ∧
    ∀ n rC rA rB ra rb wc s,
      (s.config.customPresent.getLsbD n.toNat = false → exec (.custom n rC rA rB ra rb wc) s = .refused .absentCustom) ∧
      (s.config.customPresent.getLsbD n.toNat = true → ∀ a b v logic,
        a = (if ra then s.reg rA else s.custom.registers[rA.toNat]) →
        b = (if rb then s.reg rB else s.custom.registers[rB.toNat]) →
        Config.customFunction n a b rA rB rC ra rb wc s.custom = (v, logic) →
        ∃ t, exec (.custom n rC rA rB ra rb wc) s = .next t ∧ t.custom = logic ∧
          Wrote { s with custom := logic } t (if wc then rC else 0#5) v (s.pc + 4#32))

/-- The stop on an illegal virtual alias: a plain load or store of a line that the data cache holds, by an access, under another
index (20_memory.md R117, 93 U15; log 26). -/
def Obligations.VirtualAlias : Prop :=
  (AliasStops .ldw .load 4 ∧ AliasStops .ldb .load 1 ∧ AliasStops .ldbu .load 1 ∧ AliasStops .ldh .load 2 ∧
    AliasStops .ldhu .load 2) ∧ AliasStops .stw .store 4 ∧ AliasStops .stb .store 1 ∧ AliasStops .sth .store 2
end

