-- ==== Sys2Proof/Laws/State.lean ====
section
/-! SUPPORT. One lemma per field of the state per update: what each shared update leaves in each field. No later proof unfolds
a record update. -/

namespace Sys2Proof.Machine

/-! `State.advance`. -/

@[simp] theorem State.advance_config (s : State) : (s.advance).config = s.config := rfl
@[simp] theorem State.advance_pc (s : State) : (s.advance).pc = s.pc + 4#32 := rfl
@[simp] theorem State.advance_regs (s : State) : (s.advance).regs = s.regs := rfl
@[simp] theorem State.advance_status (s : State) : (s.advance).status = s.status := rfl
@[simp] theorem State.advance_estatus (s : State) : (s.advance).estatus = s.estatus := rfl
@[simp] theorem State.advance_bstatus (s : State) : (s.advance).bstatus = s.bstatus := rfl
@[simp] theorem State.advance_ienable (s : State) : (s.advance).ienable = s.ienable := rfl
@[simp] theorem State.advance_exceptionReg (s : State) : (s.advance).exceptionReg = s.exceptionReg := rfl
@[simp] theorem State.advance_pteaddr (s : State) : (s.advance).pteaddr = s.pteaddr := rfl
@[simp] theorem State.advance_tlbacc (s : State) : (s.advance).tlbacc = s.tlbacc := rfl
@[simp] theorem State.advance_tlbmisc (s : State) : (s.advance).tlbmisc = s.tlbmisc := rfl
@[simp] theorem State.advance_badaddr (s : State) : (s.advance).badaddr = s.badaddr := rfl
@[simp] theorem State.advance_configReg (s : State) : (s.advance).configReg = s.configReg := rfl
@[simp] theorem State.advance_mpubase (s : State) : (s.advance).mpubase = s.mpubase := rfl
@[simp] theorem State.advance_mpuacc (s : State) : (s.advance).mpuacc = s.mpuacc := rfl
@[simp] theorem State.advance_tlb (s : State) : (s.advance).tlb = s.tlb := rfl
@[simp] theorem State.advance_mpu (s : State) : (s.advance).mpu = s.mpu := rfl
@[simp] theorem State.advance_mpuStale (s : State) : (s.advance).mpuStale = s.mpuStale := rfl
@[simp] theorem State.advance_memory (s : State) : (s.advance).memory = s.memory := rfl
@[simp] theorem State.advance_dcache (s : State) : (s.advance).dcache = s.dcache := rfl
@[simp] theorem State.advance_icache (s : State) : (s.advance).icache = s.icache := rfl
@[simp] theorem State.advance_prefetched (s : State) : (s.advance).prefetched = s.prefetched := rfl
@[simp] theorem State.advance_inDebug (s : State) : (s.advance).inDebug = s.inDebug := rfl
@[simp] theorem State.advance_custom (s : State) : (s.advance).custom = s.custom := rfl
@[simp] theorem State.advance_deviceCycles (s : State) : (s.advance).deviceCycles = s.deviceCycles := rfl
@[simp] theorem State.advance_inputs (s : State) : (s.advance).inputs = s.inputs := rfl
@[simp] theorem State.advance_future (s : State) : (s.advance).future = s.future := rfl
@[simp] theorem State.advance_tick (s : State) : (s.advance).tick = s.tick := rfl

/-! `State.setReg`. -/

@[simp] theorem State.setReg_config (s : State) (r : Reg) (v : Word) :
    (s.setReg r v).config = s.config := by
  unfold State.setReg; split <;> rfl
@[simp] theorem State.setReg_pc (s : State) (r : Reg) (v : Word) :
    (s.setReg r v).pc = s.pc := by
  unfold State.setReg; split <;> rfl
@[simp] theorem State.setReg_status (s : State) (r : Reg) (v : Word) :
    (s.setReg r v).status = s.status := by
  unfold State.setReg; split <;> rfl
@[simp] theorem State.setReg_estatus (s : State) (r : Reg) (v : Word) :
    (s.setReg r v).estatus = s.estatus := by
  unfold State.setReg; split <;> rfl
@[simp] theorem State.setReg_bstatus (s : State) (r : Reg) (v : Word) :
    (s.setReg r v).bstatus = s.bstatus := by
  unfold State.setReg; split <;> rfl
@[simp] theorem State.setReg_ienable (s : State) (r : Reg) (v : Word) :
    (s.setReg r v).ienable = s.ienable := by
  unfold State.setReg; split <;> rfl
@[simp] theorem State.setReg_exceptionReg (s : State) (r : Reg) (v : Word) :
    (s.setReg r v).exceptionReg = s.exceptionReg := by
  unfold State.setReg; split <;> rfl
@[simp] theorem State.setReg_pteaddr (s : State) (r : Reg) (v : Word) :
    (s.setReg r v).pteaddr = s.pteaddr := by
  unfold State.setReg; split <;> rfl
@[simp] theorem State.setReg_tlbacc (s : State) (r : Reg) (v : Word) :
    (s.setReg r v).tlbacc = s.tlbacc := by
  unfold State.setReg; split <;> rfl
@[simp] theorem State.setReg_tlbmisc (s : State) (r : Reg) (v : Word) :
    (s.setReg r v).tlbmisc = s.tlbmisc := by
  unfold State.setReg; split <;> rfl
@[simp] theorem State.setReg_badaddr (s : State) (r : Reg) (v : Word) :
    (s.setReg r v).badaddr = s.badaddr := by
  unfold State.setReg; split <;> rfl
@[simp] theorem State.setReg_configReg (s : State) (r : Reg) (v : Word) :
    (s.setReg r v).configReg = s.configReg := by
  unfold State.setReg; split <;> rfl
@[simp] theorem State.setReg_mpubase (s : State) (r : Reg) (v : Word) :
    (s.setReg r v).mpubase = s.mpubase := by
  unfold State.setReg; split <;> rfl
@[simp] theorem State.setReg_mpuacc (s : State) (r : Reg) (v : Word) :
    (s.setReg r v).mpuacc = s.mpuacc := by
  unfold State.setReg; split <;> rfl
@[simp] theorem State.setReg_tlb (s : State) (r : Reg) (v : Word) :
    (s.setReg r v).tlb = s.tlb := by
  unfold State.setReg; split <;> rfl
@[simp] theorem State.setReg_mpu (s : State) (r : Reg) (v : Word) :
    (s.setReg r v).mpu = s.mpu := by
  unfold State.setReg; split <;> rfl
@[simp] theorem State.setReg_mpuStale (s : State) (r : Reg) (v : Word) :
    (s.setReg r v).mpuStale = s.mpuStale := by
  unfold State.setReg; split <;> rfl
@[simp] theorem State.setReg_memory (s : State) (r : Reg) (v : Word) :
    (s.setReg r v).memory = s.memory := by
  unfold State.setReg; split <;> rfl
@[simp] theorem State.setReg_dcache (s : State) (r : Reg) (v : Word) :
    (s.setReg r v).dcache = s.dcache := by
  unfold State.setReg; split <;> rfl
@[simp] theorem State.setReg_icache (s : State) (r : Reg) (v : Word) :
    (s.setReg r v).icache = s.icache := by
  unfold State.setReg; split <;> rfl
@[simp] theorem State.setReg_prefetched (s : State) (r : Reg) (v : Word) :
    (s.setReg r v).prefetched = s.prefetched := by
  unfold State.setReg; split <;> rfl
@[simp] theorem State.setReg_inDebug (s : State) (r : Reg) (v : Word) :
    (s.setReg r v).inDebug = s.inDebug := by
  unfold State.setReg; split <;> rfl
@[simp] theorem State.setReg_custom (s : State) (r : Reg) (v : Word) :
    (s.setReg r v).custom = s.custom := by
  unfold State.setReg; split <;> rfl
@[simp] theorem State.setReg_deviceCycles (s : State) (r : Reg) (v : Word) :
    (s.setReg r v).deviceCycles = s.deviceCycles := by
  unfold State.setReg; split <;> rfl
@[simp] theorem State.setReg_inputs (s : State) (r : Reg) (v : Word) :
    (s.setReg r v).inputs = s.inputs := by
  unfold State.setReg; split <;> rfl
@[simp] theorem State.setReg_future (s : State) (r : Reg) (v : Word) :
    (s.setReg r v).future = s.future := by
  unfold State.setReg; split <;> rfl
@[simp] theorem State.setReg_tick (s : State) (r : Reg) (v : Word) :
    (s.setReg r v).tick = s.tick := by
  unfold State.setReg; split <;> rfl

/-! `flushPipeline`. -/

@[simp] theorem flushPipeline_config (s : State) : (flushPipeline s).config = s.config := rfl
@[simp] theorem flushPipeline_pc (s : State) : (flushPipeline s).pc = s.pc := rfl
@[simp] theorem flushPipeline_regs (s : State) : (flushPipeline s).regs = s.regs := rfl
@[simp] theorem flushPipeline_status (s : State) : (flushPipeline s).status = s.status := rfl
@[simp] theorem flushPipeline_estatus (s : State) : (flushPipeline s).estatus = s.estatus := rfl
@[simp] theorem flushPipeline_bstatus (s : State) : (flushPipeline s).bstatus = s.bstatus := rfl
@[simp] theorem flushPipeline_ienable (s : State) : (flushPipeline s).ienable = s.ienable := rfl
@[simp] theorem flushPipeline_exceptionReg (s : State) : (flushPipeline s).exceptionReg = s.exceptionReg := rfl
@[simp] theorem flushPipeline_pteaddr (s : State) : (flushPipeline s).pteaddr = s.pteaddr := rfl
@[simp] theorem flushPipeline_tlbacc (s : State) : (flushPipeline s).tlbacc = s.tlbacc := rfl
@[simp] theorem flushPipeline_tlbmisc (s : State) : (flushPipeline s).tlbmisc = s.tlbmisc := rfl
@[simp] theorem flushPipeline_badaddr (s : State) : (flushPipeline s).badaddr = s.badaddr := rfl
@[simp] theorem flushPipeline_configReg (s : State) : (flushPipeline s).configReg = s.configReg := rfl
@[simp] theorem flushPipeline_mpubase (s : State) : (flushPipeline s).mpubase = s.mpubase := rfl
@[simp] theorem flushPipeline_mpuacc (s : State) : (flushPipeline s).mpuacc = s.mpuacc := rfl
@[simp] theorem flushPipeline_tlb (s : State) : (flushPipeline s).tlb = s.tlb := rfl
@[simp] theorem flushPipeline_mpu (s : State) : (flushPipeline s).mpu = s.mpu := rfl
@[simp] theorem flushPipeline_mpuStale (s : State) : (flushPipeline s).mpuStale = none := rfl
@[simp] theorem flushPipeline_memory (s : State) : (flushPipeline s).memory = s.memory := rfl
@[simp] theorem flushPipeline_dcache (s : State) : (flushPipeline s).dcache = s.dcache := rfl
@[simp] theorem flushPipeline_icache (s : State) : (flushPipeline s).icache = s.icache := rfl
@[simp] theorem flushPipeline_prefetched (s : State) : (flushPipeline s).prefetched = [] := rfl
@[simp] theorem flushPipeline_inDebug (s : State) : (flushPipeline s).inDebug = s.inDebug := rfl
@[simp] theorem flushPipeline_custom (s : State) : (flushPipeline s).custom = s.custom := rfl
@[simp] theorem flushPipeline_deviceCycles (s : State) : (flushPipeline s).deviceCycles = s.deviceCycles := rfl
@[simp] theorem flushPipeline_inputs (s : State) : (flushPipeline s).inputs = s.inputs := rfl
@[simp] theorem flushPipeline_future (s : State) : (flushPipeline s).future = s.future := rfl
@[simp] theorem flushPipeline_tick (s : State) : (flushPipeline s).tick = s.tick := rfl

/-! `recordCycle`. -/

@[simp] theorem recordCycle_config (io : Bool) (n : Nat) (pa : Word) (write : Bool) (v : Word) (s : State) :
    (recordCycle io n pa write v s).config = s.config := rfl
@[simp] theorem recordCycle_pc (io : Bool) (n : Nat) (pa : Word) (write : Bool) (v : Word) (s : State) :
    (recordCycle io n pa write v s).pc = s.pc := rfl
@[simp] theorem recordCycle_regs (io : Bool) (n : Nat) (pa : Word) (write : Bool) (v : Word) (s : State) :
    (recordCycle io n pa write v s).regs = s.regs := rfl
@[simp] theorem recordCycle_status (io : Bool) (n : Nat) (pa : Word) (write : Bool) (v : Word) (s : State) :
    (recordCycle io n pa write v s).status = s.status := rfl
@[simp] theorem recordCycle_estatus (io : Bool) (n : Nat) (pa : Word) (write : Bool) (v : Word) (s : State) :
    (recordCycle io n pa write v s).estatus = s.estatus := rfl
@[simp] theorem recordCycle_bstatus (io : Bool) (n : Nat) (pa : Word) (write : Bool) (v : Word) (s : State) :
    (recordCycle io n pa write v s).bstatus = s.bstatus := rfl
@[simp] theorem recordCycle_ienable (io : Bool) (n : Nat) (pa : Word) (write : Bool) (v : Word) (s : State) :
    (recordCycle io n pa write v s).ienable = s.ienable := rfl
@[simp] theorem recordCycle_exceptionReg (io : Bool) (n : Nat) (pa : Word) (write : Bool) (v : Word) (s : State) :
    (recordCycle io n pa write v s).exceptionReg = s.exceptionReg := rfl
@[simp] theorem recordCycle_pteaddr (io : Bool) (n : Nat) (pa : Word) (write : Bool) (v : Word) (s : State) :
    (recordCycle io n pa write v s).pteaddr = s.pteaddr := rfl
@[simp] theorem recordCycle_tlbacc (io : Bool) (n : Nat) (pa : Word) (write : Bool) (v : Word) (s : State) :
    (recordCycle io n pa write v s).tlbacc = s.tlbacc := rfl
@[simp] theorem recordCycle_tlbmisc (io : Bool) (n : Nat) (pa : Word) (write : Bool) (v : Word) (s : State) :
    (recordCycle io n pa write v s).tlbmisc = s.tlbmisc := rfl
@[simp] theorem recordCycle_badaddr (io : Bool) (n : Nat) (pa : Word) (write : Bool) (v : Word) (s : State) :
    (recordCycle io n pa write v s).badaddr = s.badaddr := rfl
@[simp] theorem recordCycle_configReg (io : Bool) (n : Nat) (pa : Word) (write : Bool) (v : Word) (s : State) :
    (recordCycle io n pa write v s).configReg = s.configReg := rfl
@[simp] theorem recordCycle_mpubase (io : Bool) (n : Nat) (pa : Word) (write : Bool) (v : Word) (s : State) :
    (recordCycle io n pa write v s).mpubase = s.mpubase := rfl
@[simp] theorem recordCycle_mpuacc (io : Bool) (n : Nat) (pa : Word) (write : Bool) (v : Word) (s : State) :
    (recordCycle io n pa write v s).mpuacc = s.mpuacc := rfl
@[simp] theorem recordCycle_tlb (io : Bool) (n : Nat) (pa : Word) (write : Bool) (v : Word) (s : State) :
    (recordCycle io n pa write v s).tlb = s.tlb := rfl
@[simp] theorem recordCycle_mpu (io : Bool) (n : Nat) (pa : Word) (write : Bool) (v : Word) (s : State) :
    (recordCycle io n pa write v s).mpu = s.mpu := rfl
@[simp] theorem recordCycle_mpuStale (io : Bool) (n : Nat) (pa : Word) (write : Bool) (v : Word) (s : State) :
    (recordCycle io n pa write v s).mpuStale = s.mpuStale := rfl
@[simp] theorem recordCycle_memory (io : Bool) (n : Nat) (pa : Word) (write : Bool) (v : Word) (s : State) :
    (recordCycle io n pa write v s).memory = s.memory := rfl
@[simp] theorem recordCycle_dcache (io : Bool) (n : Nat) (pa : Word) (write : Bool) (v : Word) (s : State) :
    (recordCycle io n pa write v s).dcache = s.dcache := rfl
@[simp] theorem recordCycle_icache (io : Bool) (n : Nat) (pa : Word) (write : Bool) (v : Word) (s : State) :
    (recordCycle io n pa write v s).icache = s.icache := rfl
@[simp] theorem recordCycle_prefetched (io : Bool) (n : Nat) (pa : Word) (write : Bool) (v : Word) (s : State) :
    (recordCycle io n pa write v s).prefetched = s.prefetched := rfl
@[simp] theorem recordCycle_inDebug (io : Bool) (n : Nat) (pa : Word) (write : Bool) (v : Word) (s : State) :
    (recordCycle io n pa write v s).inDebug = s.inDebug := rfl
@[simp] theorem recordCycle_custom (io : Bool) (n : Nat) (pa : Word) (write : Bool) (v : Word) (s : State) :
    (recordCycle io n pa write v s).custom = s.custom := rfl
@[simp] theorem recordCycle_deviceCycles (io : Bool) (n : Nat) (pa : Word) (write : Bool) (v : Word) (s : State) :
    (recordCycle io n pa write v s).deviceCycles = if !io || allMemory s.config pa.toNat n then s.deviceCycles
      else { addr := pa, bytes := n, write, value := v &&& lowBits (8 * n) } :: s.deviceCycles := rfl
@[simp] theorem recordCycle_inputs (io : Bool) (n : Nat) (pa : Word) (write : Bool) (v : Word) (s : State) :
    (recordCycle io n pa write v s).inputs = s.inputs := rfl
@[simp] theorem recordCycle_future (io : Bool) (n : Nat) (pa : Word) (write : Bool) (v : Word) (s : State) :
    (recordCycle io n pa write v s).future = s.future := rfl
@[simp] theorem recordCycle_tick (io : Bool) (n : Nat) (pa : Word) (write : Bool) (v : Word) (s : State) :
    (recordCycle io n pa write v s).tick = s.tick := rfl

/-! `takeBreak`. -/

@[simp] theorem takeBreak_config (s : State) : (takeBreak s).config = s.config := rfl
@[simp] theorem takeBreak_pc (s : State) : (takeBreak s).pc = vectorPc s.config s.config.breakVector := rfl
@[simp] theorem takeBreak_regs (s : State) : (takeBreak s).regs = s.regs.set 30 (s.pc + 4#32) := rfl
@[simp] theorem takeBreak_status (s : State) : (takeBreak s).status = entryStatus s.config := rfl
@[simp] theorem takeBreak_estatus (s : State) : (takeBreak s).estatus = s.estatus := rfl
@[simp] theorem takeBreak_bstatus (s : State) : (takeBreak s).bstatus = s.status := rfl
@[simp] theorem takeBreak_ienable (s : State) : (takeBreak s).ienable = s.ienable := rfl
@[simp] theorem takeBreak_exceptionReg (s : State) : (takeBreak s).exceptionReg = s.exceptionReg := rfl
@[simp] theorem takeBreak_pteaddr (s : State) : (takeBreak s).pteaddr = s.pteaddr := rfl
@[simp] theorem takeBreak_tlbacc (s : State) : (takeBreak s).tlbacc = s.tlbacc := rfl
@[simp] theorem takeBreak_tlbmisc (s : State) : (takeBreak s).tlbmisc = s.tlbmisc := rfl
@[simp] theorem takeBreak_badaddr (s : State) : (takeBreak s).badaddr = s.badaddr := rfl
@[simp] theorem takeBreak_configReg (s : State) : (takeBreak s).configReg = s.configReg := rfl
@[simp] theorem takeBreak_mpubase (s : State) : (takeBreak s).mpubase = s.mpubase := rfl
@[simp] theorem takeBreak_mpuacc (s : State) : (takeBreak s).mpuacc = s.mpuacc := rfl
@[simp] theorem takeBreak_tlb (s : State) : (takeBreak s).tlb = s.tlb := rfl
@[simp] theorem takeBreak_mpu (s : State) : (takeBreak s).mpu = s.mpu := rfl
@[simp] theorem takeBreak_mpuStale (s : State) : (takeBreak s).mpuStale = none := rfl
@[simp] theorem takeBreak_memory (s : State) : (takeBreak s).memory = s.memory := rfl
@[simp] theorem takeBreak_dcache (s : State) : (takeBreak s).dcache = s.dcache := rfl
@[simp] theorem takeBreak_icache (s : State) : (takeBreak s).icache = s.icache := rfl
@[simp] theorem takeBreak_prefetched (s : State) : (takeBreak s).prefetched = [] := rfl
@[simp] theorem takeBreak_inDebug (s : State) : (takeBreak s).inDebug = true := rfl
@[simp] theorem takeBreak_custom (s : State) : (takeBreak s).custom = s.custom := rfl
@[simp] theorem takeBreak_deviceCycles (s : State) : (takeBreak s).deviceCycles = s.deviceCycles := rfl
@[simp] theorem takeBreak_inputs (s : State) : (takeBreak s).inputs = s.inputs := rfl
@[simp] theorem takeBreak_future (s : State) : (takeBreak s).future = s.future := rfl
@[simp] theorem takeBreak_tick (s : State) : (takeBreak s).tick = s.tick := rfl

/-! `takeException`. -/

@[simp] theorem takeException_config (e : Exc) (s : State) : (takeException e s).config = s.config := rfl
@[simp] theorem takeException_pc (e : Exc) (s : State) :
    (takeException e s).pc = entryVector e s.nested s.config := rfl
@[simp] theorem takeException_regs (e : Exc) (s : State) :
    (takeException e s).regs = if s.nested then s.regs else s.regs.set 29 (s.pc + 4#32) := rfl
@[simp] theorem takeException_status (e : Exc) (s : State) : (takeException e s).status = entryStatus s.config := rfl
@[simp] theorem takeException_estatus (e : Exc) (s : State) :
    (takeException e s).estatus = if s.nested then s.estatus else s.status := rfl
@[simp] theorem takeException_bstatus (e : Exc) (s : State) : (takeException e s).bstatus = s.bstatus := rfl
@[simp] theorem takeException_ienable (e : Exc) (s : State) : (takeException e s).ienable = s.ienable := rfl
@[simp] theorem takeException_exceptionReg (e : Exc) (s : State) :
    (takeException e s).exceptionReg = if s.config.extraExcInfo then (e.cause.setWidth 32) <<< 2 else s.exceptionReg := rfl
@[simp] theorem takeException_pteaddr (e : Exc) (s : State) :
    (takeException e s).pteaddr = if s.config.hasMmu && !s.nested && (e.isTlbMiss || e.isTlbPermission) then
        setVpn s.pteaddr ((e.tlbAddress s.pc).extractLsb' 12 20)
      else s.pteaddr := rfl
@[simp] theorem takeException_tlbacc (e : Exc) (s : State) : (takeException e s).tlbacc = s.tlbacc := rfl
@[simp] theorem takeException_tlbmisc (e : Exc) (s : State) :
    (takeException e s).tlbmisc = if s.config.hasMmu then entryTlbmisc e s.nested s.tlbmisc else s.tlbmisc := rfl
@[simp] theorem takeException_badaddr (e : Exc) (s : State) :
    (takeException e s).badaddr = if s.config.extraExcInfo then e.badaddr s.config s.tick s.badaddr else s.badaddr := rfl
@[simp] theorem takeException_configReg (e : Exc) (s : State) : (takeException e s).configReg = s.configReg := rfl
@[simp] theorem takeException_mpubase (e : Exc) (s : State) : (takeException e s).mpubase = s.mpubase := rfl
@[simp] theorem takeException_mpuacc (e : Exc) (s : State) : (takeException e s).mpuacc = s.mpuacc := rfl
@[simp] theorem takeException_tlb (e : Exc) (s : State) : (takeException e s).tlb = s.tlb := rfl
@[simp] theorem takeException_mpu (e : Exc) (s : State) : (takeException e s).mpu = s.mpu := rfl
@[simp] theorem takeException_mpuStale (e : Exc) (s : State) : (takeException e s).mpuStale = none := rfl
@[simp] theorem takeException_memory (e : Exc) (s : State) : (takeException e s).memory = s.memory := rfl
@[simp] theorem takeException_dcache (e : Exc) (s : State) : (takeException e s).dcache = s.dcache := rfl
@[simp] theorem takeException_icache (e : Exc) (s : State) : (takeException e s).icache = s.icache := rfl
@[simp] theorem takeException_prefetched (e : Exc) (s : State) : (takeException e s).prefetched = [] := rfl
@[simp] theorem takeException_inDebug (e : Exc) (s : State) : (takeException e s).inDebug = s.inDebug := rfl
@[simp] theorem takeException_custom (e : Exc) (s : State) : (takeException e s).custom = s.custom := rfl
@[simp] theorem takeException_deviceCycles (e : Exc) (s : State) :
    (takeException e s).deviceCycles = s.deviceCycles := rfl
@[simp] theorem takeException_inputs (e : Exc) (s : State) : (takeException e s).inputs = s.inputs := rfl
@[simp] theorem takeException_future (e : Exc) (s : State) : (takeException e s).future = s.future := rfl
@[simp] theorem takeException_tick (e : Exc) (s : State) : (takeException e s).tick = s.tick := rfl

/-! `resetProcessor`. -/

@[simp] theorem resetProcessor_config (s : State) : (resetProcessor s).config = s.config := rfl
@[simp] theorem resetProcessor_pc (s : State) : (resetProcessor s).pc = vectorPc s.config s.config.resetVector := rfl
@[simp] theorem resetProcessor_status (s : State) : (resetProcessor s).status = 0#32 := rfl
@[simp] theorem resetProcessor_tlbacc (s : State) : (resetProcessor s).tlbacc = 0#32 := rfl
@[simp] theorem resetProcessor_tlbmisc (s : State) : (resetProcessor s).tlbmisc = 0#32 := rfl
@[simp] theorem resetProcessor_configReg (s : State) : (resetProcessor s).configReg = 0#32 := rfl
@[simp] theorem resetProcessor_mpuStale (s : State) : (resetProcessor s).mpuStale = none := rfl
@[simp] theorem resetProcessor_prefetched (s : State) : (resetProcessor s).prefetched = [] := rfl
@[simp] theorem resetProcessor_inDebug (s : State) : (resetProcessor s).inDebug = false := rfl
@[simp] theorem resetProcessor_deviceCycles (s : State) : (resetProcessor s).deviceCycles = s.deviceCycles := rfl
@[simp] theorem resetProcessor_inputs (s : State) : (resetProcessor s).inputs = s.inputs := rfl
@[simp] theorem resetProcessor_future (s : State) : (resetProcessor s).future = s.future := rfl
@[simp] theorem resetProcessor_tick (s : State) : (resetProcessor s).tick = s.tick := rfl

/-! `nextBoundary`. -/

@[simp] theorem nextBoundary_config (s : State) : (nextBoundary s).config = s.config := rfl
@[simp] theorem nextBoundary_pc (s : State) : (nextBoundary s).pc = s.pc := rfl
@[simp] theorem nextBoundary_regs (s : State) : (nextBoundary s).regs = s.regs := rfl
@[simp] theorem nextBoundary_status (s : State) : (nextBoundary s).status = s.status := rfl
@[simp] theorem nextBoundary_estatus (s : State) : (nextBoundary s).estatus = s.estatus := rfl
@[simp] theorem nextBoundary_bstatus (s : State) : (nextBoundary s).bstatus = s.bstatus := rfl
@[simp] theorem nextBoundary_ienable (s : State) : (nextBoundary s).ienable = s.ienable := rfl
@[simp] theorem nextBoundary_exceptionReg (s : State) : (nextBoundary s).exceptionReg = s.exceptionReg := rfl
@[simp] theorem nextBoundary_pteaddr (s : State) : (nextBoundary s).pteaddr = s.pteaddr := rfl
@[simp] theorem nextBoundary_tlbacc (s : State) : (nextBoundary s).tlbacc = s.tlbacc := rfl
@[simp] theorem nextBoundary_tlbmisc (s : State) : (nextBoundary s).tlbmisc = s.tlbmisc := rfl
@[simp] theorem nextBoundary_badaddr (s : State) : (nextBoundary s).badaddr = s.badaddr := rfl
@[simp] theorem nextBoundary_configReg (s : State) : (nextBoundary s).configReg = s.configReg := rfl
@[simp] theorem nextBoundary_mpubase (s : State) : (nextBoundary s).mpubase = s.mpubase := rfl
@[simp] theorem nextBoundary_mpuacc (s : State) : (nextBoundary s).mpuacc = s.mpuacc := rfl
@[simp] theorem nextBoundary_tlb (s : State) : (nextBoundary s).tlb = s.tlb := rfl
@[simp] theorem nextBoundary_mpu (s : State) : (nextBoundary s).mpu = s.mpu := rfl
@[simp] theorem nextBoundary_mpuStale (s : State) : (nextBoundary s).mpuStale = s.mpuStale := rfl
@[simp] theorem nextBoundary_memory (s : State) : (nextBoundary s).memory = s.memory := rfl
@[simp] theorem nextBoundary_dcache (s : State) : (nextBoundary s).dcache = s.dcache := rfl
@[simp] theorem nextBoundary_icache (s : State) : (nextBoundary s).icache = s.icache := rfl
@[simp] theorem nextBoundary_prefetched (s : State) : (nextBoundary s).prefetched = s.prefetched := rfl
@[simp] theorem nextBoundary_inDebug (s : State) : (nextBoundary s).inDebug = s.inDebug := rfl
@[simp] theorem nextBoundary_custom (s : State) : (nextBoundary s).custom = s.custom := rfl
@[simp] theorem nextBoundary_deviceCycles (s : State) : (nextBoundary s).deviceCycles = s.deviceCycles := rfl
@[simp] theorem nextBoundary_inputs (s : State) : (nextBoundary s).inputs = nextInputs s := rfl
@[simp] theorem nextBoundary_future (s : State) : (nextBoundary s).future = s.future.tail := rfl
@[simp] theorem nextBoundary_tick (s : State) : (nextBoundary s).tick = s.tick + 1 := rfl

end Sys2Proof.Machine
end

