-- ==== Sys2Proof/Laws/Memory.lean ====
section
/-! SUPPORT. The laws of memory: a read after a write, and that every operation keeps the canonical form
(`Memory.wf`, log 8). -/

namespace Sys2Proof.Machine

theorem Memory.wfFrom_mono {lo lo' : Nat} (h : lo ≤ lo') : ∀ {m : Memory}, Memory.wfFrom lo' m = true → Memory.wfFrom lo m = true
  | [], _ => rfl
  | (k, v) :: m, hw => by
    simp only [Memory.wfFrom, Bool.and_eq_true, decide_eq_true_eq] at hw ⊢
    exact ⟨⟨by omega, hw.1.2⟩, hw.2⟩

/-- An address below every listed one reads as unlisted. -/
theorem Memory.read_of_wfFrom {a : Nat} : ∀ {lo : Nat} {m : Memory}, Memory.wfFrom lo m = true → a < lo → m.read a = unlistedByte
  | _, [], _, _ => rfl
  | lo, (k, v) :: m, hw, h => by
    simp only [Memory.wfFrom, Bool.and_eq_true, decide_eq_true_eq] at hw
    unfold Memory.read
    rw [if_neg (by omega)]
    exact Memory.read_of_wfFrom hw.2 (by omega)

theorem Memory.wfFrom_cons {lo a : Nat} {v : Byte} {m : Memory} (hlo : lo ≤ a) (hm : Memory.wfFrom (a + 1) m = true) :
    Memory.wfFrom lo (Memory.cons a v m) = true := by
  unfold Memory.cons
  split
  · exact Memory.wfFrom_mono (by omega) hm
  · next hv => simp [Memory.wfFrom, hlo, hv, hm]

theorem Memory.read_cons {a : Nat} {v : Byte} {m : Memory} (hm : Memory.wfFrom (a + 1) m = true) (b : Nat) :
    (Memory.cons a v m).read b = if b = a then v else m.read b := by
  unfold Memory.cons
  by_cases hv : v = unlistedByte
  · rw [if_pos hv]
    split
    · next h => subst h; rw [Memory.read_of_wfFrom hm (by omega), hv]
    · rfl
  · rw [if_neg hv]
    simp only [Memory.read]
    by_cases h : a = b
    · simp [h]
    · simp [h, Ne.symm h]

theorem Memory.wfFrom_write {a : Nat} {v : Byte} : ∀ {lo : Nat} {m : Memory}, lo ≤ a → Memory.wfFrom lo m = true →
    Memory.wfFrom lo (m.write a v) = true
  | _, [], hlo, _ => Memory.wfFrom_cons hlo rfl
  | lo, (k, x) :: m, hlo, hw => by
    simp only [Memory.wfFrom, Bool.and_eq_true, decide_eq_true_eq] at hw
    unfold Memory.write
    split
    · refine Memory.wfFrom_cons hlo ?_
      simp only [Memory.wfFrom, Bool.and_eq_true, decide_eq_true_eq]
      exact ⟨⟨by omega, hw.1.2⟩, hw.2⟩
    split
    · next h => exact Memory.wfFrom_cons hlo (h ▸ hw.2)
    · simp only [Memory.wfFrom, Bool.and_eq_true, decide_eq_true_eq]
      exact ⟨hw.1, Memory.wfFrom_write (by omega) hw.2⟩

/-- A read after a write, in canonical memory. -/
theorem Memory.read_write {a : Nat} {v : Byte} : ∀ {lo : Nat} {m : Memory}, Memory.wfFrom lo m = true → ∀ b,
    (m.write a v).read b = if b = a then v else m.read b
  | _, [], _, b => Memory.read_cons rfl b
  | lo, (k, x) :: m, hw, b => by
    simp only [Memory.wfFrom, Bool.and_eq_true, decide_eq_true_eq] at hw
    unfold Memory.write
    split
    · refine Memory.read_cons ?_ b
      simp only [Memory.wfFrom, Bool.and_eq_true, decide_eq_true_eq]
      exact ⟨⟨by omega, hw.1.2⟩, hw.2⟩
    split
    · next h =>
      rw [Memory.read_cons (h ▸ hw.2)]
      by_cases hb : b = a
      · simp [hb]
      · simp only [hb, if_false, Memory.read]
        rw [if_neg (by omega)]
    · simp only [Memory.read]
      by_cases hk : k = b
      · simp only [hk, if_true]
        rw [if_neg (by omega)]
      · simp only [hk, if_false]
        exact Memory.read_write hw.2 b

theorem Memory.wf_write {m : Memory} (h : m.wf = true) (a : Nat) (v : Byte) : (m.write a v).wf = true :=
  Memory.wfFrom_write (Nat.zero_le a) h

theorem Memory.read_write_wf {m : Memory} (h : m.wf = true) (a b : Nat) (v : Byte) :
    (m.write a v).read b = if b = a then v else m.read b := Memory.read_write h b

theorem Memory.wf_writeLE : ∀ (n : Nat) {m : Memory} (_ : m.wf = true) (a : Nat) (v : Word), (m.writeLE a n v).wf = true
  | 0, _, h, _, _ => h
  | n + 1, _, h, a, v => Memory.wf_writeLE n (Memory.wf_write h a (v.setWidth 8)) (a + 1) (v >>> 8)

theorem Memory.wf_copy : ∀ (n : Nat) (src : Memory) {dst : Memory} (_ : dst.wf = true) (a : Nat), (Memory.copy src dst a n).wf = true
  | 0, _, _, h, _ => h
  | n + 1, src, _, h, a => Memory.wf_copy n src (Memory.wf_write h a _) (a + 1)

theorem Memory.wf_foldl_write : ∀ (l : List Host.Cell) {m : Memory} (_ : m.wf = true),
    (l.foldl (fun acc c => acc.write c.1 c.2) m).wf = true
  | [], _, h => h
  | c :: l, _, h => Memory.wf_foldl_write l (Memory.wf_write h c.1 c.2)

theorem Memory.wf_normalise (l : List Host.Cell) : (Memory.normalise l).wf = true := Memory.wf_foldl_write l rfl

/-- A byte outside the `n` bytes written reads as before. -/
theorem Memory.read_writeLE_outside : ∀ (n : Nat) {m : Memory} (_ : m.wf = true) (a : Nat) (v : Word) (b : Nat)
    (_ : b < a ∨ a + n ≤ b), (m.writeLE a n v).read b = m.read b
  | 0, _, _, _, _, _, _ => rfl
  | n + 1, m, h, a, v, b, hb => by
    unfold Memory.writeLE
    rw [Memory.read_writeLE_outside n (Memory.wf_write h a _) (a + 1) _ b (by omega), Memory.read_write_wf h,
      if_neg (by omega)]

/-- The byte at position `i` of the bytes written is byte `i` of the value, the least significant first. -/
theorem Memory.read_writeLE_inside : ∀ (n : Nat) {m : Memory} (_ : m.wf = true) (a : Nat) (v : Word) (i : Nat) (_ : i < n),
    (m.writeLE a n v).read (a + i) = (v >>> (8 * i)).setWidth 8
  | 0, _, _, _, _, _, hi => absurd hi (by omega)
  | n + 1, m, h, a, v, i, hi => by
    unfold Memory.writeLE
    cases i with
    | zero =>
      rw [Memory.read_writeLE_outside n (Memory.wf_write h a _) (a + 1) _ (a + 0) (by omega), Memory.read_write_wf h]
      simp
    | succ i =>
      have := Memory.read_writeLE_inside n (Memory.wf_write h a (v.setWidth 8)) (a + 1) (v >>> 8) i (by omega)
      rw [show a + (i + 1) = a + 1 + i by omega, this]
      congr 1
      rw [← BitVec.shiftRight_add, show 8 + 8 * i = 8 * (i + 1) by omega]

/-- Memories that read alike at every address read alike in words. -/
theorem Memory.readLE_congr {m m' : Memory} : ∀ (n a : Nat) (_ : ∀ i, i < n → m'.read (a + i) = m.read (a + i)),
    m'.readLE a n = m.readLE a n
  | 0, _, _ => rfl
  | n + 1, a, h => by
    have h0 := h 0 (by omega)
    simp only [Nat.add_zero] at h0
    have ht : ∀ i, i < n → m'.read (a + 1 + i) = m.read (a + 1 + i) := fun i hi => by
      have := h (i + 1) (by omega)
      rwa [show a + (i + 1) = a + 1 + i by omega] at this
    have := Memory.readLE_congr n (a + 1) ht
    unfold Memory.readLE
    rw [h0, this]

/-- Bit `i` of the bytes read is bit `i % 8` of the byte `i / 8` places up: little endian (20_memory.md R104). -/
theorem Memory.getLsbD_readLE (m : Memory) : ∀ (n a i : Nat) (_ : i < 32),
    (m.readLE a n).getLsbD i = (decide (i < 8 * n) && (m.read (a + i / 8)).getLsbD (i % 8))
  | 0, _, _, _ => by simp [Memory.readLE]
  | n + 1, a, i, hi => by
    unfold Memory.readLE
    rw [BitVec.getLsbD_or, BitVec.getLsbD_shiftLeft, BitVec.getLsbD_setWidth]
    by_cases h : i < 8
    · simp [h, hi, Nat.div_eq_of_lt h, Nat.mod_eq_of_lt h, show i < 8 * (n + 1) by omega]
    · rw [Memory.getLsbD_readLE m n (a + 1) (i - 8) (by omega), BitVec.getLsbD_of_ge (m.read a) i (by omega),
        show a + 1 + (i - 8) / 8 = a + i / 8 by omega, show (i - 8) % 8 = i % 8 by omega]
      by_cases h2 : i < 8 * (n + 1)
      · simp [hi, h, h2, show i - 8 < 8 * n by omega]
      · simp [h2, show ¬(i - 8 < 8 * n) by omega]

/-- What was written, read back: the low `8 * n` bits of the value. -/
theorem Memory.getLsbD_readLE_writeLE {m : Memory} (h : m.wf = true) (n a : Nat) (v : Word) (i : Nat) (hi : i < 32) :
    ((m.writeLE a n v).readLE a n).getLsbD i = (decide (i < 8 * n) && v.getLsbD i) := by
  rw [Memory.getLsbD_readLE _ _ _ _ hi]
  by_cases hn : i < 8 * n
  · rw [Memory.read_writeLE_inside n h a v (i / 8) (by omega)]
    simp [hn, show i % 8 < 8 by omega, show 8 * (i / 8) + i % 8 = i by omega]
  · simp [hn]

/-- A byte outside the bytes copied is the destination's, in canonical memory. -/
theorem Memory.read_copy_outside : ∀ (n : Nat) (src : Memory) {dst : Memory} (_ : dst.wf = true) (a b : Nat)
    (_ : b < a ∨ a + n ≤ b), (Memory.copy src dst a n).read b = dst.read b
  | 0, _, _, _, _, _, _ => rfl
  | n + 1, src, _, h, a, b, hb => by
    unfold Memory.copy
    rw [Memory.read_copy_outside n src (Memory.wf_write h _ _) _ _ (by omega), Memory.read_write_wf h, if_neg (by omega)]

/-- A byte inside the bytes copied is the source's, in canonical memory. -/
theorem Memory.read_copy_inside : ∀ (n : Nat) (src : Memory) {dst : Memory} (_ : dst.wf = true) (a b : Nat) (_ : a ≤ b)
    (_ : b < a + n), (Memory.copy src dst a n).read b = src.read b
  | 0, _, _, _, _, _, h1, h2 => absurd h2 (by omega)
  | n + 1, src, _, h, a, b, h1, h2 => by
    unfold Memory.copy
    by_cases hb : b = a
    · subst hb
      rw [Memory.read_copy_outside n src (Memory.wf_write h _ _) _ _ (by omega), Memory.read_write_wf h, if_pos rfl]
    · exact Memory.read_copy_inside n src (Memory.wf_write h _ _) _ _ (by omega) (by omega)

/-- Canonical memories that read alike are equal. -/
theorem Memory.ext_of_wfFrom : ∀ {m m' : Memory} {lo lo' : Nat}, Memory.wfFrom lo m = true → Memory.wfFrom lo' m' = true →
    (∀ a, m.read a = m'.read a) → m = m'
  | [], [], _, _, _, _, _ => rfl
  | [], (k, v) :: m', _, _, _, h', h => by
    simp only [Memory.wfFrom, Bool.and_eq_true, decide_eq_true_eq] at h'
    exact absurd (by simpa [Memory.read] using (h k).symm) h'.1.2
  | (k, v) :: m, [], _, _, h', _, h => by
    simp only [Memory.wfFrom, Bool.and_eq_true, decide_eq_true_eq] at h'
    exact absurd (by simpa [Memory.read] using h k) h'.1.2
  | (k, v) :: m, (k', v') :: m', _, _, hm, hm', h => by
    simp only [Memory.wfFrom, Bool.and_eq_true, decide_eq_true_eq] at hm hm'
    have hk : k = k' := by
      rcases Nat.lt_trichotomy k k' with hlt | heq | hlt
      · have := h k
        simp only [Memory.read, if_true] at this
        rw [if_neg (by omega), Memory.read_of_wfFrom hm'.2 (by omega)] at this
        exact absurd this hm.1.2
      · exact heq
      · have := h k'
        simp only [Memory.read, if_true] at this
        rw [if_neg (by omega), Memory.read_of_wfFrom hm.2 (by omega)] at this
        exact absurd this.symm hm'.1.2
    subst hk
    have hv : v = v' := by simpa [Memory.read] using h k
    subst hv
    have : m = m' := Memory.ext_of_wfFrom hm.2 hm'.2 fun a => by
      by_cases ha : k = a
      · subst ha
        rw [Memory.read_of_wfFrom hm.2 (by omega), Memory.read_of_wfFrom hm'.2 (by omega)]
      · simpa [Memory.read, ha] using h a
    rw [this]

end Sys2Proof.Machine
end

