-- ==== Sys2Proof/Laws/Cache.lean ====
section
/-! SUPPORT. The laws of the bus (what memory answers, it answers alike on the bus) and of a cache as a list of lines: a line
found after it was put, and that every operation keeps the lines the cache can hold. -/

namespace Sys2Proof.Machine

/-! The bus. -/

/-- All bytes of an access are memory exactly when each is. -/
theorem allMemory_iff {c : Config} {a n : Nat} : allMemory c a n = true ↔ ∀ i, i < n → targetAt c (a + i) = some .memory := by
  simp [allMemory]

theorem anyUnmapped_iff {c : Config} {a n : Nat} : anyUnmapped c a n = true ↔ ∃ i, i < n ∧ targetAt c (a + i) = none := by
  simp [anyUnmapped]

theorem anyUnmapped_of_allMemory {c : Config} {a n : Nat} (h : allMemory c a n = true) : anyUnmapped c a n = false := by
  rw [Bool.eq_false_iff]
  intro hu
  obtain ⟨i, hi, hn⟩ := anyUnmapped_iff.1 hu
  rw [allMemory_iff.1 h i hi] at hn
  cases hn

theorem allMemory_succ {c : Config} {a n : Nat} (h : allMemory c a (n + 1) = true) :
    targetAt c a = some .memory ∧ allMemory c (a + 1) n = true := by
  rw [allMemory_iff] at *
  refine ⟨by simpa using h 0 (by omega), fun i hi => ?_⟩
  rw [show a + 1 + i = a + (i + 1) by omega]
  exact h (i + 1) (by omega)

/-- Where memory answers, the bus gives memory's bytes. -/
theorem busBytes_memory {f : Bool} {s : State} : ∀ {n a : Nat} (_ : allMemory s.config a n = true),
    busBytes f s a n = s.memory.readLE a n
  | 0, _, _ => rfl
  | n + 1, a, h => by
    obtain ⟨h0, h1⟩ := allMemory_succ h
    unfold busBytes Memory.readLE busByte
    rw [if_pos h0, busBytes_memory h1]

/-- Where memory answers, a write on the bus writes memory. -/
theorem busStore_memory {c : Config} : ∀ {n a : Nat} {m : Memory} {v : Word} (_ : allMemory c a n = true),
    busStore c m a n v = m.writeLE a n v
  | 0, _, _, _, _ => rfl
  | n + 1, a, m, v, h => by
    obtain ⟨h0, h1⟩ := allMemory_succ h
    unfold busStore Memory.writeLE
    rw [if_pos h0, busStore_memory h1]

/-- Where no byte is memory, a write on the bus leaves memory. -/
theorem busStore_device {c : Config} : ∀ {n a : Nat} {m : Memory} {v : Word}
    (_ : ∀ i, i < n → targetAt c (a + i) ≠ some .memory), busStore c m a n v = m
  | 0, _, _, _, _ => rfl
  | n + 1, a, m, v, h => by
    unfold busStore
    rw [if_neg (by simpa using h 0 (by omega))]
    refine busStore_device fun i hi => ?_
    rw [show a + 1 + i = a + (i + 1) by omega]
    exact h (i + 1) (by omega)

theorem busStore_wf {c : Config} : ∀ (n a : Nat) {m : Memory} (v : Word) (_ : m.wf = true), (busStore c m a n v).wf = true
  | 0, _, _, _, h => h
  | n + 1, a, m, v, h => by
    unfold busStore
    split
    · exact busStore_wf n (a + 1) _ (Memory.wf_write h _ _)
    · exact busStore_wf n (a + 1) _ h

/-- A byte outside the bytes of a write on the bus reads as before. -/
theorem busStore_read_outside {c : Config} : ∀ (n a : Nat) {m : Memory} (v : Word) (_ : m.wf = true) (b : Nat)
    (_ : b < a ∨ a + n ≤ b), (busStore c m a n v).read b = m.read b
  | 0, _, _, _, _, _, _ => rfl
  | n + 1, a, m, v, h, b, hb => by
    unfold busStore
    split
    · rw [busStore_read_outside n (a + 1) _ (Memory.wf_write h _ _) b (by omega), Memory.read_write_wf h, if_neg (by omega)]
    · exact busStore_read_outside n (a + 1) _ h b (by omega)

/-- A bus read answers exactly when something answers at every byte. -/
theorem busRead_ok {f : Bool} {n : Nat} {pa v : Word} {s : State} :
    busRead f n pa s = .ok v ↔ anyUnmapped s.config pa.toNat n = false ∧ v = busBytes f s pa.toNat n := by
  unfold busRead
  cases anyUnmapped s.config pa.toNat n <;> simp [eq_comm]

/-- A bus write answers exactly when something answers at every byte, and writes only memory. -/
theorem busWrite_ok {n : Nat} {pa v : Word} {s t : State} :
    busWrite n pa v s = .ok t ↔ anyUnmapped s.config pa.toNat n = false ∧
      t = { s with memory := busStore s.config s.memory pa.toNat n v } := by
  unfold busWrite
  cases anyUnmapped s.config pa.toNat n <;> simp [eq_comm]

theorem busRead_memory {f : Bool} {n : Nat} {pa : Word} {s : State} (h : allMemory s.config pa.toNat n = true) :
    busRead f n pa s = .ok (s.memory.readLE pa.toNat n) :=
  busRead_ok.2 ⟨anyUnmapped_of_allMemory h, (busBytes_memory h).symm⟩

theorem busWrite_memory {n : Nat} {pa v : Word} {s : State} (h : allMemory s.config pa.toNat n = true) :
    busWrite n pa v s = .ok { s with memory := s.memory.writeLE pa.toNat n v } :=
  busWrite_ok.2 ⟨anyUnmapped_of_allMemory h, by rw [busStore_memory h]⟩

/-- Where memory answers, no cycle of a peripheral is recorded. -/
theorem recordCycle_of_memory {io : Bool} {n : Nat} {pa v : Word} {write : Bool} {s : State}
    (h : allMemory s.config pa.toNat n = true) : recordCycle io n pa write v s = s := by
  unfold recordCycle
  rw [h, Bool.or_true, if_pos rfl]

/-- A plain access records no cycle. -/
@[simp] theorem recordCycle_plain (n : Nat) (pa v : Word) (write : Bool) (s : State) : recordCycle false n pa write v s = s := rfl

theorem uncachedRead_memory {io : Bool} {n : Nat} {pa : Word} {s : State} (h : allMemory s.config pa.toNat n = true) :
    uncachedRead io n pa s = .ok (s.memory.readLE pa.toNat n, s) := by
  unfold uncachedRead
  rw [busRead_memory h]
  exact congrArg (fun t => Except.ok (s.memory.readLE pa.toNat n, t)) (recordCycle_of_memory h)

theorem uncachedWrite_memory {io : Bool} {n : Nat} {pa v : Word} {s : State} (h : allMemory s.config pa.toNat n = true) :
    uncachedWrite io n pa v s = .ok { s with memory := s.memory.writeLE pa.toNat n v } := by
  unfold uncachedWrite
  rw [busWrite_memory h]
  exact congrArg Except.ok (recordCycle_of_memory h)

/-! Addresses and lines. -/

theorem cacheIndex_lt (g : CacheGeometry) (a : Word) : cacheIndex g a < 2 ^ g.linesLog2 := Nat.mod_lt _ (Nat.two_pow_pos _)

theorem lineIndex_lt (c : Config) (g : CacheGeometry) (i : Nat) (b : Word) : lineIndex c g i b < 2 ^ g.linesLog2 := cacheIndex_lt g _

/-- The first byte of a line has the largest multiple of the line's size that is not above the address. -/
theorem lineBase_toNat (g : CacheGeometry) (a : Word) : (lineBase g a).toNat = a.toNat / lineBytes g * lineBytes g := by
  unfold lineBase
  rw [BitVec.toNat_ofNat]
  exact Nat.mod_eq_of_lt (lt_of_le_of_lt (Nat.div_mul_le_self _ _) a.isLt)

@[simp] theorem lineBase_lineBase (g : CacheGeometry) (a : Word) : lineBase g (lineBase g a) = lineBase g a := by
  apply BitVec.eq_of_toNat_eq
  have hp : 0 < lineBytes g := Nat.two_pow_pos _
  rw [lineBase_toNat, lineBase_toNat, Nat.mul_div_cancel _ hp]

theorem findLine_some {lines : List CacheLine} {i : Nat} {b : Word} {l : CacheLine} (h : findLine lines i b = some l) :
    l ∈ lines ∧ l.index = i ∧ l.base = b := by
  refine ⟨List.mem_of_find?_eq_some h, ?_⟩
  simpa using List.find?_some (p := fun l : CacheLine => l.index == i && l.base == b) h

theorem findLine_none {lines : List CacheLine} {i : Nat} {b : Word} :
    findLine lines i b = none ↔ ∀ l ∈ lines, ¬(l.index = i ∧ l.base = b) := by
  simp [findLine, List.find?_eq_none]

/-- The line just put is the one found. -/
theorem findLine_putLine (lines : List CacheLine) (l : CacheLine) : findLine (putLine lines l) l.index l.base = some l := by
  simp [findLine, putLine]

/-- The lines after one is put: it, and those that stand elsewhere. -/
theorem mem_putLine {lines : List CacheLine} {k l : CacheLine} :
    k ∈ putLine lines l ↔ k = l ∨ (k ∈ lines ∧ k.apart l) := by
  simp [putLine, CacheLine.apart, imp_iff_not_or]

/-- A line address is not aliased exactly when only a reset may have left it under another index. -/
theorem aliased_false {lines : List CacheLine} {i : Nat} {b : Word} :
    aliased lines i b = false ↔ ∀ l ∈ lines, l.base = b → l.index ≠ i → l.origin = .reset := by
  simp only [aliased, List.any_eq_false, Bool.and_eq_true, beq_iff_eq, bne_iff_ne]
  exact forall₂_congr fun l _ => ⟨fun h hb hi => by_contra fun hf => h ⟨⟨hb, hi⟩, hf⟩, fun h hp => hp.2 (h hp.1.1 hp.1.2)⟩

/-- Putting a line makes no alias of its own address. -/
theorem aliased_putLine (lines : List CacheLine) (l : CacheLine) :
    aliased (putLine lines l) l.index l.base = aliased lines l.index l.base := by
  rw [Bool.eq_iff_iff]
  simp only [aliased, List.any_eq_true, Bool.and_eq_true, beq_iff_eq, bne_iff_ne, mem_putLine]
  constructor
  · rintro ⟨k, rfl | ⟨hk, _⟩, hp⟩
    · exact absurd rfl hp.1.2
    · exact ⟨k, hk, hp⟩
  · rintro ⟨k, hk, hp⟩
    exact ⟨k, .inr ⟨hk, fun ha => hp.1.2 ha.1⟩, hp⟩

theorem cacheFits_filter {c : Config} {cache : Option CacheGeometry} {lines : List CacheLine} (p : CacheLine → Bool)
    (h : cacheFits c cache lines) : cacheFits c cache (lines.filter p) := by
  cases cache with
  | none => rw [show lines = [] from h]; rfl
  | some g => exact ⟨fun l hl => h.1 l (List.mem_filter.1 hl).1, h.2.filter _⟩

theorem cacheFits_putLine {c : Config} {g : CacheGeometry} {lines : List CacheLine} {l : CacheLine}
    (h : cacheFits c (some g) lines) (hl : l.fits c g) : cacheFits c (some g) (putLine lines l) := by
  refine ⟨fun k hk => ?_, ?_⟩
  · rcases mem_putLine.1 hk with rfl | ⟨hk, _⟩
    · exact hl
    · exact h.1 k hk
  · refine List.pairwise_cons.2 ⟨fun k hk => ?_, h.2.filter _⟩
    have := (List.mem_filter.1 hk).2
    simp only [Bool.not_eq_true', Bool.and_eq_false_iff, beq_eq_false_iff_ne] at this
    exact fun ha => this.elim (fun hi => hi ha.1.symm) fun hb => hb ha.2.symm

theorem cacheFits_find {c : Config} {g : CacheGeometry} {lines : List CacheLine} {i : Nat} {b : Word} {l : CacheLine}
    (h : cacheFits c (some g) lines) (hl : findLine lines i b = some l) : l.fits c g := h.1 l (findLine_some hl).1

/-- A cache holds one line for an index and a line address. -/
theorem cacheFits_unique {c : Config} {g : CacheGeometry} {lines : List CacheLine} {k l : CacheLine}
    (h : cacheFits c (some g) lines) (hk : k ∈ lines) (hl : l ∈ lines) (hi : k.index = l.index) (hb : k.base = l.base) :
    k = l := by
  by_contra hne
  have : Std.Symm CacheLine.apart := ⟨fun _ _ hp e => hp ⟨e.1.symm, e.2.symm⟩⟩
  exact h.2.forall hk hl hne ⟨hi, hb⟩

/-- Two lines of different line addresses have no byte in common. -/
theorem CacheLine.disjoint {c : Config} {g : CacheGeometry} {k l : CacheLine} (hk : k.fits c g) (hl : l.fits c g)
    (h : k.base ≠ l.base) :
    k.base.toNat + lineBytes g ≤ l.base.toNat ∨ l.base.toNat + lineBytes g ≤ k.base.toNat := by
  have h1 := congrArg BitVec.toNat hk.2.2.1
  have h2 := congrArg BitVec.toNat hl.2.2.1
  rw [lineBase_toNat] at h1 h2
  have hne : k.base.toNat / lineBytes g ≠ l.base.toNat / lineBytes g := by
    intro e
    rw [e, h2] at h1
    exact h (BitVec.eq_of_toNat_eq h1.symm)
  generalize k.base.toNat / lineBytes g = q at *
  generalize l.base.toNat / lineBytes g = r at *
  rcases Nat.lt_or_gt_of_ne hne with e | e <;>
    (have := Nat.mul_le_mul_right (lineBytes g) (Nat.succ_le_of_lt e); rw [Nat.succ_mul] at this; omega)

/-- A write-back leaves the bytes outside the line. -/
theorem writeBack_read_outside {g : CacheGeometry} {l : CacheLine} {m : Memory} {a : Nat} (hm : m.wf = true)
    (h : l.dirty = true → a < l.base.toNat ∨ l.base.toNat + lineBytes g ≤ a) : (writeBack g l m).read a = m.read a := by
  unfold writeBack
  split
  · next hd => exact Memory.read_copy_outside _ _ hm _ _ (h hd)
  · rfl

/-- A write-back of a dirty line puts its bytes in memory. -/
theorem writeBack_read_inside {g : CacheGeometry} {l : CacheLine} {m : Memory} {a : Nat} (hm : m.wf = true)
    (hd : l.dirty = true) (h : l.base.toNat ≤ a) (h' : a < l.base.toNat + lineBytes g) :
    (writeBack g l m).read a = l.bytes.read a := by
  unfold writeBack
  rw [if_pos hd]
  exact Memory.read_copy_inside _ _ hm _ _ h h'

theorem fillLine_fits {c : Config} (g : CacheGeometry) {i : Nat} (hi : i < 2 ^ g.linesLog2) (a : Word) (s : State)
    (hm : allMemory c (lineBase g a).toNat (lineBytes g) = true) : (fillLine g i (lineBase g a) s).fits c g :=
  ⟨Memory.wf_copy _ _ rfl _, hi, lineBase_lineBase g a, hm⟩

theorem CacheLine.store_fits {c : Config} {g : CacheGeometry} {l : CacheLine} (h : l.fits c g) (n : Nat) (pa v : Word) :
    (l.store n pa v).fits c g := ⟨Memory.wf_writeLE n h.1 _ _, h.2⟩

/-- Whatever a reset leaves in a cache, it is lines the cache can hold. -/
theorem cacheFits_resetLines (c : Config) (g : CacheGeometry) (lines : List CacheLine) :
    cacheFits c (some g) (resetLines c g lines) := by
  have key : ∀ (ls acc : List CacheLine), (∀ l ∈ ls, l.fits c g) → cacheFits c (some g) acc →
      cacheFits c (some g) (ls.foldl putLine acc) := by
    intro ls
    induction ls with
    | nil => exact fun _ _ h => h
    | cons l ls ih =>
      exact fun acc hl h => ih _ (fun k hk => hl k (List.mem_cons_of_mem _ hk)) (cacheFits_putLine h (hl l List.mem_cons_self))
  refine key _ [] ?_ ⟨fun _ h => absurd h (by simp), List.Pairwise.nil⟩
  intro l hl
  obtain ⟨hl, hm⟩ := List.mem_filter.1 hl
  obtain ⟨k, _, rfl⟩ := List.mem_map.1 hl
  exact ⟨Memory.wf_normalise _, lineIndex_lt c g _ _, lineBase_lineBase g _, hm⟩

theorem cacheFits_resetInstrLines (c : Config) (tick : Nat) : cacheFits c c.icache (resetInstrLines c tick) := by
  unfold resetInstrLines
  cases c.icache with
  | none => rfl
  | some g => exact cacheFits_filter _ (cacheFits_resetLines c g _)

theorem cacheFits_resetDataLines (c : Config) (tick : Nat) : cacheFits c c.dcache (resetDataLines c tick) := by
  unfold resetDataLines
  cases c.dcache with
  | none => rfl
  | some g => exact cacheFits_resetLines c g _

end Sys2Proof.Machine
end

