-- ==== Sys2Proof/Laws/Encoding.lean ====
section
/-! SUPPORT. The fields of an encoded word (30_encoding.md R200 to R204): what each field of each word format holds. -/

namespace Sys2Proof

/-- Bits `j` up of the high part of a concatenation. -/
theorem extract_append_high {n m k j : Nat} (x : BitVec n) (y : BitVec m) (h : m ≤ j) :
    (x ++ y).extractLsb' j k = x.extractLsb' (j - m) k := by
  apply BitVec.eq_of_getLsbD_eq
  intro i hi
  simp only [BitVec.getLsbD_extractLsb', BitVec.getLsbD_append]
  have : ¬(j + i < m) := by omega
  simp [this, show j + i - m = j - m + i by omega]

/-- Bits that lie in the low part of a concatenation. -/
theorem extract_append_low {n m k j : Nat} (x : BitVec n) (y : BitVec m) (h : j + k ≤ m) :
    (x ++ y).extractLsb' j k = y.extractLsb' j k := by
  apply BitVec.eq_of_getLsbD_eq
  intro i hi
  simp only [BitVec.getLsbD_extractLsb', BitVec.getLsbD_append]
  simp [show j + i < m by omega]

theorem extract_all {n : Nat} (x : BitVec n) : x.extractLsb' 0 n = x := by
  apply BitVec.eq_of_getLsbD_eq
  intro i hi
  simp [hi]

theorem getLsbD_append_high {n m j : Nat} (x : BitVec n) (y : BitVec m) (h : m ≤ j) :
    (x ++ y).getLsbD j = x.getLsbD (j - m) := by
  simp [BitVec.getLsbD_append, show ¬(j < m) by omega]

theorem getLsbD_append_low {n m j : Nat} (x : BitVec n) (y : BitVec m) (h : j < m) :
    (x ++ y).getLsbD j = y.getLsbD j := by
  simp [BitVec.getLsbD_append, h]

section
variable (op : BitVec 6) (a b c : Reg) (imm : BitVec 16) (imm5 : BitVec 5) (imm26 : BitVec 26) (n : BitVec 8) (ra rb wc : Bool)

@[simp] theorem fieldOp_encodeI : fieldOp (encodeI op a b imm) = op := by
  unfold fieldOp encodeI
  rw [extract_append_low] <;> first | omega | exact extract_all _
@[simp] theorem fieldA_encodeI : fieldA (encodeI op a b imm) = a := by
  unfold fieldA encodeI
  rw [extract_append_high, extract_append_high, extract_append_high] <;> first | omega | exact extract_all _
@[simp] theorem fieldB_encodeI : fieldB (encodeI op a b imm) = b := by
  unfold fieldB encodeI
  rw [extract_append_high, extract_append_high, extract_append_low] <;> first | omega | exact extract_all _
@[simp] theorem fieldImm16_encodeI : fieldImm16 (encodeI op a b imm) = imm := by
  unfold fieldImm16 encodeI
  rw [extract_append_high, extract_append_low] <;> first | omega | exact extract_all _
@[simp] theorem fieldOp_encodeR : fieldOp (encodeR op a b c imm5) = 0x3A#6 := by
  unfold fieldOp encodeR
  rw [extract_append_low] <;> first | omega | exact extract_all _
@[simp] theorem fieldA_encodeR : fieldA (encodeR op a b c imm5) = a := by
  unfold fieldA encodeR
  rw [extract_append_high, extract_append_high, extract_append_high, extract_append_high, extract_append_high] <;> first | omega | exact extract_all _
@[simp] theorem fieldB_encodeR : fieldB (encodeR op a b c imm5) = b := by
  unfold fieldB encodeR
  rw [extract_append_high, extract_append_high, extract_append_high, extract_append_high, extract_append_low] <;> first | omega | exact extract_all _
@[simp] theorem fieldC_encodeR : fieldC (encodeR op a b c imm5) = c := by
  unfold fieldC encodeR
  rw [extract_append_high, extract_append_high, extract_append_high, extract_append_low] <;> first | omega | exact extract_all _
@[simp] theorem fieldOpx_encodeR : fieldOpx (encodeR op a b c imm5) = op := by
  unfold fieldOpx encodeR
  rw [extract_append_high, extract_append_high, extract_append_low] <;> first | omega | exact extract_all _
@[simp] theorem fieldImm5_encodeR : fieldImm5 (encodeR op a b c imm5) = imm5 := by
  unfold fieldImm5 encodeR
  rw [extract_append_high, extract_append_low] <;> first | omega | exact extract_all _
@[simp] theorem fieldOp_encodeJ : fieldOp (encodeJ op imm26) = op := by
  unfold fieldOp encodeJ
  rw [extract_append_low] <;> first | omega | exact extract_all _
@[simp] theorem fieldImm26_encodeJ : fieldImm26 (encodeJ op imm26) = imm26 := by
  unfold fieldImm26 encodeJ
  rw [extract_append_high] <;> first | omega | exact extract_all _
@[simp] theorem fieldOp_encodeCustom : fieldOp (encodeCustom n c a b ra rb wc) = 0x32#6 := by
  unfold fieldOp encodeCustom
  rw [extract_append_low] <;> first | omega | exact extract_all _
@[simp] theorem fieldA_encodeCustom : fieldA (encodeCustom n c a b ra rb wc) = a := by
  unfold fieldA encodeCustom
  rw [extract_append_high, extract_append_high, extract_append_high, extract_append_high, extract_append_high, extract_append_high, extract_append_high] <;> first | omega | exact extract_all _
@[simp] theorem fieldB_encodeCustom : fieldB (encodeCustom n c a b ra rb wc) = b := by
  unfold fieldB encodeCustom
  rw [extract_append_high, extract_append_high, extract_append_high, extract_append_high, extract_append_high, extract_append_high, extract_append_low] <;> first | omega | exact extract_all _
@[simp] theorem fieldC_encodeCustom : fieldC (encodeCustom n c a b ra rb wc) = c := by
  unfold fieldC encodeCustom
  rw [extract_append_high, extract_append_high, extract_append_high, extract_append_high, extract_append_high, extract_append_low] <;> first | omega | exact extract_all _
@[simp] theorem fieldN_encodeCustom : fieldN (encodeCustom n c a b ra rb wc) = n := by
  unfold fieldN encodeCustom
  rw [extract_append_high, extract_append_low] <;> first | omega | exact extract_all _
@[simp] theorem fieldReadra_encodeCustom : fieldReadra (encodeCustom n c a b ra rb wc) = ra := by
  unfold fieldReadra encodeCustom
  rw [getLsbD_append_high, getLsbD_append_high, getLsbD_append_high, getLsbD_append_high, getLsbD_append_low] <;> first | omega | simp
@[simp] theorem fieldReadrb_encodeCustom : fieldReadrb (encodeCustom n c a b ra rb wc) = rb := by
  unfold fieldReadrb encodeCustom
  rw [getLsbD_append_high, getLsbD_append_high, getLsbD_append_high, getLsbD_append_low] <;> first | omega | simp
@[simp] theorem fieldWriterc_encodeCustom : fieldWriterc (encodeCustom n c a b ra rb wc) = wc := by
  unfold fieldWriterc encodeCustom
  rw [getLsbD_append_high, getLsbD_append_high, getLsbD_append_low] <;> first | omega | simp

end

end Sys2Proof
end

