-- ==== Sys2Proof/Laws/Registers.lean ====
section
/-! SUPPORT. The laws of the general-purpose registers (10_state.md R31): what a read gives after each operation that writes a
register. -/

namespace Sys2Proof.Machine

/-- Reading a register after one was written; `r0` is never written. -/
@[simp] theorem State.reg_setReg (s : State) (r x : Reg) (v : Word) :
    (s.setReg r v).reg x = if x = r ∧ r ≠ 0#5 then v else s.reg x := by
  unfold State.setReg State.reg
  by_cases hr : r = 0#5
  · simp [hr]
  by_cases hx : x = 0#5
  · subst hx
    simp [Ne.symm hr]
  · simp only [hr, hx, if_false, Vector.getElem_set, ne_eq, not_false_eq_true, and_true]
    by_cases h : x = r
    · subst h; simp
    · have h' : r.toNat ≠ x.toNat := fun e => h (BitVec.eq_of_toNat_eq e.symm)
      simp [h, h']

@[simp] theorem State.setReg_zero (s : State) (v : Word) : s.setReg 0#5 v = s := rfl

@[simp] theorem State.reg_zero (s : State) : s.reg 0#5 = 0#32 := rfl

@[simp] theorem State.reg_advance (s : State) (x : Reg) : s.advance.reg x = s.reg x := rfl

/-- The registers decide what every read gives. -/
theorem State.reg_of_regs {s t : State} (h : t.regs = s.regs) (x : Reg) : t.reg x = s.reg x := by
  unfold State.reg
  rw [h]

/-- Two writes of registers that read alike everywhere read alike: a register file is what its reads give, but for the cell
of `r0`. -/
theorem State.reg_regs_set (s : State) (n : Nat) (hn : n < 32) (h0 : n ≠ 0) (x : Reg) (v : Word) :
    ({ s with regs := s.regs.set n v hn } : State).reg x = if x = BitVec.ofNat 5 n then v else s.reg x := by
  unfold State.reg
  by_cases hx : x = 0#5
  · subst hx
    have h : ¬(0#5 = BitVec.ofNat 5 n) := fun e => by
      have := congrArg BitVec.toNat e
      simp [Nat.mod_eq_of_lt hn] at this
      omega
    simp [h]
  · simp only [hx, if_false, Vector.getElem_set]
    by_cases h : x = BitVec.ofNat 5 n
    · subst h; simp [Nat.mod_eq_of_lt hn]
    · have h' : n ≠ x.toNat := fun e => h (BitVec.eq_of_toNat_eq (by simp [← e, Nat.mod_eq_of_lt hn]))
      simp [h, h']

/-- A general exception writes `ea` unless an exception is already in process (60_exceptions.md R472). -/
@[simp] theorem State.reg_takeException (e : Exc) (s : State) (x : Reg) :
    (takeException e s).reg x = if x = eaReg ∧ s.nested = false then s.pc + 4#32 else s.reg x := by
  by_cases hn : s.nested = true
  · rw [if_neg (by simp [hn])]
    exact State.reg_of_regs (by simp [hn]) x
  · have h := State.reg_regs_set s 29 (by decide) (by decide) x (s.pc + 4#32)
    have hr : (takeException e s).regs = s.regs.set 29 (s.pc + 4#32) := by simp [hn]
    rw [State.reg_of_regs (s := { s with regs := s.regs.set 29 (s.pc + 4#32) }) hr x, h]
    simp [eaReg, hn]

/-- A break writes `ba` (60_exceptions.md R491). -/
@[simp] theorem State.reg_takeBreak (s : State) (x : Reg) :
    (takeBreak s).reg x = if x = baReg then s.pc + 4#32 else s.reg x := by
  have h := State.reg_regs_set s 30 (by decide) (by decide) x (s.pc + 4#32)
  exact (State.reg_of_regs (s := { s with regs := s.regs.set 30 (s.pc + 4#32) }) rfl x).trans h

end Sys2Proof.Machine
end

