-- ==== Sys2Proof/Laws/Ops.lean ====
section
/-! SUPPORT. One lemma per shared operation that says once what it can answer: the instructions' outcomes, transfers, the checks,
the data and instruction accesses, the caches and the end of a boundary. -/

namespace Sys2Proof.Machine

/-! Outcomes and checks. -/

@[simp] theorem finish_ok (s t : State) : finish s (.ok t) = .next t := rfl

@[simp] theorem finish_exc (s : State) (e : Exc) : finish s (.error (.exc e)) = .next (takeException e s) := rfl

@[simp] theorem finish_fault (s : State) (f : Fault) : finish s (.error (.fault f)) = .fault f := rfl

@[simp] theorem finish_refuse (s : State) (r : Refusal) : finish s (.error (.refuse r)) = .refused r := rfl

/-- An instruction goes on either by completing or by taking an exception from the state before it. -/
theorem finish_next {s t : State} {o : Except Stop State} :
    finish s o = .next t ↔ o = .ok t ∨ ∃ e, o = .error (.exc e) ∧ t = takeException e s := by
  cases o with
  | ok u => simp
  | error e => cases e <;> simp [eq_comm]

/-- A sequence of two operations answers exactly when both do. -/
theorem bind_ok {α β : Type} {x : Except Stop α} {f : α → Except Stop β} {b : β} :
    (x >>= f) = .ok b ↔ ∃ a, x = .ok a ∧ f a = .ok b := by
  cases x with
  | ok a => exact ⟨fun h => ⟨a, rfl, h⟩, fun ⟨a', h, h'⟩ => by cases h; exact h'⟩
  | error e => exact ⟨fun h => (by cases h), fun ⟨_, h, _⟩ => by cases h⟩

@[simp] theorem ok_bind {α β : Type} (a : α) (f : α → Except Stop β) : (Except.ok a >>= f) = f a := rfl

@[simp] theorem error_bind {α β : Type} (e : Stop) (f : α → Except Stop β) : (Except.error e >>= f) = .error e := rfl

/-- The low two bits are zero exactly at the multiples of 4. -/
theorem low_bits_zero (a : Word) : a.extractLsb' 0 2 = 0#2 ↔ a.toNat % 4 = 0 := by
  constructor
  · intro h
    have := congrArg BitVec.toNat h
    simpa using this
  · intro h
    exact BitVec.eq_of_toNat_eq (by simpa using h)

/-- A transfer of control completes exactly at an aligned target, and writes only `pc`. -/
theorem jumpTo_ok {a : Word} {s t : State} : jumpTo a s = .ok t ↔ a.toNat % 4 = 0 ∧ t = { s with pc := a } := by
  unfold jumpTo checkTarget
  by_cases h : a.extractLsb' 0 2 = 0#2
  · simp [h, (low_bits_zero a).1 h, eq_comm]
  · have h' : ¬a.toNat % 4 = 0 := fun e => h ((low_bits_zero a).2 e)
    cases hc : s.config.illegalMemCheck <;> simp [h, h']

/-- A transfer to a misaligned target raises with `ILLEGAL_MEM_CHECK` and is undefined without. -/
theorem jumpTo_misaligned {a : Word} {s : State} (h : a.toNat % 4 ≠ 0) :
    jumpTo a s = .error (if s.config.illegalMemCheck then .exc (.misalignedDestination a) else .fault .misalignedTarget) := by
  have h' : ¬a.extractLsb' 0 2 = 0#2 := fun e => h ((low_bits_zero a).1 e)
  unfold jumpTo checkTarget
  cases hc : s.config.illegalMemCheck <;> simp [h']

theorem supervisorOnly_eq (s : State) :
    supervisorOnly s = if s.userForbidden then .error (.exc .supervisorOnlyInstr) else .ok () := rfl

theorem supervisorOnly_ok {s : State} {u : Unit} : supervisorOnly s = .ok u ↔ s.userForbidden = false := by
  unfold supervisorOnly
  cases s.userForbidden <;> simp

theorem implemented_ok {b : Bool} {u : Unit} : implemented b = .ok u ↔ b = true := by
  unfold implemented
  cases b <;> simp

/-- The return from an exception completes in supervisor mode at an aligned `ea`. -/
theorem returnFromException_ok {s t : State} :
    returnFromException s = .ok t ↔ s.userForbidden = false ∧ (s.reg eaReg).toNat % 4 = 0 ∧
      t = { s with pc := s.reg eaReg, status := s.estatus, mpuStale := none, prefetched := [] } := by
  unfold returnFromException
  simp only [bind_ok, supervisorOnly_ok, jumpTo_ok, Except.ok.injEq]
  constructor
  · rintro ⟨_, h, u, ⟨ha, rfl⟩, rfl⟩; exact ⟨h, ha, rfl⟩
  · rintro ⟨h, ha, rfl⟩; exact ⟨(), h, _, ⟨ha, rfl⟩, rfl⟩

/-- The return from a break completes in supervisor mode at an aligned `ba`. -/
theorem returnFromBreak_ok {s t : State} :
    returnFromBreak s = .ok t ↔ s.userForbidden = false ∧ (s.reg baReg).toNat % 4 = 0 ∧
      t = { s with pc := s.reg baReg, status := s.bstatus, inDebug := false, mpuStale := none, prefetched := [] } := by
  unfold returnFromBreak
  simp only [bind_ok, supervisorOnly_ok, jumpTo_ok, Except.ok.injEq]
  constructor
  · rintro ⟨_, h, u, ⟨ha, rfl⟩, rfl⟩; exact ⟨h, ha, rfl⟩
  · rintro ⟨h, ha, rfl⟩; exact ⟨(), h, _, ⟨ha, rfl⟩, rfl⟩

/-! The data cache. -/

/-- Everything a read through the data cache can answer, where its line is not aliased: a present line's bytes with nothing
changed; or on a miss the bus's bytes, with at most the line allocated. -/
theorem cachedRead_ok {g : CacheGeometry} {n : Nat} {va pa v : Word} {s t : State} (h : cachedRead g n va pa s = .ok (v, t)) :
    aliased s.dcache (cacheIndex g va) (lineBase g pa) = false ∧
    ((∃ l, findLine s.dcache (cacheIndex g va) (lineBase g pa) = some l ∧ v = l.bytes.readLE pa.toNat n ∧ t = s) ∨
    (findLine s.dcache (cacheIndex g va) (lineBase g pa) = none ∧ anyUnmapped s.config pa.toNat n = false ∧
      v = busBytes false s pa.toNat n ∧
      (t = s ∨ (allMemory s.config (lineBase g pa).toNat (lineBytes g) = true ∧
        t = { s with dcache := putLine s.dcache (fillLine g (cacheIndex g va) (lineBase g pa) s) })))) := by
  unfold cachedRead at h
  split at h
  · cases h
  next ha =>
  refine ⟨by simpa using ha, ?_⟩
  split at h
  · next l hl => cases h; exact .inl ⟨l, hl, rfl, rfl⟩
  · next hl =>
    obtain ⟨v', hv, h⟩ := bind_ok.1 h
    obtain ⟨hu, rfl⟩ := busRead_ok.1 hv
    refine .inr ⟨hl, hu, ?_⟩
    split at h
    · next hc => cases h; simp only [Bool.and_eq_true] at hc; exact ⟨rfl, .inr ⟨hc.2, rfl⟩⟩
    · cases h; exact ⟨rfl, .inl rfl⟩

/-- The bytes a write leaves in memory: none changed, or those of the bus write. -/
def WrittenOrNot (n : Nat) (pa v : Word) (s t : State) : Prop :=
  t.memory = s.memory ∨ t.memory = busStore s.config s.memory pa.toNat n v

/-- Everything a write through the data cache can answer, where its line is not aliased: it changes only memory and the data
cache, and then the line holds the bytes, or memory does and no line is present, or both do. -/
theorem cachedWrite_ok {g : CacheGeometry} {n : Nat} {va pa v : Word} {s t : State} (h : cachedWrite g n va pa v s = .ok t) :
    aliased s.dcache (cacheIndex g va) (lineBase g pa) = false ∧ t = { s with memory := t.memory, dcache := t.dcache } ∧
    ((∃ l, findLine s.dcache (cacheIndex g va) (lineBase g pa) = some l ∧
      t.dcache = putLine s.dcache (l.store n pa v) ∧ WrittenOrNot n pa v s t) ∨
    (findLine s.dcache (cacheIndex g va) (lineBase g pa) = none ∧ anyUnmapped s.config pa.toNat n = false ∧
      ((t.memory = busStore s.config s.memory pa.toNat n v ∧ t.dcache = s.dcache) ∨
        (allMemory s.config (lineBase g pa).toNat (lineBytes g) = true ∧
          t.dcache = putLine s.dcache ((fillLine g (cacheIndex g va) (lineBase g pa) s).store n pa v) ∧
          WrittenOrNot n pa v s t)))) := by
  unfold cachedWrite at h
  split at h
  · cases h
  next ha =>
  have ha : aliased s.dcache (cacheIndex g va) (lineBase g pa) = false := by simpa using ha
  split at h
  · next l hl =>
    split at h
    · cases h; exact ⟨ha, rfl, .inl ⟨l, hl, rfl, .inl rfl⟩⟩
    · obtain ⟨u, hu, h⟩ := bind_ok.1 h
      obtain ⟨_, rfl⟩ := busWrite_ok.1 hu
      cases h
      exact ⟨ha, rfl, .inl ⟨l, hl, rfl, .inr rfl⟩⟩
  · next hl =>
    obtain ⟨u, hu, h⟩ := bind_ok.1 h
    obtain ⟨hn, rfl⟩ := busWrite_ok.1 hu
    simp only at h
    split at h
    · cases h; exact ⟨ha, rfl, .inr ⟨hl, hn, .inl ⟨rfl, rfl⟩⟩⟩
    next hc =>
    have hc : allMemory s.config (lineBase g pa).toNat (lineBytes g) = true := by simpa using hc
    split at h <;> cases h
    · exact ⟨ha, rfl, .inr ⟨hl, hn, .inr ⟨hc, rfl, .inl rfl⟩⟩⟩
    · exact ⟨ha, rfl, .inr ⟨hl, hn, .inl ⟨rfl, rfl⟩⟩⟩
    · exact ⟨ha, rfl, .inr ⟨hl, hn, .inr ⟨hc, rfl, .inr rfl⟩⟩⟩

/-- A data read changes at most the data cache, which keeps lines it can hold, and the record of the peripherals' cycles. -/
theorem dataRead_frame {io : Bool} {n : Nat} {c : Bool} {va pa v : Word} {s t : State}
    (h : dataRead io n c va pa s = .ok (v, t)) :
    t = { s with dcache := t.dcache, deviceCycles := t.deviceCycles } ∧
      (cacheFits s.config s.config.dcache s.dcache → cacheFits s.config s.config.dcache t.dcache) := by
  have hbus : uncachedRead io n pa s = .ok (v, t) → t = { s with dcache := t.dcache, deviceCycles := t.deviceCycles } ∧
      (cacheFits s.config s.config.dcache s.dcache → cacheFits s.config s.config.dcache t.dcache) := fun hx => by
    obtain ⟨_, _, hx⟩ := bind_ok.1 hx
    cases hx
    exact ⟨rfl, id⟩
  unfold dataRead at h
  split at h
  · next g hg =>
    split at h
    · rcases (cachedRead_ok h).2 with ⟨_, _, _, rfl⟩ | ⟨_, _, _, rfl | ⟨hm, rfl⟩⟩
      · exact ⟨rfl, id⟩
      · exact ⟨rfl, id⟩
      · rw [hg]; exact ⟨rfl, fun hf => cacheFits_putLine hf (fillLine_fits g (cacheIndex_lt g va) pa s hm)⟩
    · exact hbus h
  · exact hbus h

/-- A data write changes at most memory, the data cache, which keeps lines it can hold, and the record of the peripherals'
cycles. -/
theorem dataWrite_frame {io : Bool} {n : Nat} {c : Bool} {va pa v : Word} {s t : State}
    (h : dataWrite io n c va pa v s = .ok t) :
    t = { s with memory := t.memory, dcache := t.dcache, deviceCycles := t.deviceCycles } ∧ WrittenOrNot n pa v s t ∧
      (cacheFits s.config s.config.dcache s.dcache → cacheFits s.config s.config.dcache t.dcache) := by
  have hbus : uncachedWrite io n pa v s = .ok t →
      t = { s with memory := t.memory, dcache := t.dcache, deviceCycles := t.deviceCycles } ∧ WrittenOrNot n pa v s t ∧
      (cacheFits s.config s.config.dcache s.dcache → cacheFits s.config s.config.dcache t.dcache) := fun hx => by
    obtain ⟨u, hu, hx⟩ := bind_ok.1 hx
    obtain ⟨_, rfl⟩ := busWrite_ok.1 hu
    cases hx
    exact ⟨rfl, .inr rfl, id⟩
  unfold dataWrite at h
  split at h
  · next g hg =>
    split at h
    · obtain ⟨_, hf, hc⟩ := cachedWrite_ok h
      rw [hg]
      have hframe : t = { s with memory := t.memory, dcache := t.dcache, deviceCycles := t.deviceCycles } := by rw [hf]
      rcases hc with ⟨l, hl, hd, hm⟩ | ⟨_, _, ⟨hm, hd⟩ | ⟨hl, hd, hm⟩⟩
      · exact ⟨hframe, hm, fun hx => hd ▸ cacheFits_putLine hx (CacheLine.store_fits (cacheFits_find hx hl) n pa v)⟩
      · exact ⟨hframe, .inr hm, fun hx => hd ▸ hx⟩
      · exact ⟨hframe, hm, fun hx =>
          hd ▸ cacheFits_putLine hx (CacheLine.store_fits (fillLine_fits g (cacheIndex_lt g va) pa s hl) n pa v)⟩
    · exact hbus h
  · exact hbus h

/-- A data read that no cache answers goes to the bus. -/
theorem dataRead_uncached {io : Bool} {n : Nat} {c : Bool} {va pa : Word} {s : State}
    (h : s.config.dcache = none ∨ c = false ∨ io = true) : dataRead io n c va pa s = uncachedRead io n pa s := by
  unfold dataRead
  rcases h with h | h | h
  · rw [h]
  · split <;> simp [h]
  · split <;> simp [h]

/-- A data write that no cache answers goes to the bus. -/
theorem dataWrite_uncached {io : Bool} {n : Nat} {c : Bool} {va pa v : Word} {s : State}
    (h : s.config.dcache = none ∨ c = false ∨ io = true) : dataWrite io n c va pa v s = uncachedWrite io n pa v s := by
  unfold dataWrite
  rcases h with h | h | h
  · rw [h]
  · split <;> simp [h]
  · split <;> simp [h]

/-! The instruction cache and the fetch. -/

/-- A fetch from the instruction cache or the bus changes at most the instruction cache, which keeps lines it can hold. -/
theorem instrRead_frame {va pa w : Word} {s t : State} (h : instrRead va pa s = .ok (w, t)) :
    t = { s with icache := t.icache } ∧ (cacheFits s.config s.config.icache s.icache → cacheFits s.config s.config.icache t.icache) := by
  unfold instrRead at h
  split at h
  · next g hg =>
    split at h
    · cases h; exact ⟨rfl, id⟩
    · obtain ⟨_, _, h⟩ := bind_ok.1 h
      split at h
      · next hc =>
        cases h
        simp only [Bool.and_eq_true] at hc
        rw [hg]; exact ⟨rfl, fun hf => cacheFits_putLine hf (fillLine_fits g (cacheIndex_lt g va) pa s hc.2)⟩
      · cases h; exact ⟨rfl, id⟩
  · obtain ⟨_, _, h⟩ := bind_ok.1 h
    cases h; exact ⟨rfl, id⟩

/-- A fetch changes at most the instruction cache and the words fetched ahead, of which it adds none. -/
theorem fetchWord_frame {w : Word} {s t : State} (h : fetchWord s = .ok (w, t)) :
    t = { s with icache := t.icache, prefetched := t.prefetched } ∧
      (cacheFits s.config s.config.icache s.icache → cacheFits s.config s.config.icache t.icache) ∧
      t.prefetched.length ≤ s.prefetched.length := by
  unfold fetchWord pipelineRead at h
  obtain ⟨_, _, h⟩ := bind_ok.1 h
  split at h
  · cases h; exact ⟨rfl, id, List.length_filter_le _ _⟩
  · obtain ⟨hf, hc⟩ := instrRead_frame h
    refine ⟨by rw [hf], hc, ?_⟩
    rw [hf]

/-! The loads and stores. -/

/-- What a load changes before its register is written: the data cache, which keeps lines it can hold, and the record of the
peripherals' cycles. -/
def LoadedFrom (s u : State) : Prop :=
  u = { s with dcache := u.dcache, deviceCycles := u.deviceCycles } ∧
    (cacheFits s.config s.config.dcache s.dcache → cacheFits s.config s.config.dcache u.dcache)

/-- Everything a load can answer: the exception of its access, or its value written after `LoadedFrom`. -/
theorem loadInstr_next {n : Nat} {io : Bool} {ext : Word → Word} {rB rA : Reg} {imm : BitVec 16} {s t : State}
    (h : loadInstr n io ext rB rA imm s = .next t) :
    (∃ e, t = takeException e s) ∨ ∃ (v : Word) (u : State), LoadedFrom s u ∧ t = (u.setReg rB (ext v)).advance := by
  unfold loadInstr at h
  rcases finish_next.1 h with h | ⟨e, _, rfl⟩
  · obtain ⟨⟨v, u⟩, hl, h⟩ := bind_ok.1 h
    unfold loadFrom at hl
    obtain ⟨⟨pa, c⟩, _, hr⟩ := bind_ok.1 hl
    cases h
    exact .inr ⟨v, u, dataRead_frame hr, rfl⟩
  · exact .inl ⟨e, rfl⟩

/-- Everything a store can answer: the exception of its access, or the bytes in memory or the data cache. -/
theorem storeInstr_next {n : Nat} {io : Bool} {rB rA : Reg} {imm : BitVec 16} {s t : State}
    (h : storeInstr n io rB rA imm s = .next t) :
    (∃ e, t = takeException e s) ∨ ∃ (u : State) (pa : Word),
      u = { s with memory := u.memory, dcache := u.dcache, deviceCycles := u.deviceCycles } ∧
      WrittenOrNot n pa (s.reg rB) s u ∧ (cacheFits s.config s.config.dcache s.dcache → cacheFits s.config s.config.dcache u.dcache) ∧
      t = u.advance := by
  unfold storeInstr at h
  rcases finish_next.1 h with h | ⟨e, _, rfl⟩
  · obtain ⟨u, hl, h⟩ := bind_ok.1 h
    unfold storeTo at hl
    obtain ⟨⟨pa, c⟩, _, hr⟩ := bind_ok.1 hl
    cases h
    obtain ⟨hf, hm, hc⟩ := dataWrite_frame hr
    exact .inr ⟨u, pa, hf, hm, hc, rfl⟩
  · exact .inl ⟨e, rfl⟩

/-! The cache management operations. -/

theorem writeBack_wf (g : CacheGeometry) (l : CacheLine) {m : Memory} (h : m.wf = true) : (writeBack g l m).wf = true := by
  unfold writeBack
  split
  · exact Memory.wf_copy _ _ h _
  · exact h

theorem foldl_writeBack_wf (g : CacheGeometry) : ∀ (ls : List CacheLine) {m : Memory} (_ : m.wf = true),
    (ls.foldl (fun m l => writeBack g l m) m).wf = true
  | [], _, h => h
  | l :: ls, _, h => foldl_writeBack_wf g ls (writeBack_wf g l h)

/-- The memory and the data cache after an operation: memory stays canonical, the cache keeps lines it can hold. -/
def KeepsContents (s t : State) : Prop :=
  (s.memory.wf = true → t.memory.wf = true) ∧
    (cacheFits s.config s.config.dcache s.dcache → cacheFits s.config s.config.dcache t.dcache) ∧
    (cacheFits s.config s.config.icache s.icache → cacheFits s.config s.config.icache t.icache)

theorem KeepsContents.rfl (s : State) : KeepsContents s s := ⟨id, id, id⟩

/-- A flush changes only memory and the data cache. -/
theorem flushLines_frame (g : CacheGeometry) (p : CacheLine → Bool) (s : State) :
    flushLines g p s = { s with memory := (flushLines g p s).memory, dcache := (flushLines g p s).dcache } ∧
      KeepsContents s (flushLines g p s) :=
  ⟨Eq.refl _, fun h => foldl_writeBack_wf g _ h, cacheFits_filter _, id⟩

theorem flushDataByIndex_frame (ea : Word) (s : State) :
    flushDataByIndex ea s = { s with memory := (flushDataByIndex ea s).memory, dcache := (flushDataByIndex ea s).dcache } ∧
      KeepsContents s (flushDataByIndex ea s) := by
  unfold flushDataByIndex
  split
  · exact flushLines_frame _ _ s
  · exact ⟨rfl, KeepsContents.rfl s⟩

theorem flushDataByAddress_frame (pa : Word) (s : State) :
    flushDataByAddress pa s =
        { s with memory := (flushDataByAddress pa s).memory, dcache := (flushDataByAddress pa s).dcache } ∧
      KeepsContents s (flushDataByAddress pa s) := by
  unfold flushDataByAddress
  split
  · exact flushLines_frame _ _ s
  · exact ⟨rfl, KeepsContents.rfl s⟩

theorem initDataByIndex_frame (ea : Word) (s : State) :
    initDataByIndex ea s = { s with dcache := (initDataByIndex ea s).dcache } ∧ KeepsContents s (initDataByIndex ea s) := by
  unfold initDataByIndex
  split
  · exact ⟨rfl, id, cacheFits_filter _, id⟩
  · exact ⟨rfl, KeepsContents.rfl s⟩

theorem initDataByAddress_frame (pa : Word) (s : State) :
    initDataByAddress pa s = { s with dcache := (initDataByAddress pa s).dcache } ∧
      KeepsContents s (initDataByAddress pa s) := by
  unfold initDataByAddress
  split
  · exact ⟨rfl, id, cacheFits_filter _, id⟩
  · exact ⟨rfl, KeepsContents.rfl s⟩

theorem dropInstrByIndex_frame (a : Word) (s : State) :
    dropInstrByIndex a s = { s with icache := (dropInstrByIndex a s).icache } ∧ KeepsContents s (dropInstrByIndex a s) := by
  unfold dropInstrByIndex
  split
  · exact ⟨rfl, id, id, cacheFits_filter _⟩
  · exact ⟨rfl, KeepsContents.rfl s⟩

/-- What the caches do by themselves changes only memory and the caches. -/
theorem cacheEvent_frame (s : State) (e : CacheEvent) :
    cacheEvent s e = { s with
      memory := (cacheEvent s e).memory, dcache := (cacheEvent s e).dcache, icache := (cacheEvent s e).icache } ∧
      KeepsContents s (cacheEvent s e) := by
  cases e with
  | cleanData index base =>
    unfold cacheEvent
    simp only
    split
    · next g l hg hl =>
      split
      · refine ⟨rfl, fun h => writeBack_wf _ _ h, fun h => ?_, id⟩
        rw [hg] at h ⊢
        have hfit := cacheFits_find h hl
        exact cacheFits_putLine h hfit
      · exact ⟨rfl, KeepsContents.rfl s⟩
    · exact ⟨rfl, KeepsContents.rfl s⟩
  | evictData index base =>
    unfold cacheEvent
    simp only
    split
    · exact ⟨rfl, (flushLines_frame _ _ s).2⟩
    · exact ⟨rfl, KeepsContents.rfl s⟩
  | evictInstr index base => exact ⟨rfl, id, id, cacheFits_filter _⟩
  | loadInstr va pa =>
    unfold cacheEvent
    simp only
    split
    · next g hg =>
      split
      · next hm =>
        refine ⟨rfl, id, id, fun h => ?_⟩
        rw [hg] at h ⊢
        exact cacheFits_putLine h (fillLine_fits g (cacheIndex_lt g _) pa s hm)
      · exact ⟨rfl, KeepsContents.rfl s⟩
    · exact ⟨rfl, KeepsContents.rfl s⟩

theorem cacheEvents_frame : ∀ (es : List CacheEvent) (s : State),
    es.foldl cacheEvent s = { s with
      memory := (es.foldl cacheEvent s).memory, dcache := (es.foldl cacheEvent s).dcache,
      icache := (es.foldl cacheEvent s).icache } ∧ KeepsContents s (es.foldl cacheEvent s)
  | [], s => ⟨rfl, KeepsContents.rfl s⟩
  | e :: es, s => by
    obtain ⟨h1, h2, h3, h4⟩ := cacheEvent_frame s e
    obtain ⟨h5, h6, h7, h8⟩ := cacheEvents_frame es (cacheEvent s e)
    have hc : (cacheEvent s e).config = s.config := by rw [h1]
    rw [hc] at h7 h8
    simp only [List.foldl_cons]
    refine ⟨?_, fun h => h6 (h2 h), fun h => h7 (h3 h), fun h => h8 (h4 h)⟩
    rw [h5, h1]

theorem cacheDrift_frame (s : State) :
    cacheDrift s = { s with
      memory := (cacheDrift s).memory, dcache := (cacheDrift s).dcache, icache := (cacheDrift s).icache } ∧
      KeepsContents s (cacheDrift s) := by
  unfold cacheDrift
  split
  · exact cacheEvents_frame _ s
  · exact ⟨rfl, KeepsContents.rfl s⟩

/-- A processor that fetches nothing ahead holds no word. -/
theorem prefetchedNext_length (s : State) : (prefetchedNext s).length ≤ s.config.pipelineDepth := List.length_take_le _ _

/-- The end of a boundary changes memory, the caches, the words fetched ahead, the inputs and the tick, and nothing else. -/
theorem endBoundary_frame (s : State) :
    endBoundary s = { s with
      memory := (endBoundary s).memory, dcache := (endBoundary s).dcache, icache := (endBoundary s).icache,
      prefetched := (endBoundary s).prefetched, inputs := nextInputs s, future := s.future.tail, tick := s.tick + 1 } ∧
      KeepsContents s (endBoundary s) ∧ (endBoundary s).prefetched.length ≤ s.config.pipelineDepth := by
  obtain ⟨h1, h2⟩ := cacheDrift_frame s
  have hp := prefetchedNext_length (cacheDrift s)
  unfold endBoundary nextBoundary nextInputs
  generalize cacheDrift s = u at *
  have hc : u.config = s.config := by rw [h1]
  rw [hc] at hp
  refine ⟨?_, h2, hp⟩
  rw [h1]

/-- A result has a next state after the end of the boundary exactly when it had one before. -/
theorem endResult_next {r : Result} {t : State} : endResult r = .next t ↔ ∃ u, r = .next u ∧ t = endBoundary u := by
  cases r <;> simp [endResult, eq_comm]

end Sys2Proof.Machine
end

