-- ==== Sys2Proof/Laws/Tlb.lean ====
section
/-! SUPPORT. The laws of the TLB's contents: the fields of `tlbmisc`, `tlbacc` and `pteaddr`, and the entries a line can hold. -/

namespace Sys2Proof.Machine

/-! The fields of the MMU's control registers. -/

@[simp] theorem packTlbmisc_way (way : BitVec 4) (we : Bool) (pid : BitVec 14) (flags : BitVec 4) :
    (packTlbmisc way we pid flags).extractLsb' 20 4 = way := by
  unfold packTlbmisc
  rw [extract_append_high, extract_append_high, extract_append_high, extract_append_high, extract_append_low] <;>
    first | omega | exact extract_all _

@[simp] theorem packTlbmisc_pid (way : BitVec 4) (we : Bool) (pid : BitVec 14) (flags : BitVec 4) :
    (packTlbmisc way we pid flags).extractLsb' 4 14 = pid := by
  unfold packTlbmisc
  rw [extract_append_high, extract_append_low] <;> first | omega | exact extract_all _

@[simp] theorem packTlbmisc_flags (way : BitVec 4) (we : Bool) (pid : BitVec 14) (flags : BitVec 4) :
    (packTlbmisc way we pid flags).extractLsb' 0 4 = flags := by
  unfold packTlbmisc
  rw [extract_append_low] <;> first | omega | exact extract_all _

theorem packTlbmisc_we (way : BitVec 4) (we : Bool) (pid : BitVec 14) (flags : BitVec 4) :
    (packTlbmisc way we pid flags).getLsbD 18 = we := by
  unfold packTlbmisc
  rw [getLsbD_append_high, getLsbD_append_high, getLsbD_append_low] <;> first | omega | simp

theorem packTlbmisc_rd (way : BitVec 4) (we : Bool) (pid : BitVec 14) (flags : BitVec 4) :
    (packTlbmisc way we pid flags).getLsbD 19 = false := by
  unfold packTlbmisc
  rw [getLsbD_append_high, getLsbD_append_high, getLsbD_append_high, getLsbD_append_low] <;> first | omega | simp

@[simp] theorem setVpn_vpn (p : Word) (v : BitVec 20) : (setVpn p v).extractLsb' 2 20 = v := by
  unfold setVpn
  rw [extract_append_high, extract_append_low] <;> first | omega | exact extract_all _

@[simp] theorem setVpn_ptbase (p : Word) (v : BitVec 20) : (setVpn p v).extractLsb' 22 10 = p.extractLsb' 22 10 := by
  unfold setVpn
  rw [extract_append_high, extract_append_high] <;> first | omega | exact extract_all _

/-- The flags C, R, W, X, G of `tlbacc` are implemented. -/
theorem tlbaccMask_flags (m : MmuConfig) {i : Nat} (h1 : 20 ≤ i) (h2 : i < 25) : (tlbaccMask m).getLsbD i = true := by
  unfold tlbaccMask
  rw [BitVec.getLsbD_or, (by decide : ∀ i, i < 25 → 20 ≤ i → (0x01F00000#32).getLsbD i = true) i h2 h1, Bool.true_or]

/-- The implemented bits of `tlbacc.PFN`. -/
theorem tlbaccMask_pfn (m : MmuConfig) : (tlbaccMask m).extractLsb' 0 20 = pfnMask m := by
  apply BitVec.eq_of_getLsbD_eq
  intro i hi
  obtain ⟨h1, h2⟩ := (by decide : ∀ i, i < 20 → (0x01F00000#32).getLsbD i = false ∧ (0x000FFFFF#32).getLsbD i = true) i hi
  unfold tlbaccMask pfnMask
  rw [BitVec.getLsbD_extractLsb', Nat.zero_add, BitVec.getLsbD_or, BitVec.getLsbD_and, h1, h2, BitVec.getLsbD_ofNat,
    BitVec.getLsbD_ofNat]
  simp [hi, show i < 32 by omega]

/-- IG reads as zero. -/
theorem tlbaccMask_ig (m : MmuConfig) {i : Nat} (h1 : 25 ≤ i) (h2 : i < 32) : (tlbaccMask m).getLsbD i = false := by
  obtain ⟨h3, h4⟩ := (by decide : ∀ i, i < 32 → 25 ≤ i → (0x01F00000#32).getLsbD i = false ∧
    (0x000FFFFF#32).getLsbD i = false) i h2 h1
  unfold tlbaccMask
  rw [BitVec.getLsbD_or, BitVec.getLsbD_and, h3, h4]
  simp

/-- The implemented bits of `tlbmisc.PID`. -/
theorem tlbmiscMask_pid (m : MmuConfig) : (tlbmiscMask m).extractLsb' 4 14 = pidMask m := by
  apply BitVec.eq_of_getLsbD_eq
  intro i hi
  obtain ⟨h1, h2⟩ := (by decide : ∀ i, i < 14 → (0x00040000#32).getLsbD (4 + i) = false ∧ (0xF#32).getLsbD (4 + i) = false) i hi
  unfold tlbmiscMask
  simp only [BitVec.getLsbD_extractLsb', BitVec.getLsbD_or, BitVec.getLsbD_shiftLeft, BitVec.getLsbD_setWidth, h1, h2, hi,
    show 4 + i < 20 by omega, show ¬4 + i < 4 by omega, show 4 + i < 32 by omega, show 4 + i - 4 = i by omega,
    show i < 32 by omega, decide_true, decide_false, Bool.true_and, Bool.not_true, Bool.not_false, Bool.and_false,
    Bool.false_and, Bool.false_or, Bool.or_false]

/-- The line of a position. -/
theorem tlbPosition_div {m : MmuConfig} (line : Nat) {way : Nat} (h : way < m.tlbWays) :
    tlbPosition m line way / m.tlbWays = line := by
  unfold tlbPosition
  rw [Nat.add_comm, Nat.add_mul_div_right _ _ (by omega), Nat.div_eq_of_lt h, Nat.zero_add]

/-! What an entry of the TLB can hold. -/

/-- Whatever the contents, what a line holds of them fits the line. -/
theorem TlbEntry.heldAt_fits (m : MmuConfig) (line : Nat) (e : TlbEntry) : (e.heldAt m line).fits m line := by
  refine ⟨?_, by simp only [heldAt, BitVec.and_assoc, BitVec.and_self], by simp only [heldAt, BitVec.and_assoc, BitVec.and_self]⟩
  simp only [heldAt, BitVec.toNat_ofNat]
  have := Nat.mod_lt e.tag.toNat (Nat.succ_pos (lastTag m line))
  exact (Nat.mod_le _ _).trans (Nat.le_of_lt_succ this)

/-- An entry that fits a line is held there as it is: a free entry can be any that fits. -/
theorem TlbEntry.heldAt_of_fits {m : MmuConfig} {line : Nat} {e : TlbEntry} (h : e.fits m line) : e.heldAt m line = e := by
  obtain ⟨ht, hp, hf⟩ := h
  unfold heldAt
  rw [hp, hf, Nat.mod_eq_of_lt (Nat.lt_succ_of_le ht), BitVec.ofNat_toNat, BitVec.setWidth_eq]

/-- The VPN that an entry reads back as is the one it matches: its line is the entry's line, its tag the entry's tag. -/
theorem TlbEntry.vpn_of_fits {m : MmuConfig} {line : Nat} {e : TlbEntry} (h : e.fits m line) (hl : line < tlbLines m)
    (hm : tlbLines m ≤ 0x100000) :
    (tlbVpn m e.tag line).toNat = e.tag.toNat * tlbLines m + line ∧ tlbLine m (tlbVpn m e.tag line) = line ∧
      tlbTag m (tlbVpn m e.tag line) = e.tag := by
  have hv : (tlbVpn m e.tag line).toNat = e.tag.toNat * tlbLines m + line := by
    have : e.tag.toNat * tlbLines m ≤ 0xFFFFF - line :=
      (Nat.mul_le_mul_right _ h.1).trans (Nat.div_mul_le_self _ _)
    unfold tlbVpn
    rw [BitVec.toNat_ofNat, Nat.mod_eq_of_lt (by omega)]
  refine ⟨hv, ?_, ?_⟩
  · unfold tlbLine
    rw [hv, Nat.add_comm, Nat.add_mul_mod_self_right, Nat.mod_eq_of_lt hl]
  · unfold tlbTag
    rw [hv, Nat.add_comm, Nat.add_mul_div_right _ _ (by omega), Nat.div_eq_of_lt hl, Nat.zero_add, BitVec.ofNat_toNat,
      BitVec.setWidth_eq]

/-- The entry a TLB write operation stores fits the line of its VPN. -/
theorem writtenEntry_fits {m : MmuConfig} {v : Word} {vpn : BitVec 20} {pid : BitVec 14} (hp : pid &&& pidMask m = pid)
    (hv : within (tlbaccMask m) v) : (writtenEntry m v vpn pid).fits m (tlbLine m vpn) := by
  refine ⟨?_, hp, ?_⟩
  · have := vpn.isLt
    simp only [writtenEntry, tlbTag, BitVec.toNat_ofNat, lastTag, tlbLine]
    refine (Nat.mod_le _ _).trans ?_
    rcases Nat.eq_zero_or_pos (tlbLines m) with h0 | h0
    · simp [h0]
    · rw [Nat.le_div_iff_mul_le h0, Nat.mul_comm]
      have := Nat.div_add_mod vpn.toNat (tlbLines m)
      omega
  · have := congrArg (BitVec.extractLsb' 0 20) hv
    rwa [BitVec.extractLsb'_and, tlbaccMask_pfn] at this

/-- What a TLB read operation reads fits the line. -/
theorem readEntry_fits {m : MmuConfig} {s : State} (h : tlbFits m s.tlb) (line : Nat) (way : BitVec 4) :
    (readEntry m line way s).fits m line := by
  unfold readEntry
  simp only
  split
  · next hw =>
    cases he : s.tlb[tlbPosition m line way.toNat]? with
    | none => exact TlbEntry.heldAt_fits m line _
    | some e =>
      have := h _ e he
      rwa [tlbPosition_div line hw] at this
  · exact TlbEntry.heldAt_fits m line _

/-- One entry may become any that fits its line. -/
theorem tlbFits_set {m : MmuConfig} {tlb : List TlbEntry} {i : Nat} {e : TlbEntry} (h : tlbFits m tlb)
    (he : e.fits m (i / m.tlbWays)) : tlbFits m (tlb.set i e) := by
  intro j f hj
  rw [List.getElem?_set] at hj
  split at hj
  · next hij =>
    subst hij
    split at hj
    · cases hj; exact he
    · cases hj
  · exact h j f hj

/-- The TLB after a reset. -/
theorem tlbFits_anyTlb {m : MmuConfig} {s : State} (hm : s.config.protection = .mmu m) : tlbFits m (anyTlb s) := by
  intro i e he
  simp only [anyTlb, hm, List.getElem?_map, Option.map_eq_some_iff] at he
  obtain ⟨j, hj, rfl⟩ := he
  obtain ⟨_, rfl⟩ := List.getElem?_eq_some_iff.1 hj
  rw [List.getElem_range]
  exact TlbEntry.heldAt_fits _ _ _

/-- The TLB at reset: every line has a VPN of the I/O partition for each of its ways. -/
theorem tlbFits_resetTlb {c : Config} {m : MmuConfig} (hm : c.protection = .mmu m) (hw : 1 ≤ m.tlbWays)
    (hl : tlbLines m * m.tlbWays = m.tlbEntries) (hn : m.tlbEntries ≤ 0x20000) : tlbFits m (resetTlb c) := by
  intro i e he
  simp only [resetTlb, hm, List.getElem?_map, Option.map_eq_some_iff] at he
  obtain ⟨j, hj, rfl⟩ := he
  obtain ⟨hi, rfl⟩ := List.getElem?_eq_some_iff.1 hj
  rw [List.length_range] at hi
  rw [List.getElem_range]
  have hline : i / m.tlbWays < tlbLines m := by rw [Nat.div_lt_iff_lt_mul (by omega), hl]; exact hi
  have hway : i % m.tlbWays < m.tlbWays := Nat.mod_lt _ (by omega)
  have hpos : 0 < tlbLines m := Nat.zero_lt_of_lt hline
  refine ⟨?_, by simp [invalidEntry], by simp [invalidEntry]⟩
  simp only [invalidEntry, BitVec.toNat_ofNat, lastTag]
  refine (Nat.mod_le _ _).trans ?_
  rw [Nat.le_div_iff_mul_le hpos, Nat.add_mul]
  have h1 := Nat.div_mul_le_self (0xE0000 - i / m.tlbWays + (tlbLines m - 1)) (tlbLines m)
  have h2 : (i % m.tlbWays + 1) * tlbLines m ≤ m.tlbEntries := by
    rw [← hl, Nat.mul_comm (tlbLines m)]
    exact Nat.mul_le_mul_right _ hway
  rw [Nat.add_mul] at h2
  omega

/-- PID is within its bits when `tlbmisc` is. -/
theorem pid_of_within {m : MmuConfig} {s : State} (h : within (tlbmiscMask m) s.tlbmisc) : s.pid &&& pidMask m = s.pid := by
  have := congrArg (BitVec.extractLsb' 4 14) h
  rwa [BitVec.extractLsb'_and, tlbmiscMask_pid] at this

end Sys2Proof.Machine
end

