-- ==== Sys2Proof/Laws/Invariant.lean ====
section
/-! SUPPORT. Each shared operation keeps the invariant of Safety.lean. -/

namespace Sys2Proof.Machine

theorem within_and (mask v : Word) : within mask (v &&& mask) := by
  unfold within; rw [BitVec.and_assoc, BitVec.and_self]

@[simp] theorem within_zero (mask : Word) : within mask 0#32 := by simp [within]

/-- A word lies within a mask when no bit outside it is set. -/
theorem within_iff {mask v : Word} : within mask v ↔ ∀ i, i < 32 → v.getLsbD i = true → mask.getLsbD i = true := by
  unfold within
  constructor
  · intro h i _ hv
    rw [← h, BitVec.getLsbD_and] at hv
    exact (Bool.and_eq_true _ _ ▸ hv).2
  · intro h
    apply BitVec.eq_of_getLsbD_eq
    intro i hi
    rw [BitVec.getLsbD_and]
    cases hv : v.getLsbD i with
    | false => rfl
    | true => rw [h i hi hv]; rfl

theorem within_or {mask v w : Word} (hv : within mask v) (hw : within mask w) : within mask (v ||| w) := by
  rw [within_iff] at *
  intro i hi h
  rw [BitVec.getLsbD_or, Bool.or_eq_true] at h
  exact h.elim (hv i hi) (hw i hi)

theorem within_trans {m n v : Word} (h : within n m) (hv : within m v) : within n v := by
  rw [within_iff] at *
  exact fun i hi hb => h i hi (hv i hi hb)

theorem within_and_left {mask v : Word} (w : Word) (h : within mask v) : within mask (v &&& w) := by
  rw [within_iff] at *
  intro i hi hb
  rw [BitVec.getLsbD_and, Bool.and_eq_true] at hb
  exact h i hi hb.1

theorem wordAligned_iff {a : Word} : wordAligned a = true ↔ a.toNat % 4 = 0 := by
  unfold wordAligned
  rw [beq_iff_eq, low_bits_zero]

theorem wordAligned_add_four {a : Word} (h : wordAligned a = true) : wordAligned (a + 4#32) = true := by
  rw [wordAligned_iff] at *
  simp only [BitVec.toNat_add, BitVec.toNat_ofNat]
  omega

/-- `vectorPc` of an aligned vector is aligned. -/
theorem wordAligned_vectorPc {c : Config} {v : Word} (h : wordAligned v = true) : wordAligned (vectorPc c v) = true := by
  unfold vectorPc
  split
  · rw [wordAligned_iff] at *
    simp only [BitVec.toNat_add, BitVec.toNat_ofNat]
    omega
  · exact h

/-- The vectors of a configuration the spec admits are aligned. -/
theorem vectors_aligned {c : Config} (h : c.valid = true) :
    wordAligned c.resetVector = true ∧ wordAligned c.exceptionVector = true ∧ wordAligned c.breakVector = true ∧
      wordAligned (fastTlbMissVector c) = true := by
  simp only [Config.valid, Config.vectorsAligned, Bool.and_eq_true] at h
  obtain ⟨⟨⟨⟨⟨⟨⟨h, _⟩, _⟩, _⟩, _⟩, _⟩, _⟩, _⟩ := h
  refine ⟨h.1.1.1, h.1.1.2, h.1.2, ?_⟩
  unfold fastTlbMissVector
  split
  · next hp => rw [hp] at h; exact h.2
  · exact h.1.1.2

/-- A number below the count of things fits the field that selects one. -/
theorem lt_selector {n k : Nat} (h : k < n) : k < 2 ^ selectorWidth n := by
  unfold selectorWidth
  have := Nat.lt_log2_self (n := 2 * n - 1)
  rw [Nat.pow_succ] at this
  omega

/-! The invariant reads only some of the fields. -/

/-- The fields the invariant does not read may be anything; `pc`, memory, the caches and the words fetched ahead anything it
allows. -/
theorem State.Inv.update {s : State} (h : s.Inv) {pc : Word} {memory : Memory} (hp : wordAligned pc = true)
    (hm : memory.wf = true) {dcache icache : List CacheLine} {prefetched : List FetchedWord}
    (hd : cacheFits s.config s.config.dcache dcache) (hi : cacheFits s.config s.config.icache icache)
    (hf : prefetched.length ≤ s.config.pipelineDepth) (regs : Vector Word 32) (inDebug : Bool) (custom : CustomLogic)
    (deviceCycles : List DeviceCycle) (inputs : Inputs) (future : List Inputs) (tick : Nat) :
    ({ s with
      pc, memory, dcache, icache, prefetched, regs, inDebug, custom, deviceCycles, inputs, future, tick } : State).Inv :=
  ⟨h.config_valid, hm, hp, h.status_bits, h.estatus_bits, h.bstatus_bits, h.exception_bits, h.pteaddr_bits, h.config_bits,
    h.badaddr_bits, ⟨hd, hi, hf⟩, h.protection⟩

/-- Flushing the pipeline keeps what holds of the protection unit. -/
theorem State.protectionInv_flush {s : State} (h : s.protectionInv) : ({ s with mpuStale := none } : State).protectionInv := by
  unfold State.protectionInv at *
  simp only
  split
  · next m hm => rw [hm] at h; exact h
  · next m hm =>
    rw [hm] at h
    obtain ⟨h1, _, h3⟩ := h
    exact ⟨h1, fun _ e => absurd e (by simp), h3⟩
  · trivial

/-- What holds of the caches and the words fetched ahead, when nothing is fetched ahead. -/
theorem State.contentsFit_flush {s : State} (h : s.contentsFit) : ({ s with prefetched := [] } : State).contentsFit :=
  ⟨h.1, h.2.1, Nat.zero_le _⟩

theorem State.Inv.flush {s : State} (h : s.Inv) : (flushPipeline s).Inv :=
  ⟨h.config_valid, h.memory_wf, h.pc_aligned, h.status_bits, h.estatus_bits, h.bstatus_bits, h.exception_bits, h.pteaddr_bits,
    h.config_bits, h.badaddr_bits, State.contentsFit_flush h.contents, State.protectionInv_flush h.protection⟩

theorem State.Inv.readOnly {s : State} (h : s.Inv) (available : Bool) : (controlReadOnly available s).Inv := by
  unfold controlReadOnly
  split
  · exact h.flush
  · exact h

/-- `pc` may become any aligned address. -/
theorem State.Inv.goto {s : State} (h : s.Inv) {pc : Word} (hp : wordAligned pc = true) : ({ s with pc } : State).Inv :=
  h.update hp h.memory_wf h.contents.1 h.contents.2.1 h.contents.2.2 s.regs s.inDebug s.custom s.deviceCycles s.inputs
    s.future s.tick

theorem State.Inv.advance {s : State} (h : s.Inv) : s.advance.Inv := h.goto (wordAligned_add_four h.pc_aligned)

theorem State.Inv.setReg {s : State} (h : s.Inv) (r : Reg) (v : Word) : (s.setReg r v).Inv := by
  unfold State.setReg
  split
  · exact h
  · exact h.update h.pc_aligned h.memory_wf h.contents.1 h.contents.2.1 h.contents.2.2 _ s.inDebug s.custom s.deviceCycles
      s.inputs s.future s.tick

/-- A data access may change memory, the data cache and the record of the peripherals' cycles. -/
theorem State.Inv.access {s : State} (h : s.Inv) {memory : Memory} (hm : memory.wf = true) {dcache : List CacheLine}
    (hd : cacheFits s.config s.config.dcache dcache) (deviceCycles : List DeviceCycle) :
    ({ s with memory, dcache, deviceCycles } : State).Inv :=
  h.update h.pc_aligned hm hd h.contents.2.1 h.contents.2.2 s.regs s.inDebug s.custom deviceCycles s.inputs s.future s.tick

/-- A cache operation may change memory and the caches, if it keeps them. -/
theorem State.Inv.cacheOperation {s t : State} (h : s.Inv) (k : KeepsContents s t)
    (ht : t = { s with memory := t.memory, dcache := t.dcache, icache := t.icache }) : t.Inv := by
  rw [ht]
  exact h.update h.pc_aligned (k.1 h.memory_wf) (k.2.1 h.contents.1) (k.2.2 h.contents.2.1) h.contents.2.2 s.regs s.inDebug
    s.custom s.deviceCycles s.inputs s.future s.tick

theorem State.Inv.logic {s : State} (h : s.Inv) (custom : CustomLogic) : ({ s with custom } : State).Inv :=
  h.update h.pc_aligned h.memory_wf h.contents.1 h.contents.2.1 h.contents.2.2 s.regs s.inDebug custom s.deviceCycles s.inputs s.future
    s.tick

/-- The status register may become any value within its bits. -/
theorem State.Inv.withStatus {s : State} (h : s.Inv) {status : Word} (hs : within (statusMask s.config) status) :
    ({ s with status } : State).Inv :=
  ⟨h.config_valid, h.memory_wf, h.pc_aligned, hs, h.estatus_bits, h.bstatus_bits, h.exception_bits, h.pteaddr_bits,
    h.config_bits, h.badaddr_bits, h.contents, h.protection⟩

/-! Exceptions and breaks. -/

theorem within_entryStatus (c : Config) : within (statusMask c) (entryStatus c) := by
  unfold entryStatus statusMask
  cases c.hasMmu <;> cases c.hasUserMode <;> decide

theorem within_setVpn (p : Word) (v : BitVec 20) : within pteaddrMask (setVpn p v) := by
  rw [within_iff]
  intro i hi h
  unfold setVpn at h
  rw [BitVec.getLsbD_append] at h
  by_cases h2 : i < 2
  · simp [h2] at h
  · have : ∀ i, i < 32 → ¬i < 2 → pteaddrMask.getLsbD i = true := by decide
    exact this i hi h2

theorem within_tlbmisc_flags {m : MmuConfig} {mask : Word} (h : within 0x0004000F#32 mask) : within (tlbmiscMask m) mask := by
  refine within_trans ?_ h
  rw [within_iff]
  intro i hi hb
  have : ∀ i, i < 32 → (0x0004000F#32).getLsbD i = true → (0x00040000#32).getLsbD i = true ∨ (0xF#32).getLsbD i = true := by
    decide
  unfold tlbmiscMask
  simp only [BitVec.getLsbD_or, Bool.or_eq_true]
  rcases this i hi hb with h | h
  · exact .inl (.inl (.inr h))
  · exact .inr h

theorem within_entryTlbmisc {m : MmuConfig} {v : Word} (e : Exc) (nested : Bool) (h : within (tlbmiscMask m) v) :
    within (tlbmiscMask m) (entryTlbmisc e nested v) := by
  unfold entryTlbmisc
  refine within_or (within_or (within_or (within_or (within_or (within_and_left _ h) ?_) ?_) ?_) ?_) ?_ <;>
    split <;> first | exact within_zero _ | exact within_tlbmisc_flags (by decide)

/-- The bits below the address width, in 31 bits or without a bound. -/
theorem within_badaddrOfData {c : Config} (h : c.hasUserMode = false) (a : Word) :
    within (lowBits c.addrBits) (badaddrOfData c a) := by
  simp only [Config.hasUserMode, Bool.or_eq_false_iff] at h
  simp only [badaddrOfData, h.1, h.2, Bool.false_eq_true, if_false]
  exact within_and _ _

theorem within_badaddrOfInstr {c : Config} (h : c.hasUserMode = false) (a : Word) :
    within (lowBits c.addrBits) (badaddrOfInstr c a) := by
  simp only [badaddrOfInstr, h, Bool.false_eq_true, if_false]
  exact within_and _ _

theorem within_badaddr {c : Config} (h : c.hasUserMode = false) (e : Exc) (tick : Nat) {old : Word}
    (ho : within (lowBits c.addrBits) old) : within (lowBits c.addrBits) (e.badaddr c tick old) := by
  cases e <;> first
    | exact ho
    | exact within_badaddrOfData h _
    | exact within_badaddrOfInstr h _

theorem within_cause (e : Exc) : within 0x7C#32 ((e.cause.setWidth 32) <<< 2) :=
  (by decide : ∀ c : BitVec 5, within 0x7C#32 ((c.setWidth 32) <<< 2)) e.cause

/-- Taking an exception keeps the invariant. -/
theorem State.Inv.takeException {s : State} (h : s.Inv) (e : Exc) : (takeException e s).Inv := by
  obtain ⟨_, hx, _, hf⟩ := vectors_aligned h.config_valid
  refine ⟨h.config_valid, h.memory_wf, ?_, within_entryStatus _, ?_, h.bstatus_bits, ?_, ?_, h.config_bits, ?_,
    State.contentsFit_flush h.contents, ?_⟩
  · simp only [Machine.takeException, entryVector]
    split
    · exact wordAligned_vectorPc hf
    · exact wordAligned_vectorPc hx
  · simp only [Machine.takeException]
    split
    · exact h.estatus_bits
    · exact h.status_bits
  · simp only [Machine.takeException]
    split
    · exact within_cause e
    · exact h.exception_bits
  · simp only [Machine.takeException]
    split
    · exact within_setVpn _ _
    · exact h.pteaddr_bits
  · intro hu
    simp only [Machine.takeException]
    split
    · exact within_badaddr hu e _ (h.badaddr_bits hu)
    · exact h.badaddr_bits hu
  · have hp := State.protectionInv_flush h.protection
    unfold State.protectionInv at *
    simp only [Machine.takeException] at hp ⊢
    split
    · next m hm =>
      rw [hm] at hp
      refine ⟨hp.1, hp.2.1, ?_, hp.2.2.2⟩
      simp only [Config.hasMmu, hm, if_true]
      exact within_entryTlbmisc e _ hp.2.2.1
    · next m hm => rw [hm] at hp; exact hp
    · trivial

/-- Taking a break keeps the invariant. -/
theorem State.Inv.takeBreak {s : State} (h : s.Inv) : (takeBreak s).Inv := by
  obtain ⟨_, _, hb, _⟩ := vectors_aligned h.config_valid
  refine ⟨h.config_valid, h.memory_wf, wordAligned_vectorPc hb, within_entryStatus _, h.estatus_bits, h.status_bits,
    h.exception_bits, h.pteaddr_bits, h.config_bits, h.badaddr_bits, State.contentsFit_flush h.contents,
    State.protectionInv_flush h.protection⟩

/-- An instruction that completes in a state with the invariant, or takes an exception, keeps it. -/
theorem State.Inv.finish {s t : State} {o : Except Stop State} (h : s.Inv) (ho : ∀ u, o = .ok u → u.Inv)
    (hf : finish s o = .next t) : t.Inv := by
  rcases finish_next.1 hf with hu | ⟨e, _, rfl⟩
  · exact ho t hu
  · exact h.takeException e

/-! Reset. -/

theorem within_boundMask_mpuacc (c : Config) (m : MpuConfig) (d : Bool) : within (mpuaccMask c m) (mpuaccStored c m d) :=
  within_and_left _ (by simp [within])

/-- A reset in mid-run leaves the invariant, whatever the free values are. -/
theorem State.Inv.resetProcessor {s : State} (h : s.Inv) : (resetProcessor s).Inv := by
  obtain ⟨hr, _, _, _⟩ := vectors_aligned h.config_valid
  refine ⟨h.config_valid, Memory.wf_normalise _, wordAligned_vectorPc hr, within_zero _, within_and _ _, within_and _ _, ?_, ?_,
    within_zero _, ?_, ⟨cacheFits_resetDataLines _ _, cacheFits_resetInstrLines _ _, Nat.zero_le _⟩, ?_⟩
  · simp only [Machine.resetProcessor]
    split
    · exact within_and _ _
    · exact within_zero _
  · simp only [Machine.resetProcessor]
    split
    · exact within_and _ _
    · exact within_zero _
  · intro hu
    simp only [Machine.resetProcessor]
    split
    · exact within_badaddrOfInstr hu _
    · exact within_zero _
  · unfold State.protectionInv
    simp only [Machine.resetProcessor]
    split
    · next m hm => exact ⟨by simp [anyTlb, hm], within_zero _, within_zero _, tlbFits_anyTlb hm⟩
    · next m hm =>
      refine ⟨⟨by simp [anyTables, hm], by simp [anyTables, hm]⟩, fun _ e => absurd e (by simp), ?_, ?_⟩
      · simp only [anyMpubase, hm]; exact within_and _ _
      · simp only [anyMpuacc, hm]; exact within_and _ _
    · trivial

/-! The TLB and region operations. -/

theorem within_packTlbmisc {m : MmuConfig} {way : BitVec 4} {pid : BitVec 14} (we : Bool) (flags : BitVec 4) :
    within (tlbmiscMask m) (packTlbmisc (way &&& wayMask m) we (pid &&& pidMask m) flags) := by
  rw [within_iff]
  intro i hi hb
  unfold packTlbmisc at hb
  simp only [BitVec.getLsbD_append] at hb
  unfold tlbmiscMask
  simp only [BitVec.getLsbD_or, Bool.or_eq_true, BitVec.getLsbD_shiftLeft, BitVec.getLsbD_setWidth]
  by_cases h4 : i < 4
  · right
    have : ∀ i, i < 4 → (0xF#32).getLsbD i = true := by decide
    exact this i h4
  by_cases h18 : i < 18
  · simp only [h4, if_false, show i - 4 < 14 by omega, if_true, BitVec.getLsbD_and, Bool.and_eq_true] at hb
    left; right
    simp only [hi, h4, hb.2, Bool.and_eq_true, decide_eq_true_eq, Bool.not_eq_true', decide_eq_false_iff_not, true_and,
      not_false_eq_true, and_true]
    omega
  by_cases he : i = 18
  · left; left; right; subst he; decide
  by_cases h19 : i = 19
  · subst h19; simp at hb
  by_cases h24 : i < 24
  · simp only [h4, if_false, show ¬(i - 4 < 14) by omega, show ¬(i - 4 - 14 < 1) by omega,
      show ¬(i - 4 - 14 - 1 < 1) by omega, show i - 4 - 14 - 1 - 1 < 4 by omega, if_true, BitVec.getLsbD_and,
      Bool.and_eq_true] at hb
    left; left; left
    rw [show i - 4 - 14 - 1 - 1 = i - 20 by omega] at hb
    simp only [hi, hb.2, Bool.and_eq_true, decide_eq_true_eq, Bool.not_eq_true', decide_eq_false_iff_not, true_and, and_true]
    omega
  · simp [h4, show ¬(i - 4 < 14) by omega, show ¬(i - 4 - 14 < 1) by omega, show ¬(i - 4 - 14 - 1 < 1) by omega,
      show ¬(i - 4 - 14 - 1 - 1 < 4) by omega] at hb

theorem State.Inv.writeTlbacc {s : State} (h : s.Inv) {m : MmuConfig} (hm : s.config.protection = .mmu m) (v : Word) :
    (writeTlbacc m v s).Inv := by
  have hp := h.protection
  unfold State.protectionInv at hp
  rw [hm] at hp
  unfold Machine.writeTlbacc
  simp only
  split
  · refine ⟨h.config_valid, h.memory_wf, h.pc_aligned, h.status_bits, h.estatus_bits, h.bstatus_bits, h.exception_bits,
      h.pteaddr_bits, h.config_bits, h.badaddr_bits, h.contents, ?_⟩
    unfold State.protectionInv
    simp only [hm]
    split
    · next hw =>
      refine ⟨by rw [List.length_set]; exact hp.1, within_and _ _, within_packTlbmisc _ _, tlbFits_set hp.2.2.2 ?_⟩
      rw [tlbPosition_div _ hw]
      exact writtenEntry_fits (pid_of_within hp.2.2.1) (within_and _ _)
    · exact ⟨hp.1, within_and _ _, within_packTlbmisc _ _, hp.2.2.2⟩
  · refine ⟨h.config_valid, h.memory_wf, h.pc_aligned, h.status_bits, h.estatus_bits, h.bstatus_bits, h.exception_bits,
      h.pteaddr_bits, h.config_bits, h.badaddr_bits, h.contents, ?_⟩
    unfold State.protectionInv
    simp only [hm]
    exact ⟨hp.1, within_and _ _, hp.2.2⟩

theorem State.Inv.writeTlbmisc {s : State} (h : s.Inv) {m : MmuConfig} (hm : s.config.protection = .mmu m) (v : Word) :
    (writeTlbmisc m v s).Inv := by
  have hp := h.protection
  unfold State.protectionInv at hp
  rw [hm] at hp
  unfold Machine.writeTlbmisc
  simp only
  split
  · refine ⟨h.config_valid, h.memory_wf, h.pc_aligned, h.status_bits, h.estatus_bits, h.bstatus_bits, h.exception_bits,
      within_setVpn _ _, h.config_bits, h.badaddr_bits, h.contents, ?_⟩
    unfold State.protectionInv
    simp only [hm]
    exact ⟨hp.1, within_and _ _, within_packTlbmisc _ _, hp.2.2.2⟩
  · refine ⟨h.config_valid, h.memory_wf, h.pc_aligned, h.status_bits, h.estatus_bits, h.bstatus_bits, h.exception_bits,
      h.pteaddr_bits, h.config_bits, h.badaddr_bits, h.contents, ?_⟩
    unfold State.protectionInv
    simp only [hm]
    exact ⟨hp.1, hp.2.1, within_packTlbmisc _ _, hp.2.2.2⟩

theorem setSelectedRegion_sized {s : State} {m : MpuConfig} (r : MpuRegion) (h : s.mpu.sized m) :
    (setSelectedRegion r s).sized m := by
  unfold setSelectedRegion
  obtain ⟨h1, h2⟩ := h
  split <;> exact ⟨by simpa using h1, by simpa using h2⟩

theorem State.Inv.writeMpuacc {s t : State} (h : s.Inv) {m : MpuConfig} (hm : s.config.protection = .mpu m) {v : Word}
    (hw : writeMpuacc m v s = .ok t) : t.Inv := by
  have hp := h.protection
  unfold State.protectionInv at hp
  rw [hm] at hp
  have key : ∀ {mpubase mpuacc : Word} {mpu : MpuTables} {mpuStale : Option MpuTables}, within (mpubaseMask s.config m) mpubase →
      within (mpuaccMask s.config m) mpuacc → mpu.sized m → (∀ old, mpuStale = some old → old.sized m) →
      ({ s with mpubase, mpuacc, mpu, mpuStale } : State).Inv := fun hb ha hs ho =>
    ⟨h.config_valid, h.memory_wf, h.pc_aligned, h.status_bits, h.estatus_bits, h.bstatus_bits, h.exception_bits,
      h.pteaddr_bits, h.config_bits, h.badaddr_bits, h.contents, by
        unfold State.protectionInv
        simp only [hm]
        exact ⟨hs, ho, hb, ha⟩⟩
  have hacc : ∀ w : Word, within (mpuaccMask s.config m) (w &&& mpuaccStored s.config m s.selectsData) := fun w =>
    within_trans (within_boundMask_mpuacc _ _ _) (within_and _ _)
  unfold Machine.writeMpuacc at hw
  simp only at hw
  split at hw
  · cases hw
  split at hw
  · cases hw
    exact key (within_and _ _) (hacc _) hp.1 hp.2.1
  split at hw
  · cases hw
    refine key hp.2.2.1 (hacc _) (setSelectedRegion_sized _ hp.1) ?_
    intro old ho
    cases hs : s.mpuStale with
    | none => rw [hs] at ho; cases ho; exact hp.1
    | some o => rw [hs] at ho; cases ho; exact hp.2.1 o hs
  · cases hw
    exact key hp.2.2.1 (hacc _) hp.1 hp.2.1

/-- Writing a control register keeps the invariant. -/
theorem State.Inv.writeControl {s t : State} (h : s.Inv) {n : BitVec 5} {v : Word} (hw : writeControl n v s = .ok t) :
    t.Inv := by
  unfold Machine.writeControl at hw
  split at hw
  · cases hw; exact (h.withStatus (within_and _ _)).flush
  · cases hw
    exact State.Inv.flush ⟨h.config_valid, h.memory_wf, h.pc_aligned, h.status_bits, within_and _ _, h.bstatus_bits,
      h.exception_bits, h.pteaddr_bits, h.config_bits, h.badaddr_bits, h.contents, h.protection⟩
  · cases hw
    exact State.Inv.flush ⟨h.config_valid, h.memory_wf, h.pc_aligned, h.status_bits, h.estatus_bits, within_and _ _,
      h.exception_bits, h.pteaddr_bits, h.config_bits, h.badaddr_bits, h.contents, h.protection⟩
  · cases hw
    exact State.Inv.flush ⟨h.config_valid, h.memory_wf, h.pc_aligned, h.status_bits, h.estatus_bits, h.bstatus_bits,
      h.exception_bits, h.pteaddr_bits, h.config_bits, h.badaddr_bits, h.contents, h.protection⟩
  · cases hw; exact h.readOnly _
  · cases hw; exact h.readOnly _
  · cases hw; exact h.readOnly _
  · cases hw
    unfold controlPteaddr
    split
    · exact State.Inv.flush ⟨h.config_valid, h.memory_wf, h.pc_aligned, h.status_bits, h.estatus_bits, h.bstatus_bits,
        h.exception_bits, within_and _ _, h.config_bits, h.badaddr_bits, h.contents, h.protection⟩
    · exact h
  · cases hw
    unfold controlTlbacc
    split
    · next m hm => exact (h.writeTlbacc hm v).flush
    · exact h
  · cases hw
    unfold controlTlbmisc
    split
    · next m hm => exact (h.writeTlbmisc hm v).flush
    · exact h
  · cases hw; exact h.readOnly _
  · cases hw
    unfold controlConfig
    split
    · exact State.Inv.flush ⟨h.config_valid, h.memory_wf, h.pc_aligned, h.status_bits, h.estatus_bits, h.bstatus_bits,
        h.exception_bits, h.pteaddr_bits, within_and _ _, h.badaddr_bits, h.contents, h.protection⟩
    · exact h
  · cases hw
    unfold controlMpubase
    split
    · next m hm =>
      refine ⟨h.config_valid, h.memory_wf, h.pc_aligned, h.status_bits, h.estatus_bits, h.bstatus_bits, h.exception_bits,
        h.pteaddr_bits, h.config_bits, h.badaddr_bits, h.contents, ?_⟩
      have hp := h.protection
      unfold State.protectionInv at hp ⊢
      simp only [hm] at hp ⊢
      exact ⟨hp.1, hp.2.1, within_and _ _, hp.2.2.2⟩
    · exact h
  · unfold controlMpuacc at hw
    split at hw
    · next m hm => exact h.writeMpuacc hm hw
    · cases hw; exact h
  · cases hw; exact h

/-! The shared instruction forms and the end of a boundary. -/

theorem State.Inv.jumpTo {s t : State} (h : s.Inv) {a : Word} (hj : jumpTo a s = .ok t) : t.Inv := by
  obtain ⟨ha, rfl⟩ := jumpTo_ok.1 hj
  exact h.goto (wordAligned_iff.2 ha)

theorem State.Inv.loadInstr {n : Nat} {io : Bool} {ext : Word → Word} {rB rA : Reg} {imm : BitVec 16} {s t : State}
    (h : s.Inv) (hl : loadInstr n io ext rB rA imm s = .next t) : t.Inv := by
  rcases loadInstr_next hl with ⟨e, rfl⟩ | ⟨v, u, ⟨hu, hd⟩, rfl⟩
  · exact h.takeException e
  · have : u.Inv := by rw [hu]; exact h.access h.memory_wf (hd h.contents.1) _
    exact (this.setReg _ _).advance

theorem State.Inv.storeInstr {n : Nat} {io : Bool} {rB rA : Reg} {imm : BitVec 16} {s t : State}
    (h : s.Inv) (hl : storeInstr n io rB rA imm s = .next t) : t.Inv := by
  rcases storeInstr_next hl with ⟨e, rfl⟩ | ⟨u, pa, hu, hm, hd, rfl⟩
  · exact h.takeException e
  · have hw : u.memory.wf = true := by
      rcases hm with hm | hm <;> rw [hm]
      · exact h.memory_wf
      · exact busStore_wf _ _ _ h.memory_wf
    have : u.Inv := by rw [hu]; exact h.access hw (hd h.contents.1) _
    exact this.advance

theorem State.Inv.mulInstr {b : Bool} {r : Reg} {v : Word} {s t : State} (h : s.Inv) (hm : mulInstr b r v s = .next t) :
    t.Inv := by
  refine h.finish (fun u hu => ?_) hm
  obtain ⟨_, _, hu⟩ := bind_ok.1 hu
  cases hu
  exact (h.setReg _ _).advance

theorem State.Inv.divInstr {b : Bool} {r : Reg} {x y q : Word} {s t : State} (h : s.Inv)
    (hm : divInstr b r x y q s = .next t) : t.Inv := by
  refine h.finish (fun u hu => ?_) hm
  obtain ⟨_, _, hu⟩ := bind_ok.1 hu
  obtain ⟨_, _, hu⟩ := bind_ok.1 hu
  cases hu
  exact (h.setReg _ _).advance

theorem State.Inv.branchInstr {b : Bool} {imm : BitVec 16} {s t : State} (h : s.Inv) (hb : branchInstr b imm s = .next t) :
    t.Inv := by
  unfold Machine.branchInstr at hb
  split at hb
  · exact h.finish (fun u hu => h.jumpTo hu) hb
  · cases hb; exact h.advance

theorem wordAligned_segmentTarget (pc : Word) (imm : BitVec 26) : wordAligned (segmentTarget pc imm) = true := by
  have : ∀ i, i < 2 → (segmentTarget pc imm).getLsbD i = false := fun i hi => by
    unfold segmentTarget
    rw [BitVec.getLsbD_append]
    simp [hi]
  unfold wordAligned
  rw [beq_iff_eq]
  apply BitVec.eq_of_getLsbD_eq
  intro i hi
  rw [BitVec.getLsbD_extractLsb', Nat.zero_add, this i hi]
  simp

theorem State.Inv.fetch {s t : State} {w : Word} (h : s.Inv) (hf : fetchWord s = .ok (w, t)) : t.Inv := by
  obtain ⟨ht, hi, hl⟩ := fetchWord_frame hf
  rw [ht]
  exact h.update h.pc_aligned h.memory_wf h.contents.1 (hi h.contents.2.1) (hl.trans h.contents.2.2) s.regs s.inDebug s.custom
    s.deviceCycles s.inputs s.future s.tick

theorem State.Inv.nextBoundary {s : State} (h : s.Inv) : (nextBoundary s).Inv :=
  h.update h.pc_aligned h.memory_wf h.contents.1 h.contents.2.1 h.contents.2.2 s.regs s.inDebug s.custom s.deviceCycles _ _ _

theorem State.Inv.endBoundary {s : State} (h : s.Inv) : (endBoundary s).Inv := by
  obtain ⟨ht, ⟨hm, hd, hi⟩, hl⟩ := endBoundary_frame s
  rw [ht]
  exact h.update h.pc_aligned (hm h.memory_wf) (hd h.contents.1) (hi h.contents.2.1) hl s.regs s.inDebug s.custom s.deviceCycles _ _ _

end Sys2Proof.Machine
end

