-- ==== Sys2Proof/Laws/PerInstr.lean ====
section
/-! SUPPORT. The per-instruction family `Opcodes`: the encoder puts the OP and OPX of every row of spec/opcode_table.json into
their fields. -/

namespace Sys2Proof.Laws.Opcodes

open Sys2Proof

/-- The OP of each instruction's row (30_encoding.md R207). -/
def rowOp : Instr → BitVec 6
  | .ldw _ _ _ => 0x17#6
  | .stw _ _ _ => 0x15#6
  | .ldwio _ _ _ => 0x37#6
  | .stwio _ _ _ => 0x35#6
  | .ldb _ _ _ => 0x07#6
  | .ldbu _ _ _ => 0x03#6
  | .ldh _ _ _ => 0x0F#6
  | .ldhu _ _ _ => 0x0B#6
  | .stb _ _ _ => 0x05#6
  | .sth _ _ _ => 0x0D#6
  | .ldbio _ _ _ => 0x27#6
  | .ldbuio _ _ _ => 0x23#6
  | .ldhio _ _ _ => 0x2F#6
  | .ldhuio _ _ _ => 0x2B#6
  | .stbio _ _ _ => 0x25#6
  | .sthio _ _ _ => 0x2D#6
  | .and _ _ _ => 0x3A#6
  | .or _ _ _ => 0x3A#6
  | .xor _ _ _ => 0x3A#6
  | .nor _ _ _ => 0x3A#6
  | .andi _ _ _ => 0x0C#6
  | .ori _ _ _ => 0x14#6
  | .xori _ _ _ => 0x1C#6
  | .andhi _ _ _ => 0x2C#6
  | .orhi _ _ _ => 0x34#6
  | .xorhi _ _ _ => 0x3C#6
  | .add _ _ _ => 0x3A#6
  | .sub _ _ _ => 0x3A#6
  | .mul _ _ _ => 0x3A#6
  | .div _ _ _ => 0x3A#6
  | .divu _ _ _ => 0x3A#6
  | .addi _ _ _ => 0x04#6
  | .muli _ _ _ => 0x24#6
  | .mulxss _ _ _ => 0x3A#6
  | .mulxuu _ _ _ => 0x3A#6
  | .mulxsu _ _ _ => 0x3A#6
  | .cmpeq _ _ _ => 0x3A#6
  | .cmpne _ _ _ => 0x3A#6
  | .cmpge _ _ _ => 0x3A#6
  | .cmpgeu _ _ _ => 0x3A#6
  | .cmplt _ _ _ => 0x3A#6
  | .cmpltu _ _ _ => 0x3A#6
  | .cmpeqi _ _ _ => 0x20#6
  | .cmpnei _ _ _ => 0x18#6
  | .cmpgei _ _ _ => 0x08#6
  | .cmpgeui _ _ _ => 0x28#6
  | .cmplti _ _ _ => 0x10#6
  | .cmpltui _ _ _ => 0x30#6
  | .rol _ _ _ => 0x3A#6
  | .ror _ _ _ => 0x3A#6
  | .roli _ _ _ => 0x3A#6
  | .sll _ _ _ => 0x3A#6
  | .slli _ _ _ => 0x3A#6
  | .sra _ _ _ => 0x3A#6
  | .srl _ _ _ => 0x3A#6
  | .srai _ _ _ => 0x3A#6
  | .srli _ _ _ => 0x3A#6
  | .call _ => 0x00#6
  | .callr _ => 0x3A#6
  | .ret => 0x3A#6
  | .jmp _ => 0x3A#6
  | .jmpi _ => 0x01#6
  | .br _ => 0x06#6
  | .bge _ _ _ => 0x0E#6
  | .bgeu _ _ _ => 0x2E#6
  | .blt _ _ _ => 0x16#6
  | .bltu _ _ _ => 0x36#6
  | .beq _ _ _ => 0x26#6
  | .bne _ _ _ => 0x1E#6
  | .nextpc _ => 0x3A#6
  | .trap _ => 0x3A#6
  | .eret => 0x3A#6
  | .brk _ => 0x3A#6
  | .bret => 0x3A#6
  | .rdctl _ _ => 0x3A#6
  | .wrctl _ _ => 0x3A#6
  | .flushd _ _ => 0x3B#6
  | .flushda _ _ => 0x1B#6
  | .flushi _ => 0x3A#6
  | .initd _ _ => 0x33#6
  | .initda _ _ => 0x13#6
  | .initi _ => 0x3A#6
  | .flushp => 0x3A#6
  | .sync => 0x3A#6
  | .custom _ _ _ _ _ _ _ => 0x32#6

/-- The OPX of each R-type instruction's row (30_encoding.md R208); 0 for the other formats. -/
def rowOpx : Instr → BitVec 6
  | .ldw _ _ _ => 0x00#6
  | .stw _ _ _ => 0x00#6
  | .ldwio _ _ _ => 0x00#6
  | .stwio _ _ _ => 0x00#6
  | .ldb _ _ _ => 0x00#6
  | .ldbu _ _ _ => 0x00#6
  | .ldh _ _ _ => 0x00#6
  | .ldhu _ _ _ => 0x00#6
  | .stb _ _ _ => 0x00#6
  | .sth _ _ _ => 0x00#6
  | .ldbio _ _ _ => 0x00#6
  | .ldbuio _ _ _ => 0x00#6
  | .ldhio _ _ _ => 0x00#6
  | .ldhuio _ _ _ => 0x00#6
  | .stbio _ _ _ => 0x00#6
  | .sthio _ _ _ => 0x00#6
  | .and _ _ _ => 0x0E#6
  | .or _ _ _ => 0x16#6
  | .xor _ _ _ => 0x1E#6
  | .nor _ _ _ => 0x06#6
  | .andi _ _ _ => 0x00#6
  | .ori _ _ _ => 0x00#6
  | .xori _ _ _ => 0x00#6
  | .andhi _ _ _ => 0x00#6
  | .orhi _ _ _ => 0x00#6
  | .xorhi _ _ _ => 0x00#6
  | .add _ _ _ => 0x31#6
  | .sub _ _ _ => 0x39#6
  | .mul _ _ _ => 0x27#6
  | .div _ _ _ => 0x25#6
  | .divu _ _ _ => 0x24#6
  | .addi _ _ _ => 0x00#6
  | .muli _ _ _ => 0x00#6
  | .mulxss _ _ _ => 0x1F#6
  | .mulxuu _ _ _ => 0x07#6
  | .mulxsu _ _ _ => 0x17#6
  | .cmpeq _ _ _ => 0x20#6
  | .cmpne _ _ _ => 0x18#6
  | .cmpge _ _ _ => 0x08#6
  | .cmpgeu _ _ _ => 0x28#6
  | .cmplt _ _ _ => 0x10#6
  | .cmpltu _ _ _ => 0x30#6
  | .cmpeqi _ _ _ => 0x00#6
  | .cmpnei _ _ _ => 0x00#6
  | .cmpgei _ _ _ => 0x00#6
  | .cmpgeui _ _ _ => 0x00#6
  | .cmplti _ _ _ => 0x00#6
  | .cmpltui _ _ _ => 0x00#6
  | .rol _ _ _ => 0x03#6
  | .ror _ _ _ => 0x0B#6
  | .roli _ _ _ => 0x02#6
  | .sll _ _ _ => 0x13#6
  | .slli _ _ _ => 0x12#6
  | .sra _ _ _ => 0x3B#6
  | .srl _ _ _ => 0x1B#6
  | .srai _ _ _ => 0x3A#6
  | .srli _ _ _ => 0x1A#6
  | .call _ => 0x00#6
  | .callr _ => 0x1D#6
  | .ret => 0x05#6
  | .jmp _ => 0x0D#6
  | .jmpi _ => 0x00#6
  | .br _ => 0x00#6
  | .bge _ _ _ => 0x00#6
  | .bgeu _ _ _ => 0x00#6
  | .blt _ _ _ => 0x00#6
  | .bltu _ _ _ => 0x00#6
  | .beq _ _ _ => 0x00#6
  | .bne _ _ _ => 0x00#6
  | .nextpc _ => 0x1C#6
  | .trap _ => 0x2D#6
  | .eret => 0x01#6
  | .brk _ => 0x34#6
  | .bret => 0x09#6
  | .rdctl _ _ => 0x26#6
  | .wrctl _ _ => 0x2E#6
  | .flushd _ _ => 0x00#6
  | .flushda _ _ => 0x00#6
  | .flushi _ => 0x0C#6
  | .initd _ _ => 0x00#6
  | .initda _ _ => 0x00#6
  | .initi _ => 0x29#6
  | .flushp => 0x04#6
  | .sync => 0x36#6
  | .custom _ _ _ _ _ _ _ => 0x00#6

/-- The word of the instruction has the OP of its row, and of an R-type row also the OPX (30_encoding.md R207, R208). -/
def Statement (i : Instr) : Prop :=
  fieldOp (encode i) = rowOp i ∧ (rowOp i = 0x3A#6 → fieldOpx (encode i) = rowOpx i)

theorem ldw (rB : Reg) (rA : Reg) (imm : BitVec 16) : Statement (.ldw rB rA imm) :=
  ⟨fieldOp_encodeI .., fun h => absurd h (by decide : ¬0x17#6 = 0x3A#6)⟩
theorem stw (rB : Reg) (rA : Reg) (imm : BitVec 16) : Statement (.stw rB rA imm) :=
  ⟨fieldOp_encodeI .., fun h => absurd h (by decide : ¬0x15#6 = 0x3A#6)⟩
theorem ldwio (rB : Reg) (rA : Reg) (imm : BitVec 16) : Statement (.ldwio rB rA imm) :=
  ⟨fieldOp_encodeI .., fun h => absurd h (by decide : ¬0x37#6 = 0x3A#6)⟩
theorem stwio (rB : Reg) (rA : Reg) (imm : BitVec 16) : Statement (.stwio rB rA imm) :=
  ⟨fieldOp_encodeI .., fun h => absurd h (by decide : ¬0x35#6 = 0x3A#6)⟩
theorem ldb (rB : Reg) (rA : Reg) (imm : BitVec 16) : Statement (.ldb rB rA imm) :=
  ⟨fieldOp_encodeI .., fun h => absurd h (by decide : ¬0x07#6 = 0x3A#6)⟩
theorem ldbu (rB : Reg) (rA : Reg) (imm : BitVec 16) : Statement (.ldbu rB rA imm) :=
  ⟨fieldOp_encodeI .., fun h => absurd h (by decide : ¬0x03#6 = 0x3A#6)⟩
theorem ldh (rB : Reg) (rA : Reg) (imm : BitVec 16) : Statement (.ldh rB rA imm) :=
  ⟨fieldOp_encodeI .., fun h => absurd h (by decide : ¬0x0F#6 = 0x3A#6)⟩
theorem ldhu (rB : Reg) (rA : Reg) (imm : BitVec 16) : Statement (.ldhu rB rA imm) :=
  ⟨fieldOp_encodeI .., fun h => absurd h (by decide : ¬0x0B#6 = 0x3A#6)⟩
theorem stb (rB : Reg) (rA : Reg) (imm : BitVec 16) : Statement (.stb rB rA imm) :=
  ⟨fieldOp_encodeI .., fun h => absurd h (by decide : ¬0x05#6 = 0x3A#6)⟩
theorem sth (rB : Reg) (rA : Reg) (imm : BitVec 16) : Statement (.sth rB rA imm) :=
  ⟨fieldOp_encodeI .., fun h => absurd h (by decide : ¬0x0D#6 = 0x3A#6)⟩
theorem ldbio (rB : Reg) (rA : Reg) (imm : BitVec 16) : Statement (.ldbio rB rA imm) :=
  ⟨fieldOp_encodeI .., fun h => absurd h (by decide : ¬0x27#6 = 0x3A#6)⟩
theorem ldbuio (rB : Reg) (rA : Reg) (imm : BitVec 16) : Statement (.ldbuio rB rA imm) :=
  ⟨fieldOp_encodeI .., fun h => absurd h (by decide : ¬0x23#6 = 0x3A#6)⟩
theorem ldhio (rB : Reg) (rA : Reg) (imm : BitVec 16) : Statement (.ldhio rB rA imm) :=
  ⟨fieldOp_encodeI .., fun h => absurd h (by decide : ¬0x2F#6 = 0x3A#6)⟩
theorem ldhuio (rB : Reg) (rA : Reg) (imm : BitVec 16) : Statement (.ldhuio rB rA imm) :=
  ⟨fieldOp_encodeI .., fun h => absurd h (by decide : ¬0x2B#6 = 0x3A#6)⟩
theorem stbio (rB : Reg) (rA : Reg) (imm : BitVec 16) : Statement (.stbio rB rA imm) :=
  ⟨fieldOp_encodeI .., fun h => absurd h (by decide : ¬0x25#6 = 0x3A#6)⟩
theorem sthio (rB : Reg) (rA : Reg) (imm : BitVec 16) : Statement (.sthio rB rA imm) :=
  ⟨fieldOp_encodeI .., fun h => absurd h (by decide : ¬0x2D#6 = 0x3A#6)⟩
theorem and (rC : Reg) (rA : Reg) (rB : Reg) : Statement (.and rC rA rB) :=
  ⟨fieldOp_encodeR .., fun _ => fieldOpx_encodeR ..⟩
theorem or (rC : Reg) (rA : Reg) (rB : Reg) : Statement (.or rC rA rB) :=
  ⟨fieldOp_encodeR .., fun _ => fieldOpx_encodeR ..⟩
theorem xor (rC : Reg) (rA : Reg) (rB : Reg) : Statement (.xor rC rA rB) :=
  ⟨fieldOp_encodeR .., fun _ => fieldOpx_encodeR ..⟩
theorem nor (rC : Reg) (rA : Reg) (rB : Reg) : Statement (.nor rC rA rB) :=
  ⟨fieldOp_encodeR .., fun _ => fieldOpx_encodeR ..⟩
theorem andi (rB : Reg) (rA : Reg) (imm : BitVec 16) : Statement (.andi rB rA imm) :=
  ⟨fieldOp_encodeI .., fun h => absurd h (by decide : ¬0x0C#6 = 0x3A#6)⟩
theorem ori (rB : Reg) (rA : Reg) (imm : BitVec 16) : Statement (.ori rB rA imm) :=
  ⟨fieldOp_encodeI .., fun h => absurd h (by decide : ¬0x14#6 = 0x3A#6)⟩
theorem xori (rB : Reg) (rA : Reg) (imm : BitVec 16) : Statement (.xori rB rA imm) :=
  ⟨fieldOp_encodeI .., fun h => absurd h (by decide : ¬0x1C#6 = 0x3A#6)⟩
theorem andhi (rB : Reg) (rA : Reg) (imm : BitVec 16) : Statement (.andhi rB rA imm) :=
  ⟨fieldOp_encodeI .., fun h => absurd h (by decide : ¬0x2C#6 = 0x3A#6)⟩
theorem orhi (rB : Reg) (rA : Reg) (imm : BitVec 16) : Statement (.orhi rB rA imm) :=
  ⟨fieldOp_encodeI .., fun h => absurd h (by decide : ¬0x34#6 = 0x3A#6)⟩
theorem xorhi (rB : Reg) (rA : Reg) (imm : BitVec 16) : Statement (.xorhi rB rA imm) :=
  ⟨fieldOp_encodeI .., fun h => absurd h (by decide : ¬0x3C#6 = 0x3A#6)⟩
theorem add (rC : Reg) (rA : Reg) (rB : Reg) : Statement (.add rC rA rB) :=
  ⟨fieldOp_encodeR .., fun _ => fieldOpx_encodeR ..⟩
theorem sub (rC : Reg) (rA : Reg) (rB : Reg) : Statement (.sub rC rA rB) :=
  ⟨fieldOp_encodeR .., fun _ => fieldOpx_encodeR ..⟩
theorem mul (rC : Reg) (rA : Reg) (rB : Reg) : Statement (.mul rC rA rB) :=
  ⟨fieldOp_encodeR .., fun _ => fieldOpx_encodeR ..⟩
theorem div (rC : Reg) (rA : Reg) (rB : Reg) : Statement (.div rC rA rB) :=
  ⟨fieldOp_encodeR .., fun _ => fieldOpx_encodeR ..⟩
theorem divu (rC : Reg) (rA : Reg) (rB : Reg) : Statement (.divu rC rA rB) :=
  ⟨fieldOp_encodeR .., fun _ => fieldOpx_encodeR ..⟩
theorem addi (rB : Reg) (rA : Reg) (imm : BitVec 16) : Statement (.addi rB rA imm) :=
  ⟨fieldOp_encodeI .., fun h => absurd h (by decide : ¬0x04#6 = 0x3A#6)⟩
theorem muli (rB : Reg) (rA : Reg) (imm : BitVec 16) : Statement (.muli rB rA imm) :=
  ⟨fieldOp_encodeI .., fun h => absurd h (by decide : ¬0x24#6 = 0x3A#6)⟩
theorem mulxss (rC : Reg) (rA : Reg) (rB : Reg) : Statement (.mulxss rC rA rB) :=
  ⟨fieldOp_encodeR .., fun _ => fieldOpx_encodeR ..⟩
theorem mulxuu (rC : Reg) (rA : Reg) (rB : Reg) : Statement (.mulxuu rC rA rB) :=
  ⟨fieldOp_encodeR .., fun _ => fieldOpx_encodeR ..⟩
theorem mulxsu (rC : Reg) (rA : Reg) (rB : Reg) : Statement (.mulxsu rC rA rB) :=
  ⟨fieldOp_encodeR .., fun _ => fieldOpx_encodeR ..⟩
theorem cmpeq (rC : Reg) (rA : Reg) (rB : Reg) : Statement (.cmpeq rC rA rB) :=
  ⟨fieldOp_encodeR .., fun _ => fieldOpx_encodeR ..⟩
theorem cmpne (rC : Reg) (rA : Reg) (rB : Reg) : Statement (.cmpne rC rA rB) :=
  ⟨fieldOp_encodeR .., fun _ => fieldOpx_encodeR ..⟩
theorem cmpge (rC : Reg) (rA : Reg) (rB : Reg) : Statement (.cmpge rC rA rB) :=
  ⟨fieldOp_encodeR .., fun _ => fieldOpx_encodeR ..⟩
theorem cmpgeu (rC : Reg) (rA : Reg) (rB : Reg) : Statement (.cmpgeu rC rA rB) :=
  ⟨fieldOp_encodeR .., fun _ => fieldOpx_encodeR ..⟩
theorem cmplt (rC : Reg) (rA : Reg) (rB : Reg) : Statement (.cmplt rC rA rB) :=
  ⟨fieldOp_encodeR .., fun _ => fieldOpx_encodeR ..⟩
theorem cmpltu (rC : Reg) (rA : Reg) (rB : Reg) : Statement (.cmpltu rC rA rB) :=
  ⟨fieldOp_encodeR .., fun _ => fieldOpx_encodeR ..⟩
theorem cmpeqi (rB : Reg) (rA : Reg) (imm : BitVec 16) : Statement (.cmpeqi rB rA imm) :=
  ⟨fieldOp_encodeI .., fun h => absurd h (by decide : ¬0x20#6 = 0x3A#6)⟩
theorem cmpnei (rB : Reg) (rA : Reg) (imm : BitVec 16) : Statement (.cmpnei rB rA imm) :=
  ⟨fieldOp_encodeI .., fun h => absurd h (by decide : ¬0x18#6 = 0x3A#6)⟩
theorem cmpgei (rB : Reg) (rA : Reg) (imm : BitVec 16) : Statement (.cmpgei rB rA imm) :=
  ⟨fieldOp_encodeI .., fun h => absurd h (by decide : ¬0x08#6 = 0x3A#6)⟩
theorem cmpgeui (rB : Reg) (rA : Reg) (imm : BitVec 16) : Statement (.cmpgeui rB rA imm) :=
  ⟨fieldOp_encodeI .., fun h => absurd h (by decide : ¬0x28#6 = 0x3A#6)⟩
theorem cmplti (rB : Reg) (rA : Reg) (imm : BitVec 16) : Statement (.cmplti rB rA imm) :=
  ⟨fieldOp_encodeI .., fun h => absurd h (by decide : ¬0x10#6 = 0x3A#6)⟩
theorem cmpltui (rB : Reg) (rA : Reg) (imm : BitVec 16) : Statement (.cmpltui rB rA imm) :=
  ⟨fieldOp_encodeI .., fun h => absurd h (by decide : ¬0x30#6 = 0x3A#6)⟩
theorem rol (rC : Reg) (rA : Reg) (rB : Reg) : Statement (.rol rC rA rB) :=
  ⟨fieldOp_encodeR .., fun _ => fieldOpx_encodeR ..⟩
theorem ror (rC : Reg) (rA : Reg) (rB : Reg) : Statement (.ror rC rA rB) :=
  ⟨fieldOp_encodeR .., fun _ => fieldOpx_encodeR ..⟩
theorem roli (rC : Reg) (rA : Reg) (imm : BitVec 5) : Statement (.roli rC rA imm) :=
  ⟨fieldOp_encodeR .., fun _ => fieldOpx_encodeR ..⟩
theorem sll (rC : Reg) (rA : Reg) (rB : Reg) : Statement (.sll rC rA rB) :=
  ⟨fieldOp_encodeR .., fun _ => fieldOpx_encodeR ..⟩
theorem slli (rC : Reg) (rA : Reg) (imm : BitVec 5) : Statement (.slli rC rA imm) :=
  ⟨fieldOp_encodeR .., fun _ => fieldOpx_encodeR ..⟩
theorem sra (rC : Reg) (rA : Reg) (rB : Reg) : Statement (.sra rC rA rB) :=
  ⟨fieldOp_encodeR .., fun _ => fieldOpx_encodeR ..⟩
theorem srl (rC : Reg) (rA : Reg) (rB : Reg) : Statement (.srl rC rA rB) :=
  ⟨fieldOp_encodeR .., fun _ => fieldOpx_encodeR ..⟩
theorem srai (rC : Reg) (rA : Reg) (imm : BitVec 5) : Statement (.srai rC rA imm) :=
  ⟨fieldOp_encodeR .., fun _ => fieldOpx_encodeR ..⟩
theorem srli (rC : Reg) (rA : Reg) (imm : BitVec 5) : Statement (.srli rC rA imm) :=
  ⟨fieldOp_encodeR .., fun _ => fieldOpx_encodeR ..⟩
theorem call (imm : BitVec 26) : Statement (.call imm) :=
  ⟨fieldOp_encodeJ .., fun h => absurd h (by decide : ¬0x00#6 = 0x3A#6)⟩
theorem callr (rA : Reg) : Statement (.callr rA) :=
  ⟨fieldOp_encodeR .., fun _ => fieldOpx_encodeR ..⟩
theorem ret : Statement .ret :=
  ⟨fieldOp_encodeR .., fun _ => fieldOpx_encodeR ..⟩
theorem jmp (rA : Reg) : Statement (.jmp rA) :=
  ⟨fieldOp_encodeR .., fun _ => fieldOpx_encodeR ..⟩
theorem jmpi (imm : BitVec 26) : Statement (.jmpi imm) :=
  ⟨fieldOp_encodeJ .., fun h => absurd h (by decide : ¬0x01#6 = 0x3A#6)⟩
theorem br (imm : BitVec 16) : Statement (.br imm) :=
  ⟨fieldOp_encodeI .., fun h => absurd h (by decide : ¬0x06#6 = 0x3A#6)⟩
theorem bge (rA : Reg) (rB : Reg) (imm : BitVec 16) : Statement (.bge rA rB imm) :=
  ⟨fieldOp_encodeI .., fun h => absurd h (by decide : ¬0x0E#6 = 0x3A#6)⟩
theorem bgeu (rA : Reg) (rB : Reg) (imm : BitVec 16) : Statement (.bgeu rA rB imm) :=
  ⟨fieldOp_encodeI .., fun h => absurd h (by decide : ¬0x2E#6 = 0x3A#6)⟩
theorem blt (rA : Reg) (rB : Reg) (imm : BitVec 16) : Statement (.blt rA rB imm) :=
  ⟨fieldOp_encodeI .., fun h => absurd h (by decide : ¬0x16#6 = 0x3A#6)⟩
theorem bltu (rA : Reg) (rB : Reg) (imm : BitVec 16) : Statement (.bltu rA rB imm) :=
  ⟨fieldOp_encodeI .., fun h => absurd h (by decide : ¬0x36#6 = 0x3A#6)⟩
theorem beq (rA : Reg) (rB : Reg) (imm : BitVec 16) : Statement (.beq rA rB imm) :=
  ⟨fieldOp_encodeI .., fun h => absurd h (by decide : ¬0x26#6 = 0x3A#6)⟩
theorem bne (rA : Reg) (rB : Reg) (imm : BitVec 16) : Statement (.bne rA rB imm) :=
  ⟨fieldOp_encodeI .., fun h => absurd h (by decide : ¬0x1E#6 = 0x3A#6)⟩
theorem nextpc (rC : Reg) : Statement (.nextpc rC) :=
  ⟨fieldOp_encodeR .., fun _ => fieldOpx_encodeR ..⟩
theorem trap (imm : BitVec 5) : Statement (.trap imm) :=
  ⟨fieldOp_encodeR .., fun _ => fieldOpx_encodeR ..⟩
theorem eret : Statement .eret :=
  ⟨fieldOp_encodeR .., fun _ => fieldOpx_encodeR ..⟩
theorem brk (imm : BitVec 5) : Statement (.brk imm) :=
  ⟨fieldOp_encodeR .., fun _ => fieldOpx_encodeR ..⟩
theorem bret : Statement .bret :=
  ⟨fieldOp_encodeR .., fun _ => fieldOpx_encodeR ..⟩
theorem rdctl (rC : Reg) (n : BitVec 5) : Statement (.rdctl rC n) :=
  ⟨fieldOp_encodeR .., fun _ => fieldOpx_encodeR ..⟩
theorem wrctl (n : BitVec 5) (rA : Reg) : Statement (.wrctl n rA) :=
  ⟨fieldOp_encodeR .., fun _ => fieldOpx_encodeR ..⟩
theorem flushd (rA : Reg) (imm : BitVec 16) : Statement (.flushd rA imm) :=
  ⟨fieldOp_encodeI .., fun h => absurd h (by decide : ¬0x3B#6 = 0x3A#6)⟩
theorem flushda (rA : Reg) (imm : BitVec 16) : Statement (.flushda rA imm) :=
  ⟨fieldOp_encodeI .., fun h => absurd h (by decide : ¬0x1B#6 = 0x3A#6)⟩
theorem flushi (rA : Reg) : Statement (.flushi rA) :=
  ⟨fieldOp_encodeR .., fun _ => fieldOpx_encodeR ..⟩
theorem initd (rA : Reg) (imm : BitVec 16) : Statement (.initd rA imm) :=
  ⟨fieldOp_encodeI .., fun h => absurd h (by decide : ¬0x33#6 = 0x3A#6)⟩
theorem initda (rA : Reg) (imm : BitVec 16) : Statement (.initda rA imm) :=
  ⟨fieldOp_encodeI .., fun h => absurd h (by decide : ¬0x13#6 = 0x3A#6)⟩
theorem initi (rA : Reg) : Statement (.initi rA) :=
  ⟨fieldOp_encodeR .., fun _ => fieldOpx_encodeR ..⟩
theorem flushp : Statement .flushp :=
  ⟨fieldOp_encodeR .., fun _ => fieldOpx_encodeR ..⟩
theorem sync : Statement .sync :=
  ⟨fieldOp_encodeR .., fun _ => fieldOpx_encodeR ..⟩
theorem custom (n : BitVec 8) (rC : Reg) (rA : Reg) (rB : Reg) (readra : Bool) (readrb : Bool) (writerc : Bool) : Statement (.custom n rC rA rB readra readrb writerc) :=
  ⟨fieldOp_encodeCustom .., fun h => absurd h (by decide : ¬0x32#6 = 0x3A#6)⟩

end Sys2Proof.Laws.Opcodes
end

