-- ==== Sys2Proof/Laws/Protection.lean ====
section
/-! SUPPORT. The laws of the MMU and the MPU: what a lookup finds, what a translation answers, and which region decides. -/

namespace Sys2Proof.Machine

/-! The TLB of a configuration the spec admits. -/

/-- A way that exists is stored in `tlbmisc.WAY` as it is. -/
theorem wayMask_of_lt {m : MmuConfig} (hw : m.tlbWays ≤ 16) {k : Nat} (hk : k < m.tlbWays) :
    (BitVec.ofNat 4 k &&& wayMask m).toNat = k := by
  have h := lt_selector hk
  have hs : selectorWidth m.tlbWays ≤ 4 := by
    unfold selectorWidth
    have := (Nat.log2_lt (k := 5) (by omega : 2 * m.tlbWays - 1 ≠ 0)).2 (by omega)
    omega
  have h2 : 2 ^ selectorWidth m.tlbWays ≤ 2 ^ 4 := Nat.pow_le_pow_right (by omega) hs
  have hp := Nat.two_pow_pos (selectorWidth m.tlbWays)
  unfold wayMask
  simp only [BitVec.toNat_and, BitVec.toNat_ofNat]
  rw [Nat.mod_eq_of_lt (by omega : k < 2 ^ 4), Nat.mod_eq_of_lt (by omega : 2 ^ selectorWidth m.tlbWays - 1 < 2 ^ 4),
    Nat.and_two_pow_sub_one_eq_mod, Nat.mod_eq_of_lt h]

/-- What a configuration the spec admits says of its TLB. -/
theorem tlb_valid {c : Config} {m : MmuConfig} (h : c.valid = true) (hm : c.protection = .mmu m) :
    1 ≤ m.tlbWays ∧ m.tlbWays ≤ 16 ∧ m.tlbWays ≤ m.tlbEntries ∧ m.tlbEntries ≤ 0x20000 := by
  simp only [Config.valid, Config.tlbOk, hm, Bool.and_eq_true, decide_eq_true_eq] at h
  obtain ⟨⟨⟨⟨⟨⟨⟨_, _⟩, _⟩, h⟩, _⟩, _⟩, _⟩, _⟩ := h
  exact ⟨h.1.1.1.1, h.1.1.1.2, h.1.1.2, h.2⟩

/-! TLB lookup. -/

/-- The VPN of an address (20_memory.md R140). -/
theorem vpn_toNat (va : Word) : (va.extractLsb' 12 20).toNat = va.toNat / 4096 := by
  have := va.isLt
  simp [Nat.shiftRight_eq_div_pow]
  omega

/-- The partitions that bypass the TLB are the addresses from 0xC0000000 up (20_memory.md R137). -/
theorem bypassesTlb_iff (va : Word) : bypassesTlb va = true ↔ 0xC0000000 ≤ va.toNat := by
  have := va.isLt
  unfold bypassesTlb
  rw [beq_iff_eq]
  constructor
  · intro h
    have h := congrArg BitVec.toNat h
    simp [Nat.shiftRight_eq_div_pow] at h
    omega
  · intro h
    apply BitVec.eq_of_toNat_eq
    simp [Nat.shiftRight_eq_div_pow]
    omega

/-- The tag and PID match of an entry, in numbers (20_memory.md R142, R143). -/
theorem TlbEntry.covers_iff (m : MmuConfig) (s : State) (va : Word) (e : TlbEntry) :
    e.covers (tlbTag m (va.extractLsb' 12 20)) s.pid = true ↔
      e.tag.toNat = va.toNat / 4096 / (m.tlbEntries / m.tlbWays) ∧ (e.g = true ∨ e.pid = s.pid) := by
  have hlt : va.toNat / 4096 / (m.tlbEntries / m.tlbWays) < 1048576 := by
    have := va.isLt
    exact lt_of_le_of_lt (Nat.div_le_self _ _) (by omega)
  unfold TlbEntry.covers tlbTag tlbLines
  rw [Bool.and_eq_true, beq_iff_eq, Bool.or_eq_true, beq_iff_eq, vpn_toNat]
  refine and_congr_left fun _ => ⟨fun h => ?_, fun h => ?_⟩
  · rw [h]; simpa using hlt
  · apply BitVec.eq_of_toNat_eq
    rw [h, BitVec.toNat_ofNat, Nat.mod_eq_of_lt hlt]

/-- The entry at a way of an address's line, if it matches. -/
def wayMatch (m : MmuConfig) (s : State) (va : Word) (w : Nat) : Option TlbEntry :=
  (s.tlb[tlbPosition m (tlbLine m (va.extractLsb' 12 20)) w]?).filter fun e =>
    e.covers (tlbTag m (va.extractLsb' 12 20)) s.pid

theorem tlbMatches_eq (m : MmuConfig) (s : State) (va : Word) :
    tlbMatches m (va.extractLsb' 12 20) s = (List.range m.tlbWays).filterMap (wayMatch m s va) := rfl

/-- No way matches: the lookup misses. -/
theorem tlbMatches_none {m : MmuConfig} {s : State} {va : Word} (h : ∀ w, w < m.tlbWays → wayMatch m s va w = none) :
    tlbMatches m (va.extractLsb' 12 20) s = [] := by
  rw [tlbMatches_eq, List.filterMap_eq_nil_iff]
  exact fun w hw => h w (List.mem_range.1 hw)

theorem filterMap_singleton {α β : Type} (f : α → Option β) {a : α} {b : β} (hb : f a = some b) : ∀ (l : List α) (_ : l.Nodup)
    (_ : a ∈ l) (_ : ∀ x, x ∈ l → x ≠ a → f x = none), l.filterMap f = [b]
  | [], _, ha, _ => by cases ha
  | x :: l, hn, ha, hu => by
    by_cases hx : x = a
    · subst hx
      rw [List.filterMap_cons_some hb, List.filterMap_eq_nil_iff.2]
      intro y hy
      exact hu y (List.mem_cons_of_mem _ hy) fun e => (List.nodup_cons.1 hn).1 (e ▸ hy)
    · rw [List.filterMap_cons_none (hu x List.mem_cons_self hx)]
      exact filterMap_singleton f hb l (List.nodup_cons.1 hn).2 ((List.mem_cons.1 ha).resolve_left fun e => hx e.symm)
        fun y hy => hu y (List.mem_cons_of_mem _ hy)

/-- Exactly one way matches: the lookup finds its entry. -/
theorem tlbMatches_one {m : MmuConfig} {s : State} {va : Word} {w : Nat} {e : TlbEntry} (hw : w < m.tlbWays)
    (h : wayMatch m s va w = some e) (hu : ∀ x, x < m.tlbWays → x ≠ w → wayMatch m s va x = none) :
    tlbMatches m (va.extractLsb' 12 20) s = [e] := by
  rw [tlbMatches_eq]
  exact filterMap_singleton _ h _ List.nodup_range (List.mem_range.2 hw) fun x hx => hu x (List.mem_range.1 hx)

theorem filterMap_two {α β : Type} (f : α → Option β) {a a' : α} {b b' : β} (hb : f a = some b) (hb' : f a' = some b')
    (hne : a ≠ a') : ∀ (l : List α) (_ : a ∈ l) (_ : a' ∈ l), 2 ≤ (l.filterMap f).length
  | [], ha, _ => by cases ha
  | x :: l, ha, ha' => by
    rcases List.mem_cons.1 ha with rfl | h <;> rcases List.mem_cons.1 ha' with rfl | h'
    · exact absurd rfl hne
    · rw [List.filterMap_cons_some hb]
      have := List.length_pos_of_mem (List.mem_filterMap.2 ⟨a', h', hb'⟩)
      simp only [List.length_cons]
      omega
    · rw [List.filterMap_cons_some hb']
      have := List.length_pos_of_mem (List.mem_filterMap.2 ⟨a, h, hb⟩)
      simp only [List.length_cons]
      omega
    · have := filterMap_two f hb hb' hne l h h'
      cases hx : f x with
      | none => rw [List.filterMap_cons_none hx]; exact this
      | some => rw [List.filterMap_cons_some hx, List.length_cons]; omega

/-- Two ways match: the lookup finds at least two entries. -/
theorem tlbMatches_two {m : MmuConfig} {s : State} {va : Word} {w w' : Nat} {e e' : TlbEntry} (hw : w < m.tlbWays)
    (hw' : w' < m.tlbWays) (h : wayMatch m s va w = some e) (h' : wayMatch m s va w' = some e') (hne : w ≠ w') :
    ∃ a b l, tlbMatches m (va.extractLsb' 12 20) s = a :: b :: l := by
  have := filterMap_two (wayMatch m s va) h h' hne (List.range m.tlbWays) (List.mem_range.2 hw) (List.mem_range.2 hw')
  rw [← tlbMatches_eq] at this
  generalize tlbMatches m (va.extractLsb' 12 20) s = l at this
  match l, this with
  | a :: b :: l, _ => exact ⟨a, b, l, rfl⟩

/-- Everything a translation can answer. -/
theorem mmuTranslate_ok {m : MmuConfig} {k : AccessKind} {va pa : Word} {c : Bool} {s : State}
    (h : mmuTranslate m k va s = .ok (pa, c)) :
    (bypassesTlb va = true ∧ pa = 0#3 ++ va.extractLsb' 0 29 ∧ c = !va.getLsbD 29) ∨
    (bypassesTlb va = false ∧ ∃ e, tlbMatches m (va.extractLsb' 12 20) s = [e] ∧ e.permits k = true ∧
      pa = e.pfn ++ va.extractLsb' 0 12 ∧ c = e.c) := by
  unfold mmuTranslate at h
  split at h
  · next hb => cases h; exact .inl ⟨hb, rfl, rfl⟩
  · next hb =>
    refine .inr ⟨by simpa using hb, ?_⟩
    split at h
    · cases h
    · next e he =>
      split at h <;> cases h
      next hp => exact ⟨e, he, hp, rfl, rfl⟩
    · cases h

/-! The MPU. -/

/-- Everything a region check can allow: a region decides, its permission is listed and allows the access. -/
theorem mpuCheck_ok {m : MpuConfig} {k : AccessKind} {a : Word} {c : Bool} {s : State} (h : mpuCheck m k a s = .ok c) :
    ∃ r, regionOf s.config m (if k = .fetch then (tablesSeen (k == .fetch) s).instr else (tablesSeen (k == .fetch) s).data) a =
        some r ∧ permListed (k == .fetch) r.perm = true ∧ regionPermits m k s.user r.perm = true ∧ c = r.c := by
  unfold mpuCheck at h
  simp only at h
  split at h
  · cases h
  split at h
  · cases h
  · next r hr =>
    split at h
    · cases h
    · next hl =>
      split at h <;> cases h
      next hp => exact ⟨r, hr, by simpa using hl, hp, rfl⟩

/-- The region that decides covers the address, which lies in the address space. -/
theorem regionOf_some {c : Config} {m : MpuConfig} {regions : List MpuRegion} {a : Word} {r : MpuRegion}
    (h : regionOf c m regions a = some r) : a.toNat < 2 ^ c.addrBits ∧ r ∈ regions ∧ r.covers m.useLimit a = true := by
  unfold regionOf at h
  split at h
  · next ha => exact ⟨ha, List.mem_of_find?_eq_some h, List.find?_some (p := fun (r : MpuRegion) => r.covers m.useLimit a) h⟩
  · cases h

/-! The address paths. -/

/-- A data address is answered only when no check before the translation fails. -/
theorem dataAddr_ok {k : AccessKind} {n : Nat} {ea : Word} {s : State} {r : Word × Bool} :
    dataAddr k n ea s = .ok r ↔
      dataForbidden k ea s = false ∧ dataMisaligned k n ea = false ∧ dataTranslate k ea s = .ok r := by
  unfold dataAddr
  cases dataForbidden k ea s <;> cases dataMisaligned k n ea <;> cases s.config.illegalMemCheck <;> simp

/-- A data address depends on the mode, the protection unit and the parameters only: not on registers, memory or `pc`. -/
theorem dataAddr_congr {s t : State} (h1 : t.config = s.config) (h2 : t.status = s.status) (h3 : t.tlb = s.tlb)
    (h4 : t.tlbmisc = s.tlbmisc) (h5 : t.configReg = s.configReg) (h6 : t.inDebug = s.inDebug) (h7 : t.mpu = s.mpu)
    (h8 : t.mpuStale = s.mpuStale) (h9 : t.tick = s.tick) (k : AccessKind) (n : Nat) (ea : Word) :
    dataAddr k n ea t = dataAddr k n ea s := by
  have hu : t.user = s.user := by unfold State.user; rw [h2]
  have hp : t.pid = s.pid := by unfold State.pid; rw [h4]
  have ha : t.mpuActive = s.mpuActive := by unfold State.mpuActive State.pe; rw [h5, h6]
  unfold dataAddr dataForbidden dataTranslate mmuTranslate tlbMatches mpuCheck tablesSeen
  rw [h1, hu, hp, ha, h3, h7, h8, h9]

/-! The control registers. -/

/-- `wrctl` in supervisor mode completes with the write of its control register. -/
theorem execWrctl_supervisor {n : BitVec 5} {rA : Reg} {s t : State} (hu : s.userForbidden = false)
    (hw : writeControl n (s.reg rA) s = .ok t) : execWrctl n rA s = .next t.advance := by
  unfold execWrctl supervisorOnly
  simp [hu, hw]

/-- `rdctl` in supervisor mode always completes. -/
theorem execRdctl_supervisor (rC : Reg) (n : BitVec 5) {s : State} (hu : s.userForbidden = false) :
    execRdctl rC n s = .next (s.setReg rC (readControl n s)).advance := by
  unfold execRdctl supervisorOnly
  simp [hu]

/-- Everything a write of a control register leaves alone: the parameters, `pc`, the general registers, memory, the caches,
`in_debug`, the custom logic and the inputs. -/
theorem writeControl_frame {n : BitVec 5} {v : Word} {s t : State} (h : writeControl n v s = .ok t) :
    t.config = s.config ∧ t.pc = s.pc ∧ t.regs = s.regs ∧ t.memory = s.memory ∧ t.dcache = s.dcache ∧ t.icache = s.icache ∧
      t.inDebug = s.inDebug ∧ t.custom = s.custom ∧ t.deviceCycles = s.deviceCycles ∧ t.inputs = s.inputs ∧ t.future = s.future ∧ t.tick = s.tick ∧
      t.exceptionReg = s.exceptionReg ∧ t.badaddr = s.badaddr ∧ (n ≠ 0#5 → t.status = s.status) ∧
      (n ≠ 1#5 → t.estatus = s.estatus) ∧ (n ≠ 2#5 → t.bstatus = s.bstatus) ∧ (n ≠ 3#5 → t.ienable = s.ienable) := by
  unfold writeControl at h
  split at h <;> try (cases h; first | (simp [flushPipeline]; done) | (unfold controlReadOnly; split <;> simp [flushPipeline]))
  · cases h; unfold controlPteaddr; split <;> simp [flushPipeline]
  · cases h; unfold controlTlbacc; split
    · unfold writeTlbacc; simp only; split <;> simp [flushPipeline]
    · simp
  · cases h; unfold controlTlbmisc; split
    · unfold writeTlbmisc; simp only; split <;> simp [flushPipeline]
    · simp
  · cases h; unfold controlConfig; split <;> simp [flushPipeline]
  · cases h; unfold controlMpubase; split <;> simp
  · unfold controlMpuacc at h
    split at h
    · unfold writeMpuacc at h
      simp only at h
      split at h
      · cases h
      split at h
      · cases h; simp
      split at h <;> cases h <;> simp
    · cases h; simp

end Sys2Proof.Machine
end

