-- ==== Sys2Proof/Tests/Slice0.lean ====
section
/-! SUPPORT. Tests of the model against the vectors and examples of spec/ (95_test_vectors.md and the examples of the rules):
the checks of WellFormed, the decoding of a word of every instruction, one step of every instruction on a small state, and
a witness for the hypotheses of every statement. -/

namespace Sys2Proof.Tests

open Sys2Proof.Machine

/-! ## WellFormed: one ill-formed term for each check. -/

/-- An MMU configuration of 95_test_vectors.md section 2.8. -/
def mmuUnit : MmuConfig := { tlbEntries := 128, tlbWays := 16, pidBits := 8, pfnBits := 20, fastTlbMissVector := 0x100#32 }

/-- The configuration of 95_test_vectors.md section 2.8. -/
def mmuConfig : Config := { Config.reference with protection := .mmu mmuUnit, addrBits := 32 }

/-- The MPU configuration of 95_test_vectors.md section 2.9. -/
def mpuUnit : MpuConfig :=
  { instrRegions := 2, dataRegions := 3, minRegionLog2 := 6, useLimit := false, cacheOpPermission := .none }

/-- The configuration of 95_test_vectors.md section 2.9. -/
def mpuConfig : Config := { Config.reference with protection := .mpu mpuUnit }

theorem test_wf_reference : Config.reference.valid = true := by decide
theorem test_wf_mmu : mmuConfig.valid = true := by decide
theorem test_wf_mpu : mpuConfig.valid = true := by decide
theorem test_wf_vectorsAligned : ({ Config.reference with resetVector := 2#32 } : Config).vectorsAligned = false := by decide
theorem test_wf_vectorsLow : ({ mmuConfig with exceptionVector := 0x20000000#32 } : Config).vectorsLow = false := by decide
theorem test_wf_addrBitsOk : ({ Config.reference with addrBits := 32 } : Config).addrBitsOk = false := by decide
theorem test_wf_tlbOk : ({ mmuConfig with protection := .mmu { mmuUnit with tlbWays := 17 } } : Config).tlbOk = false := by
  decide
theorem test_wf_tlbSize :
    ({ mmuConfig with protection := .mmu { mmuUnit with tlbEntries := 0x20010 } } : Config).tlbOk = false := by decide
theorem test_wf_tlbFieldsOk :
    ({ mmuConfig with protection := .mmu { mmuUnit with pidBits := 7 } } : Config).tlbFieldsOk = false := by decide
theorem test_wf_regionCountOk :
    ({ mpuConfig with protection := .mpu { mpuUnit with dataRegions := 33 } } : Config).regionCountOk = false := by decide
theorem test_wf_regionSizeOk :
    ({ mpuConfig with protection := .mpu { mpuUnit with minRegionLog2 := 5 } } : Config).regionSizeOk = false := by decide
theorem test_wf_memoryMapOk :
    ({ Config.reference with memoryMap := [{ base := 1, size := 2 ^ 31, target := .memory }] } : Config).memoryMapOk =
      false := by decide
theorem test_wf_custom :
    (Instr.custom 5 2 3 4 true true true).wellFormed { Config.reference with customPresent := 0 } = false := by decide

/-! ## Decoding: a word of every instruction, from 95_test_vectors.md section 3. -/

/-- What a list of words decodes to. -/
def decoded (ws : List Word) : List (Option Instr) := ws.map fun w => (decode w).toOption

theorem test_decode_data_transfer :
    decoded [
      0x21400103#32, 0x21400105#32, 0x21400107#32, 0x2140010B#32, 0x2140010D#32, 0x2140010F#32, 0x21400115#32,
      0x21400117#32, 0x21400123#32, 0x21400125#32, 0x21400127#32, 0x2140012B#32, 0x2140012D#32, 0x2140012F#32,
      0x21400135#32, 0x21400137#32] = List.map some [
      .ldbu 5 4 4, .stb 5 4 4, .ldb 5 4 4, .ldhu 5 4 4, .sth 5 4 4, .ldh 5 4 4, .stw 5 4 4, .ldw 5 4 4, .ldbuio
      5 4 4, .stbio 5 4 4, .ldbio 5 4 4, .ldhuio 5 4 4, .sthio 5 4 4, .ldhio 5 4 4, .stwio 5 4 4, .ldwio 5 4 4] := by
  decide

theorem test_decode_immediate_arithmetic :
    decoded [
      0x21400104#32, 0x2140010C#32, 0x21400114#32, 0x2140011C#32, 0x21400124#32, 0x2140012C#32, 0x21400134#32,
      0x2140013C#32] = List.map some [
      .addi 5 4 4, .andi 5 4 4, .ori 5 4 4, .xori 5 4 4, .muli 5 4 4, .andhi 5 4 4, .orhi 5 4 4, .xorhi 5 4 4] := by
  decide

theorem test_decode_register_arithmetic :
    decoded [
      0x0886303A#32, 0x0886383A#32, 0x0886703A#32, 0x0886B03A#32, 0x0886B83A#32, 0x0886F03A#32, 0x0886F83A#32,
      0x0887203A#32, 0x0887283A#32, 0x0887383A#32, 0x0887883A#32, 0x0887C83A#32] = List.map some [
      .nor 3 1 2, .mulxuu 3 1 2, .and 3 1 2, .or 3 1 2, .mulxsu 3 1 2, .xor 3 1 2, .mulxss 3 1 2, .divu 3 1 2,
      .div 3 1 2, .mul 3 1 2, .add 3 1 2, .sub 3 1 2] := by
  decide

theorem test_decode_comparison :
    decoded [
      0x21400108#32, 0x21400110#32, 0x21400118#32, 0x21400120#32, 0x21400128#32, 0x21400130#32, 0x0886403A#32,
      0x0886803A#32, 0x0886C03A#32, 0x0887003A#32, 0x0887403A#32, 0x0887803A#32] = List.map some [
      .cmpgei 5 4 4, .cmplti 5 4 4, .cmpnei 5 4 4, .cmpeqi 5 4 4, .cmpgeui 5 4 4, .cmpltui 5 4 4, .cmpge 3 1 2,
      .cmplt 3 1 2, .cmpne 3 1 2, .cmpeq 3 1 2, .cmpgeu 3 1 2, .cmpltu 3 1 2] := by
  decide

theorem test_decode_shift_rotate :
    decoded [
      0x0806113A#32, 0x0886183A#32, 0x0886583A#32, 0x0806913A#32, 0x0886983A#32, 0x0806D13A#32, 0x0886D83A#32,
      0x0807D13A#32, 0x0887D83A#32] = List.map some [
      .roli 3 1 4, .rol 3 1 2, .ror 3 1 2, .slli 3 1 4, .sll 3 1 2, .srli 3 1 4, .srl 3 1 2, .srai 3 1 4, .sra 3
      1 2] := by
  decide

theorem test_decode_program_control :
    decoded [
      0x00020000#32, 0x00020001#32, 0x00000206#32, 0x2140020E#32, 0x21400216#32, 0x2140021E#32, 0x21400226#32,
      0x2140022E#32, 0x21400236#32, 0xF800283A#32, 0x2000683A#32, 0x203EE83A#32, 0x0006E03A#32] = List.map some [
      .call 0x800, .jmpi 0x800, .br 8, .bge 4 5 8, .blt 4 5 8, .bne 4 5 8, .beq 4 5 8, .bgeu 4 5 8, .bltu 4 5 8,
      .ret, .jmp 4, .callr 4, .nextpc 3] := by
  decide

theorem test_decode_other_control :
    decoded [
      0x20000113#32, 0x2000011B#32, 0x20000133#32, 0x2000013B#32, 0xEF80083A#32, 0x0000203A#32, 0xF000483A#32,
      0x2000603A#32, 0x000731FA#32, 0x2001483A#32, 0x003B683A#32, 0x180171FA#32, 0x003DA17A#32, 0x0001B03A#32,
      0x1905C172#32] = List.map some [
      .initda 4 4, .flushda 4 4, .initd 4 4, .flushd 4 4, .eret, .flushp, .bret, .flushi 4, .rdctl 3 7, .initi
      4, .trap 0, .wrctl 7 3, .brk 5, .sync, .custom 5 2 3 4 true true true] := by
  decide

/-- Words that select no instruction (95_test_vectors.md section 3), a non-canonical `add` (section 2.10), and the two fields
that are not decoded (30_encoding.md R211). -/
theorem test_decode_rejects :
    [0x00000002#32, 0xFFFFFFFF#32, 0x0000003A#32, 0x0000503A#32, 0x0887887A#32].map decode =
      [.error (.undefinedOp 2), .error (.undefinedOp 0x3F), .error (.undefinedOpx 0), .error (.undefinedOpx 0x0A),
        .error .nonCanonical] := by decide
theorem test_decode_ignored : decoded [0xF03C483A#32, 0x003B697A#32] = [some .bret, some (.trap 5)] := by decide
theorem test_decode_bytes : decodeBytes [0x3A, 0x88, 0x87, 0x08] = .ok (.add 3 1 2) := by decide
theorem test_encode_words :
    [encode (.addi 3 1 0xFFFF), encode (.slli 3 1 4), encode (.callr 31), encode (.rdctl 3 4), encode (.brk 1)] =
      [0x08FFFFC4#32, 0x0806913A#32, 0xF83EE83A#32, 0x0007313A#32, 0x003DA07A#32] := by decide

/-! ## One step of every instruction. Expected values are those of 95_test_vectors.md section 2. -/

/-- The state of 95_test_vectors.md: pc = 0x1000 and the named registers. -/
def cpu (regs : List (Reg × Word)) : State :=
  regs.foldl (fun s p => s.setReg p.1 p.2) { State.reset with pc := 0x1000#32 }

/-- The state of section 2.1: the bytes of two words at 0x2000. -/
def cpuMem (regs : List (Reg × Word)) : State :=
  { cpu regs with memory := Memory.writeLE (Memory.writeLE [] 0x2000 4 0x80C3F1A5#32) 0x2004 4 0x11223344#32 }

/-- What `f` gives on the state after an instruction, if there is one. -/
def after {α : Type} (i : Instr) (s : State) (f : State → α) : Option α :=
  match exec i s with
  | .next t => some (f t)
  | _ => none

/-- The value of a register and `pc` after an instruction. -/
def regPc (i : Instr) (s : State) (r : Reg) : Option (Word × Word) := after i s fun t => (t.reg r, t.pc)

/-- The word at 0x2000 or 0x2004 after an instruction. -/
def memAfter (i : Instr) (s : State) (a : Nat) : Option Word := after i s fun t => t.memory.readLE a 4

/-- pc, estatus, ea, exception after an instruction: what an entry leaves. -/
def entry (i : Instr) (s : State) : Option (Word × Word × Word × Word) :=
  after i s fun t => (t.pc, t.estatus, t.reg eaReg, t.exceptionReg)

/-- The outcome of an instruction is this fault. -/
def faults (i : Instr) (s : State) (f : Fault) : Bool :=
  match exec i s with
  | .fault g => g == f
  | _ => false

theorem test_ldw : regPc (.ldw 5 4 0xFFFC) (cpuMem [(4, 0x2008)]) 5 = some (0x11223344, 0x1004) := by decide
theorem test_ldw_misaligned : entry (.ldw 5 4 2) (cpu [(4, 0x2000)]) = some (0x20, 0, 0x1004, 0x18) := by decide
theorem test_ldwio : regPc (.ldwio 5 4 4) (cpuMem [(4, 0x2000)]) 5 = some (0x11223344, 0x1004) := by decide
theorem test_ldb : regPc (.ldb 5 4 3) (cpuMem [(4, 0x2000)]) 5 = some (0xFFFFFF80, 0x1004) := by decide
theorem test_ldbu : regPc (.ldbu 5 4 1) (cpuMem [(4, 0x2000)]) 5 = some (0x000000F1, 0x1004) := by decide
theorem test_ldh : regPc (.ldh 5 4 0) (cpuMem [(4, 0x2000)]) 5 = some (0xFFFFF1A5, 0x1004) := by decide
theorem test_ldh_misaligned : entry (.ldh 5 4 1) (cpu [(4, 0x2000)]) = some (0x20, 0, 0x1004, 0x18) := by decide
theorem test_ldhu : regPc (.ldhu 5 4 2) (cpuMem [(4, 0x2000)]) 5 = some (0x000080C3, 0x1004) := by decide
theorem test_ldbio : regPc (.ldbio 5 4 2) (cpuMem [(4, 0x2000)]) 5 = some (0xFFFFFFC3, 0x1004) := by decide
theorem test_ldbuio : regPc (.ldbuio 5 4 2) (cpuMem [(4, 0x2000)]) 5 = some (0x000000C3, 0x1004) := by decide
theorem test_ldhio : regPc (.ldhio 5 4 2) (cpuMem [(4, 0x2000)]) 5 = some (0xFFFF80C3, 0x1004) := by decide
theorem test_ldhuio : regPc (.ldhuio 5 4 2) (cpuMem [(4, 0x2000)]) 5 = some (0x000080C3, 0x1004) := by decide
theorem test_stw : memAfter (.stw 5 4 0) (cpuMem [(4, 0x2000), (5, 0xDEADBEEF)]) 0x2000 = some 0xDEADBEEF := by decide
theorem test_stwio : memAfter (.stwio 0 4 4) (cpuMem [(4, 0x2000)]) 0x2004 = some 0 := by decide
theorem test_sth : memAfter (.sth 5 4 2) (cpuMem [(4, 0x2000), (5, 0xDEADBEEF)]) 0x2000 = some 0xBEEFF1A5 := by decide
theorem test_sth_misaligned : memAfter (.sth 5 4 3) (cpuMem [(4, 0x2000), (5, 1)]) 0x2000 = some 0x80C3F1A5 := by decide
theorem test_sthio : memAfter (.sthio 5 4 2) (cpuMem [(4, 0x2000), (5, 0xDEADBEEF)]) 0x2000 = some 0xBEEFF1A5 := by decide
theorem test_stb : memAfter (.stb 5 4 1) (cpuMem [(4, 0x2000), (5, 0xDEADBEEF)]) 0x2000 = some 0x80C3EFA5 := by decide
theorem test_stbio : memAfter (.stbio 5 4 7) (cpuMem [(4, 0x2000), (5, 0xDEADBEEF)]) 0x2004 = some 0xEF223344 := by decide
theorem test_and : regPc (.and 3 1 2) (cpu [(1, 0xF0F0F0F0), (2, 0xFF00FF00)]) 3 = some (0xF000F000, 0x1004) := by decide
theorem test_or : regPc (.or 3 1 2) (cpu [(1, 0xF0F0F0F0), (2, 0xFF00FF00)]) 3 = some (0xFFF0FFF0, 0x1004) := by decide
theorem test_xor : regPc (.xor 3 1 2) (cpu [(1, 0xF0F0F0F0), (2, 0xFF00FF00)]) 3 = some (0x0FF00FF0, 0x1004) := by decide
theorem test_nor : regPc (.nor 3 1 2) (cpu [(1, 0xF0F0F0F0), (2, 0xFF00FF00)]) 3 = some (0x000F000F, 0x1004) := by decide
theorem test_andi : regPc (.andi 3 1 0xFFFF) (cpu [(1, 0x12348765)]) 3 = some (0x00008765, 0x1004) := by decide
theorem test_ori : regPc (.ori 3 1 0x8000) (cpu [(1, 0x12340000)]) 3 = some (0x12348000, 0x1004) := by decide
theorem test_xori : regPc (.xori 3 1 0xFFFF) (cpu [(1, 0x12348765)]) 3 = some (0x1234789A, 0x1004) := by decide
theorem test_andhi : regPc (.andhi 3 1 0xFFFF) (cpu [(1, 0x12348765)]) 3 = some (0x12340000, 0x1004) := by decide
theorem test_orhi : regPc (.orhi 3 1 0x8000) (cpu [(1, 0x1234)]) 3 = some (0x80001234, 0x1004) := by decide
theorem test_xorhi : regPc (.xorhi 3 1 0xFFFF) (cpu [(1, 0x12348765)]) 3 = some (0xEDCB8765, 0x1004) := by decide
theorem test_addi : regPc (.addi 3 1 0xFFFF) (cpu [(1, 0)]) 3 = some (0xFFFFFFFF, 0x1004) := by decide
theorem test_muli : regPc (.muli 3 1 0xFFFE) (cpu [(1, 0x40000001)]) 3 = some (0x7FFFFFFE, 0x1004) := by decide
theorem test_add : regPc (.add 3 1 2) (cpu [(1, 0xFFFFFFFF), (2, 1)]) 3 = some (0, 0x1004) := by decide
theorem test_sub : regPc (.sub 3 1 2) (cpu [(1, 0), (2, 1)]) 3 = some (0xFFFFFFFF, 0x1004) := by decide
theorem test_mul : regPc (.mul 3 1 2) (cpu [(1, 0x12345678), (2, 0x9ABCDEF0)]) 3 = some (0x242D2080, 0x1004) := by decide
theorem test_mulxuu : regPc (.mulxuu 3 1 2) (cpu [(1, 0x12345678), (2, 0x9ABCDEF0)]) 3 = some (0x0B00EA4E, 0x1004) := by decide
theorem test_mulxss : regPc (.mulxss 3 1 2) (cpu [(1, 0x80000000), (2, 0x7FFFFFFF)]) 3 = some (0xC0000000, 0x1004) := by decide
theorem test_mulxsu : regPc (.mulxsu 3 1 2) (cpu [(1, 0xFFFFFFFF), (2, 0xFFFFFFFF)]) 3 = some (0xFFFFFFFF, 0x1004) := by decide
theorem test_div : regPc (.div 3 1 2) (cpu [(1, 0xFFFFFFF9), (2, 2)]) 3 = some (0xFFFFFFFD, 0x1004) := by decide
theorem test_divu : regPc (.divu 3 1 2) (cpu [(1, 0x80000000), (2, 0xFFFFFFFF)]) 3 = some (0, 0x1004) := by decide
theorem test_add_r0 : regPc (.add 0 1 2) (cpu [(1, 5), (2, 6)]) 0 = some (0, 0x1004) := by decide
theorem test_div_overflow : entry (.div 3 1 2) (cpu [(1, 0x80000000), (2, 0xFFFFFFFF)]) = some (0x20, 0, 0x1004, 0x20) := by decide
theorem test_divu_zero : entry (.divu 3 1 2) (cpu [(1, 5)]) = some (0x20, 0, 0x1004, 0x20) := by decide
theorem test_cmpeq : regPc (.cmpeq 3 1 2) (cpu [(1, 0xFFFFFFFF), (2, 1)]) 3 = some (0, 0x1004) := by decide
theorem test_cmpne : regPc (.cmpne 3 1 2) (cpu [(1, 0xFFFFFFFF), (2, 1)]) 3 = some (1, 0x1004) := by decide
theorem test_cmpge : regPc (.cmpge 3 1 2) (cpu [(1, 0xFFFFFFFF), (2, 1)]) 3 = some (0, 0x1004) := by decide
theorem test_cmpgeu : regPc (.cmpgeu 3 1 2) (cpu [(1, 0xFFFFFFFF), (2, 1)]) 3 = some (1, 0x1004) := by decide
theorem test_cmplt : regPc (.cmplt 3 1 2) (cpu [(1, 0xFFFFFFFF), (2, 1)]) 3 = some (1, 0x1004) := by decide
theorem test_cmpltu : regPc (.cmpltu 3 1 2) (cpu [(1, 0xFFFFFFFF), (2, 1)]) 3 = some (0, 0x1004) := by decide
theorem test_cmpeqi : regPc (.cmpeqi 3 1 0xFFFF) (cpu [(1, 0xFFFFFFFF)]) 3 = some (1, 0x1004) := by decide
theorem test_cmpnei : regPc (.cmpnei 3 1 0xFFFF) (cpu [(1, 0xFFFF)]) 3 = some (1, 0x1004) := by decide
theorem test_cmpgei : regPc (.cmpgei 3 1 0xFFFF) (cpu [(1, 0xFFFFFFFE)]) 3 = some (0, 0x1004) := by decide
theorem test_cmplti : regPc (.cmplti 3 1 0x8000) (cpu [(1, 0xFFFF7FFF)]) 3 = some (1, 0x1004) := by decide
theorem test_cmpgeui : regPc (.cmpgeui 3 1 0xFFFF) (cpu [(1, 0xFFFF)]) 3 = some (1, 0x1004) := by decide
theorem test_cmpltui : regPc (.cmpltui 3 1 0x8000) (cpu [(1, 0x7FFF)]) 3 = some (1, 0x1004) := by decide
theorem test_sll : regPc (.sll 3 1 2) (cpu [(1, 0x80000001), (2, 0x3F)]) 3 = some (0x80000000, 0x1004) := by decide
theorem test_srl : regPc (.srl 3 1 2) (cpu [(1, 0x80000001), (2, 1)]) 3 = some (0x40000000, 0x1004) := by decide
theorem test_sra : regPc (.sra 3 1 2) (cpu [(1, 0x80000001), (2, 1)]) 3 = some (0xC0000000, 0x1004) := by decide
theorem test_rol : regPc (.rol 3 1 2) (cpu [(1, 0x80000001), (2, 0x3F)]) 3 = some (0xC0000000, 0x1004) := by decide
theorem test_ror : regPc (.ror 3 1 2) (cpu [(1, 0x80000001), (2, 0x3F)]) 3 = some (0x00000003, 0x1004) := by decide
theorem test_slli : regPc (.slli 3 1 4) (cpu [(1, 0xF000000F)]) 3 = some (0x000000F0, 0x1004) := by decide
theorem test_srli : regPc (.srli 3 1 4) (cpu [(1, 0xF000000F)]) 3 = some (0x0F000000, 0x1004) := by decide
theorem test_srai : regPc (.srai 3 1 4) (cpu [(1, 0xF000000F)]) 3 = some (0xFF000000, 0x1004) := by decide
theorem test_roli : regPc (.roli 3 1 4) (cpu [(1, 0xF000000F)]) 3 = some (0x000000FF, 0x1004) := by decide
theorem test_call : regPc (.call 0x3FFFFFF) { cpu [] with pc := 0x10001000 } 31 = some (0x10001004, 0x1FFFFFFC) := by decide
theorem test_callr_ra : regPc (.callr 31) (cpu [(31, 0x3000)]) 31 = some (0x1004, 0x3000) := by decide
theorem test_callr_misaligned : entry (.callr 4) (cpu [(4, 0x3002), (31, 0x77)]) = some (0x20, 0, 0x1004, 0x1C) := by decide
theorem test_ret : regPc (.ret) (cpu [(31, 0x2468)]) 31 = some (0x2468, 0x2468) := by decide
theorem test_jmp : regPc (.jmp 4) (cpu [(4, 0xFFFFFFFC)]) 31 = some (0, 0xFFFFFFFC) := by decide
theorem test_jmpi : regPc (.jmpi 0x800) (cpu [(31, 0x77)]) 31 = some (0x77, 0x2000) := by decide
theorem test_br : regPc (.br 0x8000) (cpu []) 0 = some (0, 0xFFFF9004) := by decide
theorem test_br_misaligned : entry (.br 2) (cpu []) = some (0x20, 0, 0x1004, 0x1C) := by decide
theorem test_beq : regPc (.beq 1 2 8) (cpu [(1, 5), (2, 5)]) 0 = some (0, 0x100C) := by decide
theorem test_bne : regPc (.bne 1 2 8) (cpu [(1, 5), (2, 6)]) 0 = some (0, 0x100C) := by decide
theorem test_bge : regPc (.bge 1 2 8) (cpu [(1, 0xFFFFFFFF), (2, 0)]) 0 = some (0, 0x1004) := by decide
theorem test_bgeu : regPc (.bgeu 1 2 8) (cpu [(1, 0xFFFFFFFF), (2, 0)]) 0 = some (0, 0x100C) := by decide
theorem test_blt : regPc (.blt 1 2 8) (cpu [(1, 0xFFFFFFFF), (2, 0)]) 0 = some (0, 0x100C) := by decide
theorem test_bltu : regPc (.bltu 1 2 8) (cpu [(1, 0xFFFFFFFF), (2, 0)]) 0 = some (0, 0x1004) := by decide
theorem test_beq_untaken_misaligned : regPc (.beq 1 2 6) (cpu [(1, 5), (2, 6)]) 0 = some (0, 0x1004) := by decide
theorem test_nextpc : regPc (.nextpc 3) (cpu []) 3 = some (0x1004, 0x1004) := by decide
theorem test_trap : entry (.trap 5) { cpu [(29, 0xAAAA0000)] with status := 1 } = some (0x20, 1, 0x1004, 0x0C) := by decide
theorem test_eret :
    after .eret { cpu [(29, 0x2004)] with estatus := 1 } (fun t => (t.pc, t.status)) = some (0x2004, 1) := by decide
theorem test_eret_misaligned :
    after .eret { cpu [(29, 0x2006)] with pc := 0x40, estatus := 1 } (fun t => (t.pc, t.status, t.estatus, t.badaddr)) =
      some (0x20, 0, 0, 0x2006) := by decide
theorem test_break :
    after (.brk 0) { cpu [] with status := 1 } (fun t => (t.pc, t.status, t.bstatus, t.reg baReg, t.inDebug)) =
      some (0x800, 0, 1, 0x1004, true) := by decide
theorem test_bret :
    after .bret { cpu [(30, 0x1004)] with pc := 0x800, bstatus := 1, inDebug := true }
      (fun t => (t.pc, t.status, t.inDebug)) = some (0x1004, 1, false) := by decide
theorem test_rdctl_ipending :
    regPc (.rdctl 3 4) { cpu [] with ienable := 5, inputs := { Inputs.quiet with irq := 0xA } } 3 = some (0, 0x1004) := by
  decide
theorem test_wrctl_status : after (.wrctl 0 2) (cpu [(2, 7)]) (fun t => t.status) = some 1 := by decide

/-- The state of 95_test_vectors.md section 2.8, with one more TLB entry at a position if given. -/
def cpuMmu (status : Word) (regs : List (Reg × Word)) (extra : Option (Nat × TlbEntry)) : State :=
  let one : TlbEntry := { tag := 0, pid := 0, g := false, pfn := 1, c := true, r := true, w := true, x := true }
  let tlb := (State.resetWith mmuConfig).tlb.set 16 one
  let s := regs.foldl (fun s p => s.setReg p.1 p.2) { State.resetWith mmuConfig with pc := 0x1000#32, status := status }
  { s with tlb := match extra with
      | some (i, e) => tlb.set i e
      | none => tlb }

/-- pc, status, estatus, ea, exception, pteaddr, tlbmisc: what an entry leaves with an MMU. -/
def entryMmu (i : Instr) (s : State) : Option (Word × Word × Word × Word × Word × Word × Word) :=
  after i s fun t => (t.pc, t.status, t.estatus, t.reg eaReg, t.exceptionReg, t.pteaddr, t.tlbmisc)

theorem test_mmu_user_rdctl :
    entryMmu (.rdctl 3 0) (cpuMmu 2 [] none) = some (0xC0000020, 4, 2, 0x1004, 0x28, 0, 0) := by decide
theorem test_mmu_supervisor_address :
    entryMmu (.ldw 5 4 0) (cpuMmu 2 [(4, 0xC0000002)] none) = some (0xC0000020, 4, 2, 0x1004, 0x2C, 0, 5) := by decide
theorem test_mmu_fast_miss :
    entryMmu (.ldw 5 4 0) { cpuMmu 3 [(4, 0x5004)] none with pteaddr := 0xC0400000 } =
      some (0xC0000100, 4, 3, 0x1004, 0x30, 0xC0400014, 0x40001) := by decide
theorem test_mmu_double_miss :
    entryMmu (.ldw 24 24 0)
        { cpuMmu 4 [(24, 0x7014), (29, 0x1004)] none with
          pc := 0xC0000100, estatus := 3, pteaddr := 0xC0400014, tlbmisc := 0x40001 } =
      some (0xC0000020, 4, 3, 0x1004, 0x30, 0xC0400014, 0x40009) := by decide
theorem test_mmu_fetch_execute :
    (match step { cpuMmu 1 [] (some (16, ⟨0, 0, false, 1, true, true, true, false⟩)) with pteaddr := 0xC0400000 } with
      | .next t => some (t.pc, t.exceptionReg, t.pteaddr, t.tlbmisc)
      | _ => none) = some (0xC0000020, 0x34, 0xC0400004, 0x40002) := by decide
theorem test_mmu_write_permission :
    entryMmu (.stb 5 4 0)
        { cpuMmu 1 [(4, 0x2010)] (some (32, ⟨0, 0, false, 2, true, true, false, true⟩)) with pteaddr := 0xC0400000 } =
      some (0xC0000020, 4, 1, 0x1004, 0x3C, 0xC0400008, 0x40003) := by decide
theorem test_mmu_flushda :
    after (.flushda 4 0) (cpuMmu 1 [(4, 0x2010)] (some (32, ⟨0, 0, false, 2, true, false, false, true⟩))) (fun t => t.pc) =
      some 0x1004 := by decide
theorem test_mmu_initda_user :
    entryMmu (.initda 4 0) (cpuMmu 2 [(4, 0x80000000)] none) =
      some (0xC0000100, 4, 2, 0x1004, 0x30, 0x00200000, 0x40001) := by decide
theorem test_mmu_double_match :
    faults (.ldw 5 4 0) (cpuMmu 1 [(4, 0x1000)] (some (17, ⟨0, 0, true, 1, true, true, true, true⟩))) .multipleTlbMatch =
      true := by decide
theorem test_mmu_tlb_write :
    after (.wrctl 9 2) { cpuMmu 0 [(2, 0x01700777)] none with pteaddr := 0x48D14, tlbmisc := 0x340AB0 }
        (fun t => (t.tlbacc, t.tlbmisc, t.tlb[5 * 16 + 3]?)) =
      some (0x01700777, 0x440AB0, some ⟨0x2468, 0xAB, true, 0x777, true, false, true, true⟩) := by decide
theorem test_mmu_tlb_read :
    after (.wrctl 10 2)
        { cpuMmu 0 [(2, 0x380000)] (some (83, ⟨0x2468, 0xAB, true, 0x777, true, false, true, true⟩)) with pteaddr := 0x14 }
        (fun t => (t.pteaddr, t.tlbacc, t.tlbmisc)) = some (0x48D14, 0x01700777, 0x300AB0) := by decide

/-- The regions of 95_test_vectors.md section 2.9. -/
def regions29 : MpuTables where
  instr := [⟨0x40, 0x1FFFFC0, false, 2⟩, ⟨0, 0x1FFFC00, false, 1⟩]
  data := [⟨0x201, 0x1FFFFFF, false, 0⟩, ⟨0x200, 0x1FFFFC0, true, 5⟩, ⟨0, 0x1FFFC00, false, 4⟩]

/-- The state of 95_test_vectors.md section 2.9, MPU enabled. -/
def cpuMpu (status : Word) (regs : List (Reg × Word)) : State :=
  regs.foldl (fun s p => s.setReg p.1 p.2)
    { State.resetWith mpuConfig with pc := 0x1000#32, status := status, configReg := 1, mpu := regions29 }

/-- pc, exception, badaddr: what a region violation leaves. -/
def violation (i : Instr) (s : State) : Option (Word × Word × Word) :=
  after i s fun t => (t.pc, t.exceptionReg, t.badaddr)

theorem test_mpu_user_store : violation (.stw 5 4 0) (cpuMpu 2 [(4, 0x8000)]) = some (0x20, 0x44, 0x8000) := by decide
theorem test_mpu_supervisor_store :
    memAfter (.stw 5 4 0) (cpuMpu 0 [(4, 0x8000), (5, 0x99)]) 0x8000 = some 0x99 := by decide
theorem test_mpu_hole : violation (.ldbu 5 4 0) (cpuMpu 0 [(4, 0x80008041)]) = some (0x20, 0x44, 0x8041) := by decide
theorem test_mpu_no_region : violation (.initda 4 0) (cpuMpu 0 [(4, 0x20000)]) = some (0x20, 0x44, 0x20000) := by decide
theorem test_mpu_flushda : after (.flushda 4 0) (cpuMpu 2 [(4, 0x8040)]) (fun t => t.pc) = some 0x1004 := by decide
theorem test_mpu_debug :
    after (.ldw 5 4 0) { cpuMpu 0 [(4, 0x8040)] with inDebug := true } (fun t => t.pc) = some 0x1004 := by decide
theorem test_mpu_read_region :
    after (.wrctl 15 2) { cpuMpu 0 [(2, 2)] with mpubase := 3 } (fun t => (t.mpubase, t.mpuacc)) =
      some (0x8003, 0x7FFFF034) := by decide
theorem test_mpu_read_and_write : faults (.wrctl 15 2) (cpuMpu 0 [(2, 3)]) .readAndWriteRegion = true := by decide

theorem test_mpu_instruction_region_c :
    regPc (.rdctl 5 15) { cpuMpu 0 [] with mpubase := 2, mpuacc := 0x3C } 5 = some (0x1C, 0x1004) ∧
      regPc (.rdctl 5 15) { cpuMpu 0 [] with mpubase := 3, mpuacc := 0x3C } 5 = some (0x3C, 0x1004) := by decide

/-- A state with memory below 0x8000 and a peripheral above. -/
def cpuDevice (regs : List (Reg × Word)) : State :=
  { cpu regs with
    config := { Config.reference with
      memoryMap := [{ base := 0, size := 0x8000, target := .memory }, { base := 0x8000, size := 16, target := .peripheral }] } }

theorem test_device_store :
    after (.stwio 5 4 0) (cpuDevice [(4, 0x8000), (5, 0x99)]) (fun t => (t.pc, t.memory, t.deviceCycles)) =
      some (0x1004, [], [⟨0x8000, 4, true, 0x99⟩]) := by decide
theorem test_device_load :
    after (.ldhio 5 4 2) (cpuDevice [(4, 0x8000)]) (fun t => (t.pc, t.deviceCycles.map fun c => (c.addr, c.bytes, c.write))) =
      some (0x1004, [(0x8002, 2, false)]) := by decide
theorem test_device_plain :
    after (.stw 5 4 0) (cpuDevice [(4, 0x8000), (5, 0x99)]) (fun t => (t.pc, t.memory, t.deviceCycles)) =
      some (0x1004, [], []) := by decide
theorem test_unmapped : faults (.ldbuio 5 4 16) (cpuDevice [(4, 0x8000)]) .unmappedAddress = true := by decide

/-- A state with a small data cache that holds a dirty line: 0xAA at 0x2000, index 0 of 16 lines of 16 bytes. -/
def cpuCache (regs : List (Reg × Word)) : State :=
  { cpu regs with
    config := { Config.reference with dcache := some { wordsLog2 := 2, linesLog2 := 4 } }
    dcache := [{ index := 0, base := 0x2000#32, bytes := [(0x2000, 0xAA)], dirty := true, origin := .memory }] }

theorem test_flushd :
    after (.flushd 4 0) (cpuCache [(4, 0x100)]) (fun t => (t.memory, t.dcache)) = some ([(0x2000, 0xAA)], []) := by decide
theorem test_flushda_other :
    after (.flushda 4 0) (cpuCache [(4, 0x3000)]) (fun t => (t.memory, t.dcache.length)) = some ([], 1) := by decide
theorem test_initd : after (.initd 4 0) (cpuCache [(4, 0x100)]) (fun t => (t.memory, t.dcache)) = some ([], []) := by decide
theorem test_initda : after (.initda 4 0) (cpuCache [(4, 0x2004)]) (fun t => (t.memory, t.dcache)) = some ([], []) := by
  decide
theorem test_cached_load : regPc (.ldbu 5 4 0) (cpuCache [(4, 0x2000)]) 5 = some (0xAA, 0x1004) := by decide
theorem test_bypassing_load : regPc (.ldbuio 5 4 0) (cpuCache [(4, 0x2000)]) 5 = some (0, 0x1004) := by decide
/-- `cpuCache` with its line under index 1: another colour of the same physical address (20_memory.md R117). -/
def cpuAlias (origin : LineOrigin) : State :=
  { cpuCache [(4, 0x2000)] with
    dcache := [{ index := 1, base := 0x2000#32, bytes := [(0x2000, 0xAA)], dirty := true, origin := origin }] }

theorem test_alias :
    faults (.ldw 5 4 0) (cpuAlias .memory) .virtualAlias = true ∧ aliased (cpuAlias .reset).dcache 0 0x2000 = false := by
  decide
theorem test_reset_line_not_written_back :
    (cacheEvent (cpuAlias .reset) (.evictData 1 0x2000)).memory = [] ∧
      (cacheEvent (cpuAlias .memory) (.evictData 1 0x2000)).memory = [(0x2000, 0xAA)] := by decide
theorem test_flushi : after (.flushi 4) (cpu [(4, 0x100)]) (fun t => t.pc) = some 0x1004 := by decide
theorem test_initi_user : after (.initi 4) (cpuMpu 2 []) (fun t => t.exceptionReg) = some 0x28 := by decide
theorem test_flushp :
    after .flushp { cpuMpu 0 [] with mpuStale := some regions29, prefetched := [⟨0x1004, 0x1004, 0⟩] }
      (fun t => (t.pc, t.mpuStale, t.prefetched)) = some (0x1004, none, []) := by decide
theorem test_wrctl_reserved :
    after (.wrctl 12 4) { cpu [] with config := { Config.reference with extraExcInfoOption := false }, prefetched := [⟨0, 0, 0⟩] }
      (fun t => (t.pc, t.prefetched.length)) = some (0x1004, 1) := by decide
theorem test_sync : after .sync (cpu []) (fun t => t.pc) = some 0x1004 := by decide
theorem test_custom_absent :
    (match exec (.custom 5 2 3 4 true true true)
        { cpu [] with config := { Config.reference with customPresent := 0 } } with
      | .refused r => r == .absentCustom
      | _ => false) = true := by decide
theorem test_custom :
    (after (.custom 5 2 3 4 true true true) (cpu [(3, 7), (4, 9)]) fun t => t.reg 2) =
      some (Config.customFunction 5 7 9 3 4 2 true true true { registers := Vector.replicate 32 0, inner := 0 }).1 := by
  rfl

/-! ## Steps: fetching, the order of events at a boundary, and loading a word. -/

/-- pc, estatus, ea, exception and r3 after a step. -/
def stepped (s : State) : Option (Word × Word × Word × Word × Word) :=
  match step s with
  | .next t => some (t.pc, t.estatus, t.reg eaReg, t.exceptionReg, t.reg 3)
  | _ => none

/-- The state of 95_test_vectors.md section 2.7 with `addi r3, r3, 1` at 0x1000. -/
def cpuIrq (status irq : Word) : State :=
  ({ cpu [] with status := status, ienable := 0x10, inputs := { Inputs.quiet with irq := irq } }).withFetchWord 32 0x18C00044

theorem test_interrupt_taken : stepped (cpuIrq 1 0x10) = some (0x20, 1, 0x1004, 0x08, 0) := by decide
theorem test_interrupt_off : stepped (cpuIrq 0 0x10) = some (0x1004, 0, 0, 0, 1) := by decide
theorem test_interrupt_disabled_line : stepped (cpuIrq 1 0x01) = some (0x1004, 0, 0, 0, 1) := by decide
theorem test_step_illegal : stepped ((cpu []).withFetchWord 32 0x0000003A) = some (0x20, 0, 0x1004, 0x14, 0) := by decide
theorem test_step_prefetched :
    stepped { (cpu []).withFetchWord 32 0x18C00044 with prefetched := [⟨0x1000, 0x1000, 0x18C00084⟩] } =
        some (0x1004, 0, 0, 0, 2) ∧
      stepped { (cpu []).withFetchWord 32 0x18C00044 with prefetched := [⟨0x9000, 0x1000, 0x18C00084⟩] } =
        some (0x1004, 0, 0, 0, 1) := by decide
theorem test_step_from_reset :
    (match step (State.reset.withFetchWord 32 0x00BFFFC4) with
      | .next t => some (t.reg 2, t.pc, t.tick)
      | _ => none) = some (0xFFFFFFFF#32, 4#32, 1) := by decide
theorem test_step_nonCanonical :
    (match step ((cpu []).withFetchWord 32 0x0887887A) with
      | .refused r => r == .nonCanonicalEncoding
      | _ => false) = true := by decide
theorem test_reset_input :
    (match step { cpu [] with status := 1, inputs := { Inputs.quiet with reset := true } } with
      | .next t => some (t.pc, t.status, t.configReg)
      | _ => none) = some (0, 0, 0) := by decide
theorem test_decodeTableWord : decodeTableWord 32 0x0887883A = some (.add 3 1 2) := by decide

/-! ## Witnesses: a state and operands that meet the hypotheses of each statement, for each of its clauses. -/

open Sys2Proof.Statements

/-- A processor without the checks and without the optional instructions. -/
def bare : Config :=
  { Config.reference with
    illegalMemOption := false, illegalInsnOption := false, divErrorOption := false, extraExcInfoOption := false }

/-- A processor without the multiplier, the divider and `initda`. -/
def noUnits : Config := { bare with hwMul := false, hwMulx := false, hwDiv := false, hwInitda := false }

/-- No way of the line holds the tag. -/
theorem noWay {m : MmuConfig} {s : State} {va : Word}
    (h : ∀ w, w < m.tlbWays → (s.tlb[va.toNat / 4096 % (m.tlbEntries / m.tlbWays) * m.tlbWays + w]?).all
      (fun e => e.tag.toNat != va.toNat / 4096 / (m.tlbEntries / m.tlbWays)) = true) : ∀ w e, ¬WayMatches m s va w e := by
  rintro w e ⟨hw, he, ht, -⟩
  have := h w hw
  rw [he] at this
  simp [ht] at this

/-- One way of the line holds the tag. -/
theorem oneWay {m : MmuConfig} {s : State} {va : Word} {w : Nat} {e : TlbEntry} (hw : WayMatches m s va w e)
    (h : ∀ x, x < m.tlbWays → x ≠ w → (s.tlb[va.toNat / 4096 % (m.tlbEntries / m.tlbWays) * m.tlbWays + x]?).all
      (fun e => e.tag.toNat != va.toNat / 4096 / (m.tlbEntries / m.tlbWays)) = true) : OnlyWay m s va w e := by
  refine ⟨hw, ?_⟩
  rintro x e' ⟨hx, he, ht, -⟩
  by_contra hne
  have := h x hx hne
  rw [he] at this
  simp [ht] at this

/-- A state at a boundary with a word to run. -/
def ready (w : Nat) : State := (cpu []).withFetchWord 32 w

theorem witness_EncodeOfDecode : decode 0x0887883A#32 = .ok (.add 3 1 2) ∧ decode 0xF03C483A#32 = .ok .bret := by decide
theorem witness_StepFetches_memory :
    RunsInstruction (ready 0x18C00044) ∧ (ready 0x18C00044).config.icache = none ∧ fetchAddr (ready 0x18C00044) = .ok 0x1000 ∧
      (∀ f ∈ (ready 0x18C00044).prefetched, ¬(f.va = (ready 0x18C00044).pc ∧ f.addr = 0x1000)) ∧
      allMemory (ready 0x18C00044).config (0x1000 : Word).toNat 4 = true ∧
      decode (wordAt (ready 0x18C00044).memory (0x1000 : Word).toNat) = .ok (.addi 3 3 1) :=
  ⟨⟨by decide, by decide, by decide, by decide, by decide⟩, by decide, by decide, by decide, by decide, by decide⟩
theorem witness_StepFetches_ahead :
    RunsInstruction { ready 0 with prefetched := [⟨0x1000, 0x1000, 0x18C00044⟩] } ∧
      [FetchedWord.mk 0x1000 0x1000 0x18C00044].find? (fun f => f.va == (ready 0).pc && f.addr == 0x1000) =
        some ⟨0x1000, 0x1000, 0x18C00044⟩ ∧
      decode 0x18C00044 = .ok (.addi 3 3 1) :=
  ⟨⟨by decide, by decide, by decide, by decide, by decide⟩, by decide, by decide⟩

/-- The geometry of `cpuCache` and `cachedCode`. -/
def small : CacheGeometry := { wordsLog2 := 2, linesLog2 := 4 }

/-- A state whose instruction cache holds a word that memory does not hold. -/
def cachedCode : State :=
  { cpu [] with
    config := { Config.reference with icache := some { wordsLog2 := 2, linesLog2 := 4 } }
    icache := [{
      index := 0, base := 0x1000#32, bytes := Memory.writeLE [] 0x1000 4 0x18C00044, dirty := false, origin := .memory }] }
theorem witness_StepFetches_cache :
    RunsInstruction cachedCode ∧ cachedCode.config.icache = some small ∧
      fetchAddr cachedCode = .ok 0x1000 ∧
      findLine cachedCode.icache (cacheIndex small cachedCode.pc) (lineBase small 0x1000) = cachedCode.icache[0]? ∧
      (cachedCode.icache[0]?).map (fun l => decode (wordAt l.bytes (0x1000 : Word).toNat)) = some (.ok (.addi 3 3 1)) :=
  ⟨⟨by decide, by decide, by decide, by decide, by decide⟩, by decide, by decide, by decide, by decide⟩
theorem witness_StepFetches_miss :
    findLine cachedCode.icache (cacheIndex small 0x1010) (lineBase small 0x1010) = none ∧
      allMemory cachedCode.config (0x1010 : Word).toNat 4 = true ∧
      decode (wordAt (Memory.writeLE [] 0x1010 4 0x18C00044) (0x1010 : Word).toNat) = .ok (.addi 3 3 1) := by decide
theorem witness_ResetState : ({ cpu [] with inputs := { Inputs.quiet with reset := true } } : State).inputs.reset = true := by
  decide
theorem witness_ResetInvariant : Config.reference.valid = true ∧ mmuConfig.valid = true ∧ mpuConfig.valid = true := by decide
theorem witness_StepKeepsInvariant : (ready 0x18C00044).Inv ∧ ∃ t, step (ready 0x18C00044) = .next t :=
  ⟨⟨by decide, by decide, by decide, by decide, by decide, by decide, by decide, by decide, by decide, by decide,
    ⟨rfl, rfl, by decide⟩, trivial⟩, _, rfl⟩
theorem witness_RegisterFile : (31#5 : Reg) ≠ 0#5 := by decide

/-- A load or store at the last bytes of memory, through a base register above it. -/
theorem witness_LoadResults :
    ReachesMemory .load 4 false ((cpu [(4, 0x80000000)]).reg 4 + (0xFFFC#16).signExtend 32) (cpu [(4, 0x80000000)])
      0x7FFFFFFC true ∧
    ReachesMemory .load 2 false 0x7FFFFFFE (cpu []) 0x7FFFFFFE true ∧
    ReachesMemory .load 1 false 0xFFFFFFFF (cpu []) 0x7FFFFFFF false ∧
    ReachesMemory .load 4 true 0x2000 (cpuCache []) 0x2000 true ∧ ReachesMemory .load 2 true 0x2002 (cpuCache []) 0x2002 true ∧
    ReachesMemory .load 1 true 0x2003 (cpuCache []) 0x2003 true :=
  ⟨⟨by decide, by decide, by decide⟩, ⟨by decide, by decide, by decide⟩, ⟨by decide, by decide, by decide⟩,
    ⟨by decide, by decide, by decide⟩, ⟨by decide, by decide, by decide⟩, ⟨by decide, by decide, by decide⟩⟩
theorem witness_StoreResults :
    (cpuMem []).memory.wf = true ∧
    ReachesMemory .store 4 false ((cpuMem [(4, 0x80000000)]).reg 4 + (0xFFFC#16).signExtend 32) (cpuMem [(4, 0x80000000)])
      0x7FFFFFFC true ∧
    ReachesMemory .store 2 false 0x7FFFFFFE (cpuMem []) 0x7FFFFFFE true ∧
    ReachesMemory .store 1 false 0xFFFFFFFF (cpuMem []) 0x7FFFFFFF false ∧
    ReachesMemory .store 4 true 0x2000 (cpuCache []) 0x2000 true ∧
    ReachesMemory .store 2 true 0x2002 (cpuCache []) 0x2002 true ∧ ReachesMemory .store 1 true 0x2003 (cpuCache []) 0x2003 true :=
  ⟨by decide, ⟨by decide, by decide, by decide⟩, ⟨by decide, by decide, by decide⟩, ⟨by decide, by decide, by decide⟩,
    ⟨by decide, by decide, by decide⟩, ⟨by decide, by decide, by decide⟩, ⟨by decide, by decide, by decide⟩⟩
/-- No access has cached the line of this access under another index. -/
theorem reaches {k : AccessKind} {n : Nat} {ea pa : Word} {s : State} {g : CacheGeometry}
    (ha : dataAddr k n ea s = .ok (pa, true)) (hm : allMemory s.config pa.toNat n = true) (hc : s.config.dcache = some g)
    (h : (s.dcache.all fun l => l.base != lineBase g pa || l.index == cacheIndex g ea || l.origin == .reset) = true) :
    ReachesCache k n ea s pa g :=
  ⟨ha, hm, hc, fun l hl hb hi => by simpa [hb, hi] using List.all_eq_true.1 h l hl⟩
theorem witness_CachedLoads :
    ReachesCache .load 4 ((cpuCache [(4, 0x2000)]).reg 4 + (0xC#16).signExtend 32) (cpuCache [(4, 0x2000)]) 0x200C small ∧
    (findLine (cpuCache []).dcache (cacheIndex small 0x200C) (lineBase small 0x200C)).isSome = true ∧
    ReachesCache .load 2 0x2010 (cpuCache []) 0x2010 small ∧ ReachesCache .load 1 0x2011 (cpuCache []) 0x2011 small ∧
    findLine (cpuCache []).dcache (cacheIndex small 0x2010) (lineBase small 0x2010) = none ∧
    ReachesCache .load 4 0x2000 (cpuAlias .reset) 0x2000 small :=
  ⟨reaches (by decide) (by decide) (by decide) (by decide), by decide,
    reaches (by decide) (by decide) (by decide) (by decide), reaches (by decide) (by decide) (by decide) (by decide),
    by decide, reaches (by decide) (by decide) (by decide) (by decide)⟩

/-- The invariant of `cpuCache`. -/
theorem cpuCache_inv : (cpuCache []).Inv :=
  ⟨by decide, by decide, by decide, by decide, by decide, by decide, by decide, by decide, by decide, by decide,
    ⟨⟨by rintro l (_ | ⟨_, ⟨⟩⟩); exact ⟨by decide, by decide, by decide, by decide⟩, List.pairwise_singleton _ _⟩, rfl, by decide⟩, trivial⟩
theorem witness_StepRunsInstruction :
    RunsInstruction (ready 0x18C00044) ∧ fetchWord (ready 0x18C00044) = .ok (0x18C00044, ready 0x18C00044) ∧
      decode 0x18C00044 = .ok (.addi 3 3 1) ∧ (cpu []).config.icache = none ∧ (cpu []).config.dcache = none ∧
      (cpuCache []).Inv ∧ NotDirty small (cpuCache []) 0x2010 ∧
      ∃ l ∈ (cpuCache []).dcache, l.dirty = true ∧ ∀ k ∈ (cpuCache []).dcache, k.dirty = true → k.base = l.base → k = l :=
  ⟨⟨by decide, by decide, by decide, by decide, by decide⟩, by decide, by decide, by decide, by decide, cpuCache_inv,
    by unfold NotDirty; decide, by decide⟩
theorem witness_CachedStoreThenLoad :
    (cpuCache []).Inv ∧
    ReachesCache .store 4 0x200C (cpuCache []) 0x200C small ∧ ReachesCache .load 4 0x200C (cpuCache []) 0x200C small ∧
    ReachesCache .store 2 0x2010 (cpuCache []) 0x2010 small ∧ ReachesCache .load 2 0x2010 (cpuCache []) 0x2010 small ∧
    ReachesCache .store 1 0x2013 (cpuCache []) 0x2013 small ∧ ReachesCache .load 1 0x2013 (cpuCache []) 0x2013 small :=
  ⟨cpuCache_inv, reaches (by decide) (by decide) (by decide) (by decide),
    reaches (by decide) (by decide) (by decide) (by decide), reaches (by decide) (by decide) (by decide) (by decide),
    reaches (by decide) (by decide) (by decide) (by decide), reaches (by decide) (by decide) (by decide) (by decide),
    reaches (by decide) (by decide) (by decide) (by decide)⟩
theorem witness_AccessExceptions :
    dataAddr .load 4 0x2001 (cpu []) = .error (.exc (.misalignedDataAddress 0x2001)) ∧
    dataAddr .load 2 0x2003 { cpu [] with config := bare } = .error (.fault .misalignedAccess) ∧
    dataAddr .store 1 0xFFFFFFFF (cpuMmu 2 [] none) = .error (.exc (.supervisorOnlyDataAddress 0xFFFFFFFF)) ∧
    dataAddr .load 1 0x5000 (cpuMmu 1 [] none) = .error (.exc (.tlbMissData 0x5000)) ∧
    dataAddr .flushda 1 0x1000 (cpuMmu 1 [] (some (17, ⟨0, 0, true, 1, true, true, true, true⟩))) =
      .error (.fault .multipleTlbMatch) := by decide
theorem witness_DataAddressPlain :
    (cpu []).config.protection = .none ∧ (0x2003#32).toNat % 2 ≠ 0 ∧ (0x7FFFFFFC#32).toNat % 4 = 0 ∧
    (cpu []).config.bit31Bypass = true ∧ ({ bare with bit31BypassOption := false } : Config).bit31Bypass = false := by decide
theorem witness_UnmappedAccess :
    dataAddr .load 4 0x8010 (cpuDevice []) = .ok (0x8010, true) ∧ dataAddr .store 2 0x800E (cpuDevice []) = .ok (0x800E, true) ∧
    (cpuDevice []).config.dcache = none ∧ targetAt (cpuDevice []).config (0x8010 + 0) = none ∧
    (∀ l ∈ (cpuCache []).dcache, l.base ≠ lineBase small 0x2010) ∧
    PeripheralAnswers (cpuDevice []).config 0x800E 2 ∧ PeripheralAnswers (cpuDevice []).config 0x8000 4 ∧
    PeripheralAnswers (cpuDevice []).config 0x800F 1 ∧ PeripheralAnswers (cpuDevice []).config 0x7FFE 4 ∧
    RunsInstruction { cpuDevice [] with pc := 0x8010 } ∧ fetchAddr { cpuDevice [] with pc := 0x8010 } = .ok 0x8010 ∧
    (cpuDevice []).config.icache = none ∧ ∀ f ∈ (cpuDevice []).prefetched, ¬(f.va = 0x8010 ∧ f.addr = 0x8010) :=
  ⟨by decide, by decide, by decide, by decide, by decide, ⟨by decide, 0, by decide, by decide⟩,
    ⟨by decide, 0, by decide, by decide⟩, ⟨by decide, 0, by decide, by decide⟩, ⟨by decide, 2, by decide, by decide⟩,
    ⟨by decide, by decide, by decide, by decide, by decide⟩, by decide, by decide, by decide⟩
theorem witness_OnlyStoresWriteMemory :
    ∃ t, exec (.add 3 1 2) (cpu [(1, 5)]) = .next t ∧
      ∀ (rB rA : Reg) imm, Instr.add 3 1 2 ≠ .stw rB rA imm ∧ Instr.add 3 1 2 ≠ .stwio rB rA imm ∧
        Instr.add 3 1 2 ≠ .stb rB rA imm ∧ Instr.add 3 1 2 ≠ .sth rB rA imm ∧ Instr.add 3 1 2 ≠ .stbio rB rA imm ∧
        Instr.add 3 1 2 ≠ .sthio rB rA imm ∧ Instr.add 3 1 2 ≠ .flushd rA imm ∧ Instr.add 3 1 2 ≠ .flushda rA imm :=
  ⟨_, rfl, by simp⟩
theorem witness_Multiply : Config.reference.hwMul = true ∧ noUnits.hwMul = false := by decide
theorem witness_MultiplyHigh : Config.reference.hwMulx = true ∧ noUnits.hwMulx = false := by decide
theorem witness_Division :
    noUnits.hwDiv = false ∧ bare.hwDiv = true ∧ bare.divErrorCheck = false ∧ Config.reference.divErrorCheck = true ∧
    (0x80000000#32).toInt = -2 ^ 31 ∧ (0xFFFFFFFF#32).toInt = -1 ∧ (0#32).toInt = 0 ∧ (0x80000001#32).toInt ≠ -2 ^ 31 := by
  decide
theorem witness_TransferOp :
    (0xFFFFFFFC#32).toNat % 4 = 0 ∧ (0xFFFFFFFE#32).toNat % 4 ≠ 0 ∧ Config.reference.illegalMemCheck = true ∧
      bare.illegalMemCheck = false := by decide
theorem witness_Branches :
    ((5#32).toInt ≥ (0xFFFFFFFF#32).toInt ∧ ¬(0xFFFFFFFF#32).toInt ≥ (0#32).toInt) ∧
      ((0#32).toNat < (1#32).toNat ∧ ¬(1#32).toNat < (1#32).toNat) ∧ ((1#32) = 1#32 ∧ ¬(1#32) = 2#32) := by decide
theorem witness_ExceptionEntry :
    mmuConfig.hasMmu = true ∧ bare.hasMmu = false ∧ bare.extraExcInfo = false ∧ Config.reference.extraExcInfo = true ∧
    (cpuMmu 4 [] none).eh = true ∧ (cpuMmu 1 [] none).eh = false := by decide
theorem witness_ExceptionInformation :
    Config.reference.extraExcInfo = true ∧ Config.reference.hasUserMode = false ∧ Config.reference.valid = true ∧
    mmuConfig.hasMmu = true ∧ mpuConfig.hasMpu = true ∧ mpuConfig.hasUserMode = true := by decide
theorem witness_Trap : (cpu []).nested = false ∧ (cpu []).config.extraExcInfo = true := by decide
theorem witness_supervisor :
    (cpu []).userForbidden = false ∧ (cpuMmu 4 [] none).userForbidden = false ∧ (cpuMpu 0 []).userForbidden = false := by
  decide
theorem witness_SupervisorOnly :
    (cpuMmu 2 [] none).config.hasUserMode = true ∧ (cpuMmu 2 [] none).user = true ∧ (cpuMpu 2 []).config.hasUserMode = true ∧
    (cpuMpu 2 []).user = true ∧ (cpuMpu 2 []).nested = false ∧ (cpuMmu 2 [] none).config.hasMmu = true := by decide
theorem witness_IllegalInstruction :
    RunsInstruction (ready 0x3A) ∧ fetchWord (ready 0x3A) = .ok (0x3A, ready 0x3A) ∧
    decode 0x3A#32 = .error (.undefinedOpx 0) ∧ decode 0x3F#32 = .error (.undefinedOp 0x3F) ∧
    Config.reference.illegalInsnCheck = true ∧ bare.illegalInsnCheck = false ∧
    0x3F#6 ∈ ({ bare with internalOps := [0x3F#6] } : Config).internalOps ∧ 0x3F#6 ∉ bare.internalOps :=
  ⟨⟨by decide, by decide, by decide, by decide, by decide⟩, by decide, by decide, by decide, by decide, by decide, by decide,
    by decide⟩
theorem witness_Interrupts :
    (cpuIrq 1 0x80000010).inputs.reset = false ∧ (cpuIrq 1 0x80000010).statusIllegal = false ∧
    (cpuIrq 1 0x80000010).breakRequested = false ∧ (cpuIrq 1 0x80000010).inputs.processorReset = false ∧
    (cpuIrq 1 0x80000010).status.getLsbD 0 = true ∧ (cpuIrq 1 0x80000010).inputs.irq.getLsbD 4 = true ∧
    (cpuIrq 1 0x80000010).ienable.getLsbD 4 = true ∧ (cpuIrq 0 0x10).status.getLsbD 0 = false := by decide
theorem witness_BoundaryEvents :
    (cpuMmu 6 [] none).inputs.reset = false ∧ (cpuMmu 6 [] none).status.getLsbD 2 = true ∧
    (cpuMmu 6 [] none).status.getLsbD 1 = true ∧ (cpu []).statusIllegal = false ∧ (cpu []).breakRequested = false ∧
    ({ Config.reference with hasDebug := true } : Config).hasDebug = true ∧
    RunsInstruction { cpuMmu 2 [] none with pc := 0x80000000 } ∧
    fetchAddr { cpuMmu 2 [] none with pc := 0x80000000 } = .error (.exc .supervisorOnlyInstrAddress) ∧
    RunsInstruction (cpuMmu 0 [] (some (17, ⟨0, 0, true, 1, true, true, true, true⟩))) ∧
    fetchAddr (cpuMmu 0 [] (some (17, ⟨0, 0, true, 1, true, true, true, true⟩))) = .error (.fault .multipleTlbMatch) :=
  ⟨by decide, by decide, by decide, by decide, by decide, by decide, ⟨by decide, by decide, by decide, by decide, by decide⟩,
    by decide, ⟨by decide, by decide, by decide, by decide, by decide⟩, by decide⟩
theorem witness_UserModeConfined :
    (cpuMmu 2 [] none).config.hasUserMode = true ∧ (cpuMmu 2 [] none).user = true ∧
    (cpuMmu 2 [] none).inputs.reset = false ∧ (cpuMmu 2 [] none).inputs.processorReset = false ∧
    ∃ t, step (cpuMmu 2 [] none) = .next t := ⟨by decide, by decide, by decide, by decide, _, rfl⟩

/-- Supervisor code in the kernel partition about to return to user mode. -/
def toUser : State := { cpuMmu 4 [(29, 0x1000)] none with pc := 0xC0000040, estatus := 3 }.withFetchWord 32 0xEF80083A
theorem witness_EnteringUserMode :
    toUser.user = false ∧ ((match step toUser with | .next t => t.user | _ => false) = true) := by decide
theorem witness_ControlReads :
    (16#5 : BitVec 5) ≤ 31#5 ∧ Config.reference.extraExcInfo = true ∧ bare.extraExcInfo = false ∧ mmuConfig.hasMmu = true ∧
    mpuConfig.hasMpu = true ∧ bare.hasMmu = false ∧ bare.hasMpu = false := by decide
theorem witness_DataAddressMmu_checks :
    (cpuMmu 2 [] none).config.protection = .mmu mmuUnit ∧ (0x80000000#32).getLsbD 31 = true ∧
    (0x7FFFFFFF#32).getLsbD 31 = false ∧ (0x7FFFFFFF#32).toNat % 2 ≠ 0 ∧ 0xC0000000 ≤ (0xC0000000#32).toNat ∧
    (0xBFFFFFFF#32).toNat < 0xC0000000 := by decide
theorem witness_DataAddressMmu_none : ∀ w e, ¬WayMatches mmuUnit (cpuMmu 0 [] none) 0xBFFFFFFF w e := noWay (by decide)
theorem witness_DataAddressMmu_one :
    OnlyWay mmuUnit (cpuMmu 0 [] none) 0x1FFF 0 ⟨0, 0, false, 1, true, true, true, true⟩ ∧
    OnlyWay mmuUnit (cpuMmu 0 [] (some (16, ⟨0, 0, false, 1, true, false, false, false⟩))) 0x1000 0
      ⟨0, 0, false, 1, true, false, false, false⟩ :=
  ⟨oneWay (by unfold WayMatches; decide) (by decide), oneWay (by unfold WayMatches; decide) (by decide)⟩
theorem witness_DataAddressMmu_two :
    WayMatches mmuUnit (cpuMmu 0 [] (some (17, ⟨0, 0, true, 1, true, true, true, true⟩))) 0x1000 0
      ⟨0, 0, false, 1, true, true, true, true⟩ ∧
    WayMatches mmuUnit (cpuMmu 0 [] (some (17, ⟨0, 0, true, 1, true, true, true, true⟩))) 0x1000 1
      ⟨0, 0, true, 1, true, true, true, true⟩ := by unfold WayMatches; decide
theorem witness_FetchAddress :
    (cpu []).config.hasMmu = false ∧ (cpu []).config.hasMpu = false ∧ (cpuMpu 0 []).config.protection = .mpu mpuUnit ∧
    (cpuMpu 0 []).pe = true ∧ (cpuMpu 0 []).inDebug = false ∧ mpuCheck mpuUnit .fetch 0xFFC (cpuMpu 0 []) = .ok false ∧
    mpuCheck mpuUnit .fetch 0x80000000 (cpuMpu 0 []) = .error (.exc .mpuViolationInstr) ∧
    (∀ w e, ¬WayMatches mmuUnit { cpuMmu 0 [] none with pc := 0xBFFFFFFC } 0xBFFFFFFC w e) ∧
    OnlyWay mmuUnit (cpuMmu 0 [] none) 0x1000 0 ⟨0, 0, false, 1, true, true, true, true⟩ :=
  ⟨by decide, by decide, by decide, by decide, by decide, by decide, by decide, noWay (by decide),
    oneWay (by unfold WayMatches; decide) (by decide)⟩

/-- The state of 95_test_vectors.md section 2.8 before a TLB write operation. -/
def tlbWriter (tlbmisc : Word) : State :=
  { cpuMmu 0 [(2, 0x01F00777), (3, 0x380000)] none with pteaddr := 0x48D14, tlbmisc := tlbmisc }
theorem witness_TlbaccWrite :
    (tlbWriter 0x340AB0).config.protection = .mmu mmuUnit ∧ mmuConfig.valid = true ∧
    within (tlbmiscMask mmuUnit) (tlbWriter 0xF40AB0).tlbmisc ∧ (tlbWriter 0xF40AB0).tlb.length = mmuUnit.tlbEntries ∧
    (tlbWriter 0xF40AB0).userForbidden = false ∧ (tlbWriter 0xF40AB0).we = true ∧ (tlbWriter 0xF40AB0).way.toNat < mmuUnit.tlbWays ∧
    (tlbWriter 0x300AB0).we = false :=
  ⟨by decide, by decide, by decide, rfl, by decide, by decide, by decide, by decide⟩

/-- An MMU of three ways: WAY = 3 names none. -/
def threeWays : MmuConfig := { mmuUnit with tlbEntries := 6, tlbWays := 3 }
theorem witness_noWay :
    ({ mmuConfig with protection := .mmu threeWays } : Config).valid = true ∧
    within (tlbmiscMask threeWays) 0x340AB0 ∧ ¬(0x340AB0#32).extractLsb' 20 4 < 3#4 ∧
    threeWays.tlbWays ≤ ((0x380000#32).extractLsb' 20 4 &&& wayMask threeWays).toNat := by decide
theorem witness_TlbmiscWrite :
    ((tlbWriter 0).reg 3).getLsbD 19 = true ∧ ((tlbWriter 0).reg 2).getLsbD 19 = false ∧
    (((tlbWriter 0).reg 3).extractLsb' 20 4 &&& wayMask mmuUnit).toNat < mmuUnit.tlbWays ∧
    ((tlbWriter 0).tlb[(tlbWriter 0).pteVpn.toNat % (mmuUnit.tlbEntries / mmuUnit.tlbWays) * mmuUnit.tlbWays +
      (((tlbWriter 0).reg 3).extractLsb' 20 4 &&& wayMask mmuUnit).toNat]?).isSome = true := by decide
/-- 8 lines: the tag has 17 bits, PID 8 (95_test_vectors.md section 2.8). -/
theorem test_heldAt :
    (TlbEntry.heldAt mmuUnit 5 { (default : TlbEntry) with tag := 0xE0003, pid := 0x1FF }).tag = 3 ∧
    (TlbEntry.heldAt mmuUnit 5 { (default : TlbEntry) with tag := 0xE0003, pid := 0x1FF }).pid = 0xFF := by decide
theorem tlbWriter_fits (tlbmisc : Word) : tlbFits mmuUnit (tlbWriter tlbmisc).tlb :=
  tlbFits_set (tlbFits_resetTlb (c := mmuConfig) rfl (by decide) (by decide) (by decide)) (by decide)
theorem witness_TlbWriteThenRead :
    (tlbWriter 0x340AB0).Inv ∧ (tlbWriter 0x340AB0).config.protection = .mmu mmuUnit ∧
    (tlbWriter 0x340AB0).userForbidden = false ∧ (tlbWriter 0x340AB0).we = true ∧
    (tlbWriter 0x340AB0).way.toNat < mmuUnit.tlbWays ∧
    ((tlbWriter 0x340AB0).reg 3).extractLsb' 20 4 = (tlbWriter 0x340AB0).way ∧
    ((tlbWriter 0x340AB0).reg 3).getLsbD 19 = true :=
  ⟨⟨by decide, rfl, by decide, by decide, by decide, by decide, by decide, by decide, by decide, by decide,
    ⟨rfl, rfl, by decide⟩, ⟨rfl, by decide, by decide, tlbWriter_fits _⟩⟩, by decide, by decide, by decide, by decide, by decide,
    by decide⟩
theorem witness_TlbWriteTranslates :
    (0x12345FFC#32).toNat % 4 = 0 ∧ (0x12345FFC#32).toNat < 0xC0000000 ∧ (tlbWriter 0x340AB0).user = false ∧
    (0x12345FFC#32).extractLsb' 12 20 = (tlbWriter 0x340AB0).pteVpn ∧ ((tlbWriter 0x340AB0).reg 2).getLsbD 23 = true ∧
    ((tlbWriter 0x340AB0).reg 2).getLsbD 22 = true ∧
    ∀ w e, WayMatches mmuUnit (tlbWriter 0x340AB0) 0x12345FFC w e → w = (tlbWriter 0x340AB0).way.toNat :=
  ⟨by decide, by decide, by decide, by decide, by decide, by decide, fun w e h => absurd h (noWay (by decide) w e)⟩
theorem witness_MpuAccessCheck :
    (cpuMpu 2 []).config.protection = .mpu mpuUnit ∧ (cpuMpu 2 []).mpuStale = none ∧
    (∀ r, r ∈ (cpuMpu 2 []).mpu.instr ∨ r ∈ (cpuMpu 2 []).mpu.data → r.misaligned = false) ∧
    (∀ i r, ¬DecidingRegion (cpuMpu 2 []).config mpuUnit (cpuMpu 2 []).mpu.data 0x80000000 i r) ∧
    DecidingRegion (cpuMpu 2 []).config mpuUnit (cpuMpu 2 []).mpu.data 0x807F 0 ⟨0x201, 0x1FFFFFF, false, 0⟩ ∧
    ((0 : BitVec 3) ∈ ListedPerms .load ∧ (0 : BitVec 3) ∉ AllowedPerms mpuUnit .load true ∧
      (5 : BitVec 3) ∈ AllowedPerms mpuUnit .load true ∧ (3 : BitVec 3) ∉ ListedPerms .store ∧
      (7 : BitVec 3) ∉ ListedPerms .fetch) := by
  refine ⟨by decide, by decide, ?_, fun i r h => absurd h.1 (by decide), ?_, by decide⟩
  · have h : ∀ l : List MpuRegion, l = regions29.instr ∨ l = regions29.data → ∀ r, r ∈ l → r.misaligned = false := by
      rintro l (rfl | rfl) <;> decide
    rintro r (hr | hr)
    · exact h _ (.inl rfl) r hr
    · exact h _ (.inr rfl) r hr
  · refine ⟨by decide, by decide, ?_, fun j r' h => absurd h (Nat.not_lt_zero _)⟩
    show ∀ i, i < 25 → _
    decide

/-- The MPU of `cpuMpu` with regions defined by limit: 0x2000 up to 0x3000. -/
def limitUnit : MpuConfig := { mpuUnit with useLimit := true }
theorem witness_MpuAccessCheck_limit :
    limitUnit.useLimit = true ∧
    DecidingRegion mpuConfig limitUnit [⟨0x80, 0xC0, true, 6⟩] 0x2FFF 0 ⟨0x80, 0xC0, true, 6⟩ ∧
    (∀ i r, ¬DecidingRegion mpuConfig limitUnit [⟨0x80, 0xC0, true, 6⟩] 0x3000 i r) ∧
    (6 : BitVec 3) ∈ AllowedPerms limitUnit .store true := by
  refine ⟨by decide, ⟨by decide, by decide, by unfold RegionCovers; decide, fun j r' h => absurd h (Nat.not_lt_zero _)⟩,
    fun i r h => ?_, by decide⟩
  obtain ⟨_, hr, hc, _⟩ := h
  match i, hr with
  | 0, hr => cases hr; exact absurd hc (by unfold RegionCovers; decide)
theorem witness_DataAddressMpu :
    (cpuMpu 0 []).pe = true ∧ (cpuMpu 0 []).inDebug = false ∧ ({ cpuMpu 0 [] with inDebug := true } : State).inDebug = true ∧
    mpuConfig.bit31Bypass = true ∧ mpuCheck mpuUnit .load 0x803F (cpuMpu 0 []) = .ok true ∧
    mpuCheck mpuUnit .load 0x8040 (cpuMpu 0 []) = .error (.exc (.mpuViolationData 0x8040)) := by decide
theorem witness_MpuaccWrite :
    (3#32).getLsbD 1 = true ∧ (3#32).getLsbD 0 = true ∧ (2#32).getLsbD 0 = false ∧ (1#32).getLsbD 1 = false ∧
    ((cpuMpu 0 []).mpu.data[({ cpuMpu 0 [] with mpubase := 5 } : State).regionIndex]?).isSome = true ∧
    ((cpuMpu 0 []).mpu.instr[(cpuMpu 0 []).regionIndex]?).isSome = true ∧
    (cpuMpu 0 []).mpu.data[({ cpuMpu 0 [] with mpubase := 7 } : State).regionIndex]? = none := by decide
theorem witness_RegionWriteThenRead :
    ({ cpuMpu 0 [(2, 1), (3, 2)] with mpubase := 5 } : State).Inv ∧
    ({ cpuMpu 0 [(2, 1), (3, 2)] with mpubase := 5 } : State).regionIndex < mpuUnit.dataRegions ∧
    ({ cpuMpu 0 [(2, 1), (3, 2)] with mpubase := 5 } : State).selectsData = true ∧
    ((cpuMpu 0 [(2, 1), (3, 2)]).reg 2).getLsbD 0 = true ∧ ((cpuMpu 0 [(2, 1), (3, 2)]).reg 3).getLsbD 1 = true :=
  ⟨⟨by decide, by decide, by decide, by decide, by decide, by decide, by decide, by decide, by decide, by decide,
    ⟨rfl, rfl, by decide⟩, ⟨⟨by decide, by decide⟩, by rintro old ⟨⟩, by decide, by decide⟩⟩, by decide, by decide, by decide, by decide⟩
theorem witness_CacheByIndex :
    (cpuCache []).memory.wf = true ∧ (cpuCache []).config.dcache = some small ∧ cachedCode.config.icache = some small ∧
    (cpuCache []).userForbidden = false ∧ (cpu []).config.dcache = none ∧ (cpu []).config.icache = none ∧
    ∃ l ∈ (cpuCache []).dcache, (l.index == cacheIndex small 0x100) = true ∧ l.dirty = true ∧
      ∀ k ∈ (cpuCache []).dcache, k ≠ l → k.dirty = false := by decide
theorem witness_CacheByAddress :
    dataAddr .flushda 1 0x7FFFFFFF (cpuCache []) = .ok (0x7FFFFFFF, true) ∧
    dataAddr .initda 1 0x7FFFFFFF (cpuCache []) = .ok (0x7FFFFFFF, true) ∧ noUnits.hwInitda = false ∧
    (cpuCache []).config.hwInitda = true ∧
    dataAddr .initda 1 0x5000 (cpuMmu 1 [] none) = .error (.exc (.tlbMissData 0x5000)) := by decide
theorem witness_CustomInstruction :
    Config.reference.customPresent.getLsbD (255#8).toNat = true ∧
      ({ Config.reference with customPresent := 0 } : Config).customPresent.getLsbD (255#8).toNat = false := by decide

theorem witness_VirtualAlias :
    dataAddr .load 4 0x2000 (cpuAlias .memory) = .ok (0x2000, true) ∧ dataAddr .store 1 0x200F (cpuAlias .memory) = .ok (0x200F, true) ∧
    (cpuAlias .memory).config.dcache = some small ∧
    ∃ l ∈ (cpuAlias .memory).dcache, l.base = lineBase small 0x200F ∧ l.index ≠ cacheIndex small 0x200F ∧ l.origin ≠ .reset := by
  decide

end Sys2Proof.Tests
end

section
/-! SUPPORT. Every step keeps the configuration and the invariant (statement O9): one relation between a state and what an
operation makes of it, a lemma for each shared form of an instruction, the instructions by their forms, and the boundary. -/

namespace Sys2Proof.Machine

/-- What a step keeps from `s` to `t`: the generation-time parameters, and the invariant. -/
def KeepsInvariant (s t : State) : Prop := t.config = s.config ∧ (s.Inv → t.Inv)

namespace KeepsInvariant

variable {s t u : State}

theorem refl (s : State) : KeepsInvariant s s := ⟨rfl, id⟩

theorem trans (h : KeepsInvariant s t) (h' : KeepsInvariant t u) : KeepsInvariant s u :=
  ⟨h'.1.trans h.1, h'.2 ∘ h.2⟩

/-! The operations that the instructions share. -/

theorem advance (h : KeepsInvariant s t) : KeepsInvariant s t.advance := h.trans ⟨rfl, State.Inv.advance⟩

theorem setReg (h : KeepsInvariant s t) (r : Reg) (v : Word) : KeepsInvariant s (t.setReg r v) :=
  h.trans ⟨State.setReg_config t r v, fun hi => hi.setReg r v⟩

theorem goto (h : KeepsInvariant s t) {pc : Word} (hp : wordAligned pc = true) : KeepsInvariant s { t with pc } :=
  h.trans ⟨rfl, fun hi => hi.goto hp⟩

theorem takeException (e : Exc) (s : State) : KeepsInvariant s (Machine.takeException e s) := ⟨rfl, fun hi => hi.takeException e⟩

theorem takeBreak (s : State) : KeepsInvariant s (Machine.takeBreak s) := ⟨rfl, State.Inv.takeBreak⟩

theorem resetProcessor (s : State) : KeepsInvariant s (Machine.resetProcessor s) := ⟨rfl, State.Inv.resetProcessor⟩

theorem nextBoundary (h : KeepsInvariant s t) : KeepsInvariant s (Machine.nextBoundary t) :=
  h.trans ⟨rfl, State.Inv.nextBoundary⟩

theorem endBoundary (h : KeepsInvariant s t) : KeepsInvariant s (Machine.endBoundary t) :=
  h.trans ⟨by rw [(endBoundary_frame t).1], State.Inv.endBoundary⟩

/-- A cache operation changes only memory and the caches. -/
theorem of_keepsContents (k : KeepsContents s t)
    (ht : t = { s with memory := t.memory, dcache := t.dcache, icache := t.icache }) : KeepsInvariant s t :=
  ⟨by rw [ht], fun hi => hi.cacheOperation k ht⟩

theorem flushDataByIndex (ea : Word) (s : State) : KeepsInvariant s (Machine.flushDataByIndex ea s) :=
  have ⟨hf, k⟩ := flushDataByIndex_frame ea s
  of_keepsContents k (by rw [hf])

theorem flushDataByAddress (pa : Word) (s : State) : KeepsInvariant s (Machine.flushDataByAddress pa s) :=
  have ⟨hf, k⟩ := flushDataByAddress_frame pa s
  of_keepsContents k (by rw [hf])

theorem initDataByIndex (ea : Word) (s : State) : KeepsInvariant s (Machine.initDataByIndex ea s) :=
  have ⟨hf, k⟩ := initDataByIndex_frame ea s
  of_keepsContents k (by rw [hf])

theorem initDataByAddress (pa : Word) (s : State) : KeepsInvariant s (Machine.initDataByAddress pa s) :=
  have ⟨hf, k⟩ := initDataByAddress_frame pa s
  of_keepsContents k (by rw [hf])

theorem dropInstrByIndex (a : Word) (s : State) : KeepsInvariant s (Machine.dropInstrByIndex a s) :=
  have ⟨hf, k⟩ := dropInstrByIndex_frame a s
  of_keepsContents k (by rw [hf])

theorem flushPipeline (s : State) : KeepsInvariant s (Machine.flushPipeline s) := ⟨rfl, State.Inv.flush⟩

theorem jumpTo {a : Word} (h : Machine.jumpTo a s = .ok t) : KeepsInvariant s t := by
  obtain ⟨ha, rfl⟩ := jumpTo_ok.1 h
  exact (refl s).goto (wordAligned_iff.2 ha)

/-- The return from an exception brings back `estatus`, whose bits are those of `status`. -/
theorem returnFromException (h : Machine.returnFromException s = .ok t) : KeepsInvariant s t := by
  obtain ⟨_, ha, rfl⟩ := returnFromException_ok.1 h
  exact ⟨rfl, fun hi => ((hi.goto (wordAligned_iff.2 ha)).withStatus hi.estatus_bits).flush⟩

/-- The return from a break brings back `bstatus`, whose bits are those of `status`, and clears `in_debug`. -/
theorem returnFromBreak (h : Machine.returnFromBreak s = .ok t) : KeepsInvariant s t := by
  obtain ⟨_, ha, rfl⟩ := returnFromBreak_ok.1 h
  refine ⟨rfl, fun hi => ?_⟩
  have hu := ((hi.goto (wordAligned_iff.2 ha)).withStatus hi.bstatus_bits).flush
  exact hu.update hu.pc_aligned hu.memory_wf hu.contents.1 hu.contents.2.1 hu.contents.2.2 s.regs false s.custom
    s.deviceCycles s.inputs s.future s.tick

theorem writeControl {n : BitVec 5} {v : Word} (h : Machine.writeControl n v s = .ok t) : KeepsInvariant s t :=
  ⟨(writeControl_frame h).1, fun hi => hi.writeControl h⟩

theorem fetch {w : Word} (h : fetchWord s = .ok (w, t)) : KeepsInvariant s t :=
  ⟨by rw [(fetchWord_frame h).1], fun hi => hi.fetch h⟩

/-! The shared forms of an instruction. -/

theorem of_next (h : KeepsInvariant s u) (hn : (.next u : Result) = .next t) : KeepsInvariant s t := by
  cases hn
  exact h

/-- An instruction that does not complete takes its exception from the state before it. -/
theorem finish {o : Except Stop State} (ho : ∀ u, o = .ok u → KeepsInvariant s u) (h : Machine.finish s o = .next t) :
    KeepsInvariant s t := by
  rcases finish_next.1 h with hu | ⟨e, _, rfl⟩
  · exact ho t hu
  · exact takeException e s

/-- An instruction that goes on to `f a` once a check has answered `a`. -/
theorem finish_bind {α : Type} {x : Except Stop α} {f : α → State} (hf : ∀ a, x = .ok a → KeepsInvariant s (f a))
    (h : Machine.finish s (x >>= fun a => .ok (f a)) = .next t) : KeepsInvariant s t := by
  refine finish (fun u hu => ?_) h
  obtain ⟨a, ha, hu⟩ := bind_ok.1 hu
  cases hu
  exact hf a ha

theorem writeResult {r : Reg} {v : Word} (h : Machine.writeResult r v s = .next t) : KeepsInvariant s t :=
  ((refl s).setReg r v).advance.of_next h

theorem mulInstr {b : Bool} {r : Reg} {v : Word} (h : Machine.mulInstr b r v s = .next t) : KeepsInvariant s t :=
  finish_bind (fun _ _ => ((refl s).setReg r v).advance) h

theorem divInstr {b : Bool} {r : Reg} {x y q : Word} (h : Machine.divInstr b r x y q s = .next t) : KeepsInvariant s t := by
  refine finish (fun u hu => ?_) h
  obtain ⟨_, _, hu⟩ := bind_ok.1 hu
  obtain ⟨v, _, hu⟩ := bind_ok.1 hu
  cases hu
  exact ((refl s).setReg r v).advance

theorem loadInstr {n : Nat} {io : Bool} {ext : Word → Word} {rB rA : Reg} {imm : BitVec 16}
    (h : Machine.loadInstr n io ext rB rA imm s = .next t) : KeepsInvariant s t := by
  refine ⟨?_, fun hi => hi.loadInstr h⟩
  rcases loadInstr_next h with ⟨e, rfl⟩ | ⟨v, u, ⟨hu, _⟩, rfl⟩
  · rfl
  · rw [State.advance_config, State.setReg_config, hu]

theorem storeInstr {n : Nat} {io : Bool} {rB rA : Reg} {imm : BitVec 16}
    (h : Machine.storeInstr n io rB rA imm s = .next t) : KeepsInvariant s t := by
  refine ⟨?_, fun hi => hi.storeInstr h⟩
  rcases storeInstr_next h with ⟨e, rfl⟩ | ⟨u, _, hu, _, _, rfl⟩
  · rfl
  · rw [State.advance_config, hu]

theorem branchInstr {taken : Bool} {imm : BitVec 16} (h : Machine.branchInstr taken imm s = .next t) : KeepsInvariant s t := by
  unfold Machine.branchInstr at h
  split at h
  · exact finish (fun _ => jumpTo) h
  · exact (refl s).advance.of_next h

theorem callr {rA : Reg} (h : execCallr rA s = .next t) : KeepsInvariant s t :=
  finish_bind (fun _ hj => (jumpTo hj).setReg _ _) h

theorem wrctl {n : BitVec 5} {rA : Reg} (h : execWrctl n rA s = .next t) : KeepsInvariant s t := by
  refine finish (fun u hu => ?_) h
  obtain ⟨_, _, hu⟩ := bind_ok.1 hu
  obtain ⟨_, hw, hu⟩ := bind_ok.1 hu
  cases hu
  exact (writeControl hw).advance

theorem flushda {rA : Reg} {imm : BitVec 16} (h : execFlushda rA imm s = .next t) : KeepsInvariant s t := by
  refine finish (fun u hu => ?_) h
  obtain ⟨⟨pa, _⟩, _, hu⟩ := bind_ok.1 hu
  cases hu
  exact (flushDataByAddress pa s).advance

theorem initda {rA : Reg} {imm : BitVec 16} (h : execInitda rA imm s = .next t) : KeepsInvariant s t := by
  refine finish (fun u hu => ?_) h
  obtain ⟨_, _, hu⟩ := bind_ok.1 hu
  obtain ⟨⟨pa, _⟩, _, hu⟩ := bind_ok.1 hu
  cases hu
  exact (initDataByAddress pa s).advance

theorem custom {n : BitVec 8} {rC rA rB : Reg} {readra readrb writerc : Bool}
    (h : execCustom n rC rA rB readra readrb writerc s = .next t) : KeepsInvariant s t := by
  have hl (logic : CustomLogic) : KeepsInvariant s { s with custom := logic } := ⟨rfl, fun hi => hi.logic logic⟩
  unfold execCustom at h
  split at h
  · refine of_next (advance ?_) h
    split
    · exact (hl _).setReg _ _
    · exact hl _
  · cases h

/-! The instructions, the fetch and the boundary. -/

/-- Every instruction, by the form it has. -/
theorem exec {i : Instr} (h : Machine.exec i s = .next t) : KeepsInvariant s t := by
  cases i with
  | ldw | ldwio | ldb | ldbu | ldh | ldhu | ldbio | ldbuio | ldhio | ldhuio => exact loadInstr h
  | stw | stwio | stb | sth | stbio | sthio => exact storeInstr h
  | and | or | xor | nor | andi | ori | xori | andhi | orhi | xorhi | add | sub | addi
  | cmpeq | cmpne | cmpge | cmpgeu | cmplt | cmpltu | cmpeqi | cmpnei | cmpgei | cmpgeui | cmplti | cmpltui
  | rol | ror | roli | sll | slli | sra | srl | srai | srli | nextpc => exact writeResult h
  | mul | muli | mulxss | mulxuu | mulxsu => exact mulInstr h
  | div | divu => exact divInstr h
  | bge | bgeu | blt | bltu | beq | bne => exact branchInstr h
  | ret | jmp | br => exact finish (fun _ => jumpTo) h
  | call imm => exact (((refl s).setReg _ _).goto (wordAligned_segmentTarget s.pc imm)).of_next h
  | jmpi imm => exact ((refl s).goto (wordAligned_segmentTarget s.pc imm)).of_next h
  | callr => exact callr h
  | trap => exact (takeException _ s).of_next h
  | brk => exact (takeBreak s).of_next h
  | eret => exact finish (fun _ => returnFromException) h
  | bret => exact finish (fun _ => returnFromBreak) h
  | rdctl => exact finish_bind (fun _ _ => ((refl s).setReg _ _).advance) h
  | wrctl => exact wrctl h
  | flushd => exact (flushDataByIndex _ s).advance.of_next h
  | flushda => exact flushda h
  | flushi => exact (dropInstrByIndex _ s).advance.of_next h
  | initd => exact finish_bind (fun _ _ => (initDataByIndex _ s).advance) h
  | initda => exact initda h
  | initi => exact finish_bind (fun _ _ => (dropInstrByIndex _ s).advance) h
  | flushp => exact (flushPipeline s).advance.of_next h
  | sync => exact (refl s).advance.of_next h
  | custom => exact custom h

theorem illegalWord {isInternal : Bool} (h : Machine.illegalWord isInternal s = .next t) : KeepsInvariant s t := by
  unfold Machine.illegalWord at h
  split at h
  · cases h
  split at h
  · exact (takeException _ s).of_next h
  · cases h

theorem runUndecoded {e : DecodeError} (h : Machine.runUndecoded e s = .next t) : KeepsInvariant s t := by
  cases e with
  | undefinedOp | undefinedOpx => exact illegalWord h
  | nonCanonical | notFourBytes => cases h

theorem runWord {w : Word} (h : Machine.runWord w s = .next t) : KeepsInvariant s t := by
  unfold Machine.runWord at h
  split at h
  · exact exec h
  · exact runUndecoded h

theorem fetchAndRun (h : Machine.fetchAndRun s = .next t) : KeepsInvariant s t := by
  unfold Machine.fetchAndRun at h
  split at h
  · next hw => exact (fetch hw).trans (runWord h)
  · exact finish (fun _ hu => by cases hu) h

theorem boundaryEvent (h : Machine.boundaryEvent s = .next t) : KeepsInvariant s t := by
  unfold Machine.boundaryEvent at h
  split at h
  · exact (resetProcessor s).nextBoundary.of_next h
  split at h
  · cases h
  split at h
  · exact (takeBreak s).endBoundary.of_next h
  split at h
  · exact (resetProcessor s).nextBoundary.of_next h
  split at h
  · exact (takeException _ s).endBoundary.of_next h
  · obtain ⟨u, hu, rfl⟩ := endResult_next.1 h
    exact (fetchAndRun hu).endBoundary

end KeepsInvariant

/-- Settles O9: every event of a boundary keeps the configuration and the invariant, each instruction by its form. -/
theorem stepKeepsInvariant : Obligations.StepKeepsInvariant := by
  unfold Obligations.StepKeepsInvariant
  exact fun _ _ => KeepsInvariant.boundaryEvent

end Sys2Proof.Machine
end

section
/-! SUPPORT. The register file and the control registers that are not written (statements O10 and O44): the frame of an
instruction that only goes on, or goes on with a register write; `wrctl` from what `writeControl` answers; and that answer for
each read-only and each reserved register. -/

namespace Sys2Proof.Machine

open Sys2Proof.Statements

/-- Settles O10: the laws of the register file. -/
theorem registerFile : Obligations.RegisterFile :=
  ⟨State.reg_zero, State.setReg_zero, fun _ _ _ _ hr => by simp [hr]⟩

/-! The two shared ends of an instruction, as the statements say them. -/

theorem went_advance (s : State) : Went s s.advance (s.pc + 4#32) where
  regs := State.reg_advance s
  pc := State.advance_pc s
  memory _ := by rw [State.advance_memory]
  rest := rfl

theorem wrote_setReg_advance (s : State) (r : Reg) (v : Word) :
    Wrote s (s.setReg r v).advance r v (s.pc + 4#32) where
  regs x := by rw [State.reg_advance, State.reg_setReg]
  pc := by rw [State.advance_pc, State.setReg_pc]
  memory _ := by rw [State.advance_memory, State.setReg_memory]
  rest := by
    unfold State.setReg
    split <;> rfl

/-! The two instructions in supervisor mode. -/

/-- `rdctl` completes and writes what `readControl` gives. -/
theorem exec_rdctl_wrote (rC : Reg) (n : BitVec 5) {s : State} (hu : s.userForbidden = false) :
    ∃ t, exec (.rdctl rC n) s = .next t ∧ Wrote s t rC (readControl n s) (s.pc + 4#32) :=
  ⟨_, execRdctl_supervisor rC n hu, wrote_setReg_advance s rC _⟩

/-- A `wrctl` that `writeControl` answers with the state itself only goes on. -/
theorem exec_wrctl_went {n : BitVec 5} {rA : Reg} {s : State} (hu : s.userForbidden = false)
    (hw : writeControl n (s.reg rA) s = .ok s) : ∃ t, exec (.wrctl n rA) s = .next t ∧ Went s t (s.pc + 4#32) :=
  ⟨_, execWrctl_supervisor hu hw, went_advance s⟩

/-- The writes of a `wrctl` are those of `writeControl`, which leaves `pc`, the general registers and memory alone. -/
theorem controlWrite_of_writeControl {n : BitVec 5} {ok : State → Prop} {write : Word → State → State}
    (hw : ∀ v s, ok s → writeControl n v s = .ok (write v s)) : ControlWrite n ok write := by
  intro rA s hu hok
  have hs := hw (s.reg rA) s hok
  obtain ⟨_, hpc, hregs, hmem, _⟩ := writeControl_frame hs
  refine ⟨_, execWrctl_supervisor hu hs, ?_, State.reg_of_regs hregs, fun a => ?_⟩
  · rw [← hpc]
    rfl
  · rw [State.advance_memory, hmem]

/-! A write of a register that is read-only, or that the configuration does not have. -/

theorem controlReadOnly_available {s : State} {available : Bool} (h : available = true) :
    controlReadOnly available s = flushPipeline s := by
  rw [h]
  rfl

theorem controlReadOnly_unavailable {s : State} {available : Bool} (h : available = false) :
    controlReadOnly available s = s := by
  rw [h]
  rfl

theorem controlPteaddr_noMmu {s : State} (h : s.config.hasMmu = false) (v : Word) : controlPteaddr v s = s := by
  unfold controlPteaddr
  simp [h]

theorem controlTlbacc_noMmu {s : State} (h : s.config.hasMmu = false) (v : Word) : controlTlbacc v s = s := by
  unfold controlTlbacc
  split
  · next hm => simp [Config.hasMmu, hm] at h
  · rfl

theorem controlTlbmisc_noMmu {s : State} (h : s.config.hasMmu = false) (v : Word) : controlTlbmisc v s = s := by
  unfold controlTlbmisc
  split
  · next hm => simp [Config.hasMmu, hm] at h
  · rfl

theorem controlConfig_noMpu {s : State} (h : s.config.hasMpu = false) (v : Word) : controlConfig v s = s := by
  unfold controlConfig
  simp [h]

theorem controlMpubase_noMpu {s : State} (h : s.config.hasMpu = false) (v : Word) : controlMpubase v s = s := by
  unfold controlMpubase
  split
  · next hm => simp [Config.hasMpu, hm] at h
  · rfl

theorem controlMpuacc_noMpu {s : State} (h : s.config.hasMpu = false) (v : Word) : controlMpuacc v s = .ok s := by
  unfold controlMpuacc
  split
  · next hm => simp [Config.hasMpu, hm] at h
  · rfl

/-! The numbers of no register of this machine. -/

/-- Number `n` names no control register of the configuration (10_state.md R42, R45). -/
def ReservedControl (c : Config) (n : BitVec 5) : Prop :=
  n = 6#5 ∨ n = 11#5 ∨ 16#5 ≤ n ∨ (c.extraExcInfo = false ∧ (n = 7#5 ∨ n = 12#5)) ∨
    (c.hasMmu = false ∧ (n = 8#5 ∨ n = 9#5 ∨ n = 10#5)) ∨ (c.hasMpu = false ∧ (n = 13#5 ∨ n = 14#5 ∨ n = 15#5))

/-- No control register has a number from 16 on, in any configuration. -/
theorem writeControl_of_ge {n : BitVec 5} (hn : 16#5 ≤ n) (v : Word) (s : State) : writeControl n v s = .ok s := by
  unfold writeControl
  split
  case h_15 => rfl
  all_goals exact absurd hn (by decide)

theorem writeControl_reserved {n : BitVec 5} {s : State} (h : ReservedControl s.config n) (v : Word) :
    writeControl n v s = .ok s := by
  rcases h with rfl | rfl | hn | ⟨hx, rfl | rfl⟩ | ⟨hmmu, rfl | rfl | rfl⟩ | ⟨hmpu, rfl | rfl | rfl⟩
  · rfl
  · rfl
  · exact writeControl_of_ge hn v s
  · exact congrArg Except.ok (controlReadOnly_unavailable hx)
  · exact congrArg Except.ok (controlReadOnly_unavailable hx)
  · exact congrArg Except.ok (controlPteaddr_noMmu hmmu v)
  · exact congrArg Except.ok (controlTlbacc_noMmu hmmu v)
  · exact congrArg Except.ok (controlTlbmisc_noMmu hmmu v)
  · exact congrArg Except.ok (controlConfig_noMpu hmpu v)
  · exact congrArg Except.ok (controlMpubase_noMpu hmpu v)
  · exact controlMpuacc_noMpu hmpu v

/-- Settles O44: `ipending` is read as the view of the enabled lines; a write of a read-only register is a flush, of a reserved
one nothing. -/
theorem readOnlyRegisters : Obligations.ReadOnlyRegisters :=
  ⟨fun rC _ hu => exec_rdctl_wrote rC 4#5 hu,
    controlWrite_of_writeControl fun _ _ _ => rfl,
    controlWrite_of_writeControl fun _ _ _ => rfl,
    controlWrite_of_writeControl fun _ _ hx => congrArg Except.ok (controlReadOnly_available hx),
    controlWrite_of_writeControl fun _ _ hx => congrArg Except.ok (controlReadOnly_available hx),
    fun _ rA s hu hn => exec_wrctl_went hu (writeControl_reserved hn (s.reg rA))⟩

end Sys2Proof.Machine
end

section
/-! SUPPORT. The address paths (statements O16, O46, O47 and O53): when each check of `DataAddr` fails, the lookup of the TLB
in the words of the statements, and what is left of a data address once its checks have passed. -/

namespace Sys2Proof.Machine

open Sys2Proof.Statements

/-! The checks of a data address. -/

theorem dataMisaligned_iff {k : AccessKind} {n : Nat} {ea : Word} :
    dataMisaligned k n ea = true ↔ (k = .load ∨ k = .store) ∧ ea.toNat % n ≠ 0 := by
  cases k <;> simp [dataMisaligned, AccessKind.checksAlignment]

theorem dataForbidden_iff {k : AccessKind} {ea : Word} {s : State} (hk : k ≠ .fetch) :
    dataForbidden k ea s = true ↔ s.config.hasMmu = true ∧ s.user = true ∧ ea.getLsbD 31 = true ∧ k ≠ .initda := by
  cases k <;> simp [dataForbidden, AccessKind.checksSupervisor, and_assoc] at hk ⊢

theorem dataForbidden_noMmu {k : AccessKind} {ea : Word} {s : State} (h : s.config.hasMmu = false) :
    dataForbidden k ea s = false := by
  simp [dataForbidden, h]

theorem dataAddr_forbidden {k : AccessKind} {n : Nat} {ea : Word} {s : State} (h : dataForbidden k ea s = true) :
    dataAddr k n ea s = .error (.exc (.supervisorOnlyDataAddress ea)) := by
  simp [dataAddr, h]

theorem dataAddr_misaligned {k : AccessKind} {n : Nat} {ea : Word} {s : State} (hf : dataForbidden k ea s = false)
    (h : dataMisaligned k n ea = true) :
    dataAddr k n ea s = if s.config.illegalMemCheck then .error (.exc (.misalignedDataAddress ea))
      else .error (.fault .misalignedAccess) := by
  simp [dataAddr, hf, h]

theorem dataAddr_checked {k : AccessKind} {n : Nat} {ea : Word} {s : State} (hf : dataForbidden k ea s = false)
    (h : dataMisaligned k n ea = false) : dataAddr k n ea s = dataTranslate k ea s := by
  simp [dataAddr, hf, h]

/-! Configurations. -/

theorem hasMmu_of_mmu {c : Config} {m : MmuConfig} (h : c.protection = .mmu m) : c.hasMmu = true := by
  simp [Config.hasMmu, h]

theorem hasMmu_of_mpu {c : Config} {m : MpuConfig} (h : c.protection = .mpu m) : c.hasMmu = false := by
  simp [Config.hasMmu, h]

theorem hasMmu_of_none {c : Config} (h : c.protection = .none) : c.hasMmu = false := by
  simp [Config.hasMmu, h]

theorem hasMpu_of_mpu {c : Config} {m : MpuConfig} (h : c.protection = .mpu m) : c.hasMpu = true := by
  simp [Config.hasMpu, h]

/-- The memory check is forced on with an MMU (00_scope.md R8). -/
theorem illegalMemCheck_of_mmu {c : Config} (h : c.hasMmu = true) : c.illegalMemCheck = true := by
  simp [Config.illegalMemCheck, Config.hasUserMode, h]

/-- The memory check is forced on with an MPU (00_scope.md R8). -/
theorem illegalMemCheck_of_mpu {c : Config} (h : c.hasMpu = true) : c.illegalMemCheck = true := by
  simp [Config.illegalMemCheck, Config.hasUserMode, h]

/-! The address without bit 31. -/

theorem and_clear_top (a : Word) : a &&& 0x7FFFFFFF#32 = 0#1 ++ a.extractLsb' 0 31 := by
  have hmask : ∀ i, i < 32 → (0x7FFFFFFF#32).getLsbD i = decide (i < 31) := by decide
  apply BitVec.eq_of_getLsbD_eq
  intro i hi
  rw [BitVec.getLsbD_and, hmask i hi, BitVec.getLsbD_append, BitVec.getLsbD_extractLsb']
  by_cases h : i < 31 <;> simp [h]

theorem stripBit31_bypass {c : Config} (h : c.bit31Bypass = true) (ea : Word) :
    stripBit31 c ea = 0#1 ++ ea.extractLsb' 0 31 := by
  rw [stripBit31, if_pos h, and_clear_top]

theorem stripBit31_plain {c : Config} (h : c.bit31Bypass = false) (ea : Word) : stripBit31 c ea = ea := by
  simp [stripBit31, h]

/-- The stripped address, in the words of the statements. -/
theorem stripBit31_eq (c : Config) (ea : Word) :
    stripBit31 c ea = if c.bit31Bypass then 0#1 ++ ea.extractLsb' 0 31 else ea := by
  split
  · next h => exact stripBit31_bypass h ea
  · next h => exact stripBit31_plain (by simpa using h) ea

/-- Settles O16: alignment is the only check without a protection unit. -/
theorem dataAddressPlain : Obligations.DataAddressPlain := by
  intro k n ea s hp _
  have hf : dataForbidden k ea s = false := dataForbidden_noMmu (hasMmu_of_none hp)
  refine ⟨fun hm => dataAddr_misaligned hf (dataMisaligned_iff.2 hm), fun hm => ?_⟩
  have ht : dataAddr k n ea s = .ok (stripBit31 s.config ea, !(s.config.bit31Bypass && ea.getLsbD 31)) := by
    rw [dataAddr_checked hf (Bool.eq_false_iff.2 (mt dataMisaligned_iff.1 hm)), dataTranslate, hp]
  exact ⟨fun hb => by rw [ht, stripBit31_bypass hb, hb, Bool.true_and],
    fun hb => by rw [ht, stripBit31_plain hb, hb, Bool.false_and, Bool.not_false]⟩

/-- Settles O53: with the MPU the region check decides between the alignment check and the address. -/
theorem dataAddressMpu : Obligations.DataAddressMpu := by
  intro k n ea s m hp _
  have hf : dataForbidden k ea s = false := dataForbidden_noMmu (hasMmu_of_mpu hp)
  refine ⟨fun hm => ?_, ?_⟩
  · rw [dataAddr_misaligned hf (dataMisaligned_iff.2 hm),
      if_pos (illegalMemCheck_of_mpu (hasMpu_of_mpu hp))]
  · rintro hm a b ha rfl
    rw [← stripBit31_eq] at ha
    subst ha
    have ht : dataAddr k n ea s = dataTranslate k ea s :=
      dataAddr_checked hf (Bool.eq_false_iff.2 (mt dataMisaligned_iff.1 hm))
    simp only [dataTranslate, hp] at ht
    refine ⟨fun hoff => ?_, fun hpe hd => ?_⟩
    · have hactive : s.mpuActive = false := by
        rcases hoff with h | h <;> simp [State.mpuActive, h]
      simpa [hactive] using ht
    · have hactive : s.mpuActive = true := by simp [State.mpuActive, hpe, hd]
      rw [if_pos hactive] at ht
      exact ⟨fun c hc => by rw [ht, hc, ok_bind], fun e he => by rw [ht, he, error_bind]⟩

/-! The lookup of the TLB in the words of the statements. -/

theorem wayMatches_iff {m : MmuConfig} {s : State} {va : Word} {w : Nat} {e : TlbEntry} :
    WayMatches m s va w e ↔ w < m.tlbWays ∧ wayMatch m s va w = some e := by
  unfold WayMatches wayMatch tlbPosition tlbLine tlbLines
  rw [Option.filter_eq_some_iff, TlbEntry.covers_iff, vpn_toNat]

theorem wayMatch_none {m : MmuConfig} {s : State} {va : Word} {w : Nat} (hw : w < m.tlbWays)
    (h : ∀ e, ¬WayMatches m s va w e) : wayMatch m s va w = none :=
  Option.eq_none_iff_forall_ne_some.2 fun e he => h e (wayMatches_iff.2 ⟨hw, he⟩)

theorem bypassesTlb_of_lt {va : Word} (h : va.toNat < 0xC0000000) : bypassesTlb va = false :=
  Bool.eq_false_iff.2 fun hb => absurd ((bypassesTlb_iff va).1 hb) (by omega)

/-- An address of the kernel or I/O partition is translated by dropping its top three bits (20_memory.md R139). -/
theorem mmuTranslate_bypass {m : MmuConfig} {k : AccessKind} {va : Word} {s : State} (h : 0xC0000000 ≤ va.toNat) :
    mmuTranslate m k va s = .ok (0#3 ++ va.extractLsb' 0 29, !va.getLsbD 29) := by
  rw [mmuTranslate, if_pos ((bypassesTlb_iff va).2 h)]

theorem mmuTranslate_miss {m : MmuConfig} {k : AccessKind} {va : Word} {s : State} (h : va.toNat < 0xC0000000)
    (hno : ∀ w e, ¬WayMatches m s va w e) : mmuTranslate m k va s = .error (.exc (tlbMissExc va k)) := by
  simp [mmuTranslate, bypassesTlb_of_lt h, tlbMatches_none fun w hw => wayMatch_none hw (hno w)]

/-- The one way that matches decides, by its permission (20_memory.md R145, R146). -/
theorem mmuTranslate_one {m : MmuConfig} {k : AccessKind} {va : Word} {s : State} {w : Nat} {e : TlbEntry}
    (h : va.toNat < 0xC0000000) (hone : OnlyWay m s va w e) :
    mmuTranslate m k va s =
      if e.permits k then .ok (e.pfn ++ va.extractLsb' 0 12, e.c) else .error (.exc (tlbPermissionExc va k)) := by
  obtain ⟨hw, he⟩ := wayMatches_iff.1 hone.1
  have hl : tlbMatches m (va.extractLsb' 12 20) s = [e] :=
    tlbMatches_one hw he fun x hx hne => wayMatch_none hx fun e' he' => hne (hone.2 x e' he')
  simp [mmuTranslate, bypassesTlb_of_lt h, hl]

theorem mmuTranslate_multiple {m : MmuConfig} {k : AccessKind} {va : Word} {s : State} {w w' : Nat} {e e' : TlbEntry}
    (h : va.toNat < 0xC0000000) (hw : WayMatches m s va w e) (hw' : WayMatches m s va w' e') (hne : w ≠ w') :
    mmuTranslate m k va s = .error (.fault .multipleTlbMatch) := by
  obtain ⟨hlt, he⟩ := wayMatches_iff.1 hw
  obtain ⟨hlt', he'⟩ := wayMatches_iff.1 hw'
  obtain ⟨a, b, l, hl⟩ := tlbMatches_two hlt hlt' he he' hne
  simp [mmuTranslate, bypassesTlb_of_lt h, hl]

/-- In the two upper partitions bit 29 tells the I/O partition from the kernel partition (20_memory.md R137). -/
theorem not_bit29_iff_below_io {va : Word} (h : 0xC0000000 ≤ va.toNat) : (!va.getLsbD 29) = decide (va.toNat < 0xE0000000) := by
  have hlt := va.isLt
  rw [BitVec.getLsbD, Nat.testBit_eq_decide_div_mod_eq, ← decide_not]
  exact decide_eq_decide.2 (by omega)

/-- Settles O46: the supervisor check, the alignment check, then the partitions and the lookup. -/
theorem dataAddressMmu : Obligations.DataAddressMmu := by
  intro k n ea s m hp hk
  have hmmu : s.config.hasMmu = true := hasMmu_of_mmu hp
  have hforbidden : dataForbidden k ea s = true ↔ s.user = true ∧ ea.getLsbD 31 = true ∧ k ≠ .initda := by
    simp [dataForbidden_iff hk, hmmu]
  refine ⟨fun h => dataAddr_forbidden (hforbidden.2 h), fun h hm => ?_, fun h hm => ?_⟩
  · rw [dataAddr_misaligned (Bool.eq_false_iff.2 (mt hforbidden.1 h)) (dataMisaligned_iff.2 hm),
      if_pos (illegalMemCheck_of_mmu hmmu)]
  have ht : dataAddr k n ea s = mmuTranslate m k ea s := by
    rw [dataAddr_checked (Bool.eq_false_iff.2 (mt hforbidden.1 h)) (Bool.eq_false_iff.2 (mt dataMisaligned_iff.1 hm)),
      dataTranslate, hp]
  rw [ht]
  refine ⟨fun hge => by rw [mmuTranslate_bypass hge, not_bit29_iff_below_io hge], fun hlt =>
    ⟨fun hno => ?_, fun w e hone => ?_, fun w e w' e' hw hw' hne => mmuTranslate_multiple hlt hw hw' hne⟩⟩
  · rw [mmuTranslate_miss hlt hno]
    cases k with
    | fetch => exact absurd rfl hk
    | load | store | flushda | initda => rfl
  · rw [mmuTranslate_one hlt hone]
    refine ⟨fun hperm => if_pos ?_, ?_, ?_⟩
    · cases k with
      | fetch => exact absurd rfl hk
      | load => exact hperm.1 rfl
      | store => exact hperm.2 rfl
      | flushda | initda => rfl
    · rintro rfl hr
      simp [TlbEntry.permits, tlbPermissionExc, hr]
    · rintro rfl hw
      simp [TlbEntry.permits, tlbPermissionExc, hw]

/-! The address of a fetch. -/

/-- `tlbmisc.DBL` after a TLB miss: the miss is a double one when an exception is in process (60_exceptions.md R475). -/
theorem takeException_tlbMissInstr_dbl {s : State} (h : s.config.hasMmu = true) :
    (takeException .tlbMissInstr s).tlbmisc.getLsbD 3 = s.eh := by
  have hn : s.nested = s.eh := by simp [State.nested, h]
  rw [takeException_tlbmisc, if_pos h, hn]
  cases s.eh <;> simp [entryTlbmisc, Exc.isTlbMiss, Exc.isTlbPermission, Exc.setsBad, Exc.setsD]

theorem fetchAddr_mmu {s : State} {m : MmuConfig} (hp : s.config.protection = .mmu m)
    (h : ¬(s.user = true ∧ s.pc.getLsbD 31 = true)) : fetchAddr s = (mmuTranslate m .fetch s.pc s).map Prod.fst := by
  have hu : (s.user && s.pc.getLsbD 31) = false := by simpa using h
  simp only [fetchAddr, hp, hu]
  cases mmuTranslate m .fetch s.pc s <;> rfl

/-- Settles O47: the three protection units in turn. -/
theorem fetchAddress : Obligations.FetchAddress := by
  refine ⟨fun s hmmu hoff => ?_, fun s m hp hpe hd => ?_, fun s m hp => ?_⟩
  · unfold fetchAddr
    split
    · next hp => simp [hasMmu_of_mmu hp] at hmmu
    · next hp =>
      have hactive : s.mpuActive = false := by
        rcases hoff with h | h | h
        · simp [hasMpu_of_mpu hp] at h
        · simp [State.mpuActive, h]
        · simp [State.mpuActive, h]
      simp [hactive]
    · rfl
  · have hactive : s.mpuActive = true := by simp [State.mpuActive, hpe, hd]
    simp only [fetchAddr, hp, hactive, if_true]
    exact ⟨fun c hc => by rw [hc, ok_bind], fun e he => by rw [he, error_bind]⟩
  · refine ⟨fun h => by simp [fetchAddr, hp, h], fun h => ?_⟩
    rw [fetchAddr_mmu hp h]
    refine ⟨fun hge => by rw [mmuTranslate_bypass hge]; rfl, fun hlt =>
      ⟨fun hno => ⟨by rw [mmuTranslate_miss hlt hno]; rfl, takeException_tlbMissInstr_dbl (hasMmu_of_mmu hp)⟩,
        fun w e hone => ?_, fun w e w' e' hw hw' hne => by rw [mmuTranslate_multiple hlt hw hw' hne]; rfl⟩⟩
    rw [mmuTranslate_one hlt hone]
    exact ⟨fun hx => by rw [if_pos (show e.permits .fetch = true from hx)]; rfl,
      fun hx => by rw [if_neg (by simp [TlbEntry.permits, hx])]; rfl⟩

end Sys2Proof.Machine
end

section
/-! SUPPORT. The loads and stores that no data cache answers, and the stop on an aliased line (statements O11, O12 and O60): each of
the sixteen instructions as one form, what that form answers from what its access answers, and a value read little endian in
the words of the statements. -/

namespace Sys2Proof.Machine

open Sys2Proof.Statements

/-! The sixteen instructions by their form. -/

/-- The instruction is the load of `n` bytes on the path `io` whose value `ext` extends (40_data_transfer.md R251). -/
def IsLoad (mk : Reg → Reg → BitVec 16 → Instr) (n : Nat) (io : Bool) (ext : Word → Word) : Prop :=
  ∀ rB rA imm s, exec (mk rB rA imm) s = loadInstr n io ext rB rA imm s

/-- The instruction is the store of `n` bytes on the path `io` (40_data_transfer.md R251). -/
def IsStore (mk : Reg → Reg → BitVec 16 → Instr) (n : Nat) (io : Bool) : Prop :=
  ∀ rB rA imm s, exec (mk rB rA imm) s = storeInstr n io rB rA imm s

theorem isLoad_ldw : IsLoad .ldw 4 false id := fun _ _ _ _ => rfl
theorem isLoad_ldwio : IsLoad .ldwio 4 true id := fun _ _ _ _ => rfl
theorem isLoad_ldb : IsLoad .ldb 1 false sextByte := fun _ _ _ _ => rfl
theorem isLoad_ldbio : IsLoad .ldbio 1 true sextByte := fun _ _ _ _ => rfl
theorem isLoad_ldbu : IsLoad .ldbu 1 false zextByte := fun _ _ _ _ => rfl
theorem isLoad_ldbuio : IsLoad .ldbuio 1 true zextByte := fun _ _ _ _ => rfl
theorem isLoad_ldh : IsLoad .ldh 2 false sextHalf := fun _ _ _ _ => rfl
theorem isLoad_ldhio : IsLoad .ldhio 2 true sextHalf := fun _ _ _ _ => rfl
theorem isLoad_ldhu : IsLoad .ldhu 2 false zextHalf := fun _ _ _ _ => rfl
theorem isLoad_ldhuio : IsLoad .ldhuio 2 true zextHalf := fun _ _ _ _ => rfl
theorem isStore_stw : IsStore .stw 4 false := fun _ _ _ _ => rfl
theorem isStore_stwio : IsStore .stwio 4 true := fun _ _ _ _ => rfl
theorem isStore_stb : IsStore .stb 1 false := fun _ _ _ _ => rfl
theorem isStore_stbio : IsStore .stbio 1 true := fun _ _ _ _ => rfl
theorem isStore_sth : IsStore .sth 2 false := fun _ _ _ _ => rfl
theorem isStore_sthio : IsStore .sthio 2 true := fun _ _ _ _ => rfl

section
variable {mk : Reg → Reg → BitVec 16 → Instr} {n : Nat} {io c : Bool} {ext : Word → Word} {rB rA : Reg} {imm : BitVec 16}
  {s t : State} {pa v : Word} {f : Fault}

theorem effectiveAddress_eq (rA : Reg) (imm : BitVec 16) (s : State) :
    effectiveAddress rA imm s = s.reg rA + imm.signExtend 32 := rfl

/-- A load from an address that the checks let through is the read there. -/
theorem loadFrom_of_dataAddr {ea : Word} (ha : dataAddr .load n ea s = .ok (pa, c)) :
    loadFrom n io ea s = dataRead io n c ea pa s := by
  rw [loadFrom, ha]
  rfl

/-- A store to an address that the checks let through is the write there. -/
theorem storeTo_of_dataAddr {ea : Word} (ha : dataAddr .store n ea s = .ok (pa, c)) :
    storeTo n io ea v s = dataWrite io n c ea pa v s := by
  rw [storeTo, ha]
  rfl

/-- A load whose read answers completes: its register is written and `pc` goes on. -/
theorem IsLoad.exec_ok (h : IsLoad mk n io ext) (ha : dataAddr .load n (s.reg rA + imm.signExtend 32) s = .ok (pa, c))
    (hr : dataRead io n c (s.reg rA + imm.signExtend 32) pa s = .ok (v, t)) :
    exec (mk rB rA imm) s = .next (t.setReg rB (ext v)).advance := by
  rw [h, loadInstr, effectiveAddress_eq, loadFrom_of_dataAddr ha, hr]
  rfl

theorem IsLoad.exec_fault (h : IsLoad mk n io ext) (ha : dataAddr .load n (s.reg rA + imm.signExtend 32) s = .ok (pa, c))
    (hr : dataRead io n c (s.reg rA + imm.signExtend 32) pa s = .error (.fault f)) :
    exec (mk rB rA imm) s = .fault f := by
  rw [h, loadInstr, effectiveAddress_eq, loadFrom_of_dataAddr ha, hr]
  rfl

/-- A store whose write answers completes: `pc` goes on. -/
theorem IsStore.exec_ok (h : IsStore mk n io) (ha : dataAddr .store n (s.reg rA + imm.signExtend 32) s = .ok (pa, c))
    (hw : dataWrite io n c (s.reg rA + imm.signExtend 32) pa (s.reg rB) s = .ok t) :
    exec (mk rB rA imm) s = .next t.advance := by
  rw [h, storeInstr, effectiveAddress_eq, storeTo_of_dataAddr ha, hw]
  rfl

theorem IsStore.exec_fault (h : IsStore mk n io) (ha : dataAddr .store n (s.reg rA + imm.signExtend 32) s = .ok (pa, c))
    (hw : dataWrite io n c (s.reg rA + imm.signExtend 32) pa (s.reg rB) s = .error (.fault f)) :
    exec (mk rB rA imm) s = .fault f := by
  rw [h, storeInstr, effectiveAddress_eq, storeTo_of_dataAddr ha, hw]
  rfl

end

/-! An I-type word. -/

/-- An I-type word decodes to the instruction of its OP, its operands in the fields. -/
theorem decode_encodeI {op : BitVec 6} {mk : Reg → Reg → BitVec 16 → Instr}
    (h : ∀ w, decodeOp op w = .ok (mk (fieldB w) (fieldA w) (fieldImm16 w))) (a b : Reg) (imm : BitVec 16) :
    decode (encodeI op a b imm) = .ok (mk b a imm) := by
  rw [decode, fieldOp_encodeI, h, fieldB_encodeI, fieldA_encodeI, fieldImm16_encodeI]

/-! Values in memory. -/

/-- A byte in front of a longer value: little endian (20_memory.md R104). -/
theorem shiftLeft_or_byte {k : Nat} (x : BitVec k) (b : Byte) :
    x.setWidth 32 <<< 8 ||| b.setWidth 32 = (x ++ b).setWidth 32 := by
  apply BitVec.eq_of_getLsbD_eq
  intro i hi
  simp only [BitVec.getLsbD_or, BitVec.getLsbD_shiftLeft, BitVec.getLsbD_setWidth, BitVec.getLsbD_append]
  by_cases h : i < 8
  · simp [h, hi]
  · simp [h, hi, BitVec.getLsbD_of_ge b i (by omega)]
    omega

theorem readLE_one (m : Memory) (a : Nat) : m.readLE a 1 = (byteAt m a).setWidth 32 := by
  simp [Memory.readLE, byteAt]

theorem readLE_two (m : Memory) (a : Nat) : m.readLE a 2 = (halfAt m a).setWidth 32 := by
  rw [Memory.readLE, readLE_one, shiftLeft_or_byte]
  rfl

theorem readLE_four (m : Memory) (a : Nat) : m.readLE a 4 = wordAt m a := by
  have h3 : m.readLE (a + 1) 3 = (m.read (a + 3) ++ m.read (a + 2) ++ m.read (a + 1)).setWidth 32 := by
    rw [Memory.readLE, readLE_two, shiftLeft_or_byte]
    rfl
  rw [Memory.readLE, h3, shiftLeft_or_byte, BitVec.setWidth_eq]
  rfl

/-- The low part of a value that was widened. -/
theorem extract_setWidth {k : Nat} (hk : k ≤ 32) (x : BitVec k) : (x.setWidth 32).extractLsb' 0 k = x := by
  apply BitVec.eq_of_getLsbD_eq
  intro i hi
  simp [hi, show i < 32 by omega]

theorem sextByte_readLE (m : Memory) (a : Nat) : sextByte (m.readLE a 1) = (byteAt m a).signExtend 32 := by
  rw [readLE_one, sextByte, extract_setWidth (by omega)]

theorem zextByte_readLE (m : Memory) (a : Nat) : zextByte (m.readLE a 1) = (byteAt m a).setWidth 32 := by
  rw [readLE_one, zextByte, extract_setWidth (by omega)]

theorem sextHalf_readLE (m : Memory) (a : Nat) : sextHalf (m.readLE a 2) = (halfAt m a).signExtend 32 := by
  rw [readLE_two, sextHalf, extract_setWidth (by omega)]

theorem zextHalf_readLE (m : Memory) (a : Nat) : zextHalf (m.readLE a 2) = (halfAt m a).setWidth 32 := by
  rw [readLE_two, zextHalf, extract_setWidth (by omega)]

/-! Loads and stores that reach memory. -/

/-- A load form reads memory's bytes, little endian, and extends them. -/
theorem IsLoad.loadOp {op : BitVec 6} {mk : Reg → Reg → BitVec 16 → Instr} {n : Nat} {io : Bool} {ext : Word → Word}
    {value : Memory → Nat → Word} (h : IsLoad mk n io ext)
    (hop : ∀ w, decodeOp op w = .ok (mk (fieldB w) (fieldA w) (fieldImm16 w)))
    (hval : ∀ m a, ext (m.readLE a n) = value m a) : LoadOp op mk n io value := by
  refine ⟨decode_encodeI hop, fun rB rA imm s pa c hr => ?_⟩
  have hread : dataRead io n c (s.reg rA + imm.signExtend 32) pa s = .ok (s.memory.readLE pa.toNat n, s) := by
    rw [dataRead_uncached hr.uncached, uncachedRead_memory hr.mapped]
  exact ⟨_, h.exec_ok hr.address hread, hval s.memory pa.toNat ▸ wrote_setReg_advance s rB _⟩

/-- Settles O11: the ten loads are one form. -/
theorem loadResults : Obligations.LoadResults :=
  ⟨isLoad_ldw.loadOp (fun _ => rfl) readLE_four, isLoad_ldwio.loadOp (fun _ => rfl) readLE_four,
    isLoad_ldb.loadOp (fun _ => rfl) sextByte_readLE, isLoad_ldbu.loadOp (fun _ => rfl) zextByte_readLE,
    isLoad_ldh.loadOp (fun _ => rfl) sextHalf_readLE, isLoad_ldhu.loadOp (fun _ => rfl) zextHalf_readLE,
    isLoad_ldbio.loadOp (fun _ => rfl) sextByte_readLE, isLoad_ldbuio.loadOp (fun _ => rfl) zextByte_readLE,
    isLoad_ldhio.loadOp (fun _ => rfl) sextHalf_readLE, isLoad_ldhuio.loadOp (fun _ => rfl) zextHalf_readLE⟩

/-- A store form writes the low bytes of its register to memory. -/
theorem IsStore.storeOp {op : BitVec 6} {mk : Reg → Reg → BitVec 16 → Instr} {n : Nat} {io : Bool} (h : IsStore mk n io)
    (hop : ∀ w, decodeOp op w = .ok (mk (fieldB w) (fieldA w) (fieldImm16 w))) : StoreOp op mk n io := by
  refine ⟨decode_encodeI hop, fun rB rA imm s pa c hwf hr => ?_⟩
  have hwrite : dataWrite io n c (s.reg rA + imm.signExtend 32) pa (s.reg rB) s =
      .ok { s with memory := s.memory.writeLE pa.toNat n (s.reg rB) } := by
    rw [dataWrite_uncached hr.uncached, uncachedWrite_memory hr.mapped]
  exact ⟨_, h.exec_ok hr.address hwrite, State.reg_of_regs rfl, rfl,
    fun i hi => Memory.read_writeLE_inside n hwf _ _ i hi, fun x hx => Memory.read_writeLE_outside n hwf _ _ x hx, rfl⟩

/-- Settles O12: the six stores are one form. -/
theorem storeResults : Obligations.StoreResults :=
  ⟨isStore_stw.storeOp fun _ => rfl, isStore_stwio.storeOp fun _ => rfl, isStore_stb.storeOp fun _ => rfl,
    isStore_sth.storeOp fun _ => rfl, isStore_stbio.storeOp fun _ => rfl, isStore_sthio.storeOp fun _ => rfl⟩

/-! Accesses through the data cache, and aliased lines. -/

theorem dataRead_cached {n : Nat} {va pa : Word} {s : State} {g : CacheGeometry} (h : s.config.dcache = some g) :
    dataRead false n true va pa s = cachedRead g n va pa s := by
  simp [dataRead, h]

theorem dataWrite_cached {n : Nat} {va pa v : Word} {s : State} {g : CacheGeometry} (h : s.config.dcache = some g) :
    dataWrite false n true va pa v s = cachedWrite g n va pa v s := by
  simp [dataWrite, h]

/-- A line that no reset left, under another index, makes its address an aliased one. -/
theorem aliased_of_mem {lines : List CacheLine} {i : Nat} {b : Word} {l : CacheLine} (hl : l ∈ lines) (hb : l.base = b)
    (hi : l.index ≠ i) (ho : l.origin ≠ .reset) : aliased lines i b = true := by
  rw [← Bool.not_eq_false]
  exact fun h => ho (aliased_false.1 h l hl hb hi)

theorem IsLoad.aliasStops {mk : Reg → Reg → BitVec 16 → Instr} {n : Nat} {ext : Word → Word} (h : IsLoad mk n false ext) :
    AliasStops mk .load n := by
  intro rB rA imm s pa g l ha hg hl hb hi ho
  refine h.exec_fault ha ?_
  rw [dataRead_cached hg, cachedRead, if_pos (aliased_of_mem hl hb hi ho)]

theorem IsStore.aliasStops {mk : Reg → Reg → BitVec 16 → Instr} {n : Nat} (h : IsStore mk n false) :
    AliasStops mk .store n := by
  intro rB rA imm s pa g l ha hg hl hb hi ho
  refine h.exec_fault ha ?_
  rw [dataWrite_cached hg, cachedWrite, if_pos (aliased_of_mem hl hb hi ho)]

/-- Settles O60: both accesses through the data cache look for an aliased line first. -/
theorem virtualAlias : Obligations.VirtualAlias :=
  ⟨⟨isLoad_ldw.aliasStops, isLoad_ldb.aliasStops, isLoad_ldbu.aliasStops, isLoad_ldh.aliasStops, isLoad_ldhu.aliasStops⟩,
    isStore_stw.aliasStops, isStore_stb.aliasStops, isStore_sth.aliasStops⟩

end Sys2Proof.Machine
end

section
/-! SUPPORT. The word a step runs (statement O6): a step that nothing precedes is the fetch and the instruction, and the fetch is
a word held ahead, a line's word, or the bus's. -/

namespace Sys2Proof.Machine

open Sys2Proof.Statements

/-! A step that nothing precedes. -/

theorem step_of_runsInstruction {s : State} (h : RunsInstruction s) : step s = endResult (fetchAndRun s) := by
  simp [step, boundaryEvent, h.noReset, h.legal, h.noBreak, h.noProcessorReset, h.noInterrupt]

theorem fetchAndRun_decoded {s t : State} {w : Word} {i : Instr} (hf : fetchWord s = .ok (w, t)) (hd : decode w = .ok i) :
    fetchAndRun s = exec i t := by
  simp [fetchAndRun, runWord, hf, hd]

/-- The step of a fetched word that decodes. -/
theorem step_of_fetch {s t : State} {w : Word} {i : Instr} (h : RunsInstruction s) (hf : fetchWord s = .ok (w, t))
    (hd : decode w = .ok i) : step s = endResult (exec i t) := by
  rw [step_of_runsInstruction h, fetchAndRun_decoded hf hd]

theorem step_of_fetch_fault {s : State} {f : Fault} (h : RunsInstruction s) (hf : fetchWord s = .error (.fault f)) :
    step s = .fault f := by
  rw [step_of_runsInstruction h, fetchAndRun, hf]
  rfl

/-! The fetch. -/

section
variable {s : State} {pa : Word}

/-- A word held ahead for both addresses is taken out of the pipeline. -/
theorem fetchWord_ahead {f : FetchedWord} (ha : fetchAddr s = .ok pa)
    (hf : s.prefetched.find? (fun f => f.isAt s.pc pa) = some f) :
    fetchWord s = .ok (f.word, { s with prefetched := s.prefetched.filter fun f => !f.isAt s.pc pa }) := by
  rw [fetchWord, ha, ok_bind, pipelineRead, hf]

theorem fetchWord_read (ha : fetchAddr s = .ok pa) (hno : ∀ f ∈ s.prefetched, ¬(f.va = s.pc ∧ f.addr = pa)) :
    fetchWord s = instrRead s.pc pa s := by
  have hf : s.prefetched.find? (fun f => f.isAt s.pc pa) = none :=
    List.find?_eq_none.2 fun f hm => by simpa [FetchedWord.isAt] using hno f hm
  rw [fetchWord, ha, ok_bind, pipelineRead, hf]

end

section
variable {s : State} {va pa : Word} {g : CacheGeometry}

theorem instrRead_uncached (hc : s.config.icache = none) :
    instrRead va pa s = (busRead true 4 pa s).map fun w => (w, s) := by
  rw [instrRead, hc]
  cases busRead true 4 pa s <;> rfl

theorem instrRead_hit {l : CacheLine} (hc : s.config.icache = some g)
    (hl : findLine s.icache (cacheIndex g va) (lineBase g pa) = some l) :
    instrRead va pa s = .ok (l.bytes.readLE pa.toNat 4, s) := by
  simp [instrRead, hc, hl]

/-- A miss of the instruction cache reads the bus, and may put the line in. -/
theorem instrRead_miss (hc : s.config.icache = some g)
    (hl : findLine s.icache (cacheIndex g va) (lineBase g pa) = none) :
    ∃ lines, (lines = s.icache ∨ lines = putLine s.icache (fillLine g (cacheIndex g va) (lineBase g pa) s)) ∧
      instrRead va pa s = (busRead true 4 pa s).map fun w => (w, { s with icache := lines }) := by
  by_cases hfill : (Config.fetchAllocates s.tick && allMemory s.config (lineBase g pa).toNat (lineBytes g)) = true
  · refine ⟨_, .inr rfl, ?_⟩
    cases hr : busRead true 4 pa s <;> simp [instrRead, hc, hl, hr, hfill, Except.map]
  · refine ⟨_, .inl rfl, ?_⟩
    cases hr : busRead true 4 pa s <;> simp [instrRead, hc, hl, hr, hfill, Except.map]

end

/-- Settles O6: a word held ahead, or the read of memory or of the instruction cache. -/
theorem stepFetches : Obligations.StepFetches := by
  refine ⟨fun s pa f i hrun ha hf hd => step_of_fetch hrun (fetchWord_ahead ha hf) hd, fun s pa i hrun ha hno => ?_⟩
  have hfetch := fetchWord_read ha hno
  refine ⟨fun hc hm hd => ?_, fun g hc => ⟨fun l hl hd => ?_, fun hl hm hd => ?_⟩⟩
  · rw [instrRead_uncached hc, busRead_memory hm, readLE_four] at hfetch
    exact step_of_fetch hrun hfetch hd
  · rw [instrRead_hit hc hl, readLE_four] at hfetch
    exact step_of_fetch hrun hfetch hd
  · obtain ⟨lines, hlines, hread⟩ := instrRead_miss hc hl
    rw [hread, busRead_memory hm, readLE_four] at hfetch
    exact ⟨lines, hlines, step_of_fetch hrun hfetch hd⟩

end Sys2Proof.Machine
end

section
/-! SUPPORT. The bus where memory does not answer alone (statement O17): the stop where nothing answers, and the access that a
peripheral answers, with the cycle it records. -/

namespace Sys2Proof.Machine

open Sys2Proof.Statements

/-! Where nothing answers. -/

theorem busRead_unmapped {f : Bool} {n : Nat} {pa : Word} {s : State} (h : anyUnmapped s.config pa.toNat n = true) :
    busRead f n pa s = .error (.fault .unmappedAddress) := if_pos h

theorem busWrite_unmapped {n : Nat} {pa v : Word} {s : State} (h : anyUnmapped s.config pa.toNat n = true) :
    busWrite n pa v s = .error (.fault .unmappedAddress) := if_pos h

theorem uncachedRead_unmapped {io : Bool} {n : Nat} {pa : Word} {s : State} (h : anyUnmapped s.config pa.toNat n = true) :
    uncachedRead io n pa s = .error (.fault .unmappedAddress) := by
  rw [uncachedRead, busRead_unmapped h, error_bind]

theorem uncachedWrite_unmapped {io : Bool} {n : Nat} {pa v : Word} {s : State} (h : anyUnmapped s.config pa.toNat n = true) :
    uncachedWrite io n pa v s = .error (.fault .unmappedAddress) := by
  rw [uncachedWrite, busWrite_unmapped h, error_bind]

theorem aliased_of_no_line {lines : List CacheLine} {b : Word} (h : ∀ l ∈ lines, l.base ≠ b) (i : Nat) :
    aliased lines i b = false :=
  aliased_false.2 fun l hl hb => absurd hb (h l hl)

theorem findLine_of_no_line {lines : List CacheLine} {b : Word} (h : ∀ l ∈ lines, l.base ≠ b) (i : Nat) :
    findLine lines i b = none :=
  findLine_none.2 fun l hl hp => h l hl hp.2

/-- A read that goes to the bus where nothing answers stops. -/
theorem dataRead_unmapped {io c : Bool} {n : Nat} {va pa : Word} {s : State} (hbus : GoesToBus s pa c io)
    (h : anyUnmapped s.config pa.toNat n = true) : dataRead io n c va pa s = .error (.fault .unmappedAddress) := by
  have huncached := uncachedRead_unmapped (io := io) h
  rcases hbus with hd | hc | hio | ⟨g, hg, hno⟩
  · rw [dataRead_uncached (.inl hd), huncached]
  · rw [dataRead_uncached (.inr (.inl hc)), huncached]
  · rw [dataRead_uncached (.inr (.inr hio)), huncached]
  · have hcached : cachedRead g n va pa s = .error (.fault .unmappedAddress) := by
      simp [cachedRead, aliased_of_no_line hno, findLine_of_no_line hno, busRead_unmapped h]
    simp only [dataRead, hg, hcached, huncached, ite_self]

/-- A write that goes to the bus where nothing answers stops. -/
theorem dataWrite_unmapped {io c : Bool} {n : Nat} {va pa v : Word} {s : State} (hbus : GoesToBus s pa c io)
    (h : anyUnmapped s.config pa.toNat n = true) : dataWrite io n c va pa v s = .error (.fault .unmappedAddress) := by
  have huncached := uncachedWrite_unmapped (io := io) (v := v) h
  rcases hbus with hd | hc | hio | ⟨g, hg, hno⟩
  · rw [dataWrite_uncached (.inl hd), huncached]
  · rw [dataWrite_uncached (.inr (.inl hc)), huncached]
  · rw [dataWrite_uncached (.inr (.inr hio)), huncached]
  · have hcached : cachedWrite g n va pa v s = .error (.fault .unmappedAddress) := by
      simp [cachedWrite, aliased_of_no_line hno, findLine_of_no_line hno, busWrite_unmapped h]
    simp only [dataWrite, hg, hcached, huncached, ite_self]

theorem IsLoad.unmappedStops {mk : Reg → Reg → BitVec 16 → Instr} {n : Nat} {io : Bool} {ext : Word → Word}
    (h : IsLoad mk n io ext) : UnmappedStops mk .load n io := fun _ _ _ _ _ _ ha hbus hno =>
  h.exec_fault ha (dataRead_unmapped hbus (anyUnmapped_iff.2 hno))

theorem IsStore.unmappedStops {mk : Reg → Reg → BitVec 16 → Instr} {n : Nat} {io : Bool} (h : IsStore mk n io) :
    UnmappedStops mk .store n io := fun _ _ _ _ _ _ ha hbus hno =>
  h.exec_fault ha (dataWrite_unmapped hbus (anyUnmapped_iff.2 hno))

/-! The low bytes of a value. -/

theorem getLsbD_lowBits (k : Nat) {i : Nat} (hi : i < 32) : (lowBits k).getLsbD i = decide (i < k) := by
  rw [lowBits, BitVec.getLsbD_ofNat, Nat.testBit_two_pow_sub_one]
  simp [hi]

/-- The low bits of a word are its remainder. -/
theorem and_lowBits (v : Word) (k : Nat) : v &&& lowBits k = BitVec.ofNat 32 (v.toNat % 2 ^ k) := by
  apply BitVec.eq_of_getLsbD_eq
  intro i hi
  rw [BitVec.getLsbD_and, getLsbD_lowBits k hi, BitVec.getLsbD_ofNat, Nat.testBit_mod_two_pow, BitVec.testBit_toNat,
    decide_eq_true hi, Bool.true_and, Bool.and_comm]

theorem and_lowBits_of_lt {v : Word} {k : Nat} (h : v.toNat < 2 ^ k) : v &&& lowBits k = v := by
  rw [and_lowBits, Nat.mod_eq_of_lt h, BitVec.ofNat_toNat, BitVec.setWidth_eq]

theorem extract_low_eq_setWidth (k : Nat) (w : Word) : w.extractLsb' 0 k = w.setWidth k := by
  apply BitVec.eq_of_getLsbD_eq
  intro i hi
  simp [hi]

theorem zextByte_of_lt {w : Word} (h : w.toNat < 2 ^ 8) : zextByte w = w := by
  apply BitVec.eq_of_toNat_eq
  simp only [zextByte, BitVec.toNat_setWidth, BitVec.extractLsb'_toNat, Nat.shiftRight_zero]
  omega

theorem zextHalf_of_lt {w : Word} (h : w.toNat < 2 ^ 16) : zextHalf w = w := by
  apply BitVec.eq_of_toNat_eq
  simp only [zextHalf, BitVec.toNat_setWidth, BitVec.extractLsb'_toNat, Nat.shiftRight_zero]
  omega

/-- What the bus gives has no more bytes than were asked for. -/
theorem busBytes_lt (f : Bool) (s : State) : ∀ (n a : Nat), (busBytes f s a n).toNat < 2 ^ (8 * n)
  | 0, _ => by simp [busBytes]
  | n + 1, a => by
    have ih := busBytes_lt f s n (a + 1)
    rw [busBytes, BitVec.toNat_or, BitVec.toNat_shiftLeft, Nat.shiftLeft_eq]
    refine Nat.or_lt_two_pow (lt_of_le_of_lt (Nat.mod_le _ _) ?_) ?_
    · rw [show 8 * (n + 1) = 8 * n + 8 by omega, Nat.pow_add]
      exact Nat.mul_lt_mul_of_pos_right ih (by omega)
    · have hb := (busByte f s a).isLt
      have hp : 2 ^ 8 ≤ 2 ^ (8 * (n + 1)) := Nat.pow_le_pow_right (by omega) (by omega)
      exact lt_of_le_of_lt (by rw [BitVec.toNat_setWidth]; exact Nat.mod_le _ _) (lt_of_lt_of_le hb hp)

/-! Where a peripheral answers. -/

theorem anyUnmapped_of_peripheral {c : Config} {pa : Word} {n : Nat} (h : PeripheralAnswers c pa n) :
    anyUnmapped c pa.toNat n = false :=
  Bool.eq_false_iff.2 fun hu => have ⟨i, hi, hn⟩ := anyUnmapped_iff.1 hu; h.1 i hi hn

theorem allMemory_of_peripheral {c : Config} {pa : Word} {n : Nat} (h : PeripheralAnswers c pa n) :
    allMemory c pa.toNat n = false :=
  Bool.eq_false_iff.2 fun hm => by
    obtain ⟨i, hi, hp⟩ := h.2
    rw [allMemory_iff.1 hm i hi] at hp
    cases hp

/-- The record of an access that a peripheral answers (20_memory.md R126). -/
theorem recordCycle_of_peripheral {io write : Bool} {n : Nat} {pa v : Word} {s : State}
    (h : PeripheralAnswers s.config pa n) :
    recordCycle io n pa write v s =
      { s with deviceCycles := if io then ⟨pa, n, write, v &&& lowBits (8 * n)⟩ :: s.deviceCycles else s.deviceCycles } := by
  cases io <;> simp [recordCycle, allMemory_of_peripheral h]

theorem uncachedRead_peripheral {io : Bool} {n : Nat} {pa : Word} {s : State} (h : PeripheralAnswers s.config pa n) :
    uncachedRead io n pa s = .ok (busBytes false s pa.toNat n,
      { s with deviceCycles :=
          if io then ⟨pa, n, false, busBytes false s pa.toNat n⟩ :: s.deviceCycles else s.deviceCycles }) := by
  rw [uncachedRead, busRead_ok.2 ⟨anyUnmapped_of_peripheral h, rfl⟩, ok_bind, recordCycle_of_peripheral h,
    and_lowBits_of_lt (busBytes_lt false s n pa.toNat)]

theorem uncachedWrite_peripheral {io : Bool} {n : Nat} {pa v : Word} {s : State} (h : PeripheralAnswers s.config pa n) :
    uncachedWrite io n pa v s = .ok
      { s with
        memory := busStore s.config s.memory pa.toNat n v
        deviceCycles :=
          if io then ⟨pa, n, true, BitVec.ofNat 32 (v.toNat % 2 ^ (8 * n))⟩ :: s.deviceCycles else s.deviceCycles } := by
  rw [uncachedWrite, busWrite_ok.2 ⟨anyUnmapped_of_peripheral h, rfl⟩, ok_bind, ← and_lowBits]
  exact congrArg Except.ok (recordCycle_of_peripheral h)

/-- A load form that a peripheral answers: the bus's value extended, and the cycle of an I/O load. -/
theorem IsLoad.peripheralLoad {mk : Reg → Reg → BitVec 16 → Instr} {n : Nat} {io : Bool} {ext ext' : Word → Word}
    (h : IsLoad mk n io ext) (hext : ∀ w : Word, w.toNat < 2 ^ (8 * n) → ext w = ext' w) : PeripheralLoad mk n io ext' := by
  intro rB rA imm s pa c ha hu hp
  have hread := dataRead_uncached (n := n) (va := s.reg rA + imm.signExtend 32) (pa := pa) hu
  rw [uncachedRead_peripheral hp] at hread
  have hlt := busBytes_lt false s n pa.toNat
  exact ⟨_, _, h.exec_ok ha hread, hlt, hext _ hlt ▸ wrote_setReg_advance _ rB _⟩

/-- A byte of a write on the bus that memory answers is written. -/
theorem busStore_read_inside {c : Config} : ∀ (n a : Nat) {m : Memory} (v : Word) (_ : m.wf = true) (i : Nat) (_ : i < n)
    (_ : targetAt c (a + i) = some .memory), (busStore c m a n v).read (a + i) = (v >>> (8 * i)).setWidth 8
  | n + 1, a, m, v, h, 0, _, ht => by
    simp only [Nat.add_zero, Nat.mul_zero, BitVec.ushiftRight_zero] at ht ⊢
    rw [busStore, if_pos ht, busStore_read_outside n (a + 1) _ (Memory.wf_write h _ _) a (by omega),
      Memory.read_write_wf h, if_pos rfl]
  | n + 1, a, m, v, h, i + 1, hi, ht => by
    rw [show a + (i + 1) = a + 1 + i by omega] at ht ⊢
    have hm : (if targetAt c a = some .memory then m.write a (v.setWidth 8) else m).wf = true := by
      split
      · exact Memory.wf_write h _ _
      · exact h
    rw [busStore, busStore_read_inside n (a + 1) (v >>> 8) hm i (by omega) ht, ← BitVec.shiftRight_add,
      show 8 + 8 * i = 8 * (i + 1) by omega]

/-- A byte that memory does not answer is left alone by a write on the bus. -/
theorem busStore_read_not_memory {c : Config} {b : Nat} (hb : targetAt c b ≠ some .memory) :
    ∀ (n a : Nat) {m : Memory} (v : Word) (_ : m.wf = true), (busStore c m a n v).read b = m.read b
  | 0, _, _, _, _ => rfl
  | n + 1, a, m, v, h => by
    rw [busStore]
    split
    · next ht =>
      rw [busStore_read_not_memory hb n (a + 1) _ (Memory.wf_write h _ _), Memory.read_write_wf h,
        if_neg (by rintro rfl; exact hb ht)]
    · exact busStore_read_not_memory hb n (a + 1) _ h

/-- A store form that a peripheral answers: the bytes memory answers, and the cycle of an I/O store. -/
theorem IsStore.peripheralStore {mk : Reg → Reg → BitVec 16 → Instr} {n : Nat} {io : Bool} (h : IsStore mk n io) :
    PeripheralStore mk n io := by
  intro rB rA imm s pa c hwf ha hu hp
  have hwrite := dataWrite_uncached (n := n) (va := s.reg rA + imm.signExtend 32) (pa := pa) (v := s.reg rB) hu
  rw [uncachedWrite_peripheral hp] at hwrite
  refine ⟨_, h.exec_ok ha hwrite, rfl, State.reg_of_regs rfl, rfl,
    fun i hi ht => busStore_read_inside n _ _ hwf i hi ht, fun a hout => ?_, rfl⟩
  rcases hout with hlt | hge | ht
  · exact busStore_read_outside n _ _ hwf a (.inl hlt)
  · exact busStore_read_outside n _ _ hwf a (.inr hge)
  · exact busStore_read_not_memory ht n _ _ hwf

/-! The fetch. -/

/-- A fetch that goes to the bus where nothing answers stops. -/
theorem instrRead_unmapped {va pa : Word} {s : State}
    (hbus : s.config.icache = none ∨ ∃ g, s.config.icache = some g ∧ ∀ l ∈ s.icache, l.base ≠ lineBase g pa)
    (h : anyUnmapped s.config pa.toNat 4 = true) : instrRead va pa s = .error (.fault .unmappedAddress) := by
  rcases hbus with hc | ⟨g, hc, hno⟩
  · rw [instrRead_uncached hc, busRead_unmapped h]
    rfl
  · obtain ⟨_, _, hread⟩ := instrRead_miss hc (findLine_of_no_line hno (cacheIndex g va))
    rw [hread, busRead_unmapped h]
    rfl

/-- Settles O17: each of the sixteen accesses by its form, then the fetch. -/
theorem unmappedAccess : Obligations.UnmappedAccess := by
  have hsextByte (w : Word) : sextByte w = (w.setWidth 8).signExtend 32 :=
    congrArg (BitVec.signExtend 32) (extract_low_eq_setWidth 8 w)
  have hsextHalf (w : Word) : sextHalf w = (w.setWidth 16).signExtend 32 :=
    congrArg (BitVec.signExtend 32) (extract_low_eq_setWidth 16 w)
  refine ⟨⟨isLoad_ldw.unmappedStops, isLoad_ldwio.unmappedStops, isLoad_ldb.unmappedStops, isLoad_ldbu.unmappedStops,
      isLoad_ldh.unmappedStops, isLoad_ldhu.unmappedStops, isLoad_ldbio.unmappedStops, isLoad_ldbuio.unmappedStops,
      isLoad_ldhio.unmappedStops, isLoad_ldhuio.unmappedStops, isStore_stw.unmappedStops, isStore_stwio.unmappedStops,
      isStore_stb.unmappedStops, isStore_sth.unmappedStops, isStore_stbio.unmappedStops, isStore_sthio.unmappedStops⟩,
    ⟨isLoad_ldw.peripheralLoad fun _ _ => rfl, isLoad_ldwio.peripheralLoad fun _ _ => rfl,
      isLoad_ldb.peripheralLoad fun w _ => hsextByte w, isLoad_ldbio.peripheralLoad fun w _ => hsextByte w,
      isLoad_ldbu.peripheralLoad fun _ => zextByte_of_lt, isLoad_ldbuio.peripheralLoad fun _ => zextByte_of_lt,
      isLoad_ldh.peripheralLoad fun w _ => hsextHalf w, isLoad_ldhio.peripheralLoad fun w _ => hsextHalf w,
      isLoad_ldhu.peripheralLoad fun _ => zextHalf_of_lt, isLoad_ldhuio.peripheralLoad fun _ => zextHalf_of_lt⟩,
    ⟨isStore_stw.peripheralStore, isStore_stwio.peripheralStore, isStore_stb.peripheralStore,
      isStore_stbio.peripheralStore, isStore_sth.peripheralStore, isStore_sthio.peripheralStore⟩,
    fun s pa ha hno => ⟨fun hrun hbus hun => ?_, fun hc hp => ?_⟩⟩
  · refine step_of_fetch_fault hrun ?_
    rw [fetchWord_read ha hno, instrRead_unmapped hbus (anyUnmapped_iff.2 hun)]
  · rw [fetchWord_read ha hno, instrRead_uncached hc, busRead_ok.2 ⟨(anyUnmapped_of_peripheral hp), rfl⟩]
    exact ⟨_, rfl⟩

end Sys2Proof.Machine
end

section
/-! SUPPORT. The plain accesses through the data cache (statements O13 and O14). What a cacheable access sees of a line is one
memory, the line's bytes where it is present and memory's else: a read gives its bytes, and a write leaves it written. -/

namespace Sys2Proof.Machine

open Sys2Proof.Statements

/-! Reads. -/

section
variable {s : State} {g : CacheGeometry} {n : Nat} {va pa : Word}

theorem cachedRead_hit {l : CacheLine} (ha : aliased s.dcache (cacheIndex g va) (lineBase g pa) = false)
    (hl : findLine s.dcache (cacheIndex g va) (lineBase g pa) = some l) :
    cachedRead g n va pa s = .ok (l.bytes.readLE pa.toNat n, s) := by
  simp [cachedRead, ha, hl]

/-- A miss of the data cache reads memory, and may put the line in. -/
theorem cachedRead_miss (ha : aliased s.dcache (cacheIndex g va) (lineBase g pa) = false)
    (hl : findLine s.dcache (cacheIndex g va) (lineBase g pa) = none) (hm : allMemory s.config pa.toNat n = true) :
    ∃ lines, (lines = s.dcache ∨ lines = putLine s.dcache (fillLine g (cacheIndex g va) (lineBase g pa) s)) ∧
      cachedRead g n va pa s = .ok (s.memory.readLE pa.toNat n, { s with dcache := lines }) := by
  by_cases hfill : (Config.loadAllocates s.tick && allMemory s.config (lineBase g pa).toNat (lineBytes g)) = true
  · exact ⟨_, .inr rfl, by simp [cachedRead, ha, hl, busRead_memory hm, hfill]⟩
  · exact ⟨_, .inl rfl, by simp [cachedRead, ha, hl, busRead_memory hm, hfill]⟩

end

/-- A plain load form through the data cache. -/
theorem IsLoad.cachedLoadOp {mk : Reg → Reg → BitVec 16 → Instr} {n : Nat} {ext : Word → Word}
    {value : Memory → Nat → Word} (h : IsLoad mk n false ext) (hval : ∀ m a, ext (m.readLE a n) = value m a) :
    CachedLoadOp mk n value := by
  intro rB rA imm s pa g hr
  have halias := aliased_false.2 hr.alone
  have hread := dataRead_cached (n := n) (va := s.reg rA + imm.signExtend 32) (pa := pa) hr.cached
  refine ⟨fun l hl => ?_, fun hl => ?_⟩
  · rw [cachedRead_hit halias hl] at hread
    exact ⟨_, h.exec_ok hr.address hread, hval l.bytes pa.toNat ▸ wrote_setReg_advance s rB _⟩
  · obtain ⟨lines, hlines, hmiss⟩ := cachedRead_miss halias hl hr.mapped
    rw [hmiss] at hread
    refine ⟨_, h.exec_ok hr.address hread, ?_⟩
    rw [State.advance_dcache, State.setReg_dcache, hval]
    exact ⟨hlines, wrote_setReg_advance { s with dcache := lines } rB _⟩

/-- Settles O13: the five plain loads are one form. -/
theorem cachedLoads : Obligations.CachedLoads :=
  ⟨isLoad_ldw.cachedLoadOp readLE_four, isLoad_ldb.cachedLoadOp sextByte_readLE, isLoad_ldbu.cachedLoadOp zextByte_readLE,
    isLoad_ldh.cachedLoadOp sextHalf_readLE, isLoad_ldhu.cachedLoadOp zextHalf_readLE⟩

/-! What a cacheable access sees. -/

/-- The memory that a cacheable access through this index and line address sees: `seenByte` is its byte. -/
def seenMemory (s : State) (index : Nat) (base : Word) : Memory :=
  match findLine s.dcache index base with
  | some l => l.bytes
  | none => s.memory

theorem seenMemory_hit {s : State} {i : Nat} {b : Word} {l : CacheLine} (h : findLine s.dcache i b = some l) :
    seenMemory s i b = l.bytes := by
  rw [seenMemory, h]

theorem seenMemory_miss {s : State} {i : Nat} {b : Word} (h : findLine s.dcache i b = none) : seenMemory s i b = s.memory := by
  rw [seenMemory, h]

theorem seenByte_eq (s : State) (i : Nat) (b : Word) (a : Nat) : seenByte s i b a = (seenMemory s i b).read a := by
  unfold seenByte seenMemory
  cases findLine s.dcache i b <;> rfl

/-- A read through the data cache gives what a cacheable access sees. -/
theorem cachedRead_seen {s : State} {g : CacheGeometry} {n : Nat} {va pa : Word}
    (ha : aliased s.dcache (cacheIndex g va) (lineBase g pa) = false) (hm : allMemory s.config pa.toNat n = true) :
    ∃ lines, cachedRead g n va pa s =
      .ok ((seenMemory s (cacheIndex g va) (lineBase g pa)).readLE pa.toNat n, { s with dcache := lines }) := by
  cases hl : findLine s.dcache (cacheIndex g va) (lineBase g pa) with
  | some l => exact ⟨s.dcache, by rw [cachedRead_hit ha hl, seenMemory_hit hl]⟩
  | none =>
    obtain ⟨lines, _, hread⟩ := cachedRead_miss ha hl hm
    exact ⟨lines, by rw [hread, seenMemory_miss hl]⟩

/-! Writes. -/

/-- A line to be stored to: it stands under the index and line address, its bytes are canonical and those that a cacheable
access sees there. -/
structure HoldsSeen (s : State) (g : CacheGeometry) (i : Nat) (b : Word) (k : CacheLine) : Prop where
  index : k.index = i
  base : k.base = b
  wf : k.bytes.wf = true
  bytes : ∀ a, b.toNat ≤ a → a < b.toNat + lineBytes g → k.bytes.read a = (seenMemory s i b).read a

theorem HoldsSeen.of_hit {s : State} {g : CacheGeometry} {i : Nat} {b : Word} {l : CacheLine}
    (hf : cacheFits s.config (some g) s.dcache) (hl : findLine s.dcache i b = some l) : HoldsSeen s g i b l where
  index := (findLine_some hl).2.1
  base := (findLine_some hl).2.2
  wf := (cacheFits_find hf hl).1
  bytes _ _ _ := by rw [seenMemory_hit hl]

theorem HoldsSeen.of_miss {s : State} {g : CacheGeometry} {i : Nat} {b : Word} (hl : findLine s.dcache i b = none) :
    HoldsSeen s g i b (fillLine g i b s) where
  index := rfl
  base := rfl
  wf := Memory.wf_copy _ _ rfl _
  bytes a h h' := by
    rw [seenMemory_miss hl]
    exact Memory.read_copy_inside _ _ rfl _ _ h h'

/-- From `s` to a state with memory `m` and data cache `d` a cacheable write went into a line, and perhaps to memory too; or to
memory alone, no line being present. -/
def CacheWritten (s : State) (g : CacheGeometry) (n index : Nat) (pa base v : Word) (m : Memory) (d : List CacheLine) : Prop :=
  (∃ k, HoldsSeen s g index base k ∧ d = putLine s.dcache (k.store n pa v) ∧
    (m = s.memory ∨ m = s.memory.writeLE pa.toNat n v)) ∨
  (findLine s.dcache index base = none ∧ d = s.dcache ∧ m = s.memory.writeLE pa.toNat n v)

/-- A write through the data cache answers, where its line is not aliased and memory answers. -/
theorem cachedWrite_completes {g : CacheGeometry} {n : Nat} {va pa v : Word} {s : State}
    (ha : aliased s.dcache (cacheIndex g va) (lineBase g pa) = false) (hm : allMemory s.config pa.toNat n = true) :
    ∃ t, cachedWrite g n va pa v s = .ok t := by
  unfold cachedWrite
  rw [if_neg (by simp [ha]), busWrite_memory hm]
  split
  · split <;> exact ⟨_, rfl⟩
  · rw [ok_bind]
    split
    · exact ⟨_, rfl⟩
    · split <;> exact ⟨_, rfl⟩

/-- What a write through the data cache does where memory answers. -/
theorem cachedWrite_written {g : CacheGeometry} {n : Nat} {va pa v : Word} {s : State}
    (hf : cacheFits s.config (some g) s.dcache) (ha : aliased s.dcache (cacheIndex g va) (lineBase g pa) = false)
    (hm : allMemory s.config pa.toNat n = true) :
    ∃ m d, cachedWrite g n va pa v s = .ok { s with memory := m, dcache := d } ∧
      CacheWritten s g n (cacheIndex g va) pa (lineBase g pa) v m d := by
  obtain ⟨t, ht⟩ := cachedWrite_completes (v := v) ha hm
  obtain ⟨_, hframe, hcases⟩ := cachedWrite_ok ht
  refine ⟨t.memory, t.dcache, ht.trans (congrArg Except.ok hframe), ?_⟩
  rw [WrittenOrNot, busStore_memory hm] at hcases
  rcases hcases with ⟨l, hl, hd, hw⟩ | ⟨hl, _, ⟨hw, hd⟩ | ⟨_, hd, hw⟩⟩
  · exact .inl ⟨l, .of_hit hf hl, hd, hw⟩
  · exact .inr ⟨hl, hd, hw⟩
  · exact .inl ⟨_, .of_miss hl, hd, hw⟩

section
variable {s : State} {g : CacheGeometry} {n i : Nat} {pa b v : Word} {m : Memory} {d : List CacheLine}

/-- The line that holds what is seen is found once it was stored to. -/
theorem HoldsSeen.findLine_store {k : CacheLine} (hk : HoldsSeen s g i b k) :
    findLine (putLine s.dcache (k.store n pa v)) i b = some (k.store n pa v) := by
  rw [← hk.index, ← hk.base]
  exact findLine_putLine s.dcache (k.store n pa v)

/-- A cacheable write leaves its own line as it was, aliased or not. -/
theorem CacheWritten.aliased (h : CacheWritten s g n i pa b v m d) : aliased d i b = aliased s.dcache i b := by
  rcases h with ⟨k, hk, rfl, _⟩ | ⟨_, rfl, _⟩
  · rw [← hk.index, ← hk.base]
    exact aliased_putLine s.dcache (k.store n pa v)
  · rfl

/-- After a cacheable write, a cacheable access sees the line as it was with the bytes written. -/
theorem CacheWritten.seen (h : CacheWritten s g n i pa b v m d) (hwf : s.memory.wf = true) :
    ∃ before : Memory, before.wf = true ∧
      (∀ a, b.toNat ≤ a → a < b.toNat + lineBytes g → before.read a = (seenMemory s i b).read a) ∧
      seenMemory { s with memory := m, dcache := d } i b = before.writeLE pa.toNat n v := by
  rcases h with ⟨k, hk, rfl, _⟩ | ⟨hl, rfl, rfl⟩
  · exact ⟨k.bytes, hk.wf, hk.bytes, seenMemory_hit (l := k.store n pa v) hk.findLine_store⟩
  · exact ⟨s.memory, hwf, fun _ _ _ => by rw [seenMemory_miss hl],
      seenMemory_miss (s := { s with memory := s.memory.writeLE pa.toNat n v }) hl⟩

/-- What a cacheable store does, in the words of the statement. -/
theorem CacheWritten.storedInCache (h : CacheWritten s g n i pa b v m d) (hwf : s.memory.wf = true) :
    StoredInCache s ({ s with memory := m, dcache := d } : State).advance g n i pa b v := by
  obtain ⟨before, hbefore, hline, hseen⟩ := h.seen hwf
  have hseenByte (a : Nat) : seenByte ({ s with memory := m, dcache := d } : State).advance i b a =
      (before.writeLE pa.toNat n v).read a := by
    rw [← hseen]
    exact seenByte_eq { s with memory := m, dcache := d } i b a
  refine ⟨State.reg_of_regs rfl, rfl, fun j hj => ?_, fun a h1 h2 hout => ?_, fun hnone => ?_, fun l hl => ?_,
    fun l hne => ?_, fun a hout => ?_, rfl⟩
  · rw [hseenByte, Memory.read_writeLE_inside n hbefore _ _ j hj]
  · rw [hseenByte, Memory.read_writeLE_outside n hbefore _ _ a hout, hline a h1 h2, seenByte_eq]
  · rcases h with ⟨k, hk, rfl, _⟩ | ⟨hl, _, _⟩
    · cases hnone.symm.trans hk.findLine_store
    · exact hl
  · rcases h with ⟨k, hk, rfl, _⟩ | ⟨hmiss, rfl, _⟩
    · cases hl.symm.trans hk.findLine_store
      rfl
    · cases hl.symm.trans hmiss
  · rcases h with ⟨k, hk, rfl, _⟩ | ⟨_, rfl, _⟩
    · have hapart : l.apart (k.store n pa v) := fun e => hne ⟨e.1.trans hk.index, e.2.trans hk.base⟩
      refine mem_putLine.trans ⟨fun hmem => ?_, fun hmem => .inr ⟨hmem, hapart⟩⟩
      rcases hmem with rfl | ⟨hmem, _⟩
      · exact absurd ⟨rfl, rfl⟩ hapart
      · exact hmem
    · exact Iff.rfl
  · show m.read a = s.memory.read a
    rcases h with ⟨_, _, _, rfl | rfl⟩ | ⟨_, _, rfl⟩
    · rfl
    · exact Memory.read_writeLE_outside n hwf _ _ a hout
    · exact Memory.read_writeLE_outside n hwf _ _ a hout

end

/-! The load after the store. -/

/-- What was written reads back as the low bytes of the value. -/
theorem readLE_writeLE {m : Memory} (h : m.wf = true) (n a : Nat) (v : Word) :
    (m.writeLE a n v).readLE a n = v &&& lowBits (8 * n) := by
  apply BitVec.eq_of_getLsbD_eq
  intro i hi
  rw [Memory.getLsbD_readLE_writeLE h n a v i hi, BitVec.getLsbD_and, getLsbD_lowBits _ hi, Bool.and_comm]

theorem and_lowBits_word (v : Word) : v &&& lowBits (8 * 4) = v := and_lowBits_of_lt v.isLt

theorem zextHalf_and_lowBits (v : Word) : zextHalf (v &&& lowBits (8 * 2)) = (v.setWidth 16).setWidth 32 := by
  rw [zextHalf_of_lt, and_lowBits]
  · exact BitVec.eq_of_toNat_eq (by simp)
  · rw [and_lowBits, BitVec.toNat_ofNat]
    omega

theorem zextByte_and_lowBits (v : Word) : zextByte (v &&& lowBits (8 * 1)) = (v.setWidth 8).setWidth 32 := by
  rw [zextByte_of_lt, and_lowBits]
  · exact BitVec.eq_of_toNat_eq (by simp)
  · rw [and_lowBits, BitVec.toNat_ofNat]
    omega

/-- A plain load form through the data cache writes what a cacheable access sees. -/
theorem IsLoad.exec_seen {mk : Reg → Reg → BitVec 16 → Instr} {n : Nat} {ext : Word → Word} {rX rA : Reg}
    {imm : BitVec 16} {t : State} {ea pa : Word} {g : CacheGeometry} (h : IsLoad mk n false ext)
    (hr : ReachesCache .load n ea t pa g) (hea : t.reg rA + imm.signExtend 32 = ea) :
    ∃ u, exec (mk rX rA imm) t = .next u ∧ ∀ x, u.reg x = if x = rX ∧ rX ≠ 0#5 then
      ext ((seenMemory t (cacheIndex g ea) (lineBase g pa)).readLE pa.toNat n) else t.reg x := by
  subst hea
  obtain ⟨lines, hread⟩ := cachedRead_seen (aliased_false.2 hr.alone) hr.mapped
  refine ⟨_, h.exec_ok hr.address ((dataRead_cached hr.cached).trans hread), fun x => ?_⟩
  rw [State.reg_advance, State.reg_setReg]
  rfl

/-- The next access of the same bytes goes through the data cache too. -/
theorem CacheWritten.reachesCache {k : AccessKind} {s : State} {g : CacheGeometry} {n : Nat} {ea pa v : Word} {m : Memory}
    {d : List CacheLine} (h : CacheWritten s g n (cacheIndex g ea) pa (lineBase g pa) v m d)
    (hr : ReachesCache k n ea s pa g) :
    ReachesCache k n ea ({ s with memory := m, dcache := d } : State).advance pa g where
  address := (dataAddr_congr rfl rfl rfl rfl rfl rfl rfl rfl rfl k n ea).trans hr.address
  mapped := hr.mapped
  cached := hr.cached
  alone := aliased_false.1 (h.aliased.trans (aliased_false.2 hr.alone))

/-- A plain store form and the plain load form of the same bytes, through the data cache. -/
theorem IsStore.cachedStoreLoad {store load : Reg → Reg → BitVec 16 → Instr} {n : Nat} {ext stored : Word → Word}
    (hs : IsStore store n false) (hl : IsLoad load n false ext) (hext : ∀ v, ext (v &&& lowBits (8 * n)) = stored v) :
    CachedStoreLoad store load n stored := by
  intro rB rA imm s pa g hinv hr
  have hfits : cacheFits s.config (some g) s.dcache := hr.cached ▸ hinv.contents.1
  obtain ⟨m, d, hw, hwritten⟩ := cachedWrite_written (v := s.reg rB) hfits (aliased_false.2 hr.alone) hr.mapped
  refine ⟨_, hs.exec_ok hr.address ((dataWrite_cached hr.cached).trans hw), hwritten.storedInCache hinv.memory_wf,
    fun rX hr' => ?_⟩
  obtain ⟨before, hbefore, _, hseen⟩ := hwritten.seen hinv.memory_wf
  obtain ⟨u, hu, hregs⟩ := hl.exec_seen (rX := rX) (rA := rA) (imm := imm) (hwritten.reachesCache hr') rfl
  refine ⟨u, hu, fun x => (hregs x).trans ?_⟩
  have hvalue := congrArg (fun m => ext (Memory.readLE m pa.toNat n)) hseen
  simp only [readLE_writeLE hbefore, hext] at hvalue
  exact ite_congr rfl (fun _ => hvalue) fun _ => State.reg_of_regs rfl x

/-- Settles O14: the three pairs of a plain store and its load. -/
theorem cachedStoreThenLoad : Obligations.CachedStoreThenLoad :=
  ⟨isStore_stw.cachedStoreLoad isLoad_ldw and_lowBits_word, isStore_sth.cachedStoreLoad isLoad_ldhu zextHalf_and_lowBits,
    isStore_stb.cachedStoreLoad isLoad_ldbu zextByte_and_lowBits⟩

end Sys2Proof.Machine
end

section
/-! SUPPORT. The TLB operations of `wrctl` (statements O48 to O51): what a write of `tlbacc` and of `tlbmisc` leaves in each
field, that a written entry reads back, and that it is the way a lookup of its page finds. -/

namespace Sys2Proof.Machine

open Sys2Proof.Statements

/-! The fields of `tlbacc`. -/

/-- The implemented bits of `tlbacc`: its five flags, and those of PFN. -/
theorem tlbaccMask_eq (m : MmuConfig) : tlbaccMask m = 0x1F#12 ++ pfnMask m := by
  apply BitVec.eq_of_getLsbD_eq
  intro i hi
  rw [BitVec.getLsbD_append]
  by_cases hlow : i < 20
  · have h := congrArg (BitVec.getLsbD · i) (tlbaccMask_pfn m)
    simpa [hlow] using h
  have hbits : ∀ j, j < 12 → (0x1F#12).getLsbD j = decide (j < 5) := by decide
  rw [if_neg hlow, hbits (i - 20) (by omega)]
  by_cases hflag : i < 25
  · rw [tlbaccMask_flags m (by omega) hflag, decide_eq_true (by omega)]
  · rw [tlbaccMask_ig m (by omega) hi, decide_eq_false (by omega)]

/-- What a TLB read operation loads: the flags, and the implemented bits of PFN. -/
theorem toTlbacc_and_mask (m : MmuConfig) (e : TlbEntry) :
    e.toTlbacc &&& tlbaccMask m =
      0#7 ++ BitVec.ofBool e.c ++ BitVec.ofBool e.r ++ BitVec.ofBool e.w ++ BitVec.ofBool e.x ++ BitVec.ofBool e.g ++
        (e.pfn &&& pfnMask m) := by
  have hflags : ∀ c r w x g : Bool,
      (0#7 ++ BitVec.ofBool c ++ BitVec.ofBool r ++ BitVec.ofBool w ++ BitVec.ofBool x ++ BitVec.ofBool g) &&& 0x1F#12 =
        0#7 ++ BitVec.ofBool c ++ BitVec.ofBool r ++ BitVec.ofBool w ++ BitVec.ofBool x ++ BitVec.ofBool g := by decide
  rw [tlbaccMask_eq, TlbEntry.toTlbacc, BitVec.and_append, hflags]

/-- The entry that a value of `tlbacc` makes is that value again. -/
theorem writtenEntry_toTlbacc {m : MmuConfig} {v : Word} (hv : within (tlbaccMask m) v) (vpn : BitVec 20) (pid : BitVec 14) :
    (writtenEntry m v vpn pid).toTlbacc &&& tlbaccMask m = v := by
  have htop : v.extractLsb' 25 7 = 0#7 := by
    apply BitVec.eq_of_getLsbD_eq
    intro i hi
    rw [← hv, BitVec.getLsbD_extractLsb', BitVec.getLsbD_and, tlbaccMask_ig m (by omega) (by omega)]
    simp
  have hsplit : (writtenEntry m v vpn pid).toTlbacc = v := by
    unfold TlbEntry.toTlbacc writtenEntry
    rw [← htop]
    apply BitVec.eq_of_getLsbD_eq
    intro i hi
    simp only [BitVec.getLsbD_append, BitVec.getLsbD_extractLsb', BitVec.getLsbD_ofBool]
    by_cases hlow : i < 20
    · simp [hlow]
    by_cases hhigh : 25 ≤ i
    · simp [show ¬i < 20 by omega, show ¬i - 20 < 1 by omega, show ¬i - 20 - 1 < 1 by omega,
        show ¬i - 20 - 1 - 1 < 1 by omega, show ¬i - 20 - 1 - 1 - 1 < 1 by omega,
        show ¬i - 20 - 1 - 1 - 1 - 1 < 1 by omega, show i - 20 - 1 - 1 - 1 - 1 - 1 < 7 by omega,
        show 25 + (i - 20 - 1 - 1 - 1 - 1 - 1) = i by omega]
    · obtain rfl | rfl | rfl | rfl | rfl : i = 20 ∨ i = 21 ∨ i = 22 ∨ i = 23 ∨ i = 24 := by omega
      all_goals simp
  rw [hsplit]
  exact hv

/-- A flag of `tlbacc` is kept by the mask. -/
theorem tlbacc_flag (m : MmuConfig) (v : Word) {i : Nat} (h1 : 20 ≤ i) (h2 : i < 25) :
    (v &&& tlbaccMask m).getLsbD i = v.getLsbD i := by
  rw [BitVec.getLsbD_and, tlbaccMask_flags m h1 h2, Bool.and_true]

theorem tlbacc_pfn (m : MmuConfig) (v : Word) :
    (v &&& tlbaccMask m).extractLsb' 0 20 = v.extractLsb' 0 20 &&& pfnMask m := by
  rw [BitVec.extractLsb'_and, tlbaccMask_pfn]

/-- The tag of a VPN, in numbers (20_memory.md R142). -/
theorem tlbTag_toNat (m : MmuConfig) (vpn : BitVec 20) : (tlbTag m vpn).toNat = vpn.toNat / (m.tlbEntries / m.tlbWays) := by
  rw [tlbTag, BitVec.toNat_ofNat]
  exact Nat.mod_eq_of_lt (lt_of_le_of_lt (Nat.div_le_self _ _) vpn.isLt)

/-- The line and the tag of a VPN make it again. -/
theorem vpn_of_tag_line (m : MmuConfig) (vpn : BitVec 20) :
    BitVec.ofNat 20 ((tlbTag m vpn).toNat * (m.tlbEntries / m.tlbWays) + vpn.toNat % (m.tlbEntries / m.tlbWays)) = vpn := by
  rw [tlbTag_toNat, Nat.div_add_mod', BitVec.ofNat_toNat, BitVec.setWidth_eq]

/-! The write of `tlbacc`. -/

/-- The entry that a write of `v` to `tlbacc` makes, in its implemented bits. -/
abbrev entryOf (m : MmuConfig) (v : Word) (s : State) : TlbEntry := writtenEntry m (v &&& tlbaccMask m) s.pteVpn s.pid

section
variable {m : MmuConfig} {v : Word} {s : State} {rA : Reg}

theorem exec_wrctl_tlbacc (hp : s.config.protection = .mmu m) (hu : s.userForbidden = false) :
    exec (.wrctl 9#5 rA) s = .next (flushPipeline (writeTlbacc m (s.reg rA) s)).advance := by
  refine execWrctl_supervisor hu ?_
  show Except.ok (controlTlbacc (s.reg rA) s) = _
  rw [controlTlbacc, hp]

theorem writeTlbacc_register (h : s.we = false) : writeTlbacc m v s = { s with tlbacc := v &&& tlbaccMask m } := by
  simp [writeTlbacc, h]

/-- The TLB write operation (20_memory.md R151). -/
theorem writeTlbacc_entry (h : s.we = true) : writeTlbacc m v s =
    { s with
      tlbacc := v &&& tlbaccMask m
      tlb := if s.way.toNat < m.tlbWays then
        s.tlb.set (s.pteVpn.toNat % (m.tlbEntries / m.tlbWays) * m.tlbWays + s.way.toNat) (entryOf m v s) else s.tlb
      tlbmisc := packTlbmisc (BitVec.ofNat 4 ((s.way.toNat + 1) % m.tlbWays) &&& wayMask m) s.we (s.pid &&& pidMask m)
        (s.tlbmisc.extractLsb' 0 4) } := by
  simp [writeTlbacc, h, tlbPosition, tlbLine, tlbLines]

/-- A TLB write operation keeps the current PID. -/
theorem writeTlbacc_pid (h : s.we = true) (hm : within (tlbmiscMask m) s.tlbmisc) : (writeTlbacc m v s).pid = s.pid := by
  rw [writeTlbacc_entry h]
  exact (packTlbmisc_pid _ _ _ _).trans (pid_of_within hm)

end

/-- Settles O48: the register alone, or the entry, WAY and the register. -/
theorem tlbaccWrite : Obligations.TlbaccWrite := by
  intro rA s m hp hvalid hmisc _ hu
  rw [exec_wrctl_tlbacc hp hu]
  refine ⟨fun hwe => ?_, fun hwe => ?_⟩
  · rw [writeTlbacc_register hwe]
    exact ⟨_, rfl, rfl, rfl, State.reg_of_regs rfl, fun _ => rfl, rfl, rfl, rfl⟩
  · obtain ⟨hways, hways16, _, _⟩ := tlb_valid hvalid hp
    have hway : (BitVec.ofNat 4 ((s.way.toNat + 1) % m.tlbWays) &&& wayMask m).toNat = (s.way.toNat + 1) % m.tlbWays :=
      wayMask_of_lt hways16 (Nat.mod_lt _ hways)
    rw [writeTlbacc_entry hwe]
    exact ⟨_, entryOf m (s.reg rA) s, rfl, rfl, rfl, State.reg_of_regs rfl, fun _ => rfl, rfl, tlbTag_toNat m s.pteVpn, rfl,
      tlbacc_flag m _ (by omega) (by omega), tlbacc_pfn m _, tlbacc_flag m _ (by omega) (by omega),
      tlbacc_flag m _ (by omega) (by omega), tlbacc_flag m _ (by omega) (by omega), tlbacc_flag m _ (by omega) (by omega),
      (congrArg BitVec.toNat (packTlbmisc_way _ _ _ _)).trans hway, (packTlbmisc_we _ _ _ _).trans hwe,
      (packTlbmisc_pid _ _ _ _).trans (pid_of_within hmisc), packTlbmisc_flags _ _ _ _, rfl, rfl, rfl⟩

/-! The write of `tlbmisc`. -/

section
variable {m : MmuConfig} {v : Word} {s : State} {rA : Reg} {e : TlbEntry}

theorem exec_wrctl_tlbmisc (hp : s.config.protection = .mmu m) (hu : s.userForbidden = false) :
    exec (.wrctl 10#5 rA) s = .next (flushPipeline (writeTlbmisc m (s.reg rA) s)).advance := by
  refine execWrctl_supervisor hu ?_
  show Except.ok (controlTlbmisc (s.reg rA) s) = _
  rw [controlTlbmisc, hp]

theorem writeTlbmisc_register (h : v.getLsbD 19 = false) : writeTlbmisc m v s =
    { s with
      tlbmisc := packTlbmisc (v.extractLsb' 20 4 &&& wayMask m) (v.getLsbD 18) (v.extractLsb' 4 14 &&& pidMask m)
        (s.tlbmisc.extractLsb' 0 4) } := by
  simp only [writeTlbmisc, h, Bool.false_eq_true, if_false]

/-- The TLB read operation (20_memory.md R150). -/
theorem writeTlbmisc_entry (h : v.getLsbD 19 = true)
    (he : readEntry m (tlbLine m s.pteVpn) (v.extractLsb' 20 4 &&& wayMask m) s = e) : writeTlbmisc m v s =
    { s with
      tlbmisc := packTlbmisc (v.extractLsb' 20 4 &&& wayMask m) (v.getLsbD 18) (e.pid &&& pidMask m)
        (s.tlbmisc.extractLsb' 0 4)
      pteaddr := setVpn s.pteaddr (tlbVpn m e.tag (tlbLine m s.pteVpn))
      tlbacc := e.toTlbacc &&& tlbaccMask m } := by
  simp only [writeTlbmisc, h, he, if_true]

theorem tlbReadOp_of_readEntry (hp : s.config.protection = .mmu m) (hu : s.userForbidden = false)
    (hrd : (s.reg rA).getLsbD 19 = true)
    (he : readEntry m (tlbLine m s.pteVpn) ((s.reg rA).extractLsb' 20 4 &&& wayMask m) s = e) : TlbReadOp m rA s e := by
  rw [TlbReadOp, exec_wrctl_tlbmisc hp hu, writeTlbmisc_entry hrd he]
  exact ⟨_, rfl, packTlbmisc_way _ _ _ _, packTlbmisc_we _ _ _ _, packTlbmisc_rd _ _ _ _, packTlbmisc_pid _ _ _ _,
    packTlbmisc_flags _ _ _ _, setVpn_vpn _ _, setVpn_ptbase _ _, toTlbacc_and_mask m e, rfl, State.reg_of_regs rfl,
    fun _ => rfl, rfl, rfl, rfl⟩

/-- A way that exists reads its entry. -/
theorem readEntry_of_way {line : Nat} {way : BitVec 4} (hw : way.toNat < m.tlbWays)
    (he : s.tlb[tlbPosition m line way.toNat]? = some e) : readEntry m line way s = e := by
  simp [readEntry, hw, he]

/-- A way that does not exist reads some entry the line could hold. -/
theorem readEntry_of_no_way {line : Nat} {way : BitVec 4} (hw : m.tlbWays ≤ way.toNat) :
    (readEntry m line way s).fits m line := by
  simp only [readEntry, if_neg (Nat.not_lt.2 hw)]
  exact TlbEntry.heldAt_fits m line _

end

/-- Settles O49: the register alone, or the TLB read operation. -/
theorem tlbmiscWrite : Obligations.TlbmiscWrite := by
  intro rA s m hp _ hu
  refine ⟨fun hrd => ?_, fun hrd => ⟨fun e hw he => ?_, fun hw => ?_⟩⟩
  · rw [exec_wrctl_tlbmisc hp hu, writeTlbmisc_register hrd]
    exact ⟨_, rfl, packTlbmisc_way _ _ _ _, packTlbmisc_we _ _ _ _, packTlbmisc_rd _ _ _ _, packTlbmisc_pid _ _ _ _,
      packTlbmisc_flags _ _ _ _, rfl, State.reg_of_regs rfl, fun _ => rfl, rfl, rfl, rfl⟩
  · exact tlbReadOp_of_readEntry hp hu hrd (readEntry_of_way hw he)
  · exact ⟨_, readEntry_of_no_way hw, tlbReadOp_of_readEntry hp hu hrd rfl⟩

/-! A written entry is read back, and translates. -/

/-- The position of a way that exists lies in the TLB (20_memory.md R141). -/
theorem tlbPosition_lt {m : MmuConfig} {vpn way : Nat} (hw : way < m.tlbWays) (hn : m.tlbWays ≤ m.tlbEntries) :
    vpn % (m.tlbEntries / m.tlbWays) * m.tlbWays + way < m.tlbEntries := by
  have hlines : 0 < m.tlbEntries / m.tlbWays := Nat.div_pos hn (by omega)
  have hline := Nat.mul_le_mul_right m.tlbWays (Nat.succ_le_of_lt (Nat.mod_lt vpn hlines))
  rw [Nat.succ_mul] at hline
  have hall := Nat.div_mul_le_self m.tlbEntries m.tlbWays
  omega

/-- What the invariant says of the MMU. -/
theorem mmuInv_of_inv {s : State} {m : MmuConfig} (h : s.Inv) (hp : s.config.protection = .mmu m) : s.mmuInv m := by
  have hprot := h.protection
  rw [State.protectionInv, hp] at hprot
  exact hprot

section
variable {m : MmuConfig} {v : Word} {s : State}

/-- After a TLB write operation its entry stands at the line of the VPN and the way. -/
theorem writeTlbacc_written (hinv : s.Inv) (hp : s.config.protection = .mmu m) (hwe : s.we = true)
    (hw : s.way.toNat < m.tlbWays) :
    (writeTlbacc m v s).tlb[s.pteVpn.toNat % (m.tlbEntries / m.tlbWays) * m.tlbWays + s.way.toNat]? =
      some (entryOf m v s) := by
  obtain ⟨hlen, _, _, _⟩ := mmuInv_of_inv hinv hp
  obtain ⟨_, _, hn, _⟩ := tlb_valid hinv.config_valid hp
  simp only [writeTlbacc_entry hwe, if_pos hw]
  exact List.getElem?_set_self (by rw [hlen]; exact tlbPosition_lt hw hn)

/-- A TLB write operation leaves the other ways. -/
theorem writeTlbacc_other (hwe : s.we = true) {i : Nat}
    (hi : i ≠ s.pteVpn.toNat % (m.tlbEntries / m.tlbWays) * m.tlbWays + s.way.toNat) :
    (writeTlbacc m v s).tlb[i]? = s.tlb[i]? := by
  simp only [writeTlbacc_entry hwe]
  split
  · exact List.getElem?_set_ne (Ne.symm hi)
  · rfl

end

/-- Settles O50: the entry written is the one read, and its fields make the registers again. -/
theorem tlbWriteThenRead : Obligations.TlbWriteThenRead := by
  intro rA rB s m hinv hp hu hwe hw hway hrd
  obtain ⟨_, _, hmisc, _⟩ := mmuInv_of_inv hinv hp
  obtain ⟨_, hways16, _, _⟩ := tlb_valid hinv.config_valid hp
  have hstored : s.way &&& wayMask m = s.way := by
    apply BitVec.eq_of_toNat_eq
    simpa using wayMask_of_lt hways16 hw
  generalize ht : (flushPipeline (writeTlbacc m (s.reg rA) s)).advance = t
  have hstate : t.config = s.config ∧ t.status = s.status ∧ t.pteaddr = s.pteaddr ∧ t.regs = s.regs := by
    rw [← ht, writeTlbacc_entry hwe]
    exact ⟨rfl, rfl, rfl, rfl⟩
  obtain ⟨hconfig, hstatus, hpte, hregs⟩ := hstate
  have hvpn : t.pteVpn = s.pteVpn := by rw [State.pteVpn, hpte, State.pteVpn]
  have hreg : t.reg rB = s.reg rB := State.reg_of_regs hregs rB
  have hentry : t.tlb[tlbPosition m (tlbLine m t.pteVpn) s.way.toNat]? = some (entryOf m (s.reg rA) s) := by
    rw [hvpn, ← ht]
    exact writeTlbacc_written hinv hp hwe hw
  have hread : TlbReadOp m rB t (entryOf m (s.reg rA) s) := by
    refine tlbReadOp_of_readEntry (hconfig ▸ hp) ?_ (hreg ▸ hrd) ?_
    · rw [← hu, State.userForbidden, State.userForbidden, State.user, State.user, hconfig, hstatus]
    · rw [hreg, hway, hstored]
      exact readEntry_of_way hw hentry
  obtain ⟨u, hexec, huway, _, _, hupid, _, huvpn, _, huacc, _⟩ := hread
  refine ⟨t, u, ht ▸ exec_wrctl_tlbacc hp hu, hexec, ?_, ?_, ?_, ?_⟩
  · rw [huvpn, hvpn]
    exact vpn_of_tag_line m s.pteVpn
  · rw [hupid]
    exact pid_of_within hmisc
  · rw [huacc, ← toTlbacc_and_mask]
    exact writtenEntry_toTlbacc (within_and _ _) _ _
  · rw [huway, hreg, hway, hstored]

/-- After a TLB write operation, only the way written matches its page, if no other did. -/
theorem onlyWay_of_written {m : MmuConfig} {s t : State} {v ea : Word} (hinv : s.Inv) (hp : s.config.protection = .mmu m)
    (hwe : s.we = true) (hw : s.way.toNat < m.tlbWays) (hvpn : ea.extractLsb' 12 20 = s.pteVpn)
    (hno : ∀ w e, WayMatches m s ea w e → w = s.way.toNat) (htlb : t.tlb = (writeTlbacc m v s).tlb)
    (hpid : t.pid = s.pid) : OnlyWay m t ea s.way.toNat (entryOf m v s) := by
  have hpage : ea.toNat / 4096 = s.pteVpn.toNat := by rw [← hvpn, vpn_toNat]
  refine ⟨⟨hw, ?_, ?_, .inr hpid.symm⟩, fun w e ⟨hlt, he, htag, hmatch⟩ => ?_⟩
  · rw [htlb, hpage]
    exact writeTlbacc_written hinv hp hwe hw
  · rw [hpage]
    exact tlbTag_toNat m s.pteVpn
  · by_contra hne
    rw [htlb, writeTlbacc_other hwe (by rw [hpage]; omega)] at he
    rw [hpid] at hmatch
    exact hne (hno w e ⟨hlt, he, htag, hmatch⟩)

/-- Settles O51: the lookup finds the entry written. -/
theorem tlbWriteTranslates : Obligations.TlbWriteTranslates := by
  intro rA s m ea k n hinv hp hu hwe hw hk hal hlt hmode hvpn hr hwr hno
  obtain ⟨_, _, hmisc, _⟩ := mmuInv_of_inv hinv hp
  refine ⟨_, exec_wrctl_tlbacc hp hu, ?_⟩
  generalize ht : (flushPipeline (writeTlbacc m (s.reg rA) s)).advance = t
  have hone : OnlyWay m t ea s.way.toNat (entryOf m (s.reg rA) s) :=
    onlyWay_of_written hinv hp hwe hw hvpn hno (by rw [← ht]; rfl) (by rw [← ht]; exact writeTlbacc_pid hwe hmisc)
  have hconfig : t.config = s.config ∧ t.status = s.status := by
    rw [← ht, writeTlbacc_entry hwe]
    exact ⟨rfl, rfl⟩
  have hforbidden : dataForbidden k ea t = false := by
    rw [dataForbidden, State.user, hconfig.2, ← State.user]
    rcases hmode with h | h <;> rw [h] <;> simp
  have hpermits : (entryOf m (s.reg rA) s).permits k = true := by
    rcases hk with rfl | rfl
    · exact (tlbacc_flag m _ (by omega) (by omega)).trans hr
    · exact (tlbacc_flag m _ (by omega) (by omega)).trans hwr
  rw [dataAddr_checked hforbidden (Bool.eq_false_iff.2 fun h => (dataMisaligned_iff.1 h).2 hal), dataTranslate, hconfig.1, hp]
  show mmuTranslate m k ea t = _
  rw [mmuTranslate_one hlt hone, if_pos hpermits, ← tlbacc_pfn, ← tlbacc_flag m _ (by omega) (by omega)]
  rfl

end Sys2Proof.Machine
end

section
/-! SUPPORT. The MPU (statements O52, O54 and O55): the region that decides, the tables of permissions, the four forms of a
write of `mpuacc`, and that a written region reads back. -/

namespace Sys2Proof.Machine

open Sys2Proof.Statements

/-! The region that decides. -/

/-- The mask comparison, bit by bit (20_memory.md R171). -/
theorem mask_covers_iff (a : Word) (bound : BitVec 26) (base : BitVec 25) :
    a.extractLsb' 6 25 &&& bound.extractLsb' 0 25 = base ↔
      ∀ i, i < 25 → (a.getLsbD (i + 6) && bound.getLsbD i) = base.getLsbD i := by
  have hbit (i : Nat) (hi : i < 25) :
      (a.extractLsb' 6 25 &&& bound.extractLsb' 0 25).getLsbD i = (a.getLsbD (i + 6) && bound.getLsbD i) := by
    simp only [BitVec.getLsbD_and, BitVec.getLsbD_extractLsb', hi, decide_true, Bool.true_and, Nat.zero_add, Nat.add_comm 6]
  exact ⟨fun h i hi => by rw [← hbit i hi, h], fun h => BitVec.eq_of_getLsbD_eq fun i hi => by rw [hbit i hi, h i hi]⟩

theorem regionCovers_iff {m : MpuConfig} {r : MpuRegion} {a : Word} :
    RegionCovers m r a ↔ r.covers m.useLimit a = true := by
  unfold RegionCovers MpuRegion.covers
  split
  · simp only [Bool.and_eq_true, decide_eq_true_eq]
  · rw [beq_iff_eq, mask_covers_iff]

theorem regionOf_of_deciding {c : Config} {m : MpuConfig} {regions : List MpuRegion} {a : Word} {i : Nat} {r : MpuRegion}
    (h : DecidingRegion c m regions a i r) : regionOf c m regions a = some r := by
  obtain ⟨ha, hr, hcovers, hfirst⟩ := h
  obtain ⟨hi, hri⟩ := List.getElem?_eq_some_iff.1 hr
  rw [regionOf, if_pos ha]
  refine List.find?_eq_some_iff_getElem.2 ⟨regionCovers_iff.1 hcovers, i, hi, hri, fun j hj => ?_⟩
  simpa [regionCovers_iff] using hfirst j _ hj (List.getElem?_eq_getElem (hj.trans hi))

theorem deciding_of_regionOf {c : Config} {m : MpuConfig} {regions : List MpuRegion} {a : Word} {r : MpuRegion}
    (h : regionOf c m regions a = some r) : ∃ i, DecidingRegion c m regions a i r := by
  obtain ⟨ha, _, hcovers⟩ := regionOf_some h
  rw [regionOf, if_pos ha] at h
  obtain ⟨_, i, hi, hri, hfirst⟩ := List.find?_eq_some_iff_getElem.1 h
  refine ⟨i, ha, List.getElem?_eq_some_iff.2 ⟨hi, hri⟩, regionCovers_iff.2 hcovers, fun j r' hj hr' => ?_⟩
  obtain ⟨hlt, rfl⟩ := List.getElem?_eq_some_iff.1 hr'
  simpa [regionCovers_iff] using hfirst j hj

/-! The permissions: the tables of 10_state.md R82, value by value. -/

theorem permListed_iff {k : AccessKind} {perm : BitVec 3} : permListed (k == .fetch) perm = true ↔ perm ∈ ListedPerms k := by
  cases k <;> revert perm <;> decide

theorem listed_of_allowed {m : MpuConfig} {k : AccessKind} {user : Bool} {perm : BitVec 3}
    (h : perm ∈ AllowedPerms m k user) : perm ∈ ListedPerms k := by
  unfold AllowedPerms at h
  revert perm
  cases k <;> cases m.cacheOpPermission <;> cases user <;> decide

theorem regionPermits_iff {m : MpuConfig} {k : AccessKind} {user : Bool} {perm : BitVec 3} (h : perm ∈ ListedPerms k) :
    regionPermits m k user perm = true ↔ perm ∈ AllowedPerms m k user := by
  unfold AllowedPerms regionPermits
  revert perm
  cases k <;> cases m.cacheOpPermission <;> cases user <;> decide

/-! The check. -/

theorem mpuViolation_eq (a : Word) (k : AccessKind) :
    mpuViolation a k = if k = .fetch then .mpuViolationInstr else .mpuViolationData a := by
  cases k <;> rfl

/-- The regions a check looks at once the tables are settled. -/
abbrev regionsFor (k : AccessKind) (s : State) : List MpuRegion := if k = .fetch then s.mpu.instr else s.mpu.data

/-- The tables are settled and the regions that have a size are aligned (70_reset_and_hazards.md R551, 20_memory.md R162). -/
structure RegionsSettled (m : MpuConfig) (s : State) : Prop where
  settled : s.mpuStale = none
  aligned : m.useLimit = true ∨ ∀ r, r ∈ s.mpu.instr ∨ r ∈ s.mpu.data → r.misaligned = false

theorem RegionsSettled.no_misaligned {m : MpuConfig} {s : State} (h : RegionsSettled m s) :
    (!m.useLimit && (s.mpu.instr.any (·.misaligned) || s.mpu.data.any (·.misaligned))) = false := by
  rcases h.aligned with hl | hr
  · simp [hl]
  · have hi : s.mpu.instr.any (·.misaligned) = false := List.any_eq_false.2 fun r hm => by simp [hr r (.inl hm)]
    have hd : s.mpu.data.any (·.misaligned) = false := List.any_eq_false.2 fun r hm => by simp [hr r (.inr hm)]
    rw [hi, hd, Bool.or_false, Bool.and_false]

section
variable {m : MpuConfig} {k : AccessKind} {a : Word} {s : State}

theorem mpuCheck_no_region (h : RegionsSettled m s) (hr : regionOf s.config m (regionsFor k s) a = none) :
    mpuCheck m k a s = .error (.exc (mpuViolation a k)) := by
  simp only [mpuCheck, tablesSeen, h.settled, h.no_misaligned, Bool.false_eq_true, if_false, hr]

/-- The deciding region's PERM decides (20_memory.md R173). -/
theorem mpuCheck_region {r : MpuRegion} (h : RegionsSettled m s) (hr : regionOf s.config m (regionsFor k s) a = some r) :
    mpuCheck m k a s =
      if !permListed (k == .fetch) r.perm then .error (.fault .reservedPermission)
      else if regionPermits m k s.user r.perm then .ok r.c else .error (.exc (mpuViolation a k)) := by
  simp only [mpuCheck, tablesSeen, h.settled, h.no_misaligned, Bool.false_eq_true, if_false, hr]

end

/-- Settles O52: no region, or the permission of the one that decides. -/
theorem mpuAccessCheck : Obligations.MpuAccessCheck := by
  intro k a s m _ hstale haligned
  have hsettled : RegionsSettled m s := ⟨hstale, haligned⟩
  rw [← mpuViolation_eq]
  refine ⟨fun hno => mpuCheck_no_region hsettled (Option.eq_none_iff_forall_ne_some.2 fun r hr => ?_), fun i r hd => ?_⟩
  · obtain ⟨i, hd⟩ := deciding_of_regionOf hr
    exact hno i r hd
  rw [mpuCheck_region hsettled (regionOf_of_deciding hd)]
  refine ⟨fun hallowed => ?_, fun hlisted hdenied => ?_, fun hreserved => ?_⟩
  · have hlisted := listed_of_allowed hallowed
    simp [permListed_iff.2 hlisted, (regionPermits_iff hlisted).2 hallowed]
  · simp [permListed_iff.2 hlisted, Bool.eq_false_iff.2 (mt (regionPermits_iff hlisted).1 hdenied)]
  · simp [Bool.eq_false_iff.2 (mt permListed_iff.1 hreserved)]

/-! The write of `mpuacc`. -/

section
variable {m : MpuConfig} {v : Word} {s t : State} {rA : Reg}

theorem writeControl_mpuacc (hp : s.config.protection = .mpu m) : writeControl 15#5 v s = writeMpuacc m v s := by
  show controlMpuacc v s = _
  rw [controlMpuacc, hp]

theorem exec_wrctl_mpuacc (hp : s.config.protection = .mpu m) (hu : s.userForbidden = false)
    (hw : writeMpuacc m (s.reg rA) s = .ok t) : exec (.wrctl 15#5 rA) s = .next t.advance :=
  execWrctl_supervisor hu ((writeControl_mpuacc hp).trans hw)

theorem writeMpuacc_register (hrd : v.getLsbD 1 = false) (hwr : v.getLsbD 0 = false) :
    writeMpuacc m v s = .ok { s with mpuacc := v &&& mpuaccStored s.config m s.selectsData } := by
  simp only [writeMpuacc, hrd, hwr, Bool.false_and, Bool.false_eq_true, if_false]

/-- The region read operation (20_memory.md R176). -/
theorem writeMpuacc_read (hrd : v.getLsbD 1 = true) (hwr : v.getLsbD 0 = false) :
    writeMpuacc m v s = .ok { s with
      mpubase := setBase s.mpubase (selectedRegion s).base &&& mpubaseMask s.config m
      mpuacc := (selectedRegion s).toMpuacc &&& mpuaccStored s.config m s.selectsData } := by
  simp only [writeMpuacc, hrd, hwr, Bool.and_false, Bool.false_eq_true, if_false, if_true]

/-- The region write operation (20_memory.md R177). -/
theorem writeMpuacc_write (hrd : v.getLsbD 1 = false) (hwr : v.getLsbD 0 = true) :
    writeMpuacc m v s = .ok { s with
      mpuacc := v &&& mpuaccStored s.config m s.selectsData
      mpu := setSelectedRegion (writtenRegion s.mpubase (v &&& mpuaccStored s.config m s.selectsData)) s
      mpuStale := some (s.mpuStale.getD s.mpu) } := by
  simp only [writeMpuacc, hrd, hwr, Bool.false_and, Bool.false_eq_true, if_false, if_true]

theorem writeMpuacc_both (hrd : v.getLsbD 1 = true) (hwr : v.getLsbD 0 = true) :
    writeMpuacc m v s = .error (.fault .readAndWriteRegion) := by
  simp only [writeMpuacc, hrd, hwr, Bool.and_self, if_true]

/-- The region that `mpubase` selects, where it names one. -/
theorem selectedRegion_of_some {r : MpuRegion}
    (h : (if s.selectsData then s.mpu.data else s.mpu.instr)[s.regionIndex]? = some r) : selectedRegion s = r := by
  unfold selectedRegion
  split at h
  · next hd => rw [if_pos hd, h, Option.getD_some]
  · next hi => rw [if_neg hi, h, Option.getD_some]

theorem regionReadOp_selected (hp : s.config.protection = .mpu m) (hu : s.userForbidden = false)
    (hrd : (s.reg rA).getLsbD 1 = true) (hwr : (s.reg rA).getLsbD 0 = false) : RegionReadOp m rA s (selectedRegion s) :=
  ⟨_, exec_wrctl_mpuacc hp hu (writeMpuacc_read hrd hwr), rfl, rfl, rfl, State.reg_of_regs rfl, fun _ => rfl, rfl⟩

theorem setSelectedRegion_data (r : MpuRegion) (s : State) :
    (setSelectedRegion r s).data = if s.selectsData then s.mpu.data.set s.regionIndex r else s.mpu.data :=
  apply_ite MpuTables.data _ _ _

theorem setSelectedRegion_instr (r : MpuRegion) (s : State) :
    (setSelectedRegion r s).instr = if s.selectsData then s.mpu.instr else s.mpu.instr.set s.regionIndex r :=
  apply_ite MpuTables.instr _ _ _

end

/-- Settles O54: the four forms. -/
theorem mpuaccWrite : Obligations.MpuaccWrite := by
  intro rA s m hp hu
  refine ⟨fun hrd hwr => ?_, fun hrd hwr => ⟨fun r hr => ?_, fun _ => ⟨_, regionReadOp_selected hp hu hrd hwr⟩⟩,
    fun hrd hwr => ?_, fun hrd hwr => ?_⟩
  · exact ⟨_, exec_wrctl_mpuacc hp hu (writeMpuacc_register hrd hwr), rfl, rfl, State.reg_of_regs rfl, fun _ => rfl, rfl⟩
  · exact selectedRegion_of_some hr ▸ regionReadOp_selected hp hu hrd hwr
  · exact ⟨_, _, exec_wrctl_mpuacc hp hu (writeMpuacc_write hrd hwr), rfl, rfl, rfl, rfl, rfl, setSelectedRegion_data _ s,
      setSelectedRegion_instr _ s, rfl, rfl, State.reg_of_regs rfl, fun _ => rfl, rfl⟩
  · show execWrctl 15#5 rA s = _
    simp [execWrctl, supervisorOnly, hu, writeControl_mpuacc hp, writeMpuacc_both hrd hwr]

/-! A written region reads back. -/

/-- Bit 31 of `mpubase` is no register bit (10_state.md R76). -/
theorem mpubaseMask_top (c : Config) (m : MpuConfig) : (mpubaseMask c m).getLsbD 31 = false := by
  simp [mpubaseMask, baseMask, indexMask]

/-- RD and WR of `mpuacc` read as zero (10_state.md R83). -/
theorem mpuaccStored_flags (c : Config) (m : MpuConfig) (data : Bool) : (mpuaccStored c m data).extractLsb' 0 2 = 0#2 := by
  have hbase : (baseMask c m).extractLsb' 0 2 = 0#2 := by
    rw [baseMask, BitVec.extractLsb'_and]
    exact BitVec.and_zero
  have hlimit : (limitMask c m).extractLsb' 0 2 = 0#2 := by
    rw [limitMask, BitVec.extractLsb'_and]
    exact BitVec.and_zero
  have hbound : (boundMask c m).extractLsb' 0 2 = 0#2 := by
    unfold boundMask
    split
    · exact hlimit
    · exact hbase
  rw [mpuaccStored, mpuaccMask, BitVec.extractLsb'_and, BitVec.extractLsb'_or, hbound]
  exact BitVec.zero_and

/-- The BASE of `mpubase` put back. -/
theorem setBase_self {c : Config} {m : MpuConfig} {b : Word} (h : within (mpubaseMask c m) b) :
    setBase b (b.extractLsb' 6 25) &&& mpubaseMask c m = b := by
  have htop : b.getLsbD 31 = false := by rw [← h, BitVec.getLsbD_and, mpubaseMask_top, Bool.and_false]
  have hself : setBase b (b.extractLsb' 6 25) = b := by
    apply BitVec.eq_of_getLsbD_eq
    intro i hi
    simp only [setBase, BitVec.getLsbD_append, BitVec.getLsbD_extractLsb']
    by_cases hlow : i < 6
    · simp [hlow]
    by_cases hbase : i < 31
    · simp [hlow, show i - 6 < 25 by omega, show 6 + (i - 6) = i by omega]
    · obtain rfl : i = 31 := by omega
      simpa using htop.symm
  rw [hself]
  exact h

/-- The fields of `mpuacc` make it again, its two flags being zero. -/
theorem writtenRegion_toMpuacc {b v : Word} (h : v.extractLsb' 0 2 = 0#2) : (writtenRegion b v).toMpuacc = v := by
  unfold MpuRegion.toMpuacc writtenRegion
  rw [← h]
  apply BitVec.eq_of_getLsbD_eq
  intro i hi
  simp only [BitVec.getLsbD_append, BitVec.getLsbD_extractLsb', BitVec.getLsbD_ofBool]
  by_cases hflags : i < 2
  · simp [hflags]
  by_cases hperm : i < 5
  · simp [hflags, show i - 2 < 3 by omega, show 2 + (i - 2) = i by omega]
  by_cases hc : i < 6
  · obtain rfl : i = 5 := by omega
    simp
  · simp [hflags, show ¬i - 2 < 3 by omega, show ¬i - 2 - 3 < 1 by omega, show i - 2 - 3 - 1 < 26 by omega,
      show 6 + (i - 2 - 3 - 1) = i by omega]

/-- What the invariant says of the MPU. -/
theorem mpuInv_of_inv {s : State} {m : MpuConfig} (h : s.Inv) (hp : s.config.protection = .mpu m) : s.mpuInv m := by
  have hprot := h.protection
  rw [State.protectionInv, hp] at hprot
  exact hprot

/-- An existing region, once written, is the one selected. -/
theorem setSelectedRegion_selected {m : MpuConfig} {s : State} (r : MpuRegion) (hsized : s.mpu.sized m)
    (h : s.regionIndex < if s.selectsData then m.dataRegions else m.instrRegions) :
    (if s.selectsData then (setSelectedRegion r s).data else (setSelectedRegion r s).instr)[s.regionIndex]? = some r := by
  rw [setSelectedRegion_data, setSelectedRegion_instr]
  obtain ⟨hinstr, hdata⟩ := hsized
  by_cases hsel : s.selectsData = true
  · rw [if_pos hsel] at h
    rw [if_pos hsel, if_pos hsel, List.getElem?_set_self (hdata ▸ h)]
  · rw [if_neg hsel] at h
    rw [if_neg hsel, if_neg hsel, List.getElem?_set_self (hinstr ▸ h)]

/-- The region selected after a region write operation is the one written. -/
theorem selectedRegion_written {m : MpuConfig} {s : State} (r : MpuRegion) (acc : Word) (stale : Option MpuTables)
    (hsized : s.mpu.sized m) (h : s.regionIndex < if s.selectsData then m.dataRegions else m.instrRegions) :
    selectedRegion
      ({ s with mpuacc := acc, mpu := setSelectedRegion r s, mpuStale := stale } : State).advance = r :=
  selectedRegion_of_some
    (s := ({ s with mpuacc := acc, mpu := setSelectedRegion r s, mpuStale := stale } : State).advance)
    (setSelectedRegion_selected r hsized h)

/-- Settles O55: `mpubase` is a plain register, and the fields of a written region make both registers again. -/
theorem regionWriteThenRead : Obligations.RegionWriteThenRead := by
  refine ⟨fun m => controlWrite_of_writeControl fun v s hp => ?_, fun rA rB s m hinv hp hu hi hrd hwr hrd' hwr' => ?_⟩
  · show Except.ok (controlMpubase v s) = _
    rw [controlMpubase, hp]
  obtain ⟨hsized, _, hbase, _⟩ := mpuInv_of_inv hinv hp
  refine ⟨_, _, exec_wrctl_mpuacc hp hu (writeMpuacc_write hrd hwr),
    exec_wrctl_mpuacc hp hu (writeMpuacc_read hrd' hwr'), ?_, ?_⟩
  · show setBase s.mpubase (selectedRegion _).base &&& mpubaseMask s.config m = s.mpubase
    rw [selectedRegion_written _ _ _ hsized hi]
    exact setBase_self hbase
  · show (selectedRegion _).toMpuacc &&& mpuaccStored s.config m s.selectsData = _
    have hflags : (s.reg rA &&& mpuaccStored s.config m s.selectsData).extractLsb' 0 2 = 0#2 := by
      rw [BitVec.extractLsb'_and, mpuaccStored_flags, BitVec.and_zero]
    rw [selectedRegion_written _ _ _ hsized hi, writtenRegion_toMpuacc hflags]
    exact within_and _ _

end Sys2Proof.Machine
end

section
/-! SUPPORT. Decoding and encoding (statements O1 to O4): the decoder on a word of each format, the fields of a word put together
again, and what the decoder can answer for each OP and OPX: an instruction that encodes to these fields, or one of the errors. -/

namespace Sys2Proof

/-! The check of the fixed fields. -/

theorem canonical_eq_ok {fixed : Bool} {i j : Instr} : canonical fixed j = .ok i ↔ fixed = true ∧ i = j := by
  cases fixed <;> simp [canonical, eq_comm]

theorem canonical_eq_error {fixed : Bool} {j : Instr} {e : DecodeError} :
    canonical fixed j = .error e ↔ fixed = false ∧ e = .nonCanonical := by
  cases fixed <;> simp [canonical, eq_comm]

/-- An answer is the instruction, read in the direction of `canonical_eq_ok`. -/
theorem ok_eq_ok {i j : Instr} : (.ok j : Except DecodeError Instr) = .ok i ↔ i = j := by
  rw [Except.ok.injEq, eq_comm]

/-! A word of each format decodes by its OP or OPX. -/

/-- A branch: the I-type word whose registers are in the order of the fields. -/
theorem decode_encodeI_branch {op : BitVec 6} {mk : Reg → Reg → BitVec 16 → Instr}
    (h : ∀ w, decodeOp op w = .ok (mk (fieldA w) (fieldB w) (fieldImm16 w))) (a b : Reg) (imm : BitVec 16) :
    decode (encodeI op a b imm) = .ok (mk a b imm) :=
  Machine.decode_encodeI (mk := fun b a => mk a b) h a b imm

/-- A data-cache instruction: the I-type word with B zero. -/
theorem decode_encodeI_line {op : BitVec 6} {mk : Reg → BitVec 16 → Instr}
    (h : ∀ w, decodeOp op w = canonical (fieldB w == 0) (mk (fieldA w) (fieldImm16 w))) (a : Reg) (imm : BitVec 16) :
    decode (encodeI op a 0 imm) = .ok (mk a imm) := by
  simp [decode, h, canonical_eq_ok]

theorem decode_encodeJ {op : BitVec 6} {mk : BitVec 26 → Instr} (h : ∀ w, decodeOp op w = .ok (mk (fieldImm26 w)))
    (imm : BitVec 26) : decode (encodeJ op imm) = .ok (mk imm) := by
  simp [decode, h]

theorem decode_encodeR (opx : BitVec 6) (a b c : Reg) (imm : BitVec 5) :
    decode (encodeR opx a b c imm) = decodeOpx opx (encodeR opx a b c imm) := by
  rw [decode, fieldOp_encodeR]
  exact congrArg (decodeOpx · _) (fieldOpx_encodeR ..)

/-- The R-type word of three registers, IMM5 zero. -/
theorem decode_encodeR_registers {opx : BitVec 6} {mk : Reg → Reg → Reg → Instr}
    (h : ∀ w, decodeOpx opx w = canonical (fieldImm5 w == 0) (mk (fieldC w) (fieldA w) (fieldB w))) (a b c : Reg) :
    decode (encodeR opx a b c 0) = .ok (mk c a b) := by
  simp [decode_encodeR, h, canonical_eq_ok]

/-- The R-type word of a shift by IMM5, B zero. -/
theorem decode_encodeR_count {opx : BitVec 6} {mk : Reg → Reg → BitVec 5 → Instr}
    (h : ∀ w, decodeOpx opx w = canonical (fieldB w == 0) (mk (fieldC w) (fieldA w) (fieldImm5 w))) (a c : Reg)
    (imm : BitVec 5) : decode (encodeR opx a 0 c imm) = .ok (mk c a imm) := by
  simp [decode_encodeR, h, canonical_eq_ok]

/-- Settles O1: every instruction by the format of its word. -/
theorem decodeOfEncode : Obligations.DecodeOfEncode := by
  intro i
  cases i with
  | ldw rB rA imm | stw rB rA imm | ldwio rB rA imm | stwio rB rA imm | ldb rB rA imm | ldbu rB rA imm | ldh rB rA imm
  | ldhu rB rA imm | stb rB rA imm | sth rB rA imm | ldbio rB rA imm | ldbuio rB rA imm | ldhio rB rA imm
  | ldhuio rB rA imm | stbio rB rA imm | sthio rB rA imm | andi rB rA imm | ori rB rA imm | xori rB rA imm
  | andhi rB rA imm | orhi rB rA imm | xorhi rB rA imm | addi rB rA imm | muli rB rA imm | cmpeqi rB rA imm
  | cmpnei rB rA imm | cmpgei rB rA imm | cmpgeui rB rA imm | cmplti rB rA imm | cmpltui rB rA imm =>
    exact Machine.decode_encodeI (fun _ => rfl) rA rB imm
  | bge rA rB imm | bgeu rA rB imm | blt rA rB imm | bltu rA rB imm | beq rA rB imm | bne rA rB imm =>
    exact decode_encodeI_branch (fun _ => rfl) rA rB imm
  | flushd rA imm | flushda rA imm | initd rA imm | initda rA imm => exact decode_encodeI_line (fun _ => rfl) rA imm
  | br => simp [encode, decode, decodeOp, canonical_eq_ok]
  | call imm | jmpi imm => exact decode_encodeJ (fun _ => rfl) imm
  | and rC rA rB | or rC rA rB | xor rC rA rB | nor rC rA rB | add rC rA rB | sub rC rA rB | mul rC rA rB | div rC rA rB
  | divu rC rA rB | mulxss rC rA rB | mulxuu rC rA rB | mulxsu rC rA rB | cmpeq rC rA rB | cmpne rC rA rB
  | cmpge rC rA rB | cmpgeu rC rA rB | cmplt rC rA rB | cmpltu rC rA rB | rol rC rA rB | ror rC rA rB | sll rC rA rB
  | sra rC rA rB | srl rC rA rB => exact decode_encodeR_registers (fun _ => rfl) rA rB rC
  | roli rC rA imm | slli rC rA imm | srai rC rA imm | srli rC rA imm => exact decode_encodeR_count (fun _ => rfl) rA rC imm
  | callr | jmp | nextpc | trap | brk | rdctl | wrctl | flushi | initi =>
    simp [encode, decode_encodeR, decodeOpx, canonical_eq_ok]
  | ret | eret | bret | flushp | sync => decide
  | custom => simp [encode, decode, decodeOp]

theorem decode_of_encode_eq {i : Instr} {w : Word} (h : encode i = w) : decode w = .ok i := h ▸ decodeOfEncode i

/-- Settles O4: each word is what the encoder writes for its instruction. -/
theorem decodeWords : Obligations.DecodeWords := by
  unfold Obligations.DecodeWords
  and_intros <;> exact decode_of_encode_eq (by decide)

/-! The fields of a word, put together, are the word. -/

theorem extract_join {k l m n i : Nat} {w : BitVec k} (h : l = i + n) :
    w.extractLsb' l m ++ w.extractLsb' i n = w.extractLsb' i (m + n) :=
  BitVec.extractLsb'_append_extractLsb'_eq_extractLsb' h

/-- The OP and all that is above it. -/
theorem extract_join_all {k : Nat} (w : BitVec (k + 6)) : w.extractLsb' 6 k ++ w.extractLsb' 0 6 = w := by
  rw [extract_join (i := 0) (n := 6) rfl, extract_all]

theorem ofBool_getLsbD {k : Nat} (w : BitVec k) (i : Nat) : BitVec.ofBool (w.getLsbD i) = w.extractLsb' i 1 := by
  apply BitVec.eq_of_getLsbD_eq
  intro j hj
  obtain rfl : j = 0 := by omega
  simp

theorem encodeI_fields (w : Word) : encodeI (fieldOp w) (fieldA w) (fieldB w) (fieldImm16 w) = w := by
  unfold encodeI fieldA fieldB fieldImm16 fieldOp
  rw [extract_join (l := 27) rfl, extract_join (l := 22) rfl]
  exact extract_join_all (k := 26) w

theorem encodeJ_fields (w : Word) : encodeJ (fieldOp w) (fieldImm26 w) = w := extract_join_all (k := 26) w

theorem encodeR_fields {w : Word} (h : fieldOp w = 0x3A#6) :
    encodeR (fieldOpx w) (fieldA w) (fieldB w) (fieldC w) (fieldImm5 w) = w := by
  rw [encodeR, ← h]
  unfold fieldOpx fieldA fieldB fieldC fieldImm5 fieldOp
  rw [extract_join (l := 27) rfl, extract_join (l := 22) rfl, extract_join (l := 17) rfl, extract_join (l := 11) rfl]
  exact extract_join_all (k := 26) w

theorem encodeCustom_fields {w : Word} (h : fieldOp w = 0x32#6) :
    encodeCustom (fieldN w) (fieldC w) (fieldA w) (fieldB w) (fieldReadra w) (fieldReadrb w) (fieldWriterc w) = w := by
  rw [encodeCustom, ← h, fieldReadra, fieldReadrb, fieldWriterc, ofBool_getLsbD, ofBool_getLsbD, ofBool_getLsbD]
  unfold fieldN fieldA fieldB fieldC fieldOp
  rw [extract_join (l := 27) rfl, extract_join (l := 22) rfl, extract_join (l := 17) rfl, extract_join (l := 16) rfl,
    extract_join (l := 15) rfl, extract_join (l := 14) rfl]
  exact extract_join_all (k := 26) w

/-- The mask of O2 clears the C field of an R-type word and keeps the others. -/
theorem encodeR_clearC (opx : BitVec 6) (a b c : Reg) (imm : BitVec 5) :
    encodeR opx a b c imm &&& 0xFFC1FFFF#32 = encodeR opx a b 0 imm := by
  have hmask : 0xFFC1FFFF#32 = 31#5 ++ 31#5 ++ 0#5 ++ 63#6 ++ 31#5 ++ 63#6 := by decide
  have hall5 (x : BitVec 5) : x &&& 31#5 = x := BitVec.and_allOnes
  have hall6 (x : BitVec 6) : x &&& 63#6 = x := BitVec.and_allOnes
  rw [hmask]
  unfold encodeR
  refine BitVec.and_append.trans ?_
  rw [BitVec.and_append, BitVec.and_append, BitVec.and_append, BitVec.and_append, BitVec.and_zero, hall5, hall5, hall5, hall6,
    hall6]
  rfl

/-! What the decoder accepts. -/

/-- An accepted OPX: the instruction encodes to the fields of the word, but `bret` leaves C out. -/
theorem encode_of_decodeOpx {opx : BitVec 6} {w : Word} {i : Instr} (h : decodeOpx opx w = .ok i) :
    encode i = encodeR opx (fieldA w) (fieldB w) (fieldC w) (fieldImm5 w) ∨
      (i = .bret ∧ encode i = encodeR opx (fieldA w) (fieldB w) 0 (fieldImm5 w)) := by
  unfold decodeOpx at h
  split at h
  case h_42 => cases h
  all_goals
    simp only [canonical_eq_ok, Bool.and_eq_true, beq_iff_eq] at h
    simp [encode, h]

/-- An accepted OP: the instruction encodes to the fields of the word in one of the formats, or the OPX decides. -/
theorem encode_of_decodeOp {op : BitVec 6} {w : Word} {i : Instr} (h : decodeOp op w = .ok i) :
    encode i = encodeI op (fieldA w) (fieldB w) (fieldImm16 w) ∨
      encode i = encodeJ op (fieldImm26 w) ∨
      (op = 0x32#6 ∧ encode i =
        encodeCustom (fieldN w) (fieldC w) (fieldA w) (fieldB w) (fieldReadra w) (fieldReadrb w) (fieldWriterc w)) ∨
      (op = 0x3A#6 ∧ decodeOpx (fieldOpx w) w = .ok i) := by
  unfold decodeOp at h
  split at h
  case h_46 => cases h
  case h_45 => exact .inr (.inr (.inr ⟨rfl, h⟩))
  all_goals
    simp only [canonical_eq_ok, ok_eq_ok, Bool.and_eq_true, beq_iff_eq] at h
    simp [encode, h]

/-- Settles O2: the instruction encodes to the fields of the word, and they make the word. -/
theorem encodeOfDecode : Obligations.EncodeOfDecode := by
  intro w i h
  obtain hI | hJ | ⟨hop, hcustom⟩ | ⟨hop, hopx⟩ := encode_of_decodeOp h
  · exact .inl (hI.trans (encodeI_fields w))
  · exact .inl (hJ.trans (encodeJ_fields w))
  · exact .inl (hcustom.trans (encodeCustom_fields hop))
  obtain hR | ⟨hbret, hR⟩ := encode_of_decodeOpx hopx
  · exact .inl (hR.trans (encodeR_fields hop))
  · refine .inr ⟨hbret, ?_⟩
    rw [hR, ← encodeR_clearC _ _ _ (fieldC w), encodeR_fields hop]

/-! What the decoder rejects. -/

/-- The dashes of the OP map (30_encoding.md R207). -/
def undefinedOps : List (BitVec 6) :=
  [0x02#6, 0x09#6, 0x0A#6, 0x11#6, 0x12#6, 0x19#6, 0x1A#6, 0x1D#6, 0x1F#6, 0x21#6, 0x22#6, 0x29#6, 0x2A#6, 0x31#6, 0x38#6,
    0x39#6, 0x3D#6, 0x3E#6, 0x3F#6]

/-- The dashes of the OPX map (30_encoding.md R208). -/
def undefinedOpxs : List (BitVec 6) :=
  [0x00#6, 0x0A#6, 0x0F#6, 0x11#6, 0x14#6, 0x15#6, 0x19#6, 0x21#6, 0x22#6, 0x23#6, 0x2A#6, 0x2B#6, 0x2C#6, 0x2F#6, 0x32#6,
    0x33#6, 0x35#6, 0x37#6, 0x38#6, 0x3C#6, 0x3D#6, 0x3E#6, 0x3F#6]

/-- The instructions of the OP map, and the OPX map under 0x3A (30_encoding.md R207). -/
def definedOps : List (BitVec 6) :=
  [0x00#6, 0x01#6, 0x03#6, 0x04#6, 0x05#6, 0x06#6, 0x07#6, 0x08#6, 0x0B#6, 0x0C#6, 0x0D#6, 0x0E#6, 0x0F#6, 0x10#6, 0x13#6,
    0x14#6, 0x15#6, 0x16#6, 0x17#6, 0x18#6, 0x1B#6, 0x1C#6, 0x1E#6, 0x20#6, 0x23#6, 0x24#6, 0x25#6, 0x26#6, 0x27#6, 0x28#6,
    0x2B#6, 0x2C#6, 0x2D#6, 0x2E#6, 0x2F#6, 0x30#6, 0x32#6, 0x33#6, 0x34#6, 0x35#6, 0x36#6, 0x37#6, 0x3A#6, 0x3B#6, 0x3C#6]

/-- The instructions of the OPX map (30_encoding.md R208). -/
def definedOpxs : List (BitVec 6) :=
  [0x01#6, 0x02#6, 0x03#6, 0x04#6, 0x05#6, 0x06#6, 0x07#6, 0x08#6, 0x09#6, 0x0B#6, 0x0C#6, 0x0D#6, 0x0E#6, 0x10#6, 0x12#6,
    0x13#6, 0x16#6, 0x17#6, 0x18#6, 0x1A#6, 0x1B#6, 0x1C#6, 0x1D#6, 0x1E#6, 0x1F#6, 0x20#6, 0x24#6, 0x25#6, 0x26#6, 0x27#6,
    0x28#6, 0x29#6, 0x2D#6, 0x2E#6, 0x30#6, 0x31#6, 0x34#6, 0x36#6, 0x39#6, 0x3A#6, 0x3B#6]

/-- The two rows are the whole map. -/
theorem op_listed (op : BitVec 6) : op ∈ undefinedOps ∨ op ∈ definedOps := by decide +revert

/-- The two rows are the whole map. -/
theorem opx_listed (opx : BitVec 6) : opx ∈ undefinedOpxs ∨ opx ∈ definedOpxs := by decide +revert

theorem decodeOp_undefined {op : BitVec 6} (h : op ∈ undefinedOps) (w : Word) : decodeOp op w = .error (.undefinedOp op) :=
  have hrow : undefinedOps.map (decodeOp · w) = undefinedOps.map fun op => .error (.undefinedOp op) := rfl
  List.map_inj_left.1 hrow op h

theorem decodeOpx_undefined {opx : BitVec 6} (h : opx ∈ undefinedOpxs) (w : Word) :
    decodeOpx opx w = .error (.undefinedOpx opx) :=
  have hrow : undefinedOpxs.map (decodeOpx · w) = undefinedOpxs.map fun opx => .error (.undefinedOpx opx) := rfl
  List.map_inj_left.1 hrow opx h

/-- The map is read past its last arm only at a dash. -/
theorem decodeOpx_error {opx : BitVec 6} {w : Word} {e : DecodeError} (h : decodeOpx opx w = .error e) :
    e = .nonCanonical ∨ (e = .undefinedOpx opx ∧ opx ∈ undefinedOpxs) := by
  unfold decodeOpx at h
  split at h
  case h_42 =>
    have hno : opx ∉ definedOpxs := by simp_all [definedOpxs]
    exact .inr ⟨(Except.error.inj h).symm, (opx_listed opx).resolve_right hno⟩
  all_goals exact .inl (canonical_eq_error.1 h).2

/-- The map is read past its last arm only at a dash; the arm of 0x3A is the OPX map. -/
theorem decodeOp_error {op : BitVec 6} {w : Word} {e : DecodeError} (h : decodeOp op w = .error e) :
    e = .nonCanonical ∨ (e = .undefinedOp op ∧ op ∈ undefinedOps) ∨
      (op = 0x3A#6 ∧ decodeOpx (fieldOpx w) w = .error e) := by
  unfold decodeOp at h
  split at h
  case h_45 => exact .inr (.inr ⟨rfl, h⟩)
  case h_46 =>
    have hno : op ∉ definedOps := by simp_all [definedOps]
    exact .inr (.inl ⟨(Except.error.inj h).symm, (op_listed op).resolve_right hno⟩)
  all_goals exact .inl (by simp_all [canonical_eq_error])

/-- Settles O3: the two rows of dashes are where the two maps end, and each of the two answers comes from one map. -/
theorem undefinedEncodings : Obligations.UndefinedEncodings := by
  intro w
  refine ⟨⟨fun h => ?_, fun h => decodeOp_undefined h w⟩, ⟨fun h => ?_, fun ⟨hop, hopx⟩ => ?_⟩⟩
  · obtain he | ⟨_, hmem⟩ | ⟨_, hx⟩ := decodeOp_error h
    · cases he
    · exact hmem
    · obtain he | ⟨he, _⟩ := decodeOpx_error hx <;> cases he
  · obtain he | ⟨he, _⟩ | ⟨hop, hx⟩ := decodeOp_error h
    · cases he
    · cases he
    · obtain he | ⟨_, hmem⟩ := decodeOpx_error hx
      · cases he
      · exact ⟨hop, hmem⟩
  · rw [decode, hop]
    exact decodeOpx_undefined hopx w

end Sys2Proof
end

section
/-! SUPPORT. The step of a word that is no instruction (statement O38). -/

namespace Sys2Proof.Machine

open Sys2Proof.Statements

theorem fetchAndRun_undecoded {s t : State} {w : Word} {e : DecodeError} (hf : fetchWord s = .ok (w, t))
    (hd : decode w = .error e) : fetchAndRun s = runUndecoded e t := by
  simp [fetchAndRun, runWord, hf, hd]

/-- The three outcomes of an undefined encoding, each at the end of the boundary. -/
theorem illegalStep_of_illegalWord {s s' : State} {codes : List (BitVec 6)} {op : BitVec 6}
    (h : step s = endResult (illegalWord (codes.contains op) s')) : IllegalStep s s' (op ∈ codes) := by
  refine ⟨fun hno hcheck => ?_, fun hno hcheck => ?_, fun hin => ?_⟩
  · simp [h, illegalWord, hno, hcheck, endResult]
  · simp [h, illegalWord, hno, hcheck, endResult]
  · simp [h, illegalWord, hin, endResult]

/-- Settles O38: the step runs the word as an illegal one, its OP or OPX looked up in the core's own. -/
theorem illegalInstruction : Obligations.IllegalInstruction := by
  intro s s' w hrun hfetch op
  have hstep {e : DecodeError} (hd : decode w = .error e) : step s = endResult (runUndecoded e s') := by
    rw [step_of_runsInstruction hrun, fetchAndRun_undecoded hfetch hd]
  exact ⟨fun hd => illegalStep_of_illegalWord (hstep hd), fun hd => illegalStep_of_illegalWord (hstep hd)⟩

end Sys2Proof.Machine
end

section
/-! SUPPORT. The loads, stores and flushes whose address does not pass its checks, and the instructions that leave memory alone
(statements O15 and O18): what an access form answers when `DataAddr` stops it, and one lemma about memory for each shared form
of an instruction. -/

namespace Sys2Proof.Machine

open Sys2Proof.Statements

/-! An address that does not pass its checks. -/

section
variable {mk : Reg → Reg → BitVec 16 → Instr} {k : AccessKind} {n : Nat} {io : Bool} {ext : Word → Word} {s : State}
  {ea v : Word} {x : Stop}

/-- An access that ends as its address does has the two outcomes of the statement: `finish` takes an exception from the state
before the instruction, and a fault stops (60_exceptions.md R469). -/
theorem accessStops_of_finish
    (h : ∀ rB rA imm s x, dataAddr k n (s.reg rA + imm.signExtend 32) s = .error x →
      exec (mk rB rA imm) s = finish s (.error x)) : AccessStops mk k n := fun rB rA imm s =>
  ⟨fun e he => (h rB rA imm s (.exc e) he).trans (finish_exc s e),
    fun f hf => (h rB rA imm s (.fault f) hf).trans (finish_fault s f)⟩

theorem loadFrom_of_dataAddr_error (ha : dataAddr .load n ea s = .error x) : loadFrom n io ea s = .error x := by
  rw [loadFrom, ha, error_bind]

theorem storeTo_of_dataAddr_error (ha : dataAddr .store n ea s = .error x) : storeTo n io ea v s = .error x := by
  rw [storeTo, ha, error_bind]

theorem IsLoad.accessStops (h : IsLoad mk n io ext) : AccessStops mk .load n :=
  accessStops_of_finish fun _ _ _ _ _ ha => by
    rw [h, loadInstr, effectiveAddress_eq, loadFrom_of_dataAddr_error ha, error_bind]

theorem IsStore.accessStops (h : IsStore mk n io) : AccessStops mk .store n :=
  accessStops_of_finish fun _ _ _ _ _ ha => by
    rw [h, storeInstr, effectiveAddress_eq, storeTo_of_dataAddr_error ha, error_bind]

/-- `flushda` looks for its line only once its address has passed the checks (46_other_control.md R418). -/
theorem accessStops_flushda : AccessStops (fun _ rA imm => .flushda rA imm) .flushda 1 :=
  accessStops_of_finish fun _ rA imm s _ ha => by
    change execFlushda rA imm s = _
    rw [execFlushda, effectiveAddress_eq, ha, error_bind]

end

/-- Settles O15: ten loads of one form, six stores of another, and `flushda`. -/
theorem accessExceptions : Obligations.AccessExceptions :=
  ⟨isLoad_ldw.accessStops, isLoad_ldwio.accessStops, isLoad_ldb.accessStops, isLoad_ldbu.accessStops,
    isLoad_ldh.accessStops, isLoad_ldhu.accessStops, isLoad_ldbio.accessStops, isLoad_ldbuio.accessStops,
    isLoad_ldhio.accessStops, isLoad_ldhuio.accessStops, isStore_stw.accessStops, isStore_stwio.accessStops,
    isStore_stb.accessStops, isStore_sth.accessStops, isStore_stbio.accessStops, isStore_sthio.accessStops,
    accessStops_flushda⟩

/-! The cache operations that write nothing back. -/

@[simp] theorem initDataByIndex_memory (ea : Word) (s : State) : (initDataByIndex ea s).memory = s.memory := by
  rw [(initDataByIndex_frame ea s).1]

@[simp] theorem initDataByAddress_memory (pa : Word) (s : State) : (initDataByAddress pa s).memory = s.memory := by
  rw [(initDataByAddress_frame pa s).1]

@[simp] theorem dropInstrByIndex_memory (a : Word) (s : State) : (dropInstrByIndex a s).memory = s.memory := by
  rw [(dropInstrByIndex_frame a s).1]

/-! The forms of the instructions that leave memory alone. -/

/-- Memory as a whole is left alone from `s` to `t` (60_exceptions.md R479). -/
def KeepsMemory (s t : State) : Prop := t.memory = s.memory

namespace KeepsMemory

variable {s t u : State}

/-- The shape in which the statement asks for it: byte by byte. -/
theorem read (h : KeepsMemory s t) (a : Nat) : t.memory.read a = s.memory.read a := congrArg (Memory.read · a) h

theorem of_next (h : (.next u : Result) = .next t) (hu : KeepsMemory s u) : KeepsMemory s t := by
  cases h
  exact hu

/-- An instruction that does not complete takes its exception, which writes no memory (60_exceptions.md R479). -/
theorem of_finish {o : Except Stop State} (h : finish s o = .next t) (ho : ∀ u, o = .ok u → KeepsMemory s u) :
    KeepsMemory s t := by
  rcases finish_next.1 h with hu | ⟨e, _, rfl⟩
  · exact ho t hu
  · exact takeException_memory e s

/-- An instruction that goes on to `f a` once a check has answered `a`. -/
theorem of_finish_bind {α : Type} {x : Except Stop α} {f : α → State}
    (h : finish s (x >>= fun a => .ok (f a)) = .next t) (hf : ∀ a, x = .ok a → KeepsMemory s (f a)) :
    KeepsMemory s t := by
  refine of_finish h fun u hu => ?_
  obtain ⟨a, ha, hu⟩ := bind_ok.1 hu
  cases hu
  exact hf a ha

theorem setReg_advance (s : State) (r : Reg) (v : Word) : KeepsMemory s (s.setReg r v).advance := by
  simp [KeepsMemory]

theorem of_jumpTo {a : Word} (h : jumpTo a s = .ok t) : KeepsMemory s t := by
  obtain ⟨_, rfl⟩ := jumpTo_ok.1 h
  rfl

theorem of_writeResult {r : Reg} {v : Word} (h : writeResult r v s = .next t) : KeepsMemory s t :=
  of_next h (setReg_advance s r v)

theorem of_mulInstr {b : Bool} {r : Reg} {v : Word} (h : mulInstr b r v s = .next t) : KeepsMemory s t :=
  of_finish_bind h fun _ _ => setReg_advance s r v

theorem of_divInstr {b : Bool} {r : Reg} {x y q : Word} (h : divInstr b r x y q s = .next t) : KeepsMemory s t := by
  refine of_finish h fun u hu => ?_
  obtain ⟨_, _, hu⟩ := bind_ok.1 hu
  obtain ⟨v, _, hu⟩ := bind_ok.1 hu
  cases hu
  exact setReg_advance s r v

/-- A load changes at most the data cache, the record of the peripherals' cycles and its register. -/
theorem of_loadInstr {n : Nat} {io : Bool} {ext : Word → Word} {rB rA : Reg} {imm : BitVec 16}
    (h : loadInstr n io ext rB rA imm s = .next t) : KeepsMemory s t := by
  rcases loadInstr_next h with ⟨e, rfl⟩ | ⟨v, u, ⟨hu, _⟩, rfl⟩
  · exact takeException_memory e s
  · exact (setReg_advance u rB (ext v)).trans (by rw [hu])

theorem of_branchInstr {taken : Bool} {imm : BitVec 16} (h : branchInstr taken imm s = .next t) : KeepsMemory s t := by
  unfold branchInstr at h
  split at h
  · exact of_finish h fun _ => of_jumpTo
  · exact of_next h (State.advance_memory s)

theorem of_callr {rA : Reg} (h : execCallr rA s = .next t) : KeepsMemory s t :=
  of_finish_bind h fun u hj => (State.setReg_memory u _ _).trans (of_jumpTo hj)

theorem of_returnFromException (h : returnFromException s = .ok t) : KeepsMemory s t := by
  obtain ⟨_, _, rfl⟩ := returnFromException_ok.1 h
  rfl

theorem of_returnFromBreak (h : returnFromBreak s = .ok t) : KeepsMemory s t := by
  obtain ⟨_, _, rfl⟩ := returnFromBreak_ok.1 h
  rfl

/-- No control register is in memory (10_state.md R42). -/
theorem of_wrctl {n : BitVec 5} {rA : Reg} (h : execWrctl n rA s = .next t) : KeepsMemory s t := by
  refine of_finish h fun u hu => ?_
  obtain ⟨_, _, hu⟩ := bind_ok.1 hu
  obtain ⟨w, hw, hu⟩ := bind_ok.1 hu
  obtain ⟨_, _, _, hmem, _⟩ := writeControl_frame hw
  cases hu
  exact hmem

theorem of_initda {rA : Reg} {imm : BitVec 16} (h : execInitda rA imm s = .next t) : KeepsMemory s t := by
  refine of_finish h fun u hu => ?_
  obtain ⟨_, _, hu⟩ := bind_ok.1 hu
  obtain ⟨⟨pa, _⟩, _, hu⟩ := bind_ok.1 hu
  cases hu
  exact initDataByAddress_memory pa s

/-- Custom logic has registers of its own and no path to memory. -/
theorem of_custom {n : BitVec 8} {rC rA rB : Reg} {readra readrb writerc : Bool}
    (h : execCustom n rC rA rB readra readrb writerc s = .next t) : KeepsMemory s t := by
  unfold execCustom at h
  split at h
  · refine of_next h ?_
    cases writerc <;> simp [KeepsMemory]
  · cases h

/-- Every instruction but the stores and the two flushes of the data cache, by the form it has. -/
theorem of_exec {i : Instr} (h : exec i s = .next t)
    (hno : ∀ rB rA imm, i ≠ .stw rB rA imm ∧ i ≠ .stwio rB rA imm ∧ i ≠ .stb rB rA imm ∧ i ≠ .sth rB rA imm ∧
      i ≠ .stbio rB rA imm ∧ i ≠ .sthio rB rA imm ∧ i ≠ .flushd rA imm ∧ i ≠ .flushda rA imm) : KeepsMemory s t := by
  cases i with
  | stw rB rA imm | stwio rB rA imm | stb rB rA imm | sth rB rA imm | stbio rB rA imm | sthio rB rA imm =>
    exact absurd (hno rB rA imm) (by simp)
  | flushd rA imm | flushda rA imm => exact absurd (hno 0#5 rA imm) (by simp)
  | ldw | ldwio | ldb | ldbu | ldh | ldhu | ldbio | ldbuio | ldhio | ldhuio => exact of_loadInstr h
  | and | or | xor | nor | andi | ori | xori | andhi | orhi | xorhi | add | sub | addi
  | cmpeq | cmpne | cmpge | cmpgeu | cmplt | cmpltu | cmpeqi | cmpnei | cmpgei | cmpgeui | cmplti | cmpltui
  | rol | ror | roli | sll | slli | sra | srl | srai | srli | nextpc => exact of_writeResult h
  | mul | muli | mulxss | mulxuu | mulxsu => exact of_mulInstr h
  | div | divu => exact of_divInstr h
  | bge | bgeu | blt | bltu | beq | bne => exact of_branchInstr h
  | ret | jmp | br => exact of_finish h fun _ => of_jumpTo
  | call => exact of_next h (State.setReg_memory s _ _)
  | jmpi => exact of_next h rfl
  | callr => exact of_callr h
  | trap => exact of_next h (takeException_memory _ s)
  | brk => exact of_next h (takeBreak_memory s)
  | eret => exact of_finish h fun _ => of_returnFromException
  | bret => exact of_finish h fun _ => of_returnFromBreak
  | rdctl => exact of_finish_bind h fun _ _ => setReg_advance s _ _
  | wrctl => exact of_wrctl h
  | flushi => exact of_next h (dropInstrByIndex_memory _ s)
  | initd => exact of_finish_bind h fun _ _ => initDataByIndex_memory _ s
  | initda => exact of_initda h
  | initi => exact of_finish_bind h fun _ _ => dropInstrByIndex_memory _ s
  | flushp => exact of_next h (flushPipeline_memory s)
  | sync => exact of_next h (State.advance_memory s)
  | custom => exact of_custom h

end KeepsMemory

/-- Settles O18: every other instruction leaves memory as a whole, and so each byte. -/
theorem onlyStoresWriteMemory : Obligations.OnlyStoresWriteMemory := by
  intro i s t h hno a
  exact (KeepsMemory.of_exec h hno).read a

end Sys2Proof.Machine
end

section
/-! SUPPORT. The arithmetic and logical instructions (statements O19 to O25): each of the forms they share, from what the
decoder and `exec` make of an instruction of that form; and the model's words of arithmetic as integers. -/

namespace Sys2Proof.Machine

open Sys2Proof.Statements

/-! The forms of the instructions. -/

section
variable {opx op : BitVec 6} {mk : Reg → Reg → Reg → Instr} {mkImm : Reg → Reg → BitVec 16 → Instr} {has : Config → Bool}
  {f : Word → Word → Word} {g : Word → BitVec 16 → Word}

theorem registerOp_of_writeResult
    (hd : ∀ w, decodeOpx opx w = canonical (fieldImm5 w == 0) (mk (fieldC w) (fieldA w) (fieldB w)))
    (he : ∀ rC rA rB s, exec (mk rC rA rB) s = writeResult rC (f (s.reg rA) (s.reg rB)) s) : RegisterOp opx mk f :=
  ⟨decode_encodeR_registers hd, fun rC rA rB s => ⟨_, he rC rA rB s, wrote_setReg_advance s rC _⟩⟩

theorem immediateOp_of_writeResult
    (hd : ∀ w, decodeOp op w = .ok (mkImm (fieldB w) (fieldA w) (fieldImm16 w)))
    (he : ∀ rB rA imm s, exec (mkImm rB rA imm) s = writeResult rB (g (s.reg rA) imm) s) : ImmediateOp op mkImm g :=
  ⟨decode_encodeI hd, fun rB rA imm s => ⟨_, he rB rA imm s, wrote_setReg_advance s rB _⟩⟩

theorem mulInstr_true (r : Reg) (v : Word) (s : State) : mulInstr true r v s = .next (s.setReg r v).advance := rfl

theorem mulInstr_false (r : Reg) (v : Word) (s : State) :
    mulInstr false r v s = .next (takeException .unimplementedInstr s) := rfl

/-- A multiplication has the two outcomes of the statements, by its hardware. -/
theorem mulInstr_outcomes (inHardware : Bool) (r : Reg) (v : Word) (s : State) :
    (inHardware = true → ∃ t, mulInstr inHardware r v s = .next t ∧ Wrote s t r v (s.pc + 4#32)) ∧
      (inHardware = false → mulInstr inHardware r v s = .next (takeException .unimplementedInstr s)) := by
  refine ⟨?_, ?_⟩
  · rintro rfl
    exact ⟨_, mulInstr_true r v s, wrote_setReg_advance s r v⟩
  · rintro rfl
    exact mulInstr_false r v s

theorem hardwareOp_of_mulInstr
    (hd : ∀ w, decodeOpx opx w = canonical (fieldImm5 w == 0) (mk (fieldC w) (fieldA w) (fieldB w)))
    (he : ∀ rC rA rB s, exec (mk rC rA rB) s = mulInstr (has s.config) rC (f (s.reg rA) (s.reg rB)) s) :
    HardwareOp opx mk has f := by
  refine ⟨decode_encodeR_registers hd, fun rC rA rB s => ?_⟩
  rw [he]
  exact mulInstr_outcomes ..

end

/-! Logic. -/

/-- Settles O19: four register results. -/
theorem logicalRegister : Obligations.LogicalRegister :=
  ⟨registerOp_of_writeResult (fun _ => rfl) fun _ _ _ _ => rfl, registerOp_of_writeResult (fun _ => rfl) fun _ _ _ _ => rfl,
    registerOp_of_writeResult (fun _ => rfl) fun _ _ _ _ => rfl, registerOp_of_writeResult (fun _ => rfl) fun _ _ _ _ => rfl⟩

/-- The high immediate is the immediate moved up by half a word (30_encoding.md R205). -/
theorem high16_eq_shiftLeft (imm : BitVec 16) : high16 imm = imm.setWidth 32 <<< 16 := by
  apply BitVec.eq_of_getLsbD_eq
  intro i hi
  rw [high16, BitVec.getLsbD_append, BitVec.getLsbD_shiftLeft, BitVec.getLsbD_setWidth]
  by_cases h : i < 16
  · simp [h]
  · simp [h, hi]
    omega

/-- Settles O20: three instructions take the immediate as it is, three take it in the high half. -/
theorem logicalImmediate : Obligations.LogicalImmediate := by
  refine ⟨immediateOp_of_writeResult (fun _ => rfl) fun _ _ _ _ => rfl,
    immediateOp_of_writeResult (fun _ => rfl) fun _ _ _ _ => rfl,
    immediateOp_of_writeResult (fun _ => rfl) fun _ _ _ _ => rfl,
    immediateOp_of_writeResult (fun _ => rfl) fun rB rA imm s => ?_,
    immediateOp_of_writeResult (fun _ => rfl) fun rB rA imm s => ?_,
    immediateOp_of_writeResult (fun _ => rfl) fun rB rA imm s => ?_⟩
  all_goals
    rw [← high16_eq_shiftLeft]
    rfl

/-! Sums, differences and products as integers modulo 2^32. -/

theorem ofNat_toNat_add (a b : Word) : BitVec.ofNat 32 (a.toNat + b.toNat) = a + b := by
  rw [BitVec.ofNat_add, BitVec.ofNat_toNat, BitVec.ofNat_toNat, BitVec.setWidth_eq, BitVec.setWidth_eq]

theorem ofNat_toNat_mul (a b : Word) : BitVec.ofNat 32 (a.toNat * b.toNat) = a * b := by
  rw [BitVec.ofNat_mul, BitVec.ofNat_toNat, BitVec.ofNat_toNat, BitVec.setWidth_eq, BitVec.setWidth_eq]

theorem ofInt_toInt_sub (a b : Word) : BitVec.ofInt 32 (a.toInt - b.toInt) = a - b := by
  rw [Int.sub_eq_add_neg, BitVec.ofInt_add, BitVec.ofInt_neg, BitVec.ofInt_toInt, BitVec.ofInt_toInt, ← BitVec.sub_eq_add_neg]

/-- The signed immediate, as a word and as an integer, is one number (30_encoding.md R205). -/
theorem ofInt_toInt_imm (imm : BitVec 16) : BitVec.ofInt 32 imm.toInt = sext16 imm := by
  rw [← BitVec.toInt_signExtend_of_le (x := imm) (v := 32) (by omega), BitVec.ofInt_toInt, sext16]

theorem ofInt_toInt_add_imm (a : Word) (imm : BitVec 16) : BitVec.ofInt 32 (a.toInt + imm.toInt) = a + sext16 imm := by
  rw [BitVec.ofInt_add, BitVec.ofInt_toInt, ofInt_toInt_imm]

theorem ofInt_toInt_mul_imm (a : Word) (imm : BitVec 16) : BitVec.ofInt 32 (a.toInt * imm.toInt) = a * sext16 imm := by
  rw [BitVec.ofInt_mul, BitVec.ofInt_toInt, ofInt_toInt_imm]

/-- Settles O21: the word operations are those of the integers, reduced. -/
theorem addSubtract : Obligations.AddSubtract := by
  refine ⟨registerOp_of_writeResult (fun _ => rfl) fun rC rA rB s => ?_,
    registerOp_of_writeResult (fun _ => rfl) fun rC rA rB s => ?_,
    immediateOp_of_writeResult (fun _ => rfl) fun rB rA imm s => ?_⟩
  · rw [ofNat_toNat_add]
    rfl
  · rw [ofInt_toInt_sub]
    rfl
  · rw [ofInt_toInt_add_imm]
    rfl

/-- Settles O22: both are multiplications of the form `mulInstr`, of two registers and of a register and the immediate. -/
theorem multiply : Obligations.Multiply := by
  refine ⟨hardwareOp_of_mulInstr (fun _ => rfl) fun rC rA rB s => ?_, decode_encodeI fun _ => rfl, fun rB rA imm s => ?_⟩
  · rw [ofNat_toNat_mul]
    rfl
  · rw [ofInt_toInt_mul_imm]
    exact mulInstr_outcomes s.config.hwMul rB (s.reg rA * sext16 imm) s

/-! High words. -/

/-- Bits 63:32 of an integer are its quotient by 2^32 rounded down, in 32 bits, whatever its sign. -/
theorem highWord_ofInt (z : Int) : highWord (BitVec.ofInt 64 z) = BitVec.ofInt 32 (z / 2 ^ 32) := by
  apply BitVec.eq_of_toNat_eq
  rw [highWord, BitVec.extractLsb'_toNat, BitVec.toNat_ofInt, BitVec.toNat_ofInt, Nat.shiftRight_eq_div_pow]
  omega

theorem highWord_ofNat (n : Nat) : highWord (BitVec.ofNat 64 n) = BitVec.ofNat 32 (n / 2 ^ 32) := by
  apply BitVec.eq_of_toNat_eq
  rw [highWord, BitVec.extractLsb'_toNat, BitVec.toNat_ofNat, BitVec.toNat_ofNat, Nat.shiftRight_eq_div_pow]
  omega

/-- Settles O23: three multiplications that write the high word of their product. -/
theorem multiplyHigh : Obligations.MultiplyHigh := by
  refine ⟨hardwareOp_of_mulInstr (fun _ => rfl) fun rC rA rB s => ?_,
    hardwareOp_of_mulInstr (fun _ => rfl) fun rC rA rB s => ?_,
    hardwareOp_of_mulInstr (fun _ => rfl) fun rC rA rB s => ?_⟩
  · rw [← highWord_ofInt]
    rfl
  · rw [← highWord_ofNat]
    rfl
  · rw [← highWord_ofInt]
    rfl

/-! Division. -/

section
variable {s : State} (unrepresentable : Bool) (r : Reg) (a b q : Word)

theorem divInstr_unimplemented (h : s.config.hwDiv = false) :
    divInstr unrepresentable r a b q s = .next (takeException .unimplementedInstr s) := by
  rw [divInstr, h]
  rfl

theorem divInstr_representable (h : s.config.hwDiv = true) :
    divInstr false r a b q s = .next (s.setReg r q).advance := by
  rw [divInstr, h]
  rfl

/-- `DIV_ERROR_CHECK` is there only with `HW_DIV` (00_scope.md R8). -/
theorem hwDiv_of_divErrorCheck {c : Config} (h : c.divErrorCheck = true) : c.hwDiv = true := by
  rw [Config.divErrorCheck, Bool.and_eq_true] at h
  exact h.1

theorem divInstr_error (h : s.config.divErrorCheck = true) :
    divInstr true r a b q s = .next (takeException .divisionError s) := by
  rw [divInstr, hwDiv_of_divErrorCheck h, quotient, h]
  rfl

theorem divInstr_free (h : s.config.hwDiv = true) (hcheck : s.config.divErrorCheck = false) :
    divInstr true r a b q s = .next (s.setReg r (Config.freeQuotient s.tick a b)).advance := by
  rw [divInstr, h, quotient, hcheck]
  rfl

/-- A division has the outcomes of the statements: unimplemented, the quotient, and where there is none the division error
or some value. -/
theorem divInstr_outcomes {regular singular : Prop} (hregular : regular → unrepresentable = false)
    (hsingular : singular → unrepresentable = true) (s : State) :
    (s.config.hwDiv = false → divInstr unrepresentable r a b q s = .next (takeException .unimplementedInstr s)) ∧
      (s.config.hwDiv = true → regular →
        ∃ t, divInstr unrepresentable r a b q s = .next t ∧ Wrote s t r q (s.pc + 4#32)) ∧
      (singular →
        (s.config.divErrorCheck = true →
          divInstr unrepresentable r a b q s = .next (takeException .divisionError s)) ∧
        (s.config.hwDiv = true → s.config.divErrorCheck = false →
          ∃ t v, divInstr unrepresentable r a b q s = .next t ∧ Wrote s t r v (s.pc + 4#32))) := by
  refine ⟨divInstr_unimplemented unrepresentable r a b q, fun h hreg => ?_, fun hsing => ⟨fun hcheck => ?_, fun h hcheck => ?_⟩⟩
  · rw [hregular hreg]
    exact ⟨_, divInstr_representable r a b q h, wrote_setReg_advance s r q⟩
  · rw [hsingular hsing]
    exact divInstr_error r a b q hcheck
  · rw [hsingular hsing]
    exact ⟨_, _, divInstr_free r a b q h hcheck, wrote_setReg_advance s r _⟩

end

/-- The model compares words, the statements their signed values: the same test, as no two words have one value. -/
theorem divOverflows_iff (a b : Word) :
    divOverflows a b = true ↔ b.toInt = 0 ∨ (a.toInt = -2 ^ 31 ∧ b.toInt = -1) := by
  have hb : b = 0#32 ↔ b.toInt = 0 := BitVec.toInt_inj.symm
  have ha : a = 0x80000000#32 ↔ a.toInt = -2 ^ 31 := BitVec.toInt_inj.symm
  have hm : b = 0xFFFFFFFF#32 ↔ b.toInt = -1 := BitVec.toInt_inj.symm
  rw [divOverflows, Bool.or_eq_true, Bool.and_eq_true, beq_iff_eq, beq_iff_eq, beq_iff_eq, hb, ha, hm]

/-- Settles O24: a division whose quotient cannot be represented exactly where the statement says so. -/
theorem signedDivision : Obligations.SignedDivision := by
  refine ⟨decode_encodeR_registers fun _ => rfl, fun rC rA rB s => ?_⟩
  have hover := divOverflows_iff (s.reg rA) (s.reg rB)
  obtain ⟨hno, hquotient, hsingular⟩ := divInstr_outcomes (divOverflows (s.reg rA) (s.reg rB)) rC (s.reg rA) (s.reg rB)
    (signedQuotient (s.reg rA) (s.reg rB)) (fun h => Bool.eq_false_iff.2 (mt hover.1 h)) hover.2 s
  exact ⟨hno, fun h hzero hmin => hquotient h (not_or.2 ⟨hzero, hmin⟩), hsingular⟩

/-- Settles O25: a division whose quotient cannot be represented exactly for the divisor zero. -/
theorem unsignedDivision : Obligations.UnsignedDivision := by
  refine ⟨decode_encodeR_registers fun _ => rfl, fun rC rA rB s => ?_⟩
  have hzero : (s.reg rB == 0#32) = true ↔ (s.reg rB).toNat = 0 := by
    rw [beq_iff_eq, ← BitVec.toNat_inj]
    rfl
  exact divInstr_outcomes (s.reg rB == 0#32) rC (s.reg rA) (s.reg rB) (unsignedQuotient (s.reg rA) (s.reg rB))
    (fun h => Bool.eq_false_iff.2 (mt hzero.1 h)) hzero.2 s

end Sys2Proof.Machine
end

section
/-! SUPPORT. The comparisons (statement O26): each test of Flags.lean as the relation it decides, the extended immediates as
the numbers they stand for, and the forms that write the truth value of a test. -/

namespace Sys2Proof.Machine

open Sys2Proof.Statements

/-! The tests as relations. -/

section
variable (a b : Word)

theorem isEq_iff : isEq a b = true ↔ a = b := beq_iff_eq

theorem isNe_iff : isNe a b = true ↔ a ≠ b := bne_iff_ne

theorem isGe_iff : isGe a b = true ↔ a.toInt ≥ b.toInt := decide_eq_true_iff

theorem isGeu_iff : isGeu a b = true ↔ a.toNat ≥ b.toNat := decide_eq_true_iff

theorem isLt_iff : isLt a b = true ↔ a.toInt < b.toInt := decide_eq_true_iff

theorem isLtu_iff : isLtu a b = true ↔ a.toNat < b.toNat := decide_eq_true_iff

end

/-! The tests against an immediate: extending keeps its number, signed or unsigned (43_comparison.md R331). -/

theorem toInt_sext16 (imm : BitVec 16) : (sext16 imm).toInt = imm.toInt := BitVec.toInt_signExtend_of_le (by omega)

theorem toNat_zext16 (imm : BitVec 16) : (zext16 imm).toNat = imm.toNat := BitVec.toNat_setWidth_of_le (by omega)

section
variable (a : Word) (imm : BitVec 16)

theorem isEq_sext16_iff : isEq a (sext16 imm) = true ↔ a.toInt = imm.toInt := by
  rw [isEq_iff, ← BitVec.toInt_inj, toInt_sext16]

theorem isNe_sext16_iff : isNe a (sext16 imm) = true ↔ a.toInt ≠ imm.toInt := by
  rw [isNe_iff, ← BitVec.toInt_ne, toInt_sext16]

theorem isGe_sext16_iff : isGe a (sext16 imm) = true ↔ a.toInt ≥ imm.toInt := by rw [isGe_iff, toInt_sext16]

theorem isGeu_zext16_iff : isGeu a (zext16 imm) = true ↔ a.toNat ≥ imm.toNat := by rw [isGeu_iff, toNat_zext16]

theorem isLt_sext16_iff : isLt a (sext16 imm) = true ↔ a.toInt < imm.toInt := by rw [isLt_iff, toInt_sext16]

theorem isLtu_zext16_iff : isLtu a (zext16 imm) = true ↔ a.toNat < imm.toNat := by rw [isLtu_iff, toNat_zext16]

end

/-! The forms of the instructions. -/

/-- The truth value of a test is 1 where the relation it decides holds, 0 elsewhere (43_comparison.md R330). -/
theorem truthWord_of_iff {test : Bool} {p : Prop} [Decidable p] (h : test = true ↔ p) :
    truthWord test = if p then 1#32 else 0#32 :=
  if_congr h rfl rfl

section
variable {opx op : BitVec 6} {mk : Reg → Reg → Reg → Instr} {mkImm : Reg → Reg → BitVec 16 → Instr}
  {test : Word → Word → Bool} {ext : BitVec 16 → Word}
  {p : Word → Word → Prop} [∀ a b, Decidable (p a b)] {q : Word → BitVec 16 → Prop} [∀ a imm, Decidable (q a imm)]

theorem registerOp_of_test
    (hd : ∀ w, decodeOpx opx w = canonical (fieldImm5 w == 0) (mk (fieldC w) (fieldA w) (fieldB w)))
    (he : ∀ rC rA rB s, exec (mk rC rA rB) s = writeResult rC (truthWord (test (s.reg rA) (s.reg rB))) s)
    (htest : ∀ a b, test a b = true ↔ p a b) : RegisterOp opx mk (fun a b => if p a b then 1#32 else 0#32) :=
  registerOp_of_writeResult hd fun rC rA rB s => by rw [he, truthWord_of_iff (htest _ _)]

theorem immediateOp_of_test
    (hd : ∀ w, decodeOp op w = .ok (mkImm (fieldB w) (fieldA w) (fieldImm16 w)))
    (he : ∀ rB rA imm s, exec (mkImm rB rA imm) s = writeResult rB (truthWord (test (s.reg rA) (ext imm))) s)
    (htest : ∀ a imm, test a (ext imm) = true ↔ q a imm) :
    ImmediateOp op mkImm (fun a imm => if q a imm then 1#32 else 0#32) :=
  immediateOp_of_writeResult hd fun rB rA imm s => by rw [he, truthWord_of_iff (htest _ _)]

end

/-- Settles O26: each comparison writes the truth value of its test, and its test decides the relation of its row. -/
theorem comparisons : Obligations.Comparisons :=
  ⟨⟨registerOp_of_test (fun _ => rfl) (fun _ _ _ _ => rfl) isEq_iff,
      registerOp_of_test (fun _ => rfl) (fun _ _ _ _ => rfl) isNe_iff,
      registerOp_of_test (fun _ => rfl) (fun _ _ _ _ => rfl) isGe_iff,
      registerOp_of_test (fun _ => rfl) (fun _ _ _ _ => rfl) isGeu_iff,
      registerOp_of_test (fun _ => rfl) (fun _ _ _ _ => rfl) isLt_iff,
      registerOp_of_test (fun _ => rfl) (fun _ _ _ _ => rfl) isLtu_iff⟩,
    immediateOp_of_test (fun _ => rfl) (fun _ _ _ _ => rfl) isEq_sext16_iff,
    immediateOp_of_test (fun _ => rfl) (fun _ _ _ _ => rfl) isNe_sext16_iff,
    immediateOp_of_test (fun _ => rfl) (fun _ _ _ _ => rfl) isGe_sext16_iff,
    immediateOp_of_test (fun _ => rfl) (fun _ _ _ _ => rfl) isGeu_zext16_iff,
    immediateOp_of_test (fun _ => rfl) (fun _ _ _ _ => rfl) isLt_sext16_iff,
    immediateOp_of_test (fun _ => rfl) (fun _ _ _ _ => rfl) isLtu_zext16_iff⟩

end Sys2Proof.Machine
end

section
/-! SUPPORT. The shifts and rotates (statement O27): the count a register gives, each shift as a product or a quotient by a power
of two and each rotate as its two parts, and the forms that write a word shifted by a count. -/

namespace Sys2Proof.Machine

open Sys2Proof.Statements

/-- Bits 4:0 of a register are its number modulo 32 (44_shift_rotate.md R360). -/
theorem toNat_countOf (v : Word) : (countOf v).toNat = v.toNat % 32 := by
  rw [countOf, BitVec.extractLsb'_toNat, Nat.shiftRight_zero]

/-- The count that moves the other part of a rotate is itself below 32, except at count 0. -/
theorem zero_or_complement_lt (k : Nat) : k = 0 ∨ 32 - k < 32 := by omega

/-! The shifted words, by the number `k` their count stands for: a register and the immediate give it in different forms. -/

section
variable (v : Word) {n : BitVec 5} {k : Nat} (h : n.toNat = k)
include h

theorem shiftLeft_eq_mul : shiftLeft v n = BitVec.ofNat 32 (v.toNat * 2 ^ k) := by
  apply BitVec.eq_of_toNat_eq
  rw [shiftLeft, h, BitVec.toNat_shiftLeft, BitVec.toNat_ofNat, Nat.shiftLeft_eq]

theorem shiftRight_eq_div : shiftRight v n = BitVec.ofNat 32 (v.toNat / 2 ^ k) := by
  have hlt : v.toNat / 2 ^ k < 2 ^ 32 := (Nat.div_le_self ..).trans_lt v.isLt
  apply BitVec.eq_of_toNat_eq
  rw [shiftRight, h, BitVec.toNat_ushiftRight, Nat.shiftRight_eq_div_pow, BitVec.toNat_ofNat, Nat.mod_eq_of_lt hlt]

/-- Shifting the sign bit in is division rounding down, of a negative number too. -/
theorem shiftRightArith_eq_div : shiftRightArith v n = BitVec.ofInt 32 (v.toInt / 2 ^ k) := by
  rw [shiftRightArith, h, BitVec.sshiftRight, Int.shiftRight_eq_div_pow, Nat.cast_pow, Nat.cast_ofNat]

/-- At count 0 the second part is the word itself, as the first is; the definition's second part, a shift by 32, is 0. -/
theorem rotateLeft_eq_or : rotateLeft v n = (v <<< k) ||| (v >>> ((32 - k) % 32)) := by
  have hk : k < 32 := h ▸ n.isLt
  rw [rotateLeft, h, BitVec.rotateLeft_def, Nat.mod_eq_of_lt hk]
  rcases zero_or_complement_lt k with rfl | hrest
  · simp [BitVec.ushiftRight_eq_zero]
  · rw [Nat.mod_eq_of_lt hrest]

theorem rotateRight_eq_or : rotateRight v n = (v >>> k) ||| (v <<< ((32 - k) % 32)) := by
  have hk : k < 32 := h ▸ n.isLt
  rw [rotateRight, h, BitVec.rotateRight_def, Nat.mod_eq_of_lt hk]
  rcases zero_or_complement_lt k with rfl | hrest
  · simp
  · rw [Nat.mod_eq_of_lt hrest]

end

/-! The forms of the instructions. -/

section
variable {opx : BitVec 6} {mk : Reg → Reg → Reg → Instr} {mkImm : Reg → Reg → BitVec 5 → Instr}
  {shift : Word → BitVec 5 → Word} {f : Word → Word → Word} {g : Word → Nat → Word}

theorem registerOp_of_shift
    (hd : ∀ w, decodeOpx opx w = canonical (fieldImm5 w == 0) (mk (fieldC w) (fieldA w) (fieldB w)))
    (he : ∀ rC rA rB s, exec (mk rC rA rB) s = writeResult rC (shift (s.reg rA) (countOf (s.reg rB))) s)
    (hshift : ∀ a b, shift a (countOf b) = f a b) : RegisterOp opx mk f :=
  registerOp_of_writeResult hd fun rC rA rB s => by rw [he, hshift]

theorem shiftOp_of_shift
    (hd : ∀ w, decodeOpx opx w = canonical (fieldB w == 0) (mkImm (fieldC w) (fieldA w) (fieldImm5 w)))
    (he : ∀ rC rA imm s, exec (mkImm rC rA imm) s = writeResult rC (shift (s.reg rA) imm) s)
    (hshift : ∀ a imm, shift a imm = g a imm.toNat) : ShiftOp opx mkImm g :=
  ⟨decode_encodeR_count hd, fun rC rA imm s =>
    ⟨_, he rC rA imm s, hshift (s.reg rA) imm ▸ wrote_setReg_advance s rC _⟩⟩

end

/-- Settles O27: each writes its first register shifted by its count, and the shifted word is that of its row. -/
theorem shifts : Obligations.Shifts :=
  ⟨⟨registerOp_of_shift (fun _ => rfl) (fun _ _ _ _ => rfl) fun a b => rotateLeft_eq_or a (toNat_countOf b),
      registerOp_of_shift (fun _ => rfl) (fun _ _ _ _ => rfl) fun a b => rotateRight_eq_or a (toNat_countOf b),
      registerOp_of_shift (fun _ => rfl) (fun _ _ _ _ => rfl) fun a b => shiftLeft_eq_mul a (toNat_countOf b),
      registerOp_of_shift (fun _ => rfl) (fun _ _ _ _ => rfl) fun a b => shiftRightArith_eq_div a (toNat_countOf b),
      registerOp_of_shift (fun _ => rfl) (fun _ _ _ _ => rfl) fun a b => shiftRight_eq_div a (toNat_countOf b)⟩,
    shiftOp_of_shift (fun _ => rfl) (fun _ _ _ _ => rfl) fun a _ => rotateLeft_eq_or a rfl,
    shiftOp_of_shift (fun _ => rfl) (fun _ _ _ _ => rfl) fun a _ => shiftLeft_eq_mul a rfl,
    shiftOp_of_shift (fun _ => rfl) (fun _ _ _ _ => rfl) fun a _ => shiftRightArith_eq_div a rfl,
    shiftOp_of_shift (fun _ => rfl) (fun _ _ _ _ => rfl) fun a _ => shiftRight_eq_div a rfl⟩

end Sys2Proof.Machine
end

section
/-! SUPPORT. Program control (statements O28 to O30): the target in a segment as a number, the frame of a transfer with and
without a register write, and the transfers and branches from what `exec` makes of an instruction of that form. -/

namespace Sys2Proof.Machine

open Sys2Proof.Statements

/-- The segment of `pc` is its quotient by 256 MByte; the immediate counts words in it (45_program_control.md R380). -/
theorem segmentTarget_eq_ofNat (pc : Word) (imm : BitVec 26) :
    segmentTarget pc imm = BitVec.ofNat 32 (pc.toNat / 2 ^ 28 * 2 ^ 28 + imm.toNat * 4) := by
  have hseg : (pc.extractLsb' 28 4).toNat = pc.toNat / 2 ^ 28 := by
    rw [BitVec.extractLsb'_toNat, Nat.shiftRight_eq_div_pow]
    omega
  apply BitVec.eq_of_toNat_eq
  have himm : (pc.extractLsb' 28 4 ++ imm).toNat = pc.toNat / 2 ^ 28 * 2 ^ 26 + imm.toNat := by
    rw [BitVec.toNat_append, ← Nat.shiftLeft_add_eq_or_of_lt imm.isLt, Nat.shiftLeft_eq, hseg]
  rw [segmentTarget, BitVec.toNat_append, ← Nat.shiftLeft_add_eq_or_of_lt (0#2).isLt, Nat.shiftLeft_eq, himm,
    BitVec.toNat_ofNat, BitVec.toNat_ofNat]
  omega

/-! The two ends of a transfer, as the statements say them. -/

theorem went_goto (s : State) (target : Word) : Went s { s with pc := target } target where
  regs := State.reg_of_regs rfl
  pc := rfl
  memory _ := rfl
  rest := rfl

/-- The frame of a register write does not depend on where `pc` goes: it is that of going on. -/
theorem wrote_setReg_goto (s : State) (r : Reg) (v target : Word) :
    Wrote s { s.setReg r v with pc := target } r v target :=
  have goesOn := wrote_setReg_advance s r v
  ⟨goesOn.regs, rfl, goesOn.memory, goesOn.rest⟩

/-- A register write after the transfer is the one before it: `setReg` does not look at `pc`. -/
theorem setReg_goto (s : State) (r : Reg) (v target : Word) :
    State.setReg { s with pc := target } r v = { s.setReg r v with pc := target } := by
  unfold State.setReg
  split <;> rfl

/-! The forms of the instructions. -/

section
variable {i : Instr} {s : State} {a : Word} {done : State → Prop}

/-- An instruction that transfers with the check of its target, and then makes the writes `f`, which cannot stop it. -/
theorem transferOp_of_jumpTo_bind {f : State → State}
    (he : exec i s = finish s (jumpTo a s >>= fun t => .ok (f t))) (hdone : done (f { s with pc := a })) :
    TransferOp i s a done := by
  refine ⟨fun ha => ⟨_, ?_, hdone⟩, fun ha hcheck => ?_, fun ha hcheck => ?_⟩
  · rw [he, jumpTo_ok.2 ⟨ha, rfl⟩]
    rfl
  · rw [he, jumpTo_misaligned ha, hcheck]
    rfl
  · rw [he, jumpTo_misaligned ha, hcheck]
    rfl

theorem transferOp_of_jumpTo (he : exec i s = finish s (jumpTo a s)) : TransferOp i s a (fun t => Went s t a) :=
  transferOp_of_jumpTo_bind (f := id) (he.trans (congrArg (finish s) (bind_pure _).symm)) (went_goto s a)

end

/-- A conditional branch whose test decides `cond`: taken it is a transfer, else it only goes on. -/
theorem branchOp_of_test {op : BitVec 6} {mk : Reg → Reg → BitVec 16 → Instr} {test : Word → Word → Bool}
    {cond : Word → Word → Prop} (hd : ∀ w, decodeOp op w = .ok (mk (fieldA w) (fieldB w) (fieldImm16 w)))
    (he : ∀ rA rB imm s, exec (mk rA rB imm) s = branchInstr (test (s.reg rA) (s.reg rB)) imm s)
    (htest : ∀ a b, test a b = true ↔ cond a b) : BranchOp op mk cond := by
  refine ⟨decode_encodeI_branch hd, fun rA rB imm s => ⟨fun hcond => ?_, fun hcond => ⟨_, ?_, went_advance s⟩⟩⟩
  · have taken : test (s.reg rA) (s.reg rB) = true := (htest _ _).2 hcond
    exact transferOp_of_jumpTo (by rw [he, taken]; rfl)
  · have fallsThrough : test (s.reg rA) (s.reg rB) = false := Bool.eq_false_iff.2 fun h => hcond ((htest _ _).1 h)
    rw [he, fallsThrough]
    rfl

/-! The instructions. -/

/-- `callr` reads its target before it links, and links only after the check (45_program_control.md R381, R396). -/
theorem transferOp_callr (rA : Reg) (s : State) :
    TransferOp (.callr rA) s (s.reg rA) (fun t => Wrote s t 31#5 (s.pc + 4#32) (s.reg rA)) :=
  transferOp_of_jumpTo_bind (f := fun t => t.setReg raReg (s.pc + 4#32)) rfl
    (setReg_goto s raReg _ _ ▸ wrote_setReg_goto s raReg _ _)

/-- Settles O28: `call` and `jmpi` transfer without a check, `callr` with it, and `nextpc` goes on. -/
theorem callsAndLinks : Obligations.CallsAndLinks :=
  ⟨decode_encodeJ fun _ => rfl, decode_encodeJ fun _ => rfl, fun a => decodeOfEncode (.callr a),
    fun c => decodeOfEncode (.nextpc c),
    fun imm s => ⟨_, rfl, segmentTarget_eq_ofNat s.pc imm ▸ wrote_setReg_goto s raReg _ _⟩,
    fun imm s => ⟨_, rfl, segmentTarget_eq_ofNat s.pc imm ▸ went_goto s _⟩,
    transferOp_callr,
    fun rC s => ⟨_, rfl, wrote_setReg_advance s rC _⟩⟩

/-- Settles O29: each is a transfer with the check, and nothing else. -/
theorem jumps : Obligations.Jumps :=
  ⟨decode_of_encode_eq (i := .ret) (by decide), fun a => decodeOfEncode (.jmp a), fun imm => decodeOfEncode (.br imm),
    fun _ => transferOp_of_jumpTo rfl, fun _ _ => transferOp_of_jumpTo rfl, fun _ _ => transferOp_of_jumpTo rfl⟩

/-- Settles O30: each branches on its test, and its test decides the relation of its row. -/
theorem branches : Obligations.Branches :=
  ⟨branchOp_of_test (fun _ => rfl) (fun _ _ _ _ => rfl) isGe_iff,
    branchOp_of_test (fun _ => rfl) (fun _ _ _ _ => rfl) isGeu_iff,
    branchOp_of_test (fun _ => rfl) (fun _ _ _ _ => rfl) isLt_iff,
    branchOp_of_test (fun _ => rfl) (fun _ _ _ _ => rfl) isLtu_iff,
    branchOp_of_test (fun _ => rfl) (fun _ _ _ _ => rfl) isEq_iff,
    branchOp_of_test (fun _ => rfl) (fun _ _ _ _ => rfl) isNe_iff⟩

end Sys2Proof.Machine
end

section
/-! SUPPORT. `trap`, `break`, `bret`, `flushp` and `sync` (statements O33, O34, O36 and O58): the three bits of `status` after an
entry, and `bret` in supervisor mode as a transfer. -/

namespace Sys2Proof.Machine

open Sys2Proof.Statements

/-! `status` after an entry. -/

theorem entryStatus_eq (c : Config) : entryStatus c = if c.hasMmu then 4#32 else 0#32 := rfl

theorem entryStatus_pie (c : Config) : (entryStatus c).getLsbD 0 = false := by
  unfold entryStatus
  split <;> rfl

theorem entryStatus_user (c : Config) : (entryStatus c).getLsbD 1 = false := by
  unfold entryStatus
  split <;> rfl

theorem entryStatus_eh (c : Config) : (entryStatus c).getLsbD 2 = c.hasMmu := by
  unfold entryStatus
  cases c.hasMmu <;> rfl

/-! The entries and the return. -/

theorem supervisorOnly_supervisor {s : State} (hu : s.userForbidden = false) : supervisorOnly s = .ok () :=
  supervisorOnly_ok.2 hu

/-- Settles O33: `trap` takes its exception from every state; an entry that is not nested saves `status` and `pc`. -/
theorem trapInstruction : Obligations.Trap := by
  refine ⟨fun imm => decodeOfEncode (.trap imm), fun imm s => ⟨_, rfl, rfl, fun hn => ⟨?_, ?_⟩, ?_, fun hx => ?_, rfl⟩⟩
  · simp [hn]
  · simp [hn, eaReg]
  · rw [takeException_status, entryStatus_eq]
  · rw [takeException_exceptionReg, if_pos hx]
    rfl

/-- Settles O34: `break` takes a break from every state. -/
theorem breakInstruction : Obligations.Break :=
  ⟨fun imm => decodeOfEncode (.brk imm), fun _ s =>
    ⟨takeBreak s, rfl, rfl, entryStatus_pie s.config, entryStatus_user s.config, entryStatus_eh s.config,
      State.reg_takeBreak s, rfl, rfl, fun _ => rfl, rfl, rfl, rfl⟩⟩

/-- In supervisor mode `bret` is the transfer to `ba`, and after its check the other writes of the return. -/
theorem exec_bret_supervisor {s : State} (hu : s.userForbidden = false) :
    exec .bret s = finish s (jumpTo (s.reg baReg) s >>= fun t =>
      .ok { t with status := s.bstatus, inDebug := false, mpuStale := none, prefetched := [] }) := by
  change finish s (returnFromBreak s) = _
  rw [returnFromBreak, supervisorOnly_supervisor hu, ok_bind]

/-- Settles O36: the return writes nothing before the check of its target. -/
theorem returnFromBreakInstruction : Obligations.ReturnFromBreak :=
  ⟨by decide, fun s hu => transferOp_of_jumpTo_bind (exec_bret_supervisor hu)
    ⟨rfl, rfl, rfl, State.reg_of_regs rfl, fun _ => rfl, rfl, rfl, rfl⟩⟩

/-- Settles O58: `flushp` goes on from the flushed state, `sync` from the state as it is. -/
theorem synchronisation : Obligations.Synchronisation :=
  ⟨decode_of_encode_eq (i := .flushp) (by decide), decode_of_encode_eq (i := .sync) (by decide), fun s =>
    ⟨⟨_, rfl, rfl, rfl, went_advance (flushPipeline s)⟩, ⟨_, rfl, went_advance s⟩⟩⟩

end Sys2Proof.Machine
end

section
/-! SUPPORT. The control registers that `rdctl` reads and the plain ones that `wrctl` writes (statements O43 and O45): each mask
of implemented bits as the fields it keeps. -/

namespace Sys2Proof.Machine

open Sys2Proof.Statements

/-! Reads. -/

theorem readIf_available {available : Bool} (h : available = true) (v : Word) (n : BitVec 5) (s : State) :
    readIf available v n s = v := if_pos h

/-- `rdctl` of a register that the configuration has. -/
theorem exec_rdctl_available {n : BitVec 5} {available : Bool} {v : Word} {s : State} (rC : Reg)
    (hu : s.userForbidden = false) (hr : readControl n s = readIf available v n s) (h : available = true) :
    ∃ t, exec (.rdctl rC n) s = .next t ∧ Wrote s t rC v (s.pc + 4#32) := by
  have hv : readControl n s = v := hr.trans (readIf_available h v n s)
  exact hv ▸ exec_rdctl_wrote rC n hu

/-- Settles O43: `rdctl` in supervisor mode always completes with the value `readControl` gives. -/
theorem controlReads : Obligations.ControlReads := by
  refine ⟨fun c n => decodeOfEncode (.rdctl c n), fun rC _ => exec_rdctl_wrote rC 0#5, fun rC _ => exec_rdctl_wrote rC 1#5,
    fun rC _ => exec_rdctl_wrote rC 2#5, fun rC _ => exec_rdctl_wrote rC 3#5, fun rC _ => exec_rdctl_wrote rC 5#5,
    fun rC s hu => ⟨fun hextra => ?_, fun hmmu => ?_, fun hmpu => ?_, fun n _ => ⟨_, _, execRdctl_supervisor rC n hu,
      wrote_setReg_advance s rC _⟩⟩⟩
  · exact ⟨exec_rdctl_available rC hu rfl hextra, exec_rdctl_available rC hu rfl hextra⟩
  · exact ⟨exec_rdctl_available rC hu rfl hmmu, exec_rdctl_available rC hu rfl hmmu, exec_rdctl_available rC hu rfl hmmu⟩
  · exact ⟨exec_rdctl_available rC hu rfl hmpu, exec_rdctl_available rC hu rfl hmpu,
      exec_rdctl_available (v := s.mpuaccRead) rC hu rfl hmpu⟩

/-! The implemented bits. -/

theorem and_append_bit {k : Nat} (a b : BitVec k) (x y : Bool) :
    (a ++ BitVec.ofBool x) &&& (b ++ BitVec.ofBool y) = (a &&& b) ++ BitVec.ofBool (x && y) := by
  rw [BitVec.and_append, BitVec.ofBool_and_ofBool]

/-- A word from its three lowest bits and the rest. -/
theorem word_eq_three_bits (v : Word) :
    v = v.extractLsb' 3 29 ++ BitVec.ofBool (v.getLsbD 2) ++ BitVec.ofBool (v.getLsbD 1) ++ BitVec.ofBool (v.getLsbD 0) := by
  rw [ofBool_getLsbD, ofBool_getLsbD, ofBool_getLsbD, extract_join (i := 2) (n := 1) rfl, extract_join (i := 1) (n := 1) rfl,
    extract_join (i := 0) (n := 1) rfl, extract_all]

theorem statusMask_eq (c : Config) :
    statusMask c = 0#29 ++ BitVec.ofBool c.hasMmu ++ BitVec.ofBool c.hasUserMode ++ BitVec.ofBool true := by
  unfold statusMask
  cases c.hasMmu <;> cases c.hasUserMode <;> rfl

/-- Of `status` and its copies the fields PIE, U and EH are kept, as far as the configuration has them. -/
theorem and_statusMask (c : Config) (v : Word) :
    v &&& statusMask c = 0#29 ++ BitVec.ofBool (c.hasMmu && v.getLsbD 2) ++
      BitVec.ofBool (c.hasUserMode && v.getLsbD 1) ++ BitVec.ofBool (v.getLsbD 0) := by
  calc v &&& statusMask c
      = (v.extractLsb' 3 29 ++ BitVec.ofBool (v.getLsbD 2) ++ BitVec.ofBool (v.getLsbD 1) ++ BitVec.ofBool (v.getLsbD 0)) &&&
          (0#29 ++ BitVec.ofBool c.hasMmu ++ BitVec.ofBool c.hasUserMode ++ BitVec.ofBool true) := by
        rw [← word_eq_three_bits, ← statusMask_eq]
    _ = (v.extractLsb' 3 29 &&& 0#29) ++ BitVec.ofBool (v.getLsbD 2 && c.hasMmu) ++
          BitVec.ofBool (v.getLsbD 1 && c.hasUserMode) ++ BitVec.ofBool (v.getLsbD 0 && true) := by
        rw [and_append_bit, and_append_bit, and_append_bit]
    _ = _ := by rw [BitVec.and_zero, Bool.and_comm _ c.hasMmu, Bool.and_comm _ c.hasUserMode, Bool.and_true]

/-- Of `pteaddr` the fields PTBASE and VPN are kept, which are all but the two lowest bits. -/
theorem and_pteaddrMask (v : Word) : v &&& pteaddrMask = v.extractLsb' 2 30 ++ 0#2 := by
  have hv : v.extractLsb' 2 30 ++ v.extractLsb' 0 2 = v := by rw [extract_join (i := 0) (n := 2) rfl, extract_all]
  have hmask : pteaddrMask = BitVec.allOnes 30 ++ 0#2 := rfl
  conv_lhs => rw [← hv, hmask]
  rw [BitVec.and_append, BitVec.and_allOnes, BitVec.and_zero]

/-- Of `config` the field PE is kept. -/
theorem and_configMask {c : Config} (h : c.hasMpu = true) (v : Word) :
    v &&& configMask c = 0#31 ++ BitVec.ofBool (v.getLsbD 0) := by
  have hv : v.extractLsb' 1 31 ++ v.extractLsb' 0 1 = v := by rw [extract_join (i := 0) (n := 1) rfl, extract_all]
  have hmask : configMask c = 0#31 ++ BitVec.allOnes 1 := if_pos h
  conv_lhs => rw [← hv, hmask]
  rw [BitVec.and_append, BitVec.and_allOnes, BitVec.and_zero, ofBool_getLsbD]

/-! Writes. -/

theorem controlPteaddr_mmu {s : State} (h : s.config.hasMmu = true) (v : Word) :
    controlPteaddr v s = flushPipeline { s with pteaddr := v &&& pteaddrMask } := if_pos h

theorem controlConfig_mpu {s : State} (h : s.config.hasMpu = true) (v : Word) :
    controlConfig v s = flushPipeline { s with configReg := v &&& configMask s.config } := if_pos h

/-- Settles O45: each write stores the bits of its mask and flushes the pipeline. -/
theorem plainControlWrites : Obligations.PlainControlWrites := by
  refine ⟨fun a n => decodeOfEncode (.wrctl n a), controlWrite_of_writeControl fun v s _ => ?_,
    controlWrite_of_writeControl fun v s _ => ?_, controlWrite_of_writeControl fun v s _ => ?_,
    controlWrite_of_writeControl fun _ _ _ => rfl, controlWrite_of_writeControl fun v s hmmu => ?_,
    controlWrite_of_writeControl fun v s hmpu => ?_⟩
  · rw [← and_statusMask]
    rfl
  · rw [← and_statusMask]
    rfl
  · rw [← and_statusMask]
    rfl
  · rw [← and_pteaddrMask]
    exact congrArg Except.ok (controlPteaddr_mmu hmmu v)
  · rw [← and_configMask hmpu]
    exact congrArg Except.ok (controlConfig_mpu hmpu v)

end Sys2Proof.Machine
end

section
/-! SUPPORT. The cache instructions (statements O56 and O57): memory after the lines of a flush are written back one by one, a
flush and a drop of the lines that a predicate selects, each operation with and without its cache, and each instruction from
what its operation makes of the state. -/

namespace Sys2Proof.Machine

open Sys2Proof.Statements

/-! Lines written back one by one. -/

section
variable {g : CacheGeometry} {a : Nat}

/-- A byte that no dirty line of the list holds is not written. -/
theorem foldl_writeBack_read_outside : ∀ (ls : List CacheLine) {m : Memory} (_ : m.wf = true)
    (_ : ∀ l ∈ ls, l.dirty = true → a < l.base.toNat ∨ l.base.toNat + lineBytes g ≤ a),
    (ls.foldl (fun m l => writeBack g l m) m).read a = m.read a
  | [], _, _, _ => rfl
  | l :: ls, m, hm, h => by
    obtain ⟨hl, hls⟩ := List.forall_mem_cons.1 h
    rw [List.foldl_cons, foldl_writeBack_read_outside ls (writeBack_wf g l hm) hls, writeBack_read_outside hm hl]

/-- A byte of a dirty line that no other dirty line of the list overlaps is the line's once the line is written: no other write
reaches it, and the line's own write it alike. -/
theorem foldl_writeBack_read_inside {l : CacheLine} (hd : l.dirty = true) (hlo : l.base.toNat ≤ a)
    (hhi : a < l.base.toNat + lineBytes g) : ∀ (ls : List CacheLine) {m : Memory} (_ : m.wf = true)
    (_ : ∀ k ∈ ls, k.dirty = true → k ≠ l →
      k.base.toNat + lineBytes g ≤ l.base.toNat ∨ l.base.toNat + lineBytes g ≤ k.base.toNat)
    (_ : l ∈ ls ∨ m.read a = l.bytes.read a), (ls.foldl (fun m l => writeBack g l m) m).read a = l.bytes.read a
  | [], _, _, _, h => h.resolve_left List.not_mem_nil
  | k :: ls, m, hm, hapart, h => by
    obtain ⟨hk, hls⟩ := List.forall_mem_cons.1 hapart
    refine foldl_writeBack_read_inside hd hlo hhi ls (writeBack_wf g k hm) hls ?_
    by_cases hkl : k = l
    · subst hkl
      exact .inr (writeBack_read_inside hm hd hlo hhi)
    · have hout : (writeBack g k m).read a = m.read a :=
        writeBack_read_outside hm fun hkd => by have := hk hkd hkl; omega
      exact h.imp (fun hmem => List.mem_of_ne_of_mem (Ne.symm hkl) hmem) (hout.trans ·)

end

/-! The lines that a predicate selects. -/

section
variable {i : Instr} {s u : State} {g : CacheGeometry} {p : CacheLine → Bool}

theorem mem_filter_not {lines : List CacheLine} {l : CacheLine} :
    l ∈ lines.filter (fun l => !p l) ↔ l ∈ lines ∧ p l = false := by
  rw [List.mem_filter, Bool.not_eq_true']

/-- An instruction that flushes the selected lines of the data cache and goes on. -/
theorem dataCacheOp_of_flush (hm : s.memory.wf = true) (he : exec i s = .next u.advance) (hu : u = flushLines g p s) :
    DataCacheOp i s g p true := by
  subst hu
  refine ⟨_, he, rfl, State.reg_of_regs rfl, fun l => mem_filter_not, fun a hout => ?_,
    fun _ l hl hp hd hapart a hlo hhi => ?_, rfl⟩
  · refine foldl_writeBack_read_outside _ hm fun l hl hd => ?_
    obtain ⟨hl, hp⟩ := List.mem_filter.1 hl
    exact hout rfl l hl hp hd
  · refine foldl_writeBack_read_inside hd hlo hhi _ hm (fun k hk => ?_) (.inl (List.mem_filter.2 ⟨hl, hp⟩))
    obtain ⟨hk, hpk⟩ := List.mem_filter.1 hk
    exact hapart k hk hpk

/-- An instruction that drops the selected lines of the data cache and goes on. -/
theorem dataCacheOp_of_drop (he : exec i s = .next u.advance) (hu : u = dropDataLines p s) : DataCacheOp i s g p false := by
  subst hu
  exact ⟨_, he, rfl, State.reg_of_regs rfl, fun l => mem_filter_not, fun _ _ => rfl, fun h => absurd h Bool.false_ne_true, rfl⟩

/-- An instruction that drops the selected lines of the instruction cache and goes on. -/
theorem instrCacheOp_of_drop (he : exec i s = .next u.advance) (hu : u = dropInstrLines p s) : InstrCacheOp i s p := by
  subst hu
  exact ⟨_, he, rfl, State.reg_of_regs rfl, fun _ => rfl, fun l => mem_filter_not, rfl⟩

/-- An instruction whose operation leaves the state alone only goes on. -/
theorem went_of_unchanged (he : exec i s = .next u.advance) (hu : u = s) :
    ∃ t, exec i s = .next t ∧ Went s t (s.pc + 4#32) :=
  ⟨_, he, hu ▸ went_advance u⟩

end

/-! The operations with and without the cache. -/

section
variable {s : State} {g : CacheGeometry}

theorem flushDataByIndex_cached (h : s.config.dcache = some g) (ea : Word) :
    flushDataByIndex ea s = flushLines g (fun l => l.index == cacheIndex g ea) s := by
  rw [flushDataByIndex, h]

theorem flushDataByIndex_noCache (h : s.config.dcache = none) (ea : Word) : flushDataByIndex ea s = s := by
  rw [flushDataByIndex, h]

theorem flushDataByAddress_cached (h : s.config.dcache = some g) (pa : Word) :
    flushDataByAddress pa s = flushLines g (fun l => l.base == lineBase g pa) s := by
  rw [flushDataByAddress, h]

theorem flushDataByAddress_noCache (h : s.config.dcache = none) (pa : Word) : flushDataByAddress pa s = s := by
  rw [flushDataByAddress, h]

theorem initDataByIndex_cached (h : s.config.dcache = some g) (ea : Word) :
    initDataByIndex ea s = dropDataLines (fun l => l.index == cacheIndex g ea) s := by
  rw [initDataByIndex, h]

theorem initDataByIndex_noCache (h : s.config.dcache = none) (ea : Word) : initDataByIndex ea s = s := by
  rw [initDataByIndex, h]

theorem initDataByAddress_cached (h : s.config.dcache = some g) (pa : Word) :
    initDataByAddress pa s = dropDataLines (fun l => l.base == lineBase g pa) s := by
  rw [initDataByAddress, h]

theorem initDataByAddress_noCache (h : s.config.dcache = none) (pa : Word) : initDataByAddress pa s = s := by
  rw [initDataByAddress, h]

theorem dropInstrByIndex_cached (h : s.config.icache = some g) (a : Word) :
    dropInstrByIndex a s = dropInstrLines (fun l => l.index == cacheIndex g a) s := by
  rw [dropInstrByIndex, h]

theorem dropInstrByIndex_noCache (h : s.config.icache = none) (a : Word) : dropInstrByIndex a s = s := by
  rw [dropInstrByIndex, h]

end

/-! The instructions, once their checks have passed or failed. -/

section
variable {rA : Reg} {imm : BitVec 16} {s : State} {pa : Word} {c : Bool}

theorem exec_flushd (rA : Reg) (imm : BitVec 16) (s : State) :
    exec (.flushd rA imm) s = .next (flushDataByIndex (s.reg rA + imm.signExtend 32) s).advance := rfl

theorem exec_flushi (rA : Reg) (s : State) : exec (.flushi rA) s = .next (dropInstrByIndex (s.reg rA) s).advance := rfl

theorem exec_initd_supervisor (hu : s.userForbidden = false) :
    exec (.initd rA imm) s = .next (initDataByIndex (s.reg rA + imm.signExtend 32) s).advance := by
  change execInitd rA imm s = _
  rw [execInitd, supervisorOnly_supervisor hu, ok_bind, finish_ok, effectiveAddress_eq]

theorem exec_initi_supervisor (hu : s.userForbidden = false) :
    exec (.initi rA) s = .next (dropInstrByIndex (s.reg rA) s).advance := by
  change execIniti rA s = _
  rw [execIniti, supervisorOnly_supervisor hu, ok_bind, finish_ok]

theorem exec_flushda_ok (ha : dataAddr .flushda 1 (s.reg rA + imm.signExtend 32) s = .ok (pa, c)) :
    exec (.flushda rA imm) s = .next (flushDataByAddress pa s).advance := by
  change execFlushda rA imm s = _
  rw [execFlushda, effectiveAddress_eq, ha, ok_bind, finish_ok]

theorem implemented_inHardware {b : Bool} (hb : b = true) : implemented b = .ok () := implemented_ok.2 hb

theorem exec_initda_ok (hw : s.config.hwInitda = true)
    (ha : dataAddr .initda 1 (s.reg rA + imm.signExtend 32) s = .ok (pa, c)) :
    exec (.initda rA imm) s = .next (initDataByAddress pa s).advance := by
  change execInitda rA imm s = _
  rw [execInitda, implemented_inHardware hw, ok_bind, effectiveAddress_eq, ha, ok_bind, finish_ok]

theorem exec_initda_exc {e : Exc} (hw : s.config.hwInitda = true)
    (ha : dataAddr .initda 1 (s.reg rA + imm.signExtend 32) s = .error (.exc e)) :
    exec (.initda rA imm) s = .next (takeException e s) := by
  change execInitda rA imm s = _
  rw [execInitda, implemented_inHardware hw, ok_bind, effectiveAddress_eq, ha, error_bind, finish_exc]

theorem exec_initda_unimplemented (hw : s.config.hwInitda = false) :
    exec (.initda rA imm) s = .next (takeException .unimplementedInstr s) := by
  change execInitda rA imm s = _
  rw [execInitda, implemented, hw]
  rfl

end

/-- Settles O56: each of the four is its operation on the lines of the index, and that operation is nothing without the cache. -/
theorem cacheByIndex : Obligations.CacheByIndex := by
  refine ⟨fun a imm => decodeOfEncode (.flushd a imm), fun a imm => decodeOfEncode (.initd a imm),
    fun a => decodeOfEncode (.flushi a), fun a => decodeOfEncode (.initi a), fun rA imm s hm =>
    ⟨fun g hg => ⟨?flushd, fun hu => ?initd⟩, fun g hg => ⟨?flushi, fun hu => ?initi⟩,
      fun hno => ⟨?noFlushd, fun hu => ?noInitd⟩, fun hno => ⟨?noFlushi, fun hu => ?noIniti⟩⟩⟩
  case flushd => exact dataCacheOp_of_flush hm (exec_flushd rA imm s) (flushDataByIndex_cached hg _)
  case initd => exact dataCacheOp_of_drop (exec_initd_supervisor hu) (initDataByIndex_cached hg _)
  case flushi => exact instrCacheOp_of_drop (exec_flushi rA s) (dropInstrByIndex_cached hg _)
  case initi => exact instrCacheOp_of_drop (exec_initi_supervisor hu) (dropInstrByIndex_cached hg _)
  case noFlushd => exact went_of_unchanged (exec_flushd rA imm s) (flushDataByIndex_noCache hno _)
  case noInitd => exact went_of_unchanged (exec_initd_supervisor hu) (initDataByIndex_noCache hno _)
  case noFlushi => exact went_of_unchanged (exec_flushi rA s) (dropInstrByIndex_noCache hno _)
  case noIniti => exact went_of_unchanged (exec_initi_supervisor hu) (dropInstrByIndex_noCache hno _)

/-- Settles O57: `flushda` and `initda` make their checks first, and then are the operation on the line of the address. -/
theorem cacheByAddress : Obligations.CacheByAddress := by
  refine ⟨fun a imm => decodeOfEncode (.flushda a imm), fun a imm => decodeOfEncode (.initda a imm), fun rA imm s hm =>
    ⟨fun pa c ha => ⟨fun g hg => ?flushda, fun hno => ?noFlushda⟩, exec_initda_unimplemented,
      fun hw => ⟨fun pa c ha => ⟨fun g hg => ?initda, fun hno => ?noInitda⟩, fun e => exec_initda_exc hw⟩⟩⟩
  case flushda => exact dataCacheOp_of_flush hm (exec_flushda_ok ha) (flushDataByAddress_cached hg pa)
  case noFlushda => exact went_of_unchanged (exec_flushda_ok ha) (flushDataByAddress_noCache hno pa)
  case initda => exact dataCacheOp_of_drop (exec_initda_ok hw ha) (initDataByAddress_cached hg pa)
  case noInitda => exact went_of_unchanged (exec_initda_ok hw ha) (initDataByAddress_noCache hno pa)

end Sys2Proof.Machine
end

section
/-! SUPPORT. The custom instruction (statement O59): an absent N is refused, and a present one writes its result through the
shared end of the register instructions, to `r0` where `writerc` is clear. -/

namespace Sys2Proof.Machine

open Sys2Proof.Statements

section
variable {n : BitVec 8} {rC rA rB : Reg} {ra rb wc : Bool} {s : State}

theorem exec_custom_absent (h : s.config.hasCustom n = false) :
    exec (.custom n rC rA rB ra rb wc) s = .refused .absentCustom := by
  change execCustom n rC rA rB ra rb wc s = _
  rw [execCustom, h, if_neg Bool.false_ne_true]

/-- To write no register is to write `r0`. -/
theorem State.setReg_writerc (wc : Bool) (r : Reg) (v : Word) (s : State) :
    (if wc then s.setReg r v else s) = s.setReg (if wc then r else 0#5) v := by
  cases wc
  case false => exact (State.setReg_zero s v).symm
  case true => rfl

theorem exec_custom_present {v : Word} {logic : CustomLogic} (h : s.config.hasCustom n = true)
    (hcall : customCall n rC rA rB ra rb wc s = (v, logic)) :
    exec (.custom n rC rA rB ra rb wc) s =
      .next (({ s with custom := logic } : State).setReg (if wc then rC else 0#5) v).advance := by
  change execCustom n rC rA rB ra rb wc s = _
  rw [execCustom, if_pos h, hcall, ← State.setReg_writerc]

end

/-- Settles O59: an absent N is refused; a present one goes on with the custom logic's next state and one register write. -/
theorem customInstruction : Obligations.CustomInstruction := by
  refine ⟨fun n c a b ra rb wc => decodeOfEncode (.custom n c a b ra rb wc), fun n rC rA rB ra rb wc s =>
    ⟨exec_custom_absent, fun hpresent a b v logic ha hb hcall => ?present⟩⟩
  case present =>
    subst ha hb
    have hexec := exec_custom_present hpresent (hcall : customCall n rC rA rB ra rb wc s = (v, logic))
    refine ⟨_, hexec, ?_, wrote_setReg_advance { s with custom := logic } _ v⟩
    rw [State.advance_custom, State.setReg_custom]

end Sys2Proof.Machine
end

section
/-! SUPPORT. User mode (statements O41 and O42): what an instruction, and then a step, can do to the system state. Every
instruction leaves it alone or enters supervisor mode at a vector, but for `eret`, `bret` and `wrctl`, which complete in
supervisor mode only; both statements are read off that. -/

namespace Sys2Proof.Machine

open Sys2Proof.Statements

/-! The system state. -/

section
variable {s t u : State}

theorem sameSystem_refl (s : State) : SameSystem s s := by
  simp [SameSystem]

theorem sameSystem_trans (h : SameSystem s t) (h' : SameSystem t u) : SameSystem s u := by
  simp_all [SameSystem]

theorem sameSystem_advance (s : State) : SameSystem s s.advance := sameSystem_refl s

theorem sameSystem_setReg (s : State) (r : Reg) (v : Word) : SameSystem s (s.setReg r v) := by
  simp [SameSystem]

theorem sameSystem_setReg_advance (s : State) (r : Reg) (v : Word) : SameSystem s (s.setReg r v).advance :=
  sameSystem_setReg s r v

theorem sameSystem_jumpTo {a : Word} (h : jumpTo a s = .ok t) : SameSystem s t := by
  obtain ⟨_, rfl⟩ := jumpTo_ok.1 h
  exact sameSystem_refl s

theorem sameSystem_flushDataByIndex (ea : Word) (s : State) : SameSystem s (flushDataByIndex ea s) := by
  rw [(flushDataByIndex_frame ea s).1]
  exact sameSystem_refl s

theorem sameSystem_flushDataByAddress (pa : Word) (s : State) : SameSystem s (flushDataByAddress pa s) := by
  rw [(flushDataByAddress_frame pa s).1]
  exact sameSystem_refl s

theorem sameSystem_initDataByIndex (ea : Word) (s : State) : SameSystem s (initDataByIndex ea s) := by
  rw [(initDataByIndex_frame ea s).1]
  exact sameSystem_refl s

theorem sameSystem_initDataByAddress (pa : Word) (s : State) : SameSystem s (initDataByAddress pa s) := by
  rw [(initDataByAddress_frame pa s).1]
  exact sameSystem_refl s

theorem sameSystem_dropInstrByIndex (a : Word) (s : State) : SameSystem s (dropInstrByIndex a s) := by
  rw [(dropInstrByIndex_frame a s).1]
  exact sameSystem_refl s

theorem sameSystem_fetchWord {w : Word} (h : fetchWord s = .ok (w, t)) : SameSystem s t := by
  rw [(fetchWord_frame h).1]
  exact sameSystem_refl s

theorem sameSystem_endBoundary (s : State) : SameSystem s (endBoundary s) := by
  rw [(endBoundary_frame s).1]
  exact sameSystem_refl s

@[simp] theorem endBoundary_pc (s : State) : (endBoundary s).pc = s.pc := by
  rw [(endBoundary_frame s).1]

/-- The mode is a bit of `status`, and whether it exists a parameter. -/
theorem mode_of_sameSystem (h : SameSystem s t) : t.user = s.user ∧ t.userForbidden = s.userForbidden := by
  obtain ⟨hconfig, hstatus, _⟩ := h
  simp [State.user, State.userForbidden, hconfig, hstatus]

end

/-- From `s` on, supervisor mode was entered at the vector of the exceptions, of the breaks or of the fast TLB misses
(60_exceptions.md R476, R491). -/
def EntersSupervisor (s t : State) : Prop :=
  t.user = false ∧ (t.pc = vectorPc s.config s.config.exceptionVector ∨ t.pc = vectorPc s.config s.config.breakVector ∨
    t.pc = vectorPc s.config (fastTlbMissVector s.config))

/-- What user mode may do to the system state: nothing, or an entry to supervisor mode. -/
def Confined (s t : State) : Prop := SameSystem s t ∨ EntersSupervisor s t

theorem entersSupervisor_takeException (e : Exc) (s : State) : EntersSupervisor s (takeException e s) := by
  refine ⟨entryStatus_user s.config, ?_⟩
  rw [takeException_pc, entryVector]
  split
  · exact .inr (.inr rfl)
  · exact .inl rfl

theorem entersSupervisor_takeBreak (s : State) : EntersSupervisor s (takeBreak s) :=
  ⟨entryStatus_user s.config, .inr (.inl rfl)⟩

/-- The vectors are parameters of the processor, the same before and after what leaves the system state alone. -/
theorem EntersSupervisor.after {s s' t : State} (h : SameSystem s s') (ht : EntersSupervisor s' t) :
    EntersSupervisor s t := by
  obtain ⟨hconfig, _⟩ := h
  rw [EntersSupervisor, ← hconfig]
  exact ht

/-- The end of a boundary leaves `pc` and `status`. -/
theorem EntersSupervisor.endBoundary {s t : State} (h : EntersSupervisor s t) : EntersSupervisor s (endBoundary t) := by
  rw [EntersSupervisor, endBoundary_pc, (mode_of_sameSystem (sameSystem_endBoundary t)).1]
  exact h

namespace Confined

variable {s t u : State}

theorem after (h : SameSystem s t) (hu : Confined t u) : Confined s u :=
  hu.imp (sameSystem_trans h) (EntersSupervisor.after h)

theorem endBoundary (h : Confined s t) : Confined s (Machine.endBoundary t) :=
  h.imp (sameSystem_trans · (sameSystem_endBoundary t)) EntersSupervisor.endBoundary

/-! The forms of the instructions. -/

theorem of_next (h : (.next u : Result) = .next t) (hu : Confined s u) : Confined s t := by
  cases h
  exact hu

/-- An instruction that leaves the system state alone where it completes, and else takes its exception. -/
theorem of_finish {o : Except Stop State} (h : finish s o = .next t) (ho : ∀ u, o = .ok u → SameSystem s u) :
    Confined s t := by
  rcases finish_next.1 h with hu | ⟨e, _, rfl⟩
  · exact .inl (ho t hu)
  · exact .inr (entersSupervisor_takeException e s)

/-- An instruction that goes on to `f a` once a check has answered `a`. -/
theorem of_finish_bind {α : Type} {x : Except Stop α} {f : α → State}
    (h : finish s (x >>= fun a => .ok (f a)) = .next t) (hf : ∀ a, x = .ok a → SameSystem s (f a)) : Confined s t := by
  refine of_finish h fun u hu => ?_
  obtain ⟨a, ha, hu⟩ := bind_ok.1 hu
  cases hu
  exact hf a ha

theorem of_writeResult {r : Reg} {v : Word} (h : writeResult r v s = .next t) : Confined s t :=
  of_next h (.inl (sameSystem_setReg_advance s r v))

theorem of_mulInstr {b : Bool} {r : Reg} {v : Word} (h : mulInstr b r v s = .next t) : Confined s t :=
  of_finish_bind h fun _ _ => sameSystem_setReg_advance s r v

theorem of_divInstr {b : Bool} {r : Reg} {x y q : Word} (h : divInstr b r x y q s = .next t) : Confined s t := by
  refine of_finish h fun u hu => ?_
  obtain ⟨_, _, hu⟩ := bind_ok.1 hu
  obtain ⟨v, _, hu⟩ := bind_ok.1 hu
  cases hu
  exact sameSystem_setReg_advance s r v

theorem of_loadInstr {n : Nat} {io : Bool} {ext : Word → Word} {rB rA : Reg} {imm : BitVec 16}
    (h : loadInstr n io ext rB rA imm s = .next t) : Confined s t := by
  rcases loadInstr_next h with ⟨e, rfl⟩ | ⟨v, u, ⟨hu, _⟩, rfl⟩
  · exact .inr (entersSupervisor_takeException e s)
  · have hload : SameSystem s u := by
      rw [hu]
      exact sameSystem_refl s
    exact .inl (sameSystem_trans hload (sameSystem_setReg_advance u rB (ext v)))

theorem of_storeInstr {n : Nat} {io : Bool} {rB rA : Reg} {imm : BitVec 16}
    (h : storeInstr n io rB rA imm s = .next t) : Confined s t := by
  rcases storeInstr_next h with ⟨e, rfl⟩ | ⟨u, _, hu, _, _, rfl⟩
  · exact .inr (entersSupervisor_takeException e s)
  · rw [hu]
    exact .inl (sameSystem_refl s)

theorem of_branchInstr {taken : Bool} {imm : BitVec 16} (h : branchInstr taken imm s = .next t) : Confined s t := by
  unfold branchInstr at h
  split at h
  · exact of_finish h fun _ => sameSystem_jumpTo
  · exact of_next h (.inl (sameSystem_advance s))

theorem of_callr {rA : Reg} (h : execCallr rA s = .next t) : Confined s t :=
  of_finish_bind h fun u hj => sameSystem_trans (sameSystem_jumpTo hj) (sameSystem_setReg u raReg _)

theorem of_flushda {rA : Reg} {imm : BitVec 16} (h : execFlushda rA imm s = .next t) : Confined s t := by
  refine of_finish h fun u hu => ?_
  obtain ⟨⟨pa, _⟩, _, hu⟩ := bind_ok.1 hu
  cases hu
  exact sameSystem_flushDataByAddress pa s

theorem of_initda {rA : Reg} {imm : BitVec 16} (h : execInitda rA imm s = .next t) : Confined s t := by
  refine of_finish h fun u hu => ?_
  obtain ⟨_, _, hu⟩ := bind_ok.1 hu
  obtain ⟨⟨pa, _⟩, _, hu⟩ := bind_ok.1 hu
  cases hu
  exact sameSystem_initDataByAddress pa s

theorem of_custom {n : BitVec 8} {rC rA rB : Reg} {readra readrb writerc : Bool}
    (h : execCustom n rC rA rB readra readrb writerc s = .next t) : Confined s t := by
  unfold execCustom at h
  split at h
  · refine of_next h (.inl ?_)
    cases writerc <;> simp [SameSystem]
  · cases h

end Confined

/-! The instructions. -/

/-- The instructions that write system state where they complete, which each does in supervisor mode only
(60_exceptions.md R501, R503). -/
inductive WritesSystem (s t : State) : Instr → Prop where
  | eret (h : returnFromException s = .ok t) : WritesSystem s t .eret
  | bret (h : returnFromBreak s = .ok t) : WritesSystem s t .bret
  | wrctl {n : BitVec 5} {rA : Reg} {u : State} (supervisor : s.userForbidden = false)
      (written : writeControl n (s.reg rA) s = .ok u) (goesOn : t = u.advance) : WritesSystem s t (.wrctl n rA)

section
variable {i : Instr} {s t : State}

theorem WritesSystem.supervisor (h : WritesSystem s t i) : s.userForbidden = false := by
  cases h with
  | eret h => exact (returnFromException_ok.1 h).1
  | bret h => exact (returnFromBreak_ok.1 h).1
  | wrctl hu => exact hu

/-- Where one of the three turns the mode to user mode, U was set in what it writes to `status`. -/
theorem WritesSystem.entersUser (h : WritesSystem s t i) (hs : s.user = false) (ht : t.user = true) :
    (i = .eret ∧ s.estatus.getLsbD 1 = true) ∨ (i = .bret ∧ s.bstatus.getLsbD 1 = true) ∨
      ∃ rA, i = .wrctl 0#5 rA ∧ (s.reg rA).getLsbD 1 = true := by
  cases h with
  | eret h =>
    obtain ⟨_, _, rfl⟩ := returnFromException_ok.1 h
    exact .inl ⟨rfl, ht⟩
  | bret h =>
    obtain ⟨_, _, rfl⟩ := returnFromBreak_ok.1 h
    exact .inr (.inl ⟨rfl, ht⟩)
  | @wrctl n rA u _ hw hadvance =>
    subst hadvance
    by_cases hn : n = 0#5
    · subst hn
      cases hw
      have hbits : ((s.reg rA) &&& statusMask s.config).getLsbD 1 = true := ht
      rw [BitVec.getLsbD_and, Bool.and_eq_true] at hbits
      exact .inr (.inr ⟨rA, rfl, hbits.1⟩)
    · obtain ⟨_, _, _, _, _, _, _, _, _, _, _, _, _, _, hstatus, _⟩ := writeControl_frame hw
      have hmode : u.advance.user = s.user := congrArg (·.getLsbD 1) (hstatus hn)
      rw [hmode, hs] at ht
      cases ht

/-- Every instruction leaves the system state alone or enters supervisor mode, but for the three that write it. -/
theorem confined_or_writesSystem (h : exec i s = .next t) : Confined s t ∨ WritesSystem s t i := by
  cases i with
  | eret =>
    rcases finish_next.1 h with hu | ⟨e, _, rfl⟩
    · exact .inr (.eret hu)
    · exact .inl (.inr (entersSupervisor_takeException e s))
  | bret =>
    rcases finish_next.1 h with hu | ⟨e, _, rfl⟩
    · exact .inr (.bret hu)
    · exact .inl (.inr (entersSupervisor_takeException e s))
  | wrctl n rA =>
    rcases finish_next.1 h with hu | ⟨e, _, rfl⟩
    · obtain ⟨_, hsuper, hu⟩ := bind_ok.1 hu
      obtain ⟨u, hw, hu⟩ := bind_ok.1 hu
      cases hu
      exact .inr (.wrctl (supervisorOnly_ok.1 hsuper) hw rfl)
    · exact .inl (.inr (entersSupervisor_takeException e s))
  | ldw | ldwio | ldb | ldbu | ldh | ldhu | ldbio | ldbuio | ldhio | ldhuio => exact .inl (.of_loadInstr h)
  | stw | stwio | stb | sth | stbio | sthio => exact .inl (.of_storeInstr h)
  | and | or | xor | nor | andi | ori | xori | andhi | orhi | xorhi | add | sub | addi
  | cmpeq | cmpne | cmpge | cmpgeu | cmplt | cmpltu | cmpeqi | cmpnei | cmpgei | cmpgeui | cmplti | cmpltui
  | rol | ror | roli | sll | slli | sra | srl | srai | srli | nextpc => exact .inl (.of_writeResult h)
  | mul | muli | mulxss | mulxuu | mulxsu => exact .inl (.of_mulInstr h)
  | div | divu => exact .inl (.of_divInstr h)
  | bge | bgeu | blt | bltu | beq | bne => exact .inl (.of_branchInstr h)
  | ret | jmp | br => exact .inl (.of_finish h fun _ => sameSystem_jumpTo)
  | call => exact .inl (.of_next h (.inl (sameSystem_setReg s raReg (s.pc + 4#32))))
  | jmpi => exact .inl (.of_next h (.inl (sameSystem_refl s)))
  | callr => exact .inl (.of_callr h)
  | trap => exact .inl (.of_next h (.inr (entersSupervisor_takeException _ s)))
  | brk => exact .inl (.of_next h (.inr (entersSupervisor_takeBreak s)))
  | rdctl rC => exact .inl (.of_finish_bind h fun _ _ => sameSystem_setReg_advance s rC _)
  | flushd => exact .inl (.of_next h (.inl (sameSystem_flushDataByIndex _ s)))
  | flushda => exact .inl (.of_flushda h)
  | flushi => exact .inl (.of_next h (.inl (sameSystem_dropInstrByIndex _ s)))
  | initd => exact .inl (.of_finish_bind h fun _ _ => sameSystem_initDataByIndex _ s)
  | initda => exact .inl (.of_initda h)
  | initi => exact .inl (.of_finish_bind h fun _ _ => sameSystem_dropInstrByIndex _ s)
  | flushp | sync => exact .inl (.of_next h (.inl (sameSystem_refl s)))
  | custom => exact .inl (.of_custom h)

end

/-! The boundary. -/

section
variable {s t : State}

/-- A word of undefined encoding goes on only as the illegal instruction exception. -/
theorem entersSupervisor_runUndecoded {e : DecodeError} (h : runUndecoded e s = .next t) : EntersSupervisor s t := by
  have hillegal {isInternal : Bool} (h : illegalWord isInternal s = .next t) : EntersSupervisor s t := by
    unfold illegalWord at h
    split at h
    · cases h
    split at h
    · cases h
      exact entersSupervisor_takeException _ s
    · cases h
  cases e with
  | undefinedOp | undefinedOpx => exact hillegal h
  | nonCanonical | notFourBytes => cases h

/-- The fetch and what follows enter supervisor mode, or run the instruction that the fetched word decodes to. -/
theorem fetchAndRun_next (h : fetchAndRun s = .next t) :
    EntersSupervisor s t ∨ ∃ w s' i, fetchWord s = .ok (w, s') ∧ decode w = .ok i ∧ exec i s' = .next t := by
  unfold fetchAndRun at h
  split at h
  · next w s' hfetch =>
    unfold runWord at h
    split at h
    · next i hdecode => exact .inr ⟨w, s', i, hfetch, hdecode, h⟩
    · exact .inl ((entersSupervisor_runUndecoded h).after (sameSystem_fetchWord hfetch))
  · rcases finish_next.1 h with hu | ⟨e, _, rfl⟩
    · cases hu
    · exact .inl (entersSupervisor_takeException e s)

/-- Everything a step can do: a reset, or, up to the end of the boundary, what user mode may do to the system state, or one of
the three instructions that write it. -/
theorem step_next (h : step s = .next t) :
    ((s.inputs.reset = true ∨ s.inputs.processorReset = true) ∧ t = nextBoundary (resetProcessor s)) ∨ Confined s t ∨
      ∃ w s' i u, fetchWord s = .ok (w, s') ∧ decode w = .ok i ∧ WritesSystem s' u i ∧ t = endBoundary u := by
  unfold step boundaryEvent at h
  split at h
  · next hreset =>
    cases h
    exact .inl ⟨.inl hreset, rfl⟩
  split at h
  · cases h
  split at h
  · cases h
    exact .inr (.inl (.inr (entersSupervisor_takeBreak s).endBoundary))
  split at h
  · next hreset =>
    cases h
    exact .inl ⟨.inr hreset, rfl⟩
  split at h
  · cases h
    exact .inr (.inl (.inr (entersSupervisor_takeException _ s).endBoundary))
  obtain ⟨u, hrun, rfl⟩ := endResult_next.1 h
  rcases fetchAndRun_next hrun with hu | ⟨w, s', i, hfetch, hdecode, hexec⟩
  · exact .inr (.inl (.inr hu.endBoundary))
  rcases confined_or_writesSystem hexec with hu | hu
  · exact .inr (.inl ((hu.after (sameSystem_fetchWord hfetch)).endBoundary))
  · exact .inr (.inr ⟨w, s', i, u, hfetch, hdecode, hu, rfl⟩)

end

/-- Settles O41: without a reset a step from user mode is confined, since the three instructions that write system state do not
complete there. -/
theorem userModeConfined : Obligations.UserModeConfined := by
  intro s t hexists huser hreset hprocessor h
  rcases step_next h with ⟨hasked, _⟩ | hconfined | ⟨w, s', i, u, hfetch, _, hwrites, _⟩
  · simp [hreset, hprocessor] at hasked
  · exact hconfined
  · have hforbidden := hwrites.supervisor
    rw [(mode_of_sameSystem (sameSystem_fetchWord hfetch)).2] at hforbidden
    simp [State.userForbidden, hexists, huser] at hforbidden

/-- Settles O42: a reset and an entry end in supervisor mode, and what leaves the system state alone leaves the mode; the fetch
leaves the registers that the three remaining instructions read. -/
theorem enteringUserMode : Obligations.EnteringUserMode := by
  intro s t hs h ht
  rcases step_next h with ⟨_, rfl⟩ | (hsame | ⟨hentry, _⟩) | ⟨w, s', i, u, hfetch, hdecode, hwrites, rfl⟩
  · simp [State.user] at ht
  · rw [(mode_of_sameSystem hsame).1, hs] at ht
    cases ht
  · rw [hentry] at ht
    cases ht
  · have hsame := sameSystem_fetchWord hfetch
    have hregs : s'.regs = s.regs := by rw [(fetchWord_frame hfetch).1]
    have hmode : s'.user = false := (mode_of_sameSystem hsame).1.trans hs
    obtain ⟨_, _, hestatus, hbstatus, _⟩ := hsame
    rw [(mode_of_sameSystem (sameSystem_endBoundary u)).1] at ht
    refine ⟨w, s', i, hfetch, hdecode, ?_⟩
    simpa only [hestatus, hbstatus, State.reg_of_regs hregs] using hwrites.entersUser hmode ht

end Sys2Proof.Machine
end

section
/-! SUPPORT. General exception entry (statements O31, O32, O35 and O37): the fields of `tlbmisc` after an entry, `badaddr`
as a number, the supervisor-only instructions in user mode, and `eret` in supervisor mode as a transfer. -/

namespace Sys2Proof.Machine

open Sys2Proof.Statements

/-! `tlbmisc` after an entry. -/

section
variable (e : Exc) (nested : Bool) (v : Word)

theorem getLsbD_ite_zero (c : Bool) (m : Word) (i : Nat) : (if c then m else 0#32).getLsbD i = (c && m.getLsbD i) := by
  cases c <;> simp

theorem getLsbD_entryTlbmisc (i : Nat) : (entryTlbmisc e nested v).getLsbD i =
    ((v.getLsbD i && (0xFFFFFFF0#32).getLsbD i) || ((e.isTlbPermission || (e.isTlbMiss && !nested)) && (0x00040000#32).getLsbD i)
      || ((e.isTlbMiss && nested) && (0x8#32).getLsbD i) || (e.setsBad && (0x4#32).getLsbD i)
      || (e.isTlbPermission && (0x2#32).getLsbD i) || (e.setsD && (0x1#32).getLsbD i)) := by
  simp only [entryTlbmisc, BitVec.getLsbD_or, BitVec.getLsbD_and, getLsbD_ite_zero]

theorem entryTlbmisc_we : (entryTlbmisc e nested v).getLsbD 18 =
    (v.getLsbD 18 || (e.isTlbPermission || (e.isTlbMiss && !nested))) := by
  rw [getLsbD_entryTlbmisc]
  simp

theorem entryTlbmisc_dbl : (entryTlbmisc e nested v).getLsbD 3 = (e.isTlbMiss && nested) := by
  rw [getLsbD_entryTlbmisc]
  simp

theorem entryTlbmisc_bad : (entryTlbmisc e nested v).getLsbD 2 = e.setsBad := by
  rw [getLsbD_entryTlbmisc]
  simp

theorem entryTlbmisc_perm : (entryTlbmisc e nested v).getLsbD 1 = e.isTlbPermission := by
  rw [getLsbD_entryTlbmisc]
  simp

theorem entryTlbmisc_d : (entryTlbmisc e nested v).getLsbD 0 = e.setsD := by
  rw [getLsbD_entryTlbmisc]
  simp

/-- Above the flags an entry writes WE only. -/
theorem entryTlbmisc_other {i : Nat} (h4 : 4 ≤ i) (hi : i < 32) (hwe : i ≠ 18) :
    (entryTlbmisc e nested v).getLsbD i = v.getLsbD i := by
  have hmasks : ∀ i, i < 32 → 4 ≤ i → i ≠ 18 → (0xFFFFFFF0#32).getLsbD i = true ∧ (0x00040000#32).getLsbD i = false ∧
      (0x8#32).getLsbD i = false ∧ (0x4#32).getLsbD i = false ∧ (0x2#32).getLsbD i = false ∧ (0x1#32).getLsbD i = false := by
    decide
  simp [getLsbD_entryTlbmisc, hmasks i hi h4 hwe]

/-- A field above the flags that does not hold WE is left by an entry. -/
theorem entryTlbmisc_field {i n : Nat} (h4 : 4 ≤ i) (hi : i + n ≤ 32) (hwe : i + n ≤ 18 ∨ 18 < i) :
    (entryTlbmisc e nested v).extractLsb' i n = v.extractLsb' i n := by
  apply BitVec.eq_of_getLsbD_eq
  intro j hj
  rw [BitVec.getLsbD_extractLsb', BitVec.getLsbD_extractLsb',
    entryTlbmisc_other e nested v (by omega) (by omega) (by omega)]

end

/-- The exceptions that set `tlbmisc.BAD` (10_state.md R70). -/
theorem setsBad_iff (e : Exc) : e.setsBad = true ↔ e = .supervisorOnlyInstrAddress ∨
    ∃ a, e = .supervisorOnlyDataAddress a ∨ e = .misalignedDataAddress a ∨ e = .misalignedDestination a := by
  cases e <;> simp [Exc.setsBad]

/-- The exceptions that set `tlbmisc.D` (10_state.md R72). -/
theorem setsD_iff (e : Exc) : e.setsD = true ↔ ∃ a, e = .tlbMissData a ∨ e = .tlbPermissionRead a ∨
    e = .tlbPermissionWrite a ∨ e = .misalignedDataAddress a ∨ e = .supervisorOnlyDataAddress a := by
  cases e <;> simp [Exc.setsD]

/-! The other fields. -/

section
variable (e : Exc) {s : State}

/-- The cause code stands above the two lowest bits of `exception` (10_state.md R58). -/
theorem takeException_cause (h : s.config.extraExcInfo = true) :
    (takeException e s).exceptionReg.toNat = e.cause.toNat * 4 := by
  have hfield : ∀ c : BitVec 5, ((c.setWidth 32) <<< 2 : Word).toNat = c.toNat * 4 := by decide
  rw [takeException_exceptionReg, if_pos h, hfield]

/-- `pteaddr.VPN` is written by a TLB exception that is not nested (60_exceptions.md R474). -/
theorem takeException_pteVpn (h : s.config.hasMmu = true) : (takeException e s).pteVpn =
    if s.eh = false ∧ (e.isTlbMiss = true ∨ e.isTlbPermission = true) then (e.tlbAddress s.pc).extractLsb' 12 20
    else s.pteVpn := by
  have hcond : (s.config.hasMmu && !s.nested && (e.isTlbMiss || e.isTlbPermission)) = true ↔
      s.eh = false ∧ (e.isTlbMiss = true ∨ e.isTlbPermission = true) := by
    simp [State.nested, h]
  rw [State.pteVpn, takeException_pteaddr, apply_ite (BitVec.extractLsb' 2 20), setVpn_vpn]
  exact if_congr hcond rfl rfl

theorem takeException_ptbase (s : State) :
    (takeException e s).pteaddr.extractLsb' 22 10 = s.pteaddr.extractLsb' 22 10 := by
  rw [takeException_pteaddr, apply_ite (BitVec.extractLsb' 22 10), setVpn_ptbase, ite_self]

theorem takeException_vector (s : State) : (takeException e s).pc = vectorPc s.config
    (if e.isTlbMiss = true ∧ (s.config.hasMmu && s.eh) = false then fastTlbMissVector s.config
      else s.config.exceptionVector) := by
  have hcond : (e.isTlbMiss && !s.nested) = true ↔ e.isTlbMiss = true ∧ (s.config.hasMmu && s.eh) = false := by
    rw [Bool.and_eq_true, Bool.not_eq_true', State.nested]
  exact congrArg (vectorPc s.config) (if_congr hcond rfl rfl)

end

/-- Settles O31: each field from its lemma, with an MMU those of `tlbmisc` from the bits of the entry. -/
theorem exceptionEntry : Obligations.ExceptionEntry := by
  intro e s
  refine ⟨_, rfl, takeException_estatus e s, State.reg_takeException e s, entryStatus_eq s.config, fun hno => ?_,
    fun hmmu => ?_, takeException_cause e, fun hx => ?_, takeException_vector e s, fun _ => rfl, rfl, rfl, rfl⟩
  · simp [hno]
  · have hnested : s.nested = s.eh := by simp [State.nested, hmmu]
    have hmisc : (takeException e s).tlbmisc = entryTlbmisc e s.eh s.tlbmisc := by
      rw [takeException_tlbmisc, if_pos hmmu, hnested]
    refine ⟨takeException_pteVpn e hmmu, takeException_ptbase e s, ?way, ?pid, ?we, ?dbl, ?bad, ?perm, ?d⟩
    case way => rw [State.way, hmisc, entryTlbmisc_field e _ _ (by omega) (by omega) (by omega), ← State.way]
    case pid => rw [State.pid, hmisc, entryTlbmisc_field e _ _ (by omega) (by omega) (by omega), ← State.pid]
    case we =>
      rw [State.we, hmisc, entryTlbmisc_we, ← State.we]
      simp
    case dbl => rw [hmisc, entryTlbmisc_dbl, Bool.and_eq_true]
    case bad => rw [hmisc, entryTlbmisc_bad, setsBad_iff]
    case perm => rw [hmisc, entryTlbmisc_perm]
    case d => rw [hmisc, entryTlbmisc_d, setsD_iff]
  · simp [hx]

/-! `badaddr`. -/

section
variable {c : Config}

theorem hasMmu_of_hasMpu (h : c.hasMpu = true) : c.hasMmu = false := by
  cases hp : c.protection <;> simp [Config.hasMpu, Config.hasMmu, hp] at h ⊢

theorem and_bits_below_31 (a : Word) : a &&& 0x7FFFFFFF#32 = 0#1 ++ a.extractLsb' 0 31 := by
  have hmask : 0x7FFFFFFF#32 = 0#1 ++ BitVec.allOnes 31 := rfl
  have ha : a.extractLsb' 31 1 ++ a.extractLsb' 0 31 = a := by rw [extract_join (i := 0) (n := 31) rfl, extract_all]
  conv_lhs => rw [← ha, hmask]
  rw [BitVec.and_append, BitVec.and_allOnes, BitVec.and_zero]

theorem lowBits_31 : lowBits 31 = 0x7FFFFFFF#32 := rfl

/-- Without an MMU or MPU the address space has at most 31 bits (20_memory.md R101). -/
theorem addrBits_le (hu : c.hasUserMode = false) (hv : c.valid = true) : c.addrBits ≤ 31 := by
  obtain ⟨hmmu, _⟩ := Bool.or_eq_false_iff.1 hu
  have haddr : c.addrBitsOk = true := by
    simp only [Config.valid, Bool.and_eq_true] at hv
    tauto
  simpa [Config.addrBitsOk, hmmu] using haddr

theorem toNat_and_lowBits (a : Word) {k : Nat} (hk : k ≤ 32) : (a &&& lowBits k).toNat = a.toNat % 2 ^ k := by
  have hle : 2 ^ k ≤ 2 ^ 32 := Nat.pow_le_pow_right (by omega) hk
  have hlt := Nat.mod_lt a.toNat (Nat.two_pow_pos k)
  rw [and_lowBits, BitVec.toNat_ofNat, Nat.mod_eq_of_lt (by omega)]

theorem badaddrOfData_mmu (h : c.hasMmu = true) (a : Word) : badaddrOfData c a = a := if_pos h

theorem badaddrOfData_mpu (h : c.hasMpu = true) (a : Word) : badaddrOfData c a = 0#1 ++ a.extractLsb' 0 31 := by
  simp [badaddrOfData, hasMmu_of_hasMpu h, h, and_bits_below_31]

theorem badaddrOfData_plain (hu : c.hasUserMode = false) (hv : c.valid = true) (a : Word) :
    (badaddrOfData c a).toNat = a.toNat % 2 ^ c.addrBits := by
  have hbits := addrBits_le hu hv
  obtain ⟨hmmu, hmpu⟩ := Bool.or_eq_false_iff.1 hu
  have hdvd : 2 ^ c.addrBits ∣ 2 ^ 31 := Nat.pow_dvd_pow 2 hbits
  simp only [badaddrOfData, hmmu, hmpu, Bool.false_eq_true, if_false]
  rw [toNat_and_lowBits _ (by omega), ← lowBits_31, toNat_and_lowBits _ (by omega), Nat.mod_mod_of_dvd _ hdvd]

theorem badaddrOfInstr_userMode (h : c.hasUserMode = true) (a : Word) : badaddrOfInstr c a = a := if_pos h

theorem badaddrOfInstr_plain (hu : c.hasUserMode = false) (hv : c.valid = true) (a : Word) :
    (badaddrOfInstr c a).toNat = a.toNat % 2 ^ c.addrBits := by
  have hbits := addrBits_le hu hv
  rw [badaddrOfInstr, hu, if_neg Bool.false_ne_true, toNat_and_lowBits _ (by omega)]

end

theorem takeException_badaddr_info (e : Exc) {s : State} (h : s.config.extraExcInfo = true) :
    (takeException e s).badaddr = e.badaddr s.config s.tick s.badaddr := if_pos h

/-- The cause field of `exception` is the cause code. -/
theorem takeException_cause_field {s : State} (h : s.config.extraExcInfo = true) :
    (fun e => (takeException e s).exceptionReg.toNat / 4) = fun e => e.cause.toNat := by
  funext e
  rw [takeException_cause e h, Nat.mul_div_cancel _ (by omega)]

/-- Settles O32: the cause field is the code of R450; six exceptions name a data address, one a destination. -/
theorem exceptionInformation : Obligations.ExceptionInformation := by
  intro s a hx
  refine ⟨?_, fun e he => ?_, fun hu => ?_, fun hu hv => ?_, takeException_badaddr_info .interrupt hx⟩
  · rw [takeException_cause_field hx]
    rfl
  · have hdata : (takeException e s).badaddr = badaddrOfData s.config a := by
      rw [takeException_badaddr_info e hx]
      simp only [List.mem_cons, List.not_mem_nil, or_false] at he
      rcases he with rfl | rfl | rfl | rfl | rfl | rfl <;> rfl
    rw [hdata]
    exact ⟨fun h => badaddrOfData_mmu h a, fun h => badaddrOfData_mpu h a, fun hu hv => badaddrOfData_plain hu hv a⟩
  · exact (takeException_badaddr_info _ hx).trans (badaddrOfInstr_userMode hu a)
  · rw [takeException_badaddr_info _ hx]
    exact badaddrOfInstr_plain hu hv a

/-! The supervisor-only instructions. -/

theorem userForbidden_iff (s : State) : s.userForbidden = true ↔ s.config.hasUserMode = true ∧ s.user = true :=
  Bool.and_eq_true_iff

theorem supervisorOnly_user {s : State} (h : s.userForbidden = true) :
    supervisorOnly s = .error (.exc .supervisorOnlyInstr) := if_pos h

/-- An instruction that makes the supervisor-only check first goes no further in user mode. -/
theorem exec_supervisorOnly {i : Instr} {s : State} {f : Unit → Except Stop State} (h : s.userForbidden = true)
    (he : exec i s = finish s (supervisorOnly s >>= f)) : exec i s = .next (takeException .supervisorOnlyInstr s) := by
  rw [he, supervisorOnly_user h, error_bind, finish_exc]

/-- The four flags of `tlbmisc` after an exception that sets none. -/
theorem entryTlbmisc_flags_zero {e : Exc} (nested : Bool) (v : Word) (hd : e.setsD = false) (hbad : e.setsBad = false)
    (hperm : e.isTlbPermission = false) (hmiss : e.isTlbMiss = false) :
    (entryTlbmisc e nested v).extractLsb' 0 4 = 0#4 := by
  have hflags : ∀ i, i < 4 → (entryTlbmisc e nested v).getLsbD i = false
    | 0, _ => (entryTlbmisc_d e nested v).trans hd
    | 1, _ => (entryTlbmisc_perm e nested v).trans hperm
    | 2, _ => (entryTlbmisc_bad e nested v).trans hbad
    | 3, _ => by rw [entryTlbmisc_dbl, hmiss, Bool.false_and]
  apply BitVec.eq_of_getLsbD_eq
  intro i hi
  simp [hi, hflags i hi]

/-- Settles O37: each of the six makes the check before anything else, and its exception sets no flag of `tlbmisc`. -/
theorem supervisorOnlyInstructions : Obligations.SupervisorOnly := by
  refine ⟨userForbidden_iff, fun s hexists huser => ?_⟩
  have h := (userForbidden_iff s).2 ⟨hexists, huser⟩
  have hinfo : s.config.extraExcInfo = true := by rw [Config.extraExcInfo, hexists, Bool.true_or]
  refine ⟨fun _ _ => exec_supervisorOnly h rfl, fun _ => exec_supervisorOnly h rfl, exec_supervisorOnly h rfl,
    exec_supervisorOnly h rfl, fun _ _ => exec_supervisorOnly h rfl, fun _ _ => exec_supervisorOnly h rfl, ?cause, ?ea,
    fun hmmu => ?flags⟩
  case cause =>
    rw [takeException_exceptionReg, if_pos hinfo]
    rfl
  case ea =>
    intro hn
    rw [State.reg_takeException, if_pos ⟨rfl, hn⟩]
  case flags =>
    rw [takeException_tlbmisc, if_pos hmmu]
    exact entryTlbmisc_flags_zero _ _ rfl rfl rfl rfl

/-! The return. -/

/-- In supervisor mode `eret` is the transfer to `ea`, and after its check the other writes of the return. -/
theorem exec_eret_supervisor {s : State} (hu : s.userForbidden = false) :
    exec .eret s = finish s (jumpTo (s.reg eaReg) s >>= fun t =>
      .ok { t with status := s.estatus, mpuStale := none, prefetched := [] }) := by
  change finish s (returnFromException s) = _
  rw [returnFromException, supervisorOnly_supervisor hu, ok_bind]

/-- Settles O35: the return writes nothing before the check of its target. -/
theorem returnFromExceptionInstruction : Obligations.ReturnFromException := fun _ hu =>
  transferOp_of_jumpTo_bind (exec_eret_supervisor hu)
    ⟨rfl, rfl, State.reg_of_regs rfl, fun _ => rfl, rfl, rfl, rfl⟩

end Sys2Proof.Machine
end

section
/-! SUPPORT. The events of a boundary and reset (statements O7, O8, O39 and O40): what a step is where each event comes first,
and the state that a reset leaves. -/

namespace Sys2Proof.Machine

open Sys2Proof.Statements

/-! The events of a boundary, in their order. -/

section
variable {s : State}

theorem step_of_reset (h : s.inputs.reset = true) : step s = .next (nextBoundary (resetProcessor s)) := by
  rw [step, boundaryEvent, if_pos h]

theorem step_of_no_reset (h : s.inputs.reset = false) (hlegal : s.statusIllegal = false) :
    step s = if s.breakRequested then .next (endBoundary (takeBreak s))
      else if s.inputs.processorReset then .next (nextBoundary (resetProcessor s))
      else if s.takesInterrupt then .next (endBoundary (takeException .interrupt s))
      else endResult (fetchAndRun s) := by
  rw [step, boundaryEvent, h, hlegal, if_neg Bool.false_ne_true, if_neg Bool.false_ne_true]

theorem step_of_illegalStatus (h : s.inputs.reset = false) (heh : s.status.getLsbD 2 = true)
    (hu : s.status.getLsbD 1 = true) : step s = .fault .illegalStatus := by
  have hillegal : s.statusIllegal = true := Bool.and_eq_true_iff.2 ⟨heh, hu⟩
  rw [step, boundaryEvent, h, if_neg Bool.false_ne_true, if_pos hillegal]

theorem step_of_break (h : s.inputs.reset = false) (hlegal : s.statusIllegal = false) (hbreak : s.breakRequested = true) :
    step s = .next (endBoundary (takeBreak s)) := by
  rw [step_of_no_reset h hlegal, if_pos hbreak]

theorem step_of_processorReset (h : s.inputs.reset = false) (hlegal : s.statusIllegal = false)
    (hbreak : s.breakRequested = false) (hprocessor : s.inputs.processorReset = true) :
    step s = .next (nextBoundary (resetProcessor s)) := by
  rw [step_of_no_reset h hlegal, hbreak, if_neg Bool.false_ne_true, if_pos hprocessor]

theorem step_of_interrupt (h : s.inputs.reset = false) (hlegal : s.statusIllegal = false) (hbreak : s.breakRequested = false)
    (hprocessor : s.inputs.processorReset = false) (hinterrupt : s.takesInterrupt = true) :
    step s = .next (endBoundary (takeException .interrupt s)) := by
  rw [step_of_no_reset h hlegal, hbreak, hprocessor, if_neg Bool.false_ne_true, if_neg Bool.false_ne_true,
    if_pos hinterrupt]

end

theorem ne_zero_iff_bit (v : Word) : v ≠ 0#32 ↔ ∃ n, n < 32 ∧ v.getLsbD n = true := by
  constructor
  · intro hne
    by_contra! hno
    exact hne (BitVec.eq_of_getLsbD_eq fun n hn => by simpa using hno n hn)
  · rintro ⟨n, _, hbit⟩ rfl
    simp at hbit

/-- The condition of R480 bit by bit: PIE, and a line that is asserted and enabled. -/
theorem takesInterrupt_iff (s : State) : s.takesInterrupt = true ↔
    s.status.getLsbD 0 = true ∧ ∃ n, n < 32 ∧ s.inputs.irq.getLsbD n = true ∧ s.ienable.getLsbD n = true := by
  rw [State.takesInterrupt, Bool.and_eq_true, bne_iff_ne, ne_zero_iff_bit, State.ipending, State.pie]
  simp only [BitVec.getLsbD_and, Bool.and_eq_true]

/-- Settles O39: where nothing else comes first, the step is decided by `takesInterrupt`. -/
theorem interrupts : Obligations.Interrupts := by
  intro s hreset hlegal hbreak hprocessor
  refine ⟨fun h => ?taken, fun h => ?notTaken⟩
  case taken => exact step_of_interrupt hreset hlegal hbreak hprocessor ((takesInterrupt_iff s).2 h)
  case notTaken =>
    have hnone : s.takesInterrupt = false := Bool.eq_false_iff.2 fun hi => h ((takesInterrupt_iff s).1 hi)
    exact step_of_runsInstruction ⟨hreset, hlegal, hbreak, hprocessor, hnone⟩

theorem fetchWord_of_fetchAddr_error {s : State} {x : Stop} (h : fetchAddr s = .error x) : fetchWord s = .error x := by
  rw [fetchWord, h, error_bind]

theorem step_of_fetch_exc {s : State} {e : Exc} (h : RunsInstruction s) (hf : fetchWord s = .error (.exc e)) :
    step s = .next (endBoundary (takeException e s)) := by
  rw [step_of_runsInstruction h, fetchAndRun, hf]
  rfl

/-- Settles O40: one lemma for each event, and the fetch that its address stops. -/
theorem boundaryEvents : Obligations.BoundaryEvents := fun _ =>
  ⟨step_of_reset, step_of_illegalStatus,
    fun hreset hlegal hdebug hasked => step_of_break hreset hlegal (Bool.and_eq_true_iff.2 ⟨hdebug, hasked⟩),
    step_of_processorReset, fun hrun =>
      ⟨fun _ he => step_of_fetch_exc hrun (fetchWord_of_fetchAddr_error he),
        fun _ hf => step_of_fetch_fault hrun (fetchWord_of_fetchAddr_error hf)⟩⟩

/-! Reset. -/

/-- A reset leaves no line of the instruction cache under the index of the reset vector (70_reset_and_hazards.md R530). -/
theorem index_of_mem_resetInstrLines {c : Config} {g : CacheGeometry} {tick : Nat} {l : CacheLine} (hg : c.icache = some g)
    (hl : l ∈ resetInstrLines c tick) : l.index ≠ cacheIndex g (vectorPc c c.resetVector) := by
  rw [resetInstrLines, hg] at hl
  simpa using (List.mem_filter.1 hl).2

theorem pe_of_configReg {s : State} (h : s.configReg = 0#32) : s.pe = false := by
  rw [State.pe, h]
  rfl

/-- Settles O7: the fields of both states that a reset leaves. -/
theorem resetState : Obligations.ResetState :=
  ⟨fun _ => ⟨rfl, rfl, rfl, pe_of_configReg rfl, rfl, rfl, rfl, rfl, fun _ hg _ hl => index_of_mem_resetInstrLines hg hl⟩,
    fun _ hreset => ⟨_, step_of_reset hreset, rfl, rfl, rfl, pe_of_configReg rfl, rfl, rfl, rfl, rfl,
      fun _ hg _ hl => index_of_mem_resetInstrLines hg hl⟩⟩

/-- The entries of a TLB the spec allows fill whole lines (20_memory.md R141). -/
theorem tlbLines_mul_ways {c : Config} {m : MmuConfig} (h : c.valid = true) (hm : c.protection = .mmu m) :
    tlbLines m * m.tlbWays = m.tlbEntries := by
  have hok : c.tlbOk = true := by
    simp only [Config.valid, Bool.and_eq_true] at h
    tauto
  simp only [Config.tlbOk, hm, Bool.and_eq_true, beq_iff_eq] at hok
  exact Nat.div_mul_cancel (Nat.dvd_of_mod_eq_zero hok.1.2)

/-- What holds of the protection unit right after power-on. -/
theorem protectionInv_resetWith {c : Config} (h : c.valid = true) : (State.resetWith c).protectionInv := by
  unfold State.protectionInv
  split
  case h_1 m hm =>
    have hm : c.protection = .mmu m := hm
    obtain ⟨hways, _, _, hentries⟩ := tlb_valid h hm
    have hlength : (resetTlb c).length = m.tlbEntries := by simp [resetTlb, hm]
    exact ⟨hlength, within_zero _, within_zero _, tlbFits_resetTlb hm hways (tlbLines_mul_ways h hm) hentries⟩
  case h_2 m hm =>
    have hm : c.protection = .mpu m := hm
    have hsized : (resetTables c).sized m := by simp [MpuTables.sized, resetTables, hm]
    exact ⟨hsized, fun _ hstale => (by cases hstale), within_zero _, within_zero _⟩
  case h_3 => trivial

theorem State.Inv.resetWith {c : Config} (h : c.valid = true) : (State.resetWith c).Inv where
  config_valid := h
  memory_wf := rfl
  pc_aligned := wordAligned_vectorPc (vectors_aligned h).1
  status_bits := within_zero _
  estatus_bits := within_zero _
  bstatus_bits := within_zero _
  exception_bits := within_zero _
  pteaddr_bits := within_zero _
  config_bits := within_zero _
  badaddr_bits _ := within_zero _
  contents := ⟨cacheFits_resetDataLines c 0, cacheFits_resetInstrLines c 0, Nat.zero_le _⟩
  protection := protectionInv_resetWith h

/-- Settles O8: every control register is zero, and the units hold what a reset puts into them. -/
theorem resetInvariant : Obligations.ResetInvariant :=
  ⟨fun _ => State.Inv.resetWith, State.Inv.resetWith (by decide)⟩

end Sys2Proof.Machine
end

section
/-! SUPPORT. The end of a boundary (statement O5): each event of the caches drifts as the statement says, drifts compose, and a
word is fetched ahead from what memory and the instruction cache hold then. -/

namespace Sys2Proof.Machine

open Sys2Proof.Statements

/-! Drifts compose. -/

section
variable {s t u : State}

/-- What leaves memory and the data cache, and gets no new instruction-cache line. -/
theorem cachesDrift_of_code (hmem : t.memory = s.memory) (hdata : t.dcache = s.dcache) (hcode : ∀ l ∈ t.icache, l ∈ s.icache) :
    CachesDrift s t where
  data l hl := ⟨l, hdata ▸ hl, .inl rfl⟩
  stays _ := hmem
  bytes _ _ _ _ := by rw [hmem]
  written _ _ l hl _ _ := .inl (hdata ▸ hl)
  code _ _ l hl := .inl (hcode l hl)

theorem cachesDrift_refl (s : State) : CachesDrift s s := cachesDrift_of_code rfl rfl fun _ => id

/-- The dirty lines after a drift were dirty before it. -/
theorem dirty_before_of_cachesDrift (h : CachesDrift s t) {l : CacheLine} (hl : l ∈ t.dcache) (hd : l.dirty = true) : l ∈ s.dcache := by
  obtain ⟨k, hk, rfl | rfl⟩ := h.data l hl
  · exact hk
  · cases hd

theorem notDirty_of_cachesDrift (h : CachesDrift s t) {g : CacheGeometry} {a : Nat} (ha : NotDirty g s a) : NotDirty g t a :=
  fun l hl hd => ha l (dirty_before_of_cachesDrift h hl hd) hd

/-- The bytes of a dirty line that is written back stay in memory: no other dirty line reaches them. -/
theorem written_stays_of_cachesDrift (h : CachesDrift t u) {g : CacheGeometry} (hg : t.config.dcache = some g) {l : CacheLine}
    (hgone : ∀ k ∈ t.dcache, k.dirty = true → k.base ≠ l.base) (hfits : ∀ k ∈ t.dcache, k.fits t.config g)
    (hl : l.fits t.config g) {a : Nat} (hlo : l.base.toNat ≤ a) (hhi : a < l.base.toNat + lineBytes g) :
    u.memory.read a = t.memory.read a := by
  refine h.bytes g hg a fun k hk hd => ?_
  have := CacheLine.disjoint (hfits k hk) hl (hgone k hk hd)
  omega

theorem cachesDrift_trans (h : CachesDrift s t) (h' : CachesDrift t u) (hconfig : t.config = s.config)
    (hs : cacheFits s.config s.config.dcache s.dcache) (ht : cacheFits t.config t.config.dcache t.dcache) :
    CachesDrift s u where
  data l hl := by
    obtain ⟨k, hk, hkl⟩ := h'.data l hl
    obtain ⟨j, hj, hjk⟩ := h.data k hk
    refine ⟨j, hj, ?_⟩
    rcases hkl with rfl | rfl
    · exact hjk
    · rcases hjk with rfl | rfl <;> exact .inr rfl
  stays hno := (h'.stays (hconfig ▸ hno)).trans (h.stays hno)
  bytes g hg a ha := (h'.bytes g (hconfig ▸ hg) a (notDirty_of_cachesDrift h ha)).trans (h.bytes g hg a ha)
  written g hg l hl hd halone := by
    have hg' : t.config.dcache = some g := hconfig ▸ hg
    by_cases hlt : l ∈ t.dcache
    · exact h'.written g hg' l hlt hd fun k hk hkd => halone k (dirty_before_of_cachesDrift h hk hkd) hkd
    · have hin := (h.written g hg l hl hd halone).resolve_left hlt
      rw [hg] at hs
      rw [hg'] at ht
      refine .inr fun a hlo hhi => ?_
      rw [written_stays_of_cachesDrift h' hg' (fun k hk hkd hbase => ?_) ht.1 (hconfig ▸ hs.1 l hl) hlo hhi, hin a hlo hhi]
      exact hlt (halone k (dirty_before_of_cachesDrift h hk hkd) hkd hbase ▸ hk)
  code g hg l hl := by
    rcases h'.code g (hconfig ▸ hg) l hl with hlt | ⟨hclean, horigin, hread⟩
    · exact h.code g hg l hlt
    · refine .inr ⟨hclean, horigin, fun a hlo hhi hnot => ?_⟩
      have hmem : t.memory.read a = s.memory.read a := by
        cases hcache : s.config.dcache with
        | none => rw [h.stays hcache]
        | some d => exact h.bytes d hcache a (hnot d hcache)
      rw [hread a hlo hhi fun d hd => notDirty_of_cachesDrift h (hnot d (hconfig ▸ hd)), hmem]

/-! The events of the caches. -/

/-- A dirty line is written back and stays, clean. -/
theorem cachesDrift_cleanData {g : CacheGeometry} {l : CacheLine} {i : Nat} {b : Word} (hg : s.config.dcache = some g)
    (hw : s.memory.wf = true) (hf : cacheFits s.config s.config.dcache s.dcache) (hl : findLine s.dcache i b = some l) :
    CachesDrift s { s with memory := writeBack g l s.memory, dcache := putLine s.dcache { l with dirty := false } } := by
  obtain ⟨hmem, _, _⟩ := findLine_some hl
  rw [hg] at hf
  refine ⟨fun k hk => ?data, fun hno => ?stays, fun g' hg' a ha => ?bytes, fun g' hg' k hk hd _ => ?written,
    fun _ _ _ hk => .inl hk⟩
  case data =>
    rcases mem_putLine.1 hk with rfl | ⟨hk, _⟩
    · exact ⟨l, hmem, .inr rfl⟩
    · exact ⟨k, hk, .inl rfl⟩
  case stays => exact nomatch hno.symm.trans hg
  case bytes =>
    obtain rfl := Option.some.inj (hg'.symm.trans hg)
    exact writeBack_read_outside hw (ha l hmem)
  case written =>
    obtain rfl := Option.some.inj (hg'.symm.trans hg)
    by_cases hkl : k = l
    · subst hkl
      exact .inr fun a hlo hhi => writeBack_read_inside hw hd hlo hhi
    · exact .inl (mem_putLine.2 (.inr ⟨hk, fun ⟨hi, hb⟩ => hkl (cacheFits_unique hf hk hmem hi hb)⟩))

/-- The lines that a predicate selects are written back if dirty, and go. -/
theorem cachesDrift_flushLines {g : CacheGeometry} (p : CacheLine → Bool) (hg : s.config.dcache = some g) (hw : s.memory.wf = true)
    (hf : cacheFits s.config s.config.dcache s.dcache) : CachesDrift s (flushLines g p s) := by
  rw [hg] at hf
  refine ⟨fun k hk => ⟨k, (List.mem_filter.1 hk).1, .inl rfl⟩, fun hno => ?stays, fun g' hg' a ha => ?bytes,
    fun g' hg' l hl hd halone => ?written, fun _ _ _ hk => .inl hk⟩
  case stays => exact nomatch hno.symm.trans hg
  case bytes =>
    obtain rfl := Option.some.inj (hg'.symm.trans hg)
    exact foldl_writeBack_read_outside _ hw fun l hl => ha l (List.mem_filter.1 hl).1
  case written =>
    obtain rfl := Option.some.inj (hg'.symm.trans hg)
    cases hp : p l with
    | false => exact .inl (mem_filter_not.2 ⟨hl, hp⟩)
    | true =>
      refine .inr fun a hlo hhi => foldl_writeBack_read_inside hd hlo hhi _ hw (fun k hk hkd hne => ?_)
        (.inl (List.mem_filter.2 ⟨hl, hp⟩))
      have hk := (List.mem_filter.1 hk).1
      exact CacheLine.disjoint (hf.1 k hk) (hf.1 l hl) fun hb => hne (halone k hk hkd hb)

/-- A line of memory is read into the instruction cache. -/
theorem cachesDrift_fillInstr {g : CacheGeometry} (i : Nat) (b : Word) (hg : s.config.icache = some g) :
    CachesDrift s { s with icache := putLine s.icache (fillLine g i b s) } where
  data l hl := ⟨l, hl, .inl rfl⟩
  stays _ := rfl
  bytes _ _ _ _ := rfl
  written _ _ _ hl _ _ := .inl hl
  code g' hg' l hl := by
    obtain rfl := Option.some.inj (hg'.symm.trans hg)
    rcases mem_putLine.1 hl with rfl | ⟨hl, _⟩
    · exact .inr ⟨rfl, rfl, fun a hlo hhi _ => Memory.read_copy_inside _ _ rfl _ _ hlo hhi⟩
    · exact .inl hl

theorem cachesDrift_cacheEvent (e : CacheEvent) (hw : s.memory.wf = true) (hf : cacheFits s.config s.config.dcache s.dcache) :
    CachesDrift s (cacheEvent s e) := by
  cases e with
  | cleanData index base =>
    unfold cacheEvent
    simp only
    split
    · next g l hg hl =>
      split
      · exact cachesDrift_cleanData hg hw hf hl
      · exact cachesDrift_refl s
    · exact cachesDrift_refl s
  | evictData index base =>
    unfold cacheEvent
    simp only
    split
    · next g hg => exact cachesDrift_flushLines _ hg hw hf
    · exact cachesDrift_refl s
  | evictInstr index base => exact cachesDrift_of_code rfl rfl fun l hl => (List.mem_filter.1 hl).1
  | loadInstr va pa =>
    unfold cacheEvent
    simp only
    split
    · next g hg =>
      split
      · exact cachesDrift_fillInstr _ _ hg
      · exact cachesDrift_refl s
    · exact cachesDrift_refl s

/-- The events of a list one after the other. -/
theorem cachesDrift_cacheEvents : ∀ (es : List CacheEvent) {s : State} (_ : s.memory.wf = true)
    (_ : cacheFits s.config s.config.dcache s.dcache), CachesDrift s (es.foldl cacheEvent s)
  | [], s, _, _ => cachesDrift_refl s
  | e :: es, s, hw, hf => by
    obtain ⟨hframe, hkeepsWf, hkeepsFits, _⟩ := cacheEvent_frame s e
    have hconfig : (cacheEvent s e).config = s.config := by rw [hframe]
    have hfits : cacheFits (cacheEvent s e).config (cacheEvent s e).config.dcache
        (cacheEvent s e).dcache := hconfig.symm ▸ hkeepsFits hf
    exact cachesDrift_trans (cachesDrift_cacheEvent e hw hf) (cachesDrift_cacheEvents es (hkeepsWf hw) hfits) hconfig hf hfits

theorem cachesDrift_cacheDrift (h : s.Inv) : CachesDrift s (cacheDrift s) := by
  unfold cacheDrift
  split
  · exact cachesDrift_cacheEvents _ h.memory_wf h.contents.1
  · exact cachesDrift_refl s

/-- After the caches' own events the end of a boundary leaves memory and the caches. -/
theorem cachesDrift_endBoundary (h : s.Inv) : CachesDrift s (endBoundary s) :=
  have hdrift := cachesDrift_cacheDrift h
  ⟨hdrift.data, hdrift.stays, hdrift.bytes, hdrift.written, hdrift.code⟩

end

/-! The words fetched ahead. -/

theorem fetchedFrom_of_prefetchWord {s : State} {va pa : Word} {f : FetchedWord} (h : prefetchWord s va pa = some f) :
    FetchedFrom s f := by
  unfold prefetchWord at h
  split at h
  case isFalse => cases h
  case isTrue hmem =>
  split at h
  case h_2 hc =>
    cases h
    exact ⟨hmem, fun _ => readLE_four _ _, fun _ hg => nomatch hc.symm.trans hg⟩
  case h_1 g hc =>
  split at h
  case h_1 l hl =>
    split at h
    case isFalse => cases h
    case isTrue horigin =>
    cases h
    refine ⟨hmem, fun hno => (nomatch hno.symm.trans hc), fun g' hg' => ?_⟩
    obtain rfl := Option.some.inj (hg'.symm.trans hc)
    simp [hl, horigin, readLE_four]
  case h_2 hl =>
    cases h
    refine ⟨hmem, fun hno => (nomatch hno.symm.trans hc), fun g' hg' => ?_⟩
    obtain rfl := Option.some.inj (hg'.symm.trans hc)
    simp [hl, readLE_four]

/-- What the pipeline holds after it has fetched ahead it held before, or fetched then. -/
theorem mem_prefetchedNext {s : State} {f : FetchedWord} (h : f ∈ prefetchedNext s) : f ∈ s.prefetched ∨ FetchedFrom s f := by
  rcases List.mem_append.1 (List.mem_of_mem_take h) with hnew | hold
  · obtain ⟨_, _, hf⟩ := List.mem_filterMap.1 hnew
    exact .inr (fetchedFrom_of_prefetchWord hf)
  · exact .inl hold

theorem mem_endBoundary_prefetched {s : State} {f : FetchedWord} (h : f ∈ (endBoundary s).prefetched) :
    f ∈ s.prefetched ∨ FetchedFrom (endBoundary s) f := by
  have hahead : (cacheDrift s).prefetched = s.prefetched := by rw [(cacheDrift_frame s).1]
  have hmem : f ∈ (cacheDrift s).prefetched ∨ FetchedFrom (cacheDrift s) f := mem_prefetchedNext h
  rwa [hahead] at hmem

/-! Without caches. -/

theorem cacheDrift_noCache {s : State} (hi : s.config.icache = none) (hd : s.config.dcache = none) : cacheDrift s = s := by
  simp [cacheDrift, hi, hd]

/-- Settles O5: the decoded word is run; the end of a boundary is the caches' drift, the words fetched ahead, and the next
sample. -/
theorem stepRunsInstruction : Obligations.StepRunsInstruction := by
  refine ⟨fun _ _ _ _ => step_of_fetch, fun t hi hd => ?noCaches, fun t hinv => ?caches⟩
  case noCaches =>
    refine ⟨prefetchedNext t, ?_, prefetchedNext_length t, fun f hf => ?_⟩
    · rw [endBoundary, cacheDrift_noCache hi hd]
      rfl
    · exact (mem_prefetchedNext hf).imp_right fun ⟨hmem, hword, _⟩ => ⟨hmem, hword hi⟩
  case caches =>
    obtain ⟨hframe, _, hlength⟩ := endBoundary_frame t
    refine ⟨_, rfl, cachesDrift_endBoundary hinv, hlength, fun f hf => mem_endBoundary_prefetched hf, ?inputs,
      ?_, ?_, ?_⟩
    case inputs => rw [hframe, nextInputs]
    all_goals rw [hframe]

end Sys2Proof.Machine
end
